-- ==== Sys2Proof/Word.lean ====
section
/-! DEFINITION. The words and index types of the Plescan 464 (00_scope.md, "Terms" and "Conventions"). -/

namespace Sys2Proof

/-- One byte of a record, a result or a setup block. -/
abbrev Byte := BitVec 8

/-- A host address: 32 bits (00_scope.md, "Addresses"). -/
abbrev Addr := BitVec 32

/-- A value written to or read from a register of the window (R192). -/
abbrev Reg := BitVec 32

/-- A channel, 0..63. -/
abbrev Chan := Fin 64

/-- A converter, 0..3. -/
abbrev ConvId := Fin 4

/-- A submission queue, 0..3. -/
abbrev QueueId := Fin 4

/-- A place of the Context Table, 0..15 (R61). -/
abbrev CtxId := Fin 16

/-- A watch id, 0..31 (R117). -/
abbrev WatchId := Fin 32

/-- A group of eight consecutive channels, 0..7. -/
abbrev Group := Fin 8

/-- A profile index, 0..15 (R25). -/
abbrev ProfileIx := Fin 16

/-- A hop set number, 0..7 (R27). -/
abbrev HopIx := Fin 8

end Sys2Proof
end

