-- ==== Sys2Proof/Syntax.lean ====
section
/-! DEFINITION. The commands of the block: one constructor per row of spec/opcode_table.json. -/

namespace Sys2Proof

/-- How a read of host memory ends (R154): with its data, or with a bus error. -/
inductive ReadEnd where
  | data (bytes : List Byte)
  | busError
  deriving DecidableEq, Repr

/-- How a write of host memory ends (R154). -/
inductive WriteEnd where
  | completes
  | busError
  deriving DecidableEq, Repr

/-- The measurement event of a sample, as the electrode decides it (R1). `good` carries the count at which the
integrator tripped. -/
inductive SampleEnd where
  | good (count : BitVec 16)
  | ceiling
  | stall
  deriving DecidableEq, Repr

/-- The 23 rows of the table. A transaction in flight is named by its place `k` in the order of issue among the
transactions of its kind that are in flight (log entry 5). -/
inductive Instr where
  /-- RESET_N low (R173). -/
  | deviceReset
  /-- An Engine Command write of START (R175). -/
  | start
  /-- An Engine Command write of STOP_DRAIN (R180). -/
  | stopDrain
  /-- An Engine Command write of STOP_CUT (R181, R179). -/
  | stopCut
  /-- An Engine Command write of CLEAR (R184). -/
  | clear
  /-- An Engine Command write whose code names no command (R174). -/
  | commandRefused (word : Reg)
  /-- A write of the Submit Index register (R160). -/
  | submitIndex (word : Reg)
  /-- A write of the Release Index register (R168). -/
  | releaseIndex (word : Reg)
  /-- A write of the Interrupt Control register (R187). -/
  | interruptControl (word : Reg)
  /-- A write to a register without behaviour of its own, or to an offset that names none (R192). -/
  | registerWrite (offset word : Reg)
  /-- The end of a setup read (R176). -/
  | setupReadEnd (k : Nat) (how : ReadEnd)
  /-- The end of the fetch read (R162, R163). -/
  | fetchReadEnd (how : ReadEnd)
  /-- The end of an item list read (R72, R73). -/
  | listReadEnd (k : Nat) (how : ReadEnd)
  /-- The end of a result write (R78). -/
  | resultWriteEnd (k : Nat) (how : WriteEnd)
  /-- The end of the completion ring write (R166, R171). -/
  | completionRingWriteEnd (how : WriteEnd)
  /-- The end of a converter's settle interval (R7). -/
  | settleEnd (conv : ConvId)
  /-- The end of a sample (R1, R7, R12). -/
  | sampleEnd (conv : ConvId) (outcome : SampleEnd)
  /-- The end of a converter's discharge interval (R8). -/
  | dischargeEnd (conv : ConvId)
  /-- A fault event of the analog monitor (R13). -/
  | faultEvent (conv : ConvId)
  /-- The end of the fault discharge of a job that ran on the converter (R14, R15). -/
  | faultDischargeEnd (conv : ConvId)
  /-- The end of the discharge of the pins of a job that CLEAR stopped on the converter (R17). -/
  | clearDischargeEnd (conv : ConvId)
  /-- An expiry of the period timer (R127 to R129). -/
  | periodTimerExpiry
  /-- The expiry of the coalescing timer (R189). -/
  | coalescingTimerExpiry
  deriving DecidableEq, Repr

end Sys2Proof
end

