-- ==== Sys2Proof/Config.lean ====
section
/-! DEFINITION. What the spec fixes as plain sizes, and the one value it leaves open (log entry 7). -/

namespace Sys2Proof.Config

/-- Places of the report buffer (R170). -/
abbrev reportPlaces : Nat := 8

/-- The value at which a 16-bit count of the device saturates (R117, R170). -/
abbrev saturation : Nat := 65535

/-- DESIGN CHOICE (log entry 7), safe. The address of a ring slot whose exact sum base + size x index does not fit
in 32 bits: the spec states no value (00_scope.md, "Host addresses are 32 bits wide"), so it stays free. -/
opaque addressBeyondSpace : Nat → Addr

end Sys2Proof.Config
end

