-- ==== Sys2Proof/Machine/State.lean ====
section
/-! DEFINITION. Everything the spec gives the Plescan 464 to hold, as plain data, with its value after a device reset. -/

namespace Sys2Proof.Machine

/-- Reasons a step stops with a fault: none. The spec names no condition that stops the device; a converter fault
(R13), a bus error (R171) and HALTED (R183) are effects on the state. -/
inductive Fault where
  deriving DecidableEq, Repr

/-- Reasons a step has no meaning. -/
inductive Refusal where
  /-- Raised by nothing in this model: every row of the table has its meaning. Safe. -/
  | notModelled (mnemonic : String)
  deriving DecidableEq, Repr

/-! ### Converters, profiles, samples (chapters 1 and 2) -/

/-- One clock profile: high and low counts in reference periods (R25). -/
structure Profile where
  high : Nat
  low : Nat
  deriving DecidableEq, Repr

/-- A sample as the sample list holds it (R1, R5): outcome and, but for STALL, the reading recorded. -/
inductive Sample where
  | good (reading : Nat)
  | ceiling (reading : Nat)
  | stall
  deriving DecidableEq, Repr

/-- R5. -/
inductive ConvState where
  | offline
  | idle
  | settling
  | sampling
  | discharging
  | checking
  | held
  deriving DecidableEq, Repr

/-- R10: a mark is a hold mark or a check mark. -/
inductive MarkKind where
  | hold
  | check
  deriving DecidableEq, Repr

/-- A pending mark with its owning context (R5, R10). -/
structure Mark where
  kind : MarkKind
  owner : CtxId
  deriving DecidableEq, Repr

/-- Who is handed the result of a check (R5). `nobody` stands for a check whose CONVERTER_SET was ended early: its
result is not handed on (R77, R152). -/
inductive CheckOwner where
  | context (k : CtxId)
  | engineControl
  | nobody
  deriving DecidableEq, Repr

/-- The owner of a job (R5), which also names the job kind ITEM, TRIAL, WATCH or CHECK. -/
inductive JobOwner where
  | item (k : CtxId) (index : Nat)
  | trial (k : CtxId)
  | watch (id : WatchId)
  | check (owner : CheckOwner)
  deriving DecidableEq, Repr

/-- An item descriptor: a single channel, or a gang of channels of one group (R62, R83). -/
inductive Item where
  | single (ch : Chan)
  | gang (group : Group) (mask : Byte)
  deriving DecidableEq, Repr

/-- What a job is connected to (R5). -/
inductive Connection where
  | electrodes (item : Item)
  | reference
  deriving DecidableEq, Repr

/-- R36: the direction in which the trim moves the reading. -/
inductive Comp where
  | load
  | gain
  deriving DecidableEq, Repr

/-- The compensation applied at the connection to one channel (R41, R84). -/
structure Applied where
  ch : Chan
  trim : Nat
  comp : Comp
  deriving DecidableEq, Repr

/-- A job record (R5, R6). -/
structure Job where
  owner : JobOwner
  connection : Connection
  n : Nat
  settle : Nat
  ceiling : Nat
  profiles : List Profile
  applied : List Applied
  samples : List Sample
  cut : Bool
  deriving DecidableEq, Repr

/-- The record of one converter (R5). -/
structure Converter where
  state : ConvState
  mark : Option Mark
  job : Option Job
  origin : Option ConvState
  deriving DecidableEq, Repr

/-- A job in fault discharge (R13). `job` is none once a CLEAR has discarded the record (R17). -/
structure FaultDischarge where
  conv : ConvId
  connection : Connection
  job : Option Job
  deriving DecidableEq, Repr

/-- The pins of a job that CLEAR stopped, while they discharge (R17). -/
structure ClearDischarge where
  conv : ConvId
  connection : Connection
  deriving DecidableEq, Repr

/-! ### The Channel Table (chapter 3) -/

/-- R36, R39. -/
inductive Park where
  | ground
  | float
  | shield
  deriving DecidableEq, Repr

/-- Who holds a channel's claim (R36, R45). -/
inductive Holder where
  | context (k : CtxId)
  | watchUnit
  deriving DecidableEq, Repr

/-- A channel entry (R36). A baseline of none is UNSET. -/
structure Channel where
  ready : Bool
  park : Park
  comp : Comp
  trim : Nat
  baseline : Option Nat
  holder : Option Holder
  watchLink : Option WatchId
  deriving DecidableEq, Repr

/-! ### Request records (chapters 4 to 8, layouts of 11.3) -/

/-- The flags byte (R60). -/
structure Flags where
  fence : Bool
  keepSamples : Bool
  setBaseline : Bool
  externalList : Bool
  deriving DecidableEq, Repr

/-- An item descriptor as carried, before its check (R68, R83). -/
structure RawItem where
  kind : Nat
  sel : Nat
  mask : Byte
  deriving DecidableEq, Repr

/-- R82. -/
structure MeasureBody where
  itemCount : Nat
  n : Nat
  settle : Nat
  hop : Nat
  ceiling : Nat
  listAddr : Addr
  inlineItems : List RawItem
  deriving DecidableEq, Repr

/-- R104. -/
structure TrimBody where
  channel : Nat
  n : Nat
  settle : Nat
  hop : Nat
  ceiling : Nat
  windowLow : Nat
  windowHigh : Nat
  deriving DecidableEq, Repr

/-- R54: the presence bits, then the values as carried. -/
structure ChannelSetBody where
  channel : Nat
  hasState : Bool
  hasPark : Bool
  hasComp : Bool
  hasTrim : Bool
  hasBaseline : Bool
  state : Nat
  park : Nat
  comp : Nat
  trim : Nat
  baselineAction : Nat
  baselineValue : Nat
  deriving DecidableEq, Repr

/-- R32. `profiles` holds 16 pairs (high count, low count), `hopEntries` 24 positions. -/
structure ProfileSetBody where
  mask : BitVec 16
  hopWrite : Bool
  hopSet : Nat
  hopLength : Nat
  profiles : List Profile
  hopEntries : List Nat
  deriving DecidableEq, Repr

/-- R117, R120. A limit is none when its presence bit is clear. -/
structure WatchAddBody where
  id : Nat
  channel : Nat
  n : Nat
  settle : Nat
  hop : Nat
  persistence : Nat
  ceiling : Nat
  upper : Option Nat
  lower : Option Nat
  hysteresis : Nat
  shift : Nat
  deriving DecidableEq, Repr

/-- The body of a request record, by kind (R59, 11.3). -/
inductive Body where
  | measure (b : MeasureBody)
  | trim (b : TrimBody)
  | channelSet (b : ChannelSetBody)
  | profileSet (b : ProfileSetBody)
  | watchAdd (b : WatchAddBody)
  | watchRemove (id : Nat)
  | watchQuery
  | watchTiming (period : Nat)
  | converterSet (conv action : Nat)
  | abort (queue scope tag : Nat)
  /-- A kind code outside the ten kinds: the body cannot be read (R67). -/
  | unknown
  deriving DecidableEq, Repr

/-- A request record, each field taken from its position (R58, R190). `kind` is the kind byte as carried. -/
structure Request where
  kind : Nat
  flags : Flags
  tag : Nat
  resultAddr : Addr
  resultLength : Nat
  body : Body
  deriving DecidableEq, Repr

/-! ### Contexts (chapters 4 to 6) -/

/-- The states of a context in use (R61); FREE is the absence of a context. -/
inductive CtxState where
  | listing
  | claiming
  | active
  | writing
  | posting
  deriving DecidableEq, Repr

/-- R62, R106. -/
inductive JobState where
  | notStarted
  | running
  | ended
  deriving DecidableEq, Repr

/-- Item statuses (R90, R93, R94, R95). -/
inductive ItemStatus where
  | good
  | degraded
  | ceiling
  | opened
  | converterFault
  | noConverter
  | aborted
  deriving DecidableEq, Repr

/-- An entry of the item table (R62), with the delta (R91) and the baseline-written flag (R99) its end forms. -/
structure ItemEntry where
  item : Item
  job : JobState
  conv : Option ConvId
  retryUsed : Bool
  samples : List Sample
  status : Option ItemStatus
  delta : Option Int
  baselineWritten : Bool
  deriving DecidableEq, Repr

/-- R108. -/
inductive TrialClass where
  | tooHigh
  | inWindow
  | tooLow
  deriving DecidableEq, Repr

/-- A trial log entry (R114). -/
structure TrialLog where
  trim : Nat
  status : ItemStatus
  cls : Option TrialClass
  retryUsed : Bool
  mean : Option Nat
  deriving DecidableEq, Repr

/-- The search state of a TRIM (R106). The current bit follows from the trial number. -/
structure Search where
  savedTrim : Nat
  savedBaseline : Option Nat
  comp : Comp
  decided : Nat
  trial : Nat
  trialTrim : Nat
  job : JobState
  retryUsed : Bool
  log : List TrialLog
  deriving DecidableEq, Repr

/-- R77. -/
inductive EndCause where
  | aborted
  | stopped
  deriving DecidableEq, Repr

/-- What an ACTIVE CONVERTER_SET waits for (R61, R151). -/
inductive ConvWait where
  | nothing
  | mark
  | check
  deriving DecidableEq, Repr

/-- R147. -/
inductive ConvAction where
  | hold
  | release
  | check
  deriving DecidableEq, Repr

/-- The converter action of a CONVERTER_SET context (R61). -/
structure ActionState where
  conv : ConvId
  action : ConvAction
  waits : ConvWait
  deriving DecidableEq, Repr

/-- Completion status codes (R81, 11.4). -/
inductive Status where
  | success
  | partialDone
  | invalidRequest
  | tagInUse
  | bufferTooSmall
  | channelOff
  | channelWatched
  | idInUse
  | noSuchWatch
  | notFound
  | tooLate
  | aborted
  | stopped
  | noConverter
  | converterFault
  | outOfRange
  | opened
  | notHeld
  | converterHeld
  | converterBusy
  | checkFailed
  | listReadError
  | resultWriteError
  deriving DecidableEq, Repr

/-- The forms of the detail word (11.4). -/
inductive Detail where
  | count (n : Nat)
  | field (code index : Nat)
  | length (bytes : Nat)
  | channel (ch : Chan)
  | entry (ready : Bool) (park : Park) (comp : Comp) (trim : Nat) (baseline : Option Nat)
  | watch (id : Nat) (channel : Nat)
  | query (entries round : Nat)
  | period (ms : Nat)
  | profiles (mask : BitVec 16) (hopSet : Nat)
  | trim (mean : Option Nat) (decided : Nat)
  | trial (number restored : Nat)
  | converter (conv : ConvId) (state : ConvState) (mean : Option Nat) (mark : Option MarkKind)
  | state (st : CtxState)
  | status (st : Status)
  | zero
  deriving DecidableEq, Repr

/-- A context in use (R61). -/
structure Context where
  state : CtxState
  queue : QueueId
  holdsTag : Bool
  admission : Nat
  request : Request
  claimSet : List Chan
  items : List ItemEntry
  search : Option Search
  action : Option ActionState
  endCause : Option (EndCause × CtxState)
  result : Option (Status × Detail)
  bytesWritten : Nat
  deriving DecidableEq, Repr

/-- An item list read in flight (R72, R73, R154). -/
structure ListRead where
  owner : CtxId
  addr : Addr
  bytes : Nat
  discarded : Bool
  deriving DecidableEq, Repr

/-- A result write in flight (R78, R154). -/
structure ResultWrite where
  owner : CtxId
  addr : Addr
  data : List Byte
  abandoned : Bool
  deriving DecidableEq, Repr

/-! ### The Watch Unit (chapter 7) -/

/-- R117. -/
inductive WatchState where
  | inside
  | above
  | below
  | fault
  deriving DecidableEq, Repr

/-- R117. -/
inductive Direction where
  | high
  | low
  deriving DecidableEq, Repr

/-- A watch entry (R117). -/
structure WatchEntry where
  id : WatchId
  ch : Chan
  n : Nat
  settle : Nat
  hop : HopIx
  ceiling : Nat
  upper : Option Nat
  lower : Option Nat
  hysteresis : Nat
  persistence : Nat
  shift : Nat
  state : WatchState
  count : Nat
  direction : Direction
  last : Option Nat
  skipped : Nat
  deriving DecidableEq, Repr

/-- A running-job record (R119). -/
structure RunningWatch where
  id : WatchId
  ch : Chan
  conv : ConvId
  round : Nat
  discard : Bool
  deriving DecidableEq, Repr

/-- The Watch Unit (R118, R119). A timer of none is stopped; a running timer holds the time it was loaded with, in
reference periods (log entry 1). -/
structure WatchUnit where
  entries : List WatchEntry
  period : Nat
  timer : Option Nat
  round : Nat
  inProgress : Bool
  pending : List WatchId
  promoted : Bool
  running : List RunningWatch
  overrun : Bool
  deriving DecidableEq, Repr

/-! ### Queues, completion ring, reports (chapter 9) -/

/-- R158. -/
inductive QueueState where
  | unconfigured
  | active
  | faulted
  deriving DecidableEq, Repr

/-- A queue descriptor (R158). Base, size and quota are 0 while the spec gives them none (log entry 13). -/
structure Queue where
  state : QueueState
  base : Addr
  size : Nat
  quota : Nat
  fetchIndex : Nat
  tail : Nat
  inFlight : Nat
  held : Option Request
  readOutstanding : Bool
  deriving DecidableEq, Repr

/-- The one fetch read in flight (R161); `current` while it was issued since the latest START and no CLEAR came
after it (R157, R163). -/
structure FetchRead where
  queue : QueueId
  addr : Addr
  current : Bool
  deriving DecidableEq, Repr

/-- A setup read in flight (R155, R173). -/
structure SetupRead where
  addr : Addr
  abandoned : Bool
  deriving DecidableEq, Repr

/-- The completion ring descriptor (R165), but for the write outstanding, which is `State.ringWrite`. -/
structure Ring where
  configured : Bool
  base : Addr
  size : Nat
  writeIndex : Nat
  head : Nat
  phase : Bool
  count : Nat
  deriving DecidableEq, Repr

/-- Event kinds (R138). -/
inductive EventKind where
  | crossedHigh
  | crossedLow
  | returned
  | watchFault
  deriving DecidableEq, Repr

/-- Reasons of a QUEUE_FAULT (R163). -/
inductive QueueFaultReason where
  | tailInvalid
  | fetchError
  deriving DecidableEq, Repr

/-- Causes of a CONVERTER_OFFLINE (R153). -/
inductive OfflineCause where
  | fault
  | checkFailed
  deriving DecidableEq, Repr

/-- A report: an event (R138) or a notice (R170). -/
inductive Report where
  | event (kind : EventKind) (id : WatchId) (ch : Chan) (fromState : WatchState) (reading : Nat)
      (baseline : Option Nat) (round : Nat)
  | converterOffline (conv : ConvId) (cause : OfflineCause) (mean : Option Nat)
  | converterOnline (conv : ConvId) (origin : ConvState) (mean : Option Nat)
  | noConverter
  | queueFault (queue : QueueId) (reason : QueueFaultReason) (fetchIndex tail : Nat)
  | roundOverrun (round : Nat)
  deriving DecidableEq, Repr

/-- A candidate of the posting order (R167): a context, or the next report record in order of arrival. -/
inductive PostRef where
  | context (k : CtxId)
  | report
  deriving DecidableEq, Repr

/-- The completion ring write in flight (R165, R166): its source, address and 16 bytes, the lost count it carries,
and whether it was issued before the latest START or CLEAR. -/
structure RingWrite where
  source : PostRef
  addr : Addr
  data : List Byte
  carriedLost : Nat
  stale : Bool
  deriving DecidableEq, Repr

/-! ### Engine Control and the Interrupt Unit (chapter 10) -/

/-- R173. -/
inductive EngineState where
  | off
  | loading
  | running
  | stopping
  | halted
  deriving DecidableEq, Repr

/-- R173. -/
inductive StopMode where
  | none
  | drain
  | cut
  deriving DecidableEq, Repr

/-- R173, R186. -/
inductive LastError where
  | none
  | commandRefused
  | setupReadError
  | setupInvalid
  | submitRefused
  | releaseInvalid
  | ringWriteError
  deriving DecidableEq, Repr

/-- Engine Control's record (R173); the setup read stands in `State.setupReads`. -/
structure Engine where
  state : EngineState
  stopMode : StopMode
  lastError : LastError
  reasonCode : Nat
  reasonIndex : Nat
  setupAddress : Addr
  startupLeft : List ConvId
  deriving DecidableEq, Repr

/-- The Interrupt Unit (R187). -/
structure InterruptUnit where
  enCompletion : Bool
  enHalt : Bool
  enSetupFailed : Bool
  enStopped : Bool
  threshold : Nat
  timerSetting : Nat
  timer : Option Nat
  late : Bool
  stickyHalt : Bool
  stickySetupFailed : Bool
  stickyStopped : Bool
  deriving DecidableEq, Repr

end Sys2Proof.Machine

namespace Sys2Proof.Machine

/-- The whole state of the block, and the queue of commands that wait. -/
structure State where
  engine : Engine
  interrupt : InterruptUnit
  channels : Vector Channel 64
  profiles : Vector Profile 16
  hopSets : Vector (List ProfileIx) 8
  converters : Vector Converter 4
  faultDischarges : List FaultDischarge
  clearDischarges : List ClearDischarge
  contexts : Vector (Option Context) 16
  nextAdmission : Nat
  queues : Vector Queue 4
  lastServed : QueueId
  setupReads : List SetupRead
  fetchRead : Option FetchRead
  listReads : List ListRead
  resultWrites : List ResultWrite
  ring : Ring
  ringWrite : Option RingWrite
  reports : List Report
  lost : Nat
  posting : List PostRef
  watch : WatchUnit
  pending : List Instr
  deriving DecidableEq, Repr

/-- A channel entry after a device reset (R36). -/
def Channel.atReset : Channel :=
  { ready := false, park := .ground, comp := .load, trim := 64, baseline := none, holder := none, watchLink := none }

/-- A profile after a device reset (R25). -/
def Profile.atReset : Profile := { high := 4, low := 4 }

/-- A converter after a device reset (R5). -/
def Converter.atReset : Converter := { state := .offline, mark := none, job := none, origin := none }

/-- An unconfigured queue descriptor, after a device reset and after CLEAR (R158). -/
def Queue.unconfigured : Queue :=
  { state := .unconfigured, base := 0, size := 0, quota := 0, fetchIndex := 0, tail := 0, inFlight := 0,
    held := none, readOutstanding := false }

/-- The unconfigured completion ring, after a device reset and after CLEAR (R165). -/
def Ring.unconfigured : Ring :=
  { configured := false, base := 0, size := 0, writeIndex := 0, head := 0, phase := true, count := 0 }

/-- The Watch Unit after a device reset (R118, R119). -/
def WatchUnit.atReset : WatchUnit :=
  { entries := [], period := 0, timer := none, round := 0, inProgress := false, pending := [], promoted := false,
    running := [], overrun := false }

/-- Engine Control after a device reset (R173). -/
def Engine.atReset : Engine :=
  { state := .off, stopMode := .none, lastError := .none, reasonCode := 0, reasonIndex := 0, setupAddress := 0,
    startupLeft := [] }

/-- The Interrupt Unit after a device reset (R187). -/
def InterruptUnit.atReset : InterruptUnit :=
  { enCompletion := false, enHalt := false, enSetupFailed := false, enStopped := false, threshold := 1,
    timerSetting := 0, timer := none, late := false, stickyHalt := false, stickySetupFailed := false,
    stickyStopped := false }

/-- The block right after a device reset (R173 and the rules it gathers), with no command waiting. -/
def State.reset : State :=
  { engine := Engine.atReset
    interrupt := InterruptUnit.atReset
    channels := Vector.replicate 64 Channel.atReset
    profiles := Vector.replicate 16 Profile.atReset
    hopSets := Vector.replicate 8 [0]
    converters := Vector.replicate 4 Converter.atReset
    faultDischarges := []
    clearDischarges := []
    contexts := Vector.replicate 16 none
    nextAdmission := 0
    queues := Vector.replicate 4 Queue.unconfigured
    lastServed := 3
    setupReads := []
    fetchRead := none
    listReads := []
    resultWrites := []
    ring := Ring.unconfigured
    ringWrite := none
    reports := []
    lost := 0
    posting := []
    watch := WatchUnit.atReset
    pending := [] }

end Sys2Proof.Machine
end

