-- ==== Sys2Proof/Machine/Operands.lean ====
section
/-! DEFINITION. How the device reads what the host wrote: bytes, register words, the setup block, request records and
item descriptors (chapter 11, R190). Every field is taken from its position; reserved positions and unnamed bits are
not looked at. -/

namespace Sys2Proof.Machine

/-! ### Bytes (little-endian, 00_scope.md) -/

/-- The byte at an offset. Offsets past the end are read as 0; no structure of the spec is read past its length. -/
def byteAt (bs : List Byte) (off : Nat) : Nat := (bs.getD off 0).toNat

/-- A two-byte field. -/
def halfAt (bs : List Byte) (off : Nat) : Nat := byteAt bs off + 256 * byteAt bs (off + 1)

/-- A four-byte field. -/
def wordAt (bs : List Byte) (off : Nat) : Nat := halfAt bs off + 65536 * halfAt bs (off + 2)

/-- Bit `i` of a number. -/
def bit (n i : Nat) : Bool := n / 2 ^ i % 2 == 1

/-- Bits `lo .. lo + width - 1` of a number. -/
def bits (n lo width : Nat) : Nat := n / 2 ^ lo % 2 ^ width

/-! ### Register words (R192) -/

/-- Engine Command, bits 0..3: the command code. -/
def commandCode (word : Reg) : Nat := bits word.toNat 0 4

/-- Submit Index, bits 0..11: the new tail. -/
def submitTail (word : Reg) : Nat := bits word.toNat 0 12

/-- Submit Index, bits 16..17: the queue. -/
def submitQueue (word : Reg) : QueueId := Fin.ofNat 4 (bits word.toNat 16 2)

/-- Release Index, bits 0..15: the value v. -/
def releaseValue (word : Reg) : Nat := bits word.toNat 0 16

/-! ### The setup block (11.2) -/

/-- The fields of one queue in the setup block (R155). -/
structure SetupQueue where
  base : Nat
  size : Nat
  quota : Nat
  deriving DecidableEq, Repr

/-- The setup block as carried (R155). -/
structure SetupBlock where
  queueCount : Nat
  watchPeriod : Nat
  ringBase : Nat
  ringSize : Nat
  queues : List SetupQueue
  deriving DecidableEq, Repr

/-- The fields of queue `q`, at 16 + 12q (11.2). -/
def SetupQueue.ofBytes (bs : List Byte) (q : Nat) : SetupQueue :=
  { base := wordAt bs (16 + 12 * q), size := halfAt bs (20 + 12 * q), quota := byteAt bs (22 + 12 * q) }

/-- The setup block's fields from its 64 bytes (11.2). -/
def SetupBlock.ofBytes (bs : List Byte) : SetupBlock :=
  { queueCount := byteAt bs 0, watchPeriod := halfAt bs 4, ringBase := wordAt bs 8, ringSize := halfAt bs 12,
    queues := [0, 1, 2, 3].map (SetupQueue.ofBytes bs) }

/-- The ring sizes R155 accepts for a submission ring. -/
def queueSizes : List Nat := [16, 32, 64, 128, 256, 512, 1024]

/-- The ring sizes R155 accepts for the completion ring. -/
def ringSizes : List Nat := [32, 64, 128, 256, 512, 1024, 2048, 4096]

/-- Checks 2, 3 and 4 of R156 for one queue: the reason code that fails. -/
def SetupQueue.check (q : SetupQueue) : Option Nat :=
  if q.base % 64 ≠ 0 then some 2
  else if q.size ∉ queueSizes then some 3
  else if q.quota = 0 then some 4
  else none

/-- Checks 2, 3 and 4 over the configured queues in ascending order: reason code and queue index. -/
def checkSetupQueues : Nat → List SetupQueue → Option (Nat × Nat)
  | _, [] => none
  | i, q :: rest =>
    match q.check with
    | some code => some (code, i)
    | none => checkSetupQueues (i + 1) rest

/-- The configured queues of a block: 0..count-1 (R155). -/
def SetupBlock.configured (b : SetupBlock) : List SetupQueue := b.queues.take b.queueCount

/-- R156: the first failing check, as reason code and queue index; none when the block is valid. -/
def SetupBlock.check (b : SetupBlock) : Option (Nat × Nat) :=
  if b.queueCount = 0 ∨ 4 < b.queueCount then some (1, 0)
  else match checkSetupQueues 0 b.configured with
    | some failure => some failure
    | none =>
      if b.ringBase % 16 ≠ 0 then some (5, 0)
      else if b.ringSize ∉ ringSizes then some (6, 0)
      else if 16 < (b.configured.map (·.quota)).sum then some (7, 0)
      else if 60000 < b.watchPeriod then some (8, 0)
      else none

/-! ### Request records (11.3) -/

/-- The item descriptor at an offset (11.3). -/
def RawItem.ofBytes (bs : List Byte) (off : Nat) : RawItem :=
  { kind := byteAt bs off, sel := byteAt bs (off + 1), mask := bs.getD (off + 2) 0 }

/-- The item descriptors of a list of `count` items (R72). -/
def rawItems (bs : List Byte) (count : Nat) : List RawItem :=
  (List.range count).map fun i => RawItem.ofBytes bs (4 * i)

/-- R60, 11.3. -/
def Flags.ofByte (b : Nat) : Flags :=
  { fence := bit b 0, keepSamples := bit b 1, setBaseline := bit b 2, externalList := bit b 3 }

/-- The body of a MEASURE record (11.3). -/
def MeasureBody.ofBytes (bs : List Byte) : MeasureBody :=
  { itemCount := byteAt bs 12, n := byteAt bs 13, settle := byteAt bs 14, hop := byteAt bs 15,
    ceiling := halfAt bs 16, listAddr := BitVec.ofNat 32 (wordAt bs 20),
    inlineItems := (List.range 8).map fun i => RawItem.ofBytes bs (24 + 4 * i) }

/-- The body of a TRIM record (11.3). -/
def TrimBody.ofBytes (bs : List Byte) : TrimBody :=
  { channel := byteAt bs 12, n := byteAt bs 13, settle := byteAt bs 14, hop := byteAt bs 15,
    ceiling := halfAt bs 16, windowLow := halfAt bs 18, windowHigh := halfAt bs 20 }

/-- The body of a CHANNEL_SET record (11.3). -/
def ChannelSetBody.ofBytes (bs : List Byte) : ChannelSetBody :=
  let mask := byteAt bs 13
  { channel := byteAt bs 12, hasState := bit mask 0, hasPark := bit mask 1, hasComp := bit mask 2,
    hasTrim := bit mask 3, hasBaseline := bit mask 4, state := byteAt bs 14, park := byteAt bs 15,
    comp := byteAt bs 16, trim := byteAt bs 17, baselineAction := byteAt bs 18, baselineValue := halfAt bs 20 }

/-- A profile byte: bits 0..3 high count - 1, bits 4..7 low count - 1 (11.3). -/
def Profile.ofByte (b : Nat) : Profile := { high := b % 16 + 1, low := b / 16 % 16 + 1 }

/-- The body of a PROFILE_SET record (11.3). -/
def ProfileSetBody.ofBytes (bs : List Byte) : ProfileSetBody :=
  { mask := BitVec.ofNat 16 (halfAt bs 12), hopWrite := bit (byteAt bs 14) 0, hopSet := byteAt bs 15,
    hopLength := byteAt bs 16, profiles := (List.range 16).map fun p => Profile.ofByte (byteAt bs (18 + p)),
    hopEntries := (List.range 24).map fun k => byteAt bs (34 + k) }

/-- The body of a WATCH_ADD record (11.3). A limit whose presence bit is clear is not read (R190). -/
def WatchAddBody.ofBytes (bs : List Byte) : WatchAddBody :=
  let present := byteAt bs 27
  { id := byteAt bs 12, channel := byteAt bs 13, n := byteAt bs 14, settle := byteAt bs 15, hop := byteAt bs 16,
    persistence := byteAt bs 17, ceiling := halfAt bs 18,
    upper := if bit present 0 then some (halfAt bs 20) else none,
    lower := if bit present 1 then some (halfAt bs 22) else none,
    hysteresis := halfAt bs 24, shift := byteAt bs 26 }

/-- The body selected by the kind byte (R59, 11.3). -/
def Body.ofBytes (bs : List Byte) : Body :=
  match byteAt bs 0 with
  | 1 => .measure (MeasureBody.ofBytes bs)
  | 2 => .trim (TrimBody.ofBytes bs)
  | 3 => .channelSet (ChannelSetBody.ofBytes bs)
  | 4 => .profileSet (ProfileSetBody.ofBytes bs)
  | 5 => .watchAdd (WatchAddBody.ofBytes bs)
  | 6 => .watchRemove (byteAt bs 12)
  | 7 => .watchQuery
  | 8 => .watchTiming (halfAt bs 12)
  | 9 => .converterSet (byteAt bs 12) (byteAt bs 13)
  | 10 => .abort (byteAt bs 12) (byteAt bs 13) (halfAt bs 14)
  | _ => .unknown

/-- A request record from its 64 bytes (R58, 11.3). -/
def Request.ofBytes (bs : List Byte) : Request :=
  { kind := byteAt bs 0, flags := Flags.ofByte (byteAt bs 1), tag := halfAt bs 2,
    resultAddr := BitVec.ofNat 32 (wordAt bs 4), resultLength := wordAt bs 8, body := Body.ofBytes bs }

/-! ### Item descriptors (R68, R83) -/

/-- The channels of a mask: bit i of group g names channel 8g + i (R83). -/
def maskBits (mask : Byte) : List Nat := [0, 1, 2, 3, 4, 5, 6, 7].filter fun i => mask.getLsbD i

/-- R68: the checked form of one descriptor, or the field code that fails (22 type, 23 channel, 24 group, 25 mask). -/
def RawItem.check (r : RawItem) : Except Nat Item :=
  if r.kind = 1 then
    if r.sel < 64 then .ok (.single (Fin.ofNat 64 r.sel)) else .error 23
  else if r.kind = 2 then
    if 8 ≤ r.sel then .error 24
    else if (maskBits r.mask).length < 2 then .error 25
    else .ok (.gang (Fin.ofNat 8 r.sel) r.mask)
  else .error 22

/-- R68, R72: the descriptors in list order, or the first failing field code with its item index. -/
def checkItems : Nat → List RawItem → Except (Nat × Nat) (List Item)
  | _, [] => .ok []
  | i, r :: rest =>
    match r.check with
    | .error code => .error (code, i)
    | .ok item =>
      match checkItems (i + 1) rest with
      | .error e => .error e
      | .ok items => .ok (item :: items)

/-- The channels of an item, ascending (R83). -/
def Item.channels : Item → List Chan
  | .single ch => [ch]
  | .gang g mask => (maskBits mask).map fun i => Fin.ofNat 64 (8 * g.val + i)

/-- Whether two items share a channel (R22, R85). -/
def Item.overlaps (a b : Item) : Bool := a.channels.any fun ch => b.channels.contains ch

/-- The 64 channels in ascending order. -/
def allChannels : List Chan := (List.range 64).map (Fin.ofNat 64)

/-- R46: every channel of every item, each once. -/
def claimSetOf (items : List Item) : List Chan :=
  allChannels.filter fun ch => items.any fun it => it.channels.contains ch

/-- The channels of a connection; the internal reference has none (R5, R11). -/
def Connection.channels : Connection → List Chan
  | .electrodes item => item.channels
  | .reference => []

end Sys2Proof.Machine
end

