-- ==== Sys2Proof/Machine/Flags.lean ====
section
/-! DEFINITION. What the device shows of its state: the online count, the interrupt conditions and INT_N, the pins and
the shield waveform, and the register reads (R18, R39, R40, R169, R186, R187, R189, R192). -/

namespace Sys2Proof.Machine

/-- The four converters in ascending number. -/
def allConverters : List ConvId := [0, 1, 2, 3]

/-- The four queues in ascending number. -/
def allQueues : List QueueId := [0, 1, 2, 3]

/-- The places of the Context Table. -/
def allContexts : List CtxId := [0, 1, 2, 3, 4, 5, 6, 7, 8, 9, 10, 11, 12, 13, 14, 15]

/-! ### Converters -/

/-- R5: online in IDLE, SETTLING, SAMPLING, DISCHARGING and CHECKING. -/
def ConvState.online : ConvState → Bool
  | .offline => false
  | .idle => true
  | .settling => true
  | .sampling => true
  | .discharging => true
  | .checking => true
  | .held => false

/-- The number of online converters, 0..4 (R5). -/
def onlineCount (s : State) : Nat := allConverters.countP fun c => s.converters[c].state.online

/-- R20: a converter is free when it is IDLE and carries no pending mark. -/
def Converter.free (c : Converter) : Bool := c.state == .idle && c.mark.isNone

/-- The number of contexts in use, 0..16 (R61). -/
def contextsInUse (s : State) : Nat := allContexts.countP fun k => s.contexts[k].isSome

/-! ### The interrupt line (R187, R189) -/

/-- R187: a threshold of 0 acts as 1. -/
def InterruptUnit.actingThreshold (u : InterruptUnit) : Nat := if u.threshold = 0 then 1 else u.threshold

/-- R189: the COMPLETION cause. -/
def completionCause (s : State) : Bool :=
  s.ring.configured && (decide (s.interrupt.actingThreshold ≤ s.ring.count) || s.interrupt.late)

/-- R187: INT_N is driven low while at least one cause holds and is enabled. -/
def intNLow (s : State) : Bool :=
  (s.interrupt.enCompletion && completionCause s) || (s.interrupt.enHalt && s.interrupt.stickyHalt)
    || (s.interrupt.enSetupFailed && s.interrupt.stickySetupFailed)
    || (s.interrupt.enStopped && s.interrupt.stickyStopped)

/-! ### Pins (R38, R39, R40) -/

/-- R2, R30: the profile of the sample in progress, at position k mod L of the copied list, for sample k. -/
def Job.currentProfile (j : Job) : Option Profile := j.profiles[j.samples.length % j.profiles.length]?

/-- R31: the waveform a converter drives on its connection: position 0 in SETTLING, the current sample's profile in
SAMPLING, none otherwise. -/
def Converter.waveform (c : Converter) : Option Profile :=
  match c.state, c.job with
  | .settling, some j => j.profiles[0]?
  | .sampling, some j => j.currentProfile
  | _, _ => none

/-- R40: the shield waveform is that of the lowest-numbered converter in SAMPLING; none is a steady low level. -/
def shieldWaveform (s : State) : Option Profile :=
  match allConverters.find? fun c => s.converters[c].state == .sampling with
  | some c => s.converters[c].waveform
  | none => none

/-- What a pin is doing (chapter 3.2). -/
inductive Pin where
  /-- Connected to a converter (R6, R38). -/
  | connected (conv : ConvId)
  /-- Discharged by its own switch after a fault or a CLEAR (R13, R17). -/
  | discharging
  /-- Parked GROUND: driven low. -/
  | drivenLow
  /-- Parked FLOAT: high impedance. -/
  | highImpedance
  /-- Parked SHIELD: driven with the shield waveform, none being a steady low level. -/
  | shield (wave : Option Profile)
  deriving DecidableEq, Repr

/-- Whether a converter's connection is closed on a channel: in SETTLING, SAMPLING and DISCHARGING (R6, R8). -/
def Converter.holdsChannel (c : Converter) (ch : Chan) : Bool :=
  match c.state, c.job with
  | .settling, some j => j.connection.channels.contains ch
  | .sampling, some j => j.connection.channels.contains ch
  | .discharging, some j => j.connection.channels.contains ch
  | _, _ => false

/-- R38, R39: the pin of a channel. -/
def pin (s : State) (ch : Chan) : Pin :=
  match allConverters.find? fun c => s.converters[c].holdsChannel ch with
  | some c => .connected c
  | none =>
    if s.faultDischarges.any (fun d => d.connection.channels.contains ch)
        || s.clearDischarges.any (fun d => d.connection.channels.contains ch) then .discharging
    else match s.channels[ch].park with
      | .ground => .drivenLow
      | .float => .highImpedance
      | .shield => .shield (shieldWaveform s)

/-! ### Codes of the register window and the layouts (11.4, R192) -/

/-- R192, Engine Status bits 0..2. -/
def EngineState.code : EngineState → Nat
  | .off => 0
  | .loading => 1
  | .running => 2
  | .stopping => 3
  | .halted => 4

/-- R192, Engine Status bits 3..4. -/
def StopMode.code : StopMode → Nat
  | .none => 0
  | .drain => 1
  | .cut => 2

/-- R192, Engine Status bits 8..11. -/
def LastError.code : LastError → Nat
  | .none => 0
  | .commandRefused => 1
  | .setupReadError => 2
  | .setupInvalid => 3
  | .submitRefused => 4
  | .releaseInvalid => 5
  | .ringWriteError => 6

/-- 1 for set, 0 for clear. -/
def flag (b : Bool) : Nat := if b then 1 else 0

/-- R186, R192: the Engine Status register. -/
def engineStatus (s : State) : Reg :=
  BitVec.ofNat 32
    (s.engine.state.code + s.engine.stopMode.code * 2 ^ 3 + s.engine.lastError.code * 2 ^ 8
      + s.engine.reasonCode % 16 * 2 ^ 12 + s.engine.reasonIndex % 4 * 2 ^ 16 + onlineCount s * 2 ^ 18
      + (allConverters.map fun c => flag (s.converters[c].state == .held) * 2 ^ (24 + c.val)).sum
      + (allQueues.map fun q => flag (s.queues[q].state == .faulted) * 2 ^ (28 + q.val)).sum)

/-- R187, R192: the Interrupt Control register as read. -/
def interruptControlRead (s : State) : Reg :=
  let u := s.interrupt
  BitVec.ofNat 32
    (flag u.enCompletion + flag u.enHalt * 2 ^ 1 + flag u.enSetupFailed * 2 ^ 2 + flag u.enStopped * 2 ^ 3
      + u.threshold % 256 * 2 ^ 8 + u.timerSetting % 256 * 2 ^ 16 + flag u.late * 2 ^ 24
      + flag (completionCause s) * 2 ^ 25 + flag u.stickyHalt * 2 ^ 28 + flag u.stickySetupFailed * 2 ^ 29
      + flag u.stickyStopped * 2 ^ 30)

/-- R169: a read of Release Index returns the write index, and 0 while the ring is unconfigured. -/
def releaseIndexRead (s : State) : Reg :=
  if s.ring.configured then BitVec.ofNat 32 s.ring.writeIndex else 0

/-- R192: a read of the register window; it changes nothing (R186, log entry 19). -/
def readRegister (offset : Reg) (s : State) : Reg :=
  if offset = 0x04#32 then engineStatus s
  else if offset = 0x08#32 then s.engine.setupAddress
  else if offset = 0x10#32 then releaseIndexRead s
  else if offset = 0x14#32 then interruptControlRead s
  else 0

end Sys2Proof.Machine
end

