-- ==== Sys2Proof/Machine/Timing.lean ====
section
/-! DEFINITION. The durations the spec gives, in reference periods of 31.25 ns (R2, R3, R4, R26, R30, R101, R127,
R189). The ends of these intervals are commands of their own; nothing here counts them down (log entry 1). -/

namespace Sys2Proof.Machine

/-- R25: the sense cycle of a profile. -/
def Profile.senseCycle (p : Profile) : Nat := p.high + p.low

/-- R4: the discharge interval. -/
def dischargePeriods : Nat := 64

/-- R2: the stall window of a sample at a profile. -/
def stallWindowPeriods (p : Profile) : Nat := 1024 * p.senseCycle

/-- R3: the settle interval in sense cycles: none for code 0, 2^(s+1) for code s. -/
def settleCycles (code : Nat) : Nat := if code = 0 then 0 else 2 ^ (code + 1)

/-- R3, R30: a job's settle interval, at the profile in position 0 of its copy. -/
def Job.settlePeriods (j : Job) : Nat :=
  match j.profiles[0]? with
  | some p => settleCycles j.settle * p.senseCycle
  | none => 0

/-- R2, R30: the profile at which sample `k` of a job runs. -/
def Job.profileOfSample (j : Job) (k : Nat) : Option Profile := j.profiles[k % j.profiles.length]?

/-- R101: the duration of a sample in sense cycles; `steps` is the number of steps completed before a STALL. -/
def sampleCycles (steps : Nat) : Sample → Nat
  | .good r => r
  | .ceiling r => r
  | .stall => steps + 1024

/-- R127: a watch period in milliseconds as reference periods. -/
def watchPeriods (ms : Nat) : Nat := ms * 32000

/-- R189: a coalescing timer setting, in units of 50 us, as reference periods. -/
def coalescingPeriods (setting : Nat) : Nat := setting * 1600

end Sys2Proof.Machine
end

