-- ==== Sys2Proof/Machine/Measurement.lean ====
section
/-! DEFINITION. What a sample list turns into: counts, summary, item status, delta (R89, R90, R91), the check mean
(R12), the class of a trial and its decision (R108, R109). -/

namespace Sys2Proof.Machine

/-- The reading of a GOOD sample. -/
def Sample.goodReading : Sample → Option Nat
  | .good r => some r
  | .ceiling _ => none
  | .stall => none

/-- Whether a sample ended CEILING. -/
def Sample.isCeiling : Sample → Bool
  | .good _ => false
  | .ceiling _ => true
  | .stall => false

/-- Whether a sample ended STALL. -/
def Sample.isStall : Sample → Bool
  | .good _ => false
  | .ceiling _ => false
  | .stall => true

/-- The GOOD readings of a sample list, in order. -/
def goodReadings (l : List Sample) : List Nat := l.filterMap Sample.goodReading

/-- R89: t, the samples taken. -/
def takenCount (l : List Sample) : Nat := l.length

/-- R89: g, the GOOD samples. -/
def goodCount (l : List Sample) : Nat := (goodReadings l).length

/-- R89: c, the CEILING samples. -/
def ceilingCount (l : List Sample) : Nat := l.countP Sample.isCeiling

/-- R89: a STALL was taken. -/
def stallTaken (l : List Sample) : Bool := l.any Sample.isStall

/-- R12, R89: the floor of the sum of the readings divided by their number; none when there is none. -/
def meanOf (readings : List Nat) : Option Nat :=
  if readings.isEmpty then none else some (readings.sum / readings.length)

/-- The smallest of a list of readings; 0 for none. -/
def minOf : List Nat → Nat
  | [] => 0
  | r :: rest => rest.foldl min r

/-- The largest of a list of readings; 0 for none. -/
def maxOf (l : List Nat) : Nat := l.foldl max 0

/-- R89: the summary of a sample list. -/
structure Summary where
  mean : Nat
  minimum : Nat
  maximum : Nat
  deriving DecidableEq, Repr

/-- R89: the summary is present when g ≥ 1, 2g ≥ t and no STALL was taken; it is formed over the GOOD samples. -/
def summaryOf (l : List Sample) : Option Summary :=
  if 1 ≤ goodCount l ∧ takenCount l ≤ 2 * goodCount l ∧ stallTaken l = false then
    some { mean := (goodReadings l).sum / goodCount l, minimum := minOf (goodReadings l),
           maximum := maxOf (goodReadings l) }
  else none

/-- R90: the status of a run of n samples that ended normally. -/
def runStatus (n : Nat) (l : List Sample) : ItemStatus :=
  if stallTaken l then .opened
  else if takenCount l = n ∧ goodCount l = n then .good
  else if (summaryOf l).isSome then .degraded
  else .ceiling

/-- R91: a signed value saturated to -32768..32767. -/
def saturate16 (x : Int) : Int := if x < -32768 then -32768 else if 32767 < x then 32767 else x

/-- R91: the delta of a SINGLE item: mean minus baseline, saturated; absent without a summary or a baseline. -/
def deltaOf (summary : Option Summary) (baseline : Option Nat) : Option Int :=
  match summary, baseline with
  | some m, some b => some (saturate16 ((m.mean : Int) - (b : Int)))
  | _, _ => none

/-- R12: a check passes when all four samples are GOOD and the check mean lies in 3072..5119. -/
def checkPasses (l : List Sample) : Bool :=
  goodCount l == 4 && (match meanOf (goodReadings l) with
    | some m => 3072 ≤ m && m ≤ 5119
    | none => false)

/-- R108: the class of a trial from its status and its mean against the window. -/
def classify (low high : Nat) (status : ItemStatus) (mean : Option Nat) : Option TrialClass :=
  match status, mean with
  | .good, some m | .degraded, some m =>
    if high < m then some .tooHigh else if m < low then some .tooLow else some .inWindow
  | .ceiling, _ => some .tooHigh
  | _, _ => none

/-- R109: whether the bit of a trial is kept. -/
def keepsBit (comp : Comp) (cls : TrialClass) : Bool :=
  match comp, cls with
  | .load, .tooHigh => true
  | .load, .inWindow => true
  | .load, .tooLow => false
  | .gain, .tooHigh => false
  | .gain, .inWindow => true
  | .gain, .tooLow => true

/-- R106: trial k tests bit 2^(6-k) for k in 0..6; trial 7 is the verify and tests none. -/
def trialBit (k : Nat) : Nat := if k < 7 then 2 ^ (6 - k) else 0

/-- R2, R6: the record of a measurement event under a job's ceiling. A count that is not below the ceiling reached it
first, so the sample ended CEILING (R1, log entry 11). -/
def recordSample (ceiling : Nat) : SampleEnd → Sample
  | .good count => if count.toNat < ceiling then .good count.toNat else .ceiling ceiling
  | .ceiling => .ceiling ceiling
  | .stall => .stall

end Sys2Proof.Machine
end

