-- ==== Sys2Proof/Machine/Layouts.lean ====
section
/-! DEFINITION. What the device writes to host memory, byte by byte: completion ring records and their detail words
(11.4), the three result buffers (11.5), and the required lengths (R69, R124). R191: reserved positions are zero, an
absent field is zero with its presence bit clear. -/

namespace Sys2Proof.Machine

/-! ### Little-endian fields -/

/-- One byte. -/
def byte8 (n : Nat) : List Byte := [BitVec.ofNat 8 n]

/-- Two bytes, least significant first. -/
def bytes16 (n : Nat) : List Byte := [BitVec.ofNat 8 n, BitVec.ofNat 8 (n / 256)]

/-- Four bytes, least significant first. -/
def bytes32 (n : Nat) : List Byte := bytes16 n ++ bytes16 (n / 65536)

/-- A signed two-byte field: two's complement. -/
def signed16 (x : Int) : List Byte := bytes16 (x % 65536).toNat

/-- Zero bytes. -/
def zeros (n : Nat) : List Byte := List.replicate n 0

/-! ### Codes (11.4, 11.5) -/

/-- 11.4, status codes. -/
def Status.code : Status → Nat
  | .success => 0
  | .partialDone => 1
  | .invalidRequest => 2
  | .tagInUse => 3
  | .bufferTooSmall => 4
  | .channelOff => 5
  | .channelWatched => 6
  | .idInUse => 7
  | .noSuchWatch => 8
  | .notFound => 9
  | .tooLate => 10
  | .aborted => 11
  | .stopped => 12
  | .noConverter => 13
  | .converterFault => 14
  | .outOfRange => 15
  | .opened => 16
  | .notHeld => 17
  | .converterHeld => 18
  | .converterBusy => 19
  | .checkFailed => 20
  | .listReadError => 21
  | .resultWriteError => 22

/-- 11.4, context state codes. -/
def CtxState.code : CtxState → Nat
  | .listing => 1
  | .claiming => 2
  | .active => 3
  | .writing => 4
  | .posting => 5

/-- 11.4, converter state codes. -/
def ConvState.code : ConvState → Nat
  | .offline => 0
  | .idle => 1
  | .settling => 2
  | .sampling => 3
  | .discharging => 4
  | .checking => 5
  | .held => 6

/-- 11.4, mark codes of the converter form. -/
def markCode : Option MarkKind → Nat
  | none => 0
  | some .hold => 1
  | some .check => 2

/-- The codes of the CHANNEL_SET body (11.3). -/
def Park.code : Park → Nat
  | .ground => 0
  | .float => 1
  | .shield => 2

/-- 11.5, item status codes. ABORTED is held in the item table and is never written (R95); it has no code. -/
def ItemStatus.code : ItemStatus → Nat
  | .good => 0
  | .degraded => 1
  | .ceiling => 2
  | .opened => 3
  | .converterFault => 4
  | .noConverter => 5
  | .aborted => 0

/-- 11.5, trial class codes. -/
def classCode : Option TrialClass → Nat
  | none => 0
  | some .tooHigh => 1
  | some .inWindow => 2
  | some .tooLow => 3

/-- 11.4, 11.5, watch state codes. -/
def WatchState.code : WatchState → Nat
  | .inside => 0
  | .above => 1
  | .below => 2
  | .fault => 3

/-- 11.4, event kind codes. -/
def EventKind.code : EventKind → Nat
  | .crossedHigh => 1
  | .crossedLow => 2
  | .returned => 3
  | .watchFault => 4

/-- The code of a compensation mode: 0 LOAD, 1 GAIN. -/
def Comp.code : Comp → Nat
  | .load => 0
  | .gain => 1

/-! ### The detail word (R81, 11.4) -/

/-- 11.4: the detail word by its form. -/
def Detail.word : Detail → Nat
  | .count n => n
  | .field code index => code + index * 2 ^ 8
  | .length bytes => bytes
  | .channel ch => ch.val
  | .entry ready park comp setting baseline =>
    baseline.getD 0 + flag baseline.isSome * 2 ^ 16 + flag ready * 2 ^ 17 + park.code * 2 ^ 18
      + comp.code * 2 ^ 20 + setting * 2 ^ 24
  | .watch id ch => id + ch * 2 ^ 8
  | .query entries round => entries + round * 2 ^ 16
  | .period ms => ms
  | .profiles mask hopSet => mask.toNat + hopSet * 2 ^ 16
  | .trim mean decided => mean.getD 0 + flag mean.isSome * 2 ^ 16 + decided * 2 ^ 24
  | .trial number restored => number + restored * 2 ^ 24
  | .converter conv st mean mark =>
    mean.getD 0 + flag mean.isSome * 2 ^ 16 + markCode mark * 2 ^ 20 + st.code * 2 ^ 24 + conv.val * 2 ^ 28
  | .state st => st.code
  | .status st => st.code
  | .zero => 0

/-! ### Completion ring records, 16 bytes (11.4) -/

/-- Byte 0: bits 0..1 the record kind, bit 7 the phase. -/
def recordByte0 (kind : Nat) (phase : Bool) : List Byte := byte8 (kind + flag phase * 2 ^ 7)

/-- R79: the completion record of a context, with the submission head as it stands when the record is written. -/
def completionRecord (phase : Bool) (c : Context) (head : Nat) : List Byte :=
  let r := c.result.getD (.success, .zero)
  recordByte0 1 phase ++ byte8 c.queue.val ++ bytes16 c.request.tag ++ byte8 r.1.code ++ byte8 c.request.kind
    ++ bytes16 head ++ bytes32 c.bytesWritten ++ bytes32 r.2.word

/-- 11.4: bytes 1..11 of a notice, then the lost count. -/
def noticeRecord (phase : Bool) (kind subject cause : Nat) (mean : Option Nat) (w8 w10 lost : Nat) : List Byte :=
  recordByte0 3 phase ++ byte8 kind ++ byte8 subject ++ byte8 cause ++ byte8 (flag mean.isSome) ++ byte8 0
    ++ bytes16 (mean.getD 0) ++ bytes16 w8 ++ bytes16 w10 ++ bytes16 lost ++ zeros 2

/-- 11.4: cause of a CONVERTER_OFFLINE. -/
def OfflineCause.code : OfflineCause → Nat
  | .fault => 1
  | .checkFailed => 2

/-- 11.4: cause of a CONVERTER_ONLINE, the origin OFFLINE or HELD. -/
def originCause : ConvState → Nat
  | .held => 4
  | _ => 3

/-- 11.4: cause of a QUEUE_FAULT. -/
def QueueFaultReason.code : QueueFaultReason → Nat
  | .tailInvalid => 5
  | .fetchError => 6

/-- R138, R170, 11.4: the record of a report with the lost count it carries. -/
def reportRecord (phase : Bool) (lost : Nat) : Report → List Byte
  | .event kind id ch fromState reading baseline round =>
    recordByte0 2 phase ++ byte8 kind.code ++ byte8 id.val ++ byte8 ch.val ++ byte8 fromState.code
      ++ byte8 (flag baseline.isSome) ++ bytes16 reading ++ bytes16 (baseline.getD 0) ++ bytes16 round
      ++ bytes16 lost ++ zeros 2
  | .converterOffline conv cause mean => noticeRecord phase 1 conv.val cause.code mean 0 0 lost
  | .converterOnline conv origin mean => noticeRecord phase 2 conv.val (originCause origin) mean 0 0 lost
  | .noConverter => noticeRecord phase 3 0 0 none 0 0 lost
  | .queueFault queue reason fetchIndex tail =>
    noticeRecord phase 4 queue.val reason.code none fetchIndex tail lost
  | .roundOverrun round => noticeRecord phase 5 0 0 none round 0 lost

/-! ### Required lengths (R69, R124) -/

/-- R69, R97: the sample area size s: 0 without KEEP_SAMPLES, 2n rounded up to a multiple of 4 with it. -/
def sampleArea (keep : Bool) (n : Nat) : Nat := if keep then (2 * n + 3) / 4 * 4 else 0

/-- R69: the required length of a MEASURE result. -/
def measureLength (keep : Bool) (n items : Nat) : Nat := 16 + (16 + sampleArea keep n) * items

/-- R69: the required length of a TRIM result. -/
def trimLength : Nat := 48

/-- R124: the required length of a WATCH_QUERY result over E entries. -/
def queryLength (entries : Nat) : Nat := 16 + 16 * entries

/-! ### The MEASURE result (R97 to R100, 11.5) -/

/-- R96: an item not GOOD. -/
def ItemEntry.notGood (e : ItemEntry) : Bool := e.status != some .good

/-- R96, R98: k, the items not GOOD. -/
def notGoodCount (items : List ItemEntry) : Nat := items.countP ItemEntry.notGood

/-- R98: the baselines written. -/
def baselinesWritten (items : List ItemEntry) : Nat := items.countP ItemEntry.baselineWritten

/-- R98, 11.5: the 16-byte header. -/
def measureHeader (c : Context) (b : MeasureBody) : List Byte :=
  byte8 c.queue.val
    ++ byte8 (flag c.request.flags.keepSamples * 2 + flag c.request.flags.setBaseline * 4)
    ++ bytes16 c.request.tag ++ byte8 b.itemCount ++ byte8 b.n ++ byte8 b.settle ++ byte8 b.hop
    ++ bytes16 b.ceiling ++ byte8 (sampleArea c.request.flags.keepSamples b.n)
    ++ byte8 (notGoodCount c.items) ++ byte8 (baselinesWritten c.items) ++ zeros 3

/-- R99, 11.5: the 16-byte item block. -/
def itemBlock (e : ItemEntry) : List Byte :=
  let m := summaryOf e.samples
  let st := match e.status with
    | some st => st.code
    | none => 0
  byte8 st
    ++ byte8 (flag (stallTaken e.samples) + flag e.retryUsed * 2 + flag m.isSome * 4 + flag e.delta.isSome * 8
        + flag e.baselineWritten * 16)
    ++ byte8 (match e.conv with
        | some c => c.val
        | none => 0xFF)
    ++ byte8 (takenCount e.samples) ++ byte8 (goodCount e.samples) ++ byte8 (ceilingCount e.samples)
    ++ bytes16 (match m with
        | some m => m.mean
        | none => 0)
    ++ bytes16 (match m with
        | some m => m.minimum
        | none => 0)
    ++ bytes16 (match m with
        | some m => m.maximum
        | none => 0)
    ++ signed16 (e.delta.getD 0) ++ zeros 2

/-- R100: what the sample position of a sample holds. -/
def Sample.position : Sample → Nat
  | .good r => r
  | .ceiling r => r
  | .stall => 0

/-- R100: the sample area of s bytes: a position per sample taken, then zeros. -/
def sampleAreaBytes (s : Nat) (samples : List Sample) : List Byte :=
  ((samples.map fun x => bytes16 x.position).flatten ++ zeros s).take s

/-- R97: header, then the item areas in list order. -/
def measureResult (c : Context) (b : MeasureBody) : List Byte :=
  measureHeader c b
    ++ (c.items.map fun e =>
        itemBlock e ++ sampleAreaBytes (sampleArea c.request.flags.keepSamples b.n) e.samples).flatten

/-! ### The TRIM result (R114, 11.5) -/

/-- R114, 11.5: a log entry. -/
def trialLogBytes (e : TrialLog) : List Byte :=
  byte8 (e.trim + flag e.mean.isSome * 2 ^ 7)
    ++ byte8 (e.status.code + classCode e.cls * 2 ^ 4 + flag e.retryUsed * 2 ^ 6) ++ bytes16 (e.mean.getD 0)

/-- R114: the header and eight log positions; `after` is the channel's trim when the claim was released. -/
def trimResult (c : Context) (b : TrimBody) (s : Search) (status : Status) (mean : Option Nat) (after : Nat) :
    List Byte :=
  byte8 c.queue.val ++ byte8 b.channel ++ bytes16 c.request.tag ++ byte8 status.code
    ++ byte8 (s.comp.code + flag mean.isSome * 2) ++ byte8 s.log.length ++ byte8 s.decided ++ byte8 s.savedTrim
    ++ byte8 after ++ bytes16 (mean.getD 0) ++ bytes16 b.windowLow ++ bytes16 b.windowHigh
    ++ ((s.log.map trialLogBytes).flatten ++ zeros 32).take 32

/-! ### The WATCH_QUERY result (R125, 11.5) -/

/-- R125, 11.5: an entry block, with the channel's baseline at the snapshot. -/
def watchBlock (e : WatchEntry) (baseline : Option Nat) : List Byte :=
  byte8 e.id.val ++ byte8 e.ch.val
    ++ byte8 (e.state.code + (if e.direction = .low then 4 else 0) + flag e.upper.isSome * 8
        + flag e.lower.isSome * 16 + flag e.last.isSome * 32 + flag baseline.isSome * 64)
    ++ byte8 (e.count + e.persistence * 16) ++ bytes16 (e.last.getD 0) ++ bytes16 (baseline.getD 0)
    ++ bytes16 e.skipped ++ bytes16 (e.upper.getD 0) ++ bytes16 (e.lower.getD 0) ++ bytes16 e.hysteresis

/-- R125, 11.5: header, then one block per entry in ascending watch id. -/
def watchQueryResult (queue : QueueId) (tag : Nat) (s : State) : List Byte :=
  byte8 queue.val ++ byte8 s.watch.entries.length ++ bytes16 tag ++ bytes16 s.watch.round
    ++ byte8 (flag s.watch.inProgress + flag s.watch.promoted * 2) ++ byte8 s.watch.pending.length
    ++ bytes16 s.watch.period ++ zeros 6
    ++ (s.watch.entries.map fun e => watchBlock e (s.channels[e.ch].baseline)).flatten

end Sys2Proof.Machine
end

