-- ==== Sys2Proof/Machine/Ops.lean ====
section
/-! DEFINITION. The named operations over the tables of the state: one update per table, raising a report (R170), a
change of a converter's state with its NO_CONVERTER notice (R18), the release of a claim set (R50), and the ways a
context goes to WRITING or POSTING (R75, R78). -/

namespace Sys2Proof.Machine

/-! ### One update per table -/

/-- Changes one converter's record. -/
def State.modConv (c : ConvId) (f : Converter → Converter) (s : State) : State :=
  { s with converters := s.converters.set c (f s.converters[c]) }

/-- Changes one channel's entry. -/
def State.modChan (ch : Chan) (f : Channel → Channel) (s : State) : State :=
  { s with channels := s.channels.set ch (f s.channels[ch]) }

/-- Changes one queue's descriptor. -/
def State.modQueue (q : QueueId) (f : Queue → Queue) (s : State) : State :=
  { s with queues := s.queues.set q (f s.queues[q]) }

/-- Changes a context in use; a FREE context stays FREE. -/
def State.modCtx (k : CtxId) (f : Context → Context) (s : State) : State :=
  { s with contexts := s.contexts.set k (s.contexts[k].map f) }

/-- Changes the Watch Unit. -/
def State.modWatch (f : WatchUnit → WatchUnit) (s : State) : State := { s with watch := f s.watch }

/-- Changes Engine Control's record. -/
def State.modEngine (f : Engine → Engine) (s : State) : State := { s with engine := f s.engine }

/-- Changes the Interrupt Unit. -/
def State.modInterrupt (f : InterruptUnit → InterruptUnit) (s : State) : State :=
  { s with interrupt := f s.interrupt }

/-! ### Order of admission -/

/-- Inserts by ascending key, before equal keys. -/
def insertBy {α : Type} (key : α → Nat) (x : α) : List α → List α
  | [] => [x]
  | y :: ys => if key x ≤ key y then x :: y :: ys else y :: insertBy key x ys

/-- Sorts by ascending key; equal keys keep their order. -/
def sortBy {α : Type} (key : α → Nat) : List α → List α
  | [] => []
  | x :: xs => insertBy key x (sortBy key xs)

/-- The admission number of a context in use; 0 for a FREE one. -/
def admissionOf (s : State) (k : CtxId) : Nat :=
  match s.contexts[k] with
  | some c => c.admission
  | none => 0

/-- The contexts in use, oldest first: by ascending admission number (R64). -/
def byAdmission (s : State) : List CtxId :=
  sortBy (admissionOf s) (allContexts.filter fun k => s.contexts[k].isSome)

/-- Whether a context is in use and in a given state. -/
def inState (s : State) (st : CtxState) (k : CtxId) : Bool :=
  match s.contexts[k] with
  | some c => c.state == st
  | none => false

/-! ### Reports (R170) -/

/-- R170: a report enters the buffer at its end and becomes ready to post, or is dropped and counted when the buffer
holds eight; the lost count saturates at 65535. -/
def raise (r : Report) (s : State) : State :=
  if s.reports.length < Config.reportPlaces then
    { s with reports := s.reports ++ [r], posting := s.posting ++ [.report] }
  else { s with lost := min Config.saturation (s.lost + 1) }

/-- R18: a NO_CONVERTER notice when the online count has fallen to zero from `before`. -/
def raiseIfNoneOnline (before : Nat) (s : State) : State :=
  if 0 < before ∧ onlineCount s = 0 then raise .noConverter s else s

/-- A converter takes a new state; R18 watches the online count at that moment (log entry 4). -/
def changeConvState (c : ConvId) (st : ConvState) (s : State) : State :=
  raiseIfNoneOnline (onlineCount s) (s.modConv c fun v => { v with state := st })

/-! ### Claims (R45, R50) -/

/-- R49: every channel of a set takes the context as its holder. -/
def holdClaims (k : CtxId) (set : List Chan) (s : State) : State :=
  { s with channels := s.channels.mapIdx fun i e => if (set.map Fin.val).contains i then { e with holder := some (.context k) } else e }

/-- R50: a context releases its whole claim set. -/
def releaseClaims (k : CtxId) (s : State) : State :=
  { s with channels := s.channels.map fun e => if e.holder = some (.context k) then { e with holder := none } else e }

/-- R52: the Watch Unit releases its claim on a channel. -/
def releaseWatchClaim (ch : Chan) (s : State) : State :=
  s.modChan ch fun e => if e.holder = some .watchUnit then { e with holder := none } else e

/-! ### Contexts leaving ACTIVE (R75, R77, R78) -/

/-- A context goes to POSTING with its status and detail. -/
def completeContext (k : CtxId) (st : Status) (d : Detail) (s : State) : State :=
  s.modCtx k fun c => { c with state := .posting, result := some (st, d) }

/-- R75, R78: a context goes to WRITING with its status and detail decided, and issues one write of its result data,
except in HALTED. -/
def enterWriting (k : CtxId) (st : Status) (d : Detail) (addr : Addr) (data : List Byte) (s : State) : State :=
  let s1 := s.modCtx k fun c => { c with state := .writing, result := some (st, d) }
  if s.engine.state = .halted then s1
  else { s1 with resultWrites := s1.resultWrites ++ [{ owner := k, addr := addr, data := data, abandoned := false }] }

/-- The status of an end cause (R77). -/
def EndCause.status : EndCause → Status
  | .aborted => .aborted
  | .stopped => .stopped

/-- R77: a context ended early goes to POSTING with its end cause, and the state it was in as detail. -/
def completeEarly (k : CtxId) (e : EndCause × CtxState) (s : State) : State :=
  completeContext k e.1.status (.state e.2) s

/-! ### Addresses -/

/-- A slot address base + size x index; the value past 32 bits is open (log entry 7). -/
def slotAddress (base : Addr) (size index : Nat) : Addr :=
  let exact := base.toNat + size * index
  if exact < 2 ^ 32 then BitVec.ofNat 32 exact else Config.addressBeyondSpace exact

end Sys2Proof.Machine
end

