-- ==== Sys2Proof/Machine/Measure.lean ====
section
/-! DEFINITION. MEASURE items inside ACTIVE and the end of the request (chapter 5). -/

namespace Sys2Proof.Machine

/-- R62: an item entry as formed. -/
def ItemEntry.fresh (item : Item) : ItemEntry :=
  { item := item, job := .notStarted, conv := none, retryUsed := false, samples := [], status := none, delta := none,
    baselineWritten := false }

/-- R22: an item is ready when it is NOT_STARTED and no running item of its context shares a channel with it. -/
def itemReady (items : List ItemEntry) (e : ItemEntry) : Bool :=
  e.job == .notStarted && !items.any fun r => r.job == .running && r.item.overlaps e.item

/-- R22, R85: the ready item at place `i` may start: items that share a channel start in list order, so an earlier item
that has yet to start holds back a later one that shares a channel with it (log entry 24). -/
def itemMayStart (items : List ItemEntry) (i : Nat) (e : ItemEntry) : Bool :=
  itemReady items e && !(items.take i).any fun r => r.job == .notStarted && r.item.overlaps e.item

/-- R75: a MEASURE ends its work when every entry is ENDED. -/
def allEnded (items : List ItemEntry) : Bool := items.all fun e => e.job == .ended

/-- R96: the status and detail of a MEASURE whose items have all ended. -/
def measureStatus (items : List ItemEntry) : Status × Detail :=
  (if notGoodCount items = 0 then .success else .partialDone, .count (notGoodCount items))

/-- R75, R77, R96: when every entry has ended, the MEASURE releases its claims and goes to WRITING with its result,
or to POSTING with its end cause. -/
def measureWorkEnd (k : CtxId) (s : State) : State :=
  match s.contexts[k] with
  | none => s
  | some c =>
    match c.request.body with
    | .measure b =>
      if allEnded c.items then
        match c.endCause with
        | some e => completeEarly k e (releaseClaims k s)
        | none =>
          enterWriting k (measureStatus c.items).1 (measureStatus c.items).2 c.request.resultAddr
            (measureResult c b) (releaseClaims k s)
      else s
    | _ => s

/-- Changes one entry of a context's item table. -/
def modItem (k : CtxId) (i : Nat) (f : ItemEntry → ItemEntry) (s : State) : State :=
  s.modCtx k fun c => { c with items := c.items.modify i f }

/-- The entry of an item of a context in use. -/
def itemAt (s : State) (k : CtxId) (i : Nat) : Option ItemEntry :=
  match s.contexts[k] with
  | some c => c.items[i]?
  | none => none

/-- R88, steps 1 to 6: the entry of an item that ends normally, against its channel's baseline as it stands. -/
def ItemEntry.endNormally (e : ItemEntry) (n : Nat) (samples : List Sample) (baseline : Option Nat)
    (setBaseline : Bool) : ItemEntry :=
  let m := summaryOf samples
  let single := match e.item with
    | .single _ => true
    | .gang _ _ => false
  { e with
    job := .ended
    samples := samples
    status := some (runStatus n samples)
    delta := if single then deltaOf m baseline else none
    baselineWritten := single && setBaseline && m.isSome }

/-- R91, R92: the baseline of a SINGLE item's channel, UNSET for a gang. -/
def itemBaseline (s : State) : Item → Option Nat
  | .single ch => s.channels[ch].baseline
  | .gang _ _ => none

/-- R92: a SINGLE item that ends normally with a summary writes its mean to its channel's baseline. -/
def writeBaseline (item : Item) (written : Bool) (samples : List Sample) (s : State) : State :=
  match item, summaryOf samples with
  | .single ch, some m => if written then s.modChan ch fun e => { e with baseline := some m.mean } else s
  | _, _ => s

/-- R88: an item job ends normally and its sample list is handed to the context. -/
def itemNormalEnd (k : CtxId) (i : Nat) (samples : List Sample) (s : State) : State :=
  match s.contexts[k] with
  | none => s
  | some c =>
    match c.request.body, c.items[i]? with
    | .measure b, some e =>
      let e' := e.endNormally b.n samples (itemBaseline s e.item) c.request.flags.setBaseline
      measureWorkEnd k (modItem k i (fun _ => e') (writeBaseline e.item e'.baselineWritten samples s))
    | _, _ => s

/-- R93: the entry of an item after a fault end. -/
def ItemEntry.endByFault (e : ItemEntry) : ItemEntry :=
  if e.retryUsed then { e with job := .ended, samples := [], status := some .converterFault }
  else { e with job := .notStarted, samples := [], retryUsed := true }

/-- R93: an item job ends by a fault end. -/
def itemFaultEnd (k : CtxId) (i : Nat) (s : State) : State :=
  measureWorkEnd k (modItem k i ItemEntry.endByFault s)

/-- R95: the entry of an item whose work is ended early. -/
def ItemEntry.endAborted (e : ItemEntry) : ItemEntry :=
  { e with job := .ended, samples := [], status := some .aborted }

/-- R95: the cut job of an item ends. -/
def itemCutEnd (k : CtxId) (i : Nat) (s : State) : State :=
  measureWorkEnd k (modItem k i ItemEntry.endAborted s)

/-- R94: the entry of a ready item while no converter is online. -/
def ItemEntry.endNoConverter (e : ItemEntry) : ItemEntry :=
  { e with job := .ended, samples := [], status := some .noConverter }

/-- R94: every ready item of the MEASURE ends NO_CONVERTER. -/
def measureNoConverter (k : CtxId) (s : State) : State :=
  measureWorkEnd k
    (s.modCtx k fun c =>
      { c with items := c.items.map fun e => if itemReady c.items e then e.endNoConverter else e })

end Sys2Proof.Machine
end

