-- ==== Sys2Proof/Machine/Trim.lean ====
section
/-! DEFINITION. The TRIM search (chapter 6). -/

namespace Sys2Proof.Machine

/-- The channel of a TRIM (R104); its number passed the check of R68. -/
def TrimBody.chan (b : TrimBody) : Chan := Fin.ofNat 64 b.channel

/-- A TRIM context's body and search state. -/
def trimParts (s : State) (k : CtxId) : Option (Context × TrimBody × Search) :=
  match s.contexts[k] with
  | some c =>
    match c.request.body, c.search with
    | .trim b, some q => some (c, b, q)
    | _, _ => none
  | none => none

/-- R105: the search state formed at the grant from the channel's entry. -/
def Search.atGrant (e : Channel) : Search :=
  { savedTrim := e.trim, savedBaseline := e.baseline, comp := e.comp, decided := 0, trial := 0, trialTrim := 0,
    job := .notStarted, retryUsed := false, log := [] }

/-- R107: the search with its current trial ready: the trial trim is the decided trim with the trial's bit set, or
the decided trim for the verify. -/
def Search.readied (q : Search) : Search :=
  { q with trialTrim := q.decided + trialBit q.trial, job := .notStarted, retryUsed := false }

/-- R107: a trial becomes ready, and its trial trim becomes the channel's working trim. -/
def beginTrial (k : CtxId) (ch : Chan) (q : Search) (s : State) : State :=
  (s.modCtx k fun c => { c with search := some q.readied }).modChan ch fun e => { e with trim := q.readied.trialTrim }

/-- R112: the saved trim and baseline go back into the entry. -/
def restoreTrim (ch : Chan) (q : Search) (s : State) : State :=
  s.modChan ch fun e => { e with trim := q.savedTrim, baseline := q.savedBaseline }

/-- R113: the detail of a search that ended with a status. -/
def searchDetail (st : Status) (q : Search) (mean : Option Nat) : Detail :=
  match st with
  | .success => .trim mean q.decided
  | .outOfRange => .trim mean q.decided
  | _ => .trial q.trial q.savedTrim

/-- R110, R112: the entry's trim and baseline at the end of a search. -/
def settleTrim (st : Status) (ch : Chan) (q : Search) (mean : Option Nat) (s : State) : State :=
  if st = .success then s.modChan ch fun e => { e with trim := q.decided, baseline := mean }
  else restoreTrim ch q s

/-- R113: the search ends: the writes of R110 or R112, the release, and WRITING with the 48-byte result. -/
def endSearch (k : CtxId) (c : Context) (b : TrimBody) (q : Search) (st : Status) (mean : Option Nat) (s : State) :
    State :=
  let s1 := settleTrim st b.chan q mean (s.modCtx k fun c => { c with search := some q })
  enterWriting k st (searchDetail st q mean) c.request.resultAddr
    (trimResult c b q st mean (s1.channels[b.chan].trim)) (releaseClaims k s1)

/-- R114: the search with its current trial ended and logged. -/
def Search.logged (q : Search) (st : ItemStatus) (cls : Option TrialClass) (mean : Option Nat) : Search :=
  { q with
    job := .ended
    log := q.log ++ [{ trim := q.trialTrim, status := st, cls := cls, retryUsed := q.retryUsed, mean := mean }] }

/-- R109: the search after the decision on trial 0..6: the bit kept or cleared, the next trial current. -/
def Search.decide (q : Search) (cls : TrialClass) : Search :=
  { q with
    decided := if keepsBit q.comp cls then q.decided + trialBit q.trial else q.decided
    trial := q.trial + 1 }

/-- R108 to R111: a trial job ends normally. The next trial is ready, NOT_STARTED. -/
def trialNormalEnd (k : CtxId) (samples : List Sample) (s : State) : State :=
  match trimParts s k with
  | none => s
  | some (c, b, q) =>
    let st := runStatus b.n samples
    let mean := (summaryOf samples).map Summary.mean
    let cls := classify b.windowLow b.windowHigh st mean
    let q1 := q.logged st cls mean
    match cls with
    | none => endSearch k c b q1 .opened none s
    | some cl =>
      if q.trial < 7 then beginTrial k b.chan (q1.decide cl) s
      else if cl = .inWindow then endSearch k c b q1 .success mean s
      else endSearch k c b q1 .outOfRange mean s

/-- R111: a trial job ends by a fault. -/
def trialFaultEnd (k : CtxId) (s : State) : State :=
  match trimParts s k with
  | none => s
  | some (c, b, q) =>
    if q.retryUsed then endSearch k c b (q.logged .converterFault none none) .converterFault none s
    else s.modCtx k fun c => { c with search := some { q with job := .notStarted, retryUsed := true } }

/-- R111: a ready trial ends NO_CONVERTER while no converter is online. -/
def trialNoConverter (k : CtxId) (s : State) : State :=
  match trimParts s k with
  | none => s
  | some (c, b, q) =>
    if q.job = .notStarted then endSearch k c b (q.logged .noConverter none none) .noConverter none s else s

/-- R62, R106: the search with its trial ENDED and nothing logged, at an early end. -/
def Search.ended (q : Search) : Search := { q with job := .ended }

/-- R115: the search ends by its end cause once no trial job runs: the trial ENDED (R106), restore, release, POSTING. -/
def trimEarlyEnd (k : CtxId) (s : State) : State :=
  match trimParts s k with
  | none => s
  | some (c, b, q) =>
    match c.endCause with
    | some e =>
      completeEarly k e (releaseClaims k (restoreTrim b.chan q (s.modCtx k fun c => { c with search := some q.ended })))
    | none => s

end Sys2Proof.Machine
end

