-- ==== Sys2Proof/Machine/Watch.lean ====
section
/-! DEFINITION. The Watch Unit: rounds, judgment, skips and events (chapter 7). -/

namespace Sys2Proof.Machine

/-- The entry of a watch id. -/
def watchEntry (s : State) (id : WatchId) : Option WatchEntry := s.watch.entries.find? fun e => e.id == id

/-- Changes the entry of a watch id. -/
def modEntry (id : WatchId) (f : WatchEntry → WatchEntry) (s : State) : State :=
  s.modWatch fun w => { w with entries := w.entries.map fun e => if e.id = id then f e else e }

/-! ### Rounds (R128 to R131) -/

/-- R130: a round with no pending and no running job completes. -/
def WatchUnit.completeRound (w : WatchUnit) : WatchUnit :=
  if w.inProgress ∧ w.pending = [] ∧ w.running = [] then
    { w with inProgress := false, promoted := false, overrun := false }
  else w

/-- R131: the skipped-round count rises by one and saturates. -/
def WatchEntry.skip (e : WatchEntry) : WatchEntry := { e with skipped := min Config.saturation (e.skipped + 1) }

/-- R131: a pending job is skipped: removed from the round and counted; the round may complete. -/
def skipPending (id : WatchId) (s : State) : State :=
  (modEntry id WatchEntry.skip s).modWatch fun w =>
    WatchUnit.completeRound { w with pending := w.pending.filter fun x => x != id }

/-- R19, R131: every pending job is skipped, in ascending watch id. -/
def skipAllPending (s : State) : State := s.watch.pending.foldl (fun t id => skipPending id t) s

/-- R128: a round starts: every entry not in FAULT becomes a pending job; with none the round completes. -/
def WatchUnit.startRound (w : WatchUnit) : WatchUnit :=
  WatchUnit.completeRound
    { w with
      round := (w.round + 1) % 65536
      inProgress := true
      promoted := false
      running := []
      pending := (w.entries.filter fun e => e.state != .fault).map WatchEntry.id }

/-- R127: the period timer as it starts: running with the full period, or stopped for a period of 0. -/
def WatchUnit.startTimer (w : WatchUnit) : WatchUnit :=
  { w with timer := if w.period = 0 then none else some (watchPeriods w.period) }

/-- R140: a stop begins: the timer stops and every pending job is dropped without a skip (log entry 16). -/
def WatchUnit.beginStop (w : WatchUnit) : WatchUnit :=
  WatchUnit.completeRound { w with timer := none, pending := [] }

/-- R139: an entry prepared for a session. -/
def WatchEntry.prepare (e : WatchEntry) : WatchEntry :=
  { e with state := .inside, count := 0, direction := .high, last := none, skipped := 0 }

/-- R139: the Watch Unit prepared for a session with the watch period of the setup block. -/
def WatchUnit.prepare (period : Nat) (w : WatchUnit) : WatchUnit :=
  { entries := w.entries.map WatchEntry.prepare, period := period, timer := none, round := 0, inProgress := false,
    pending := [], promoted := false, running := [], overrun := false }

/-! ### Judgment (R133 to R138) -/

/-- R134: limited to 0..65535. -/
def limit16 (x : Nat) : Nat := min 65535 x

/-- R134: the high level. -/
def highLevel (b : Nat) (e : WatchEntry) : Option Nat := e.upper.map fun u => limit16 (b + u)

/-- R134: the low level, floored at 0. -/
def lowLevel (b : Nat) (e : WatchEntry) : Option Nat := e.lower.map fun l => limit16 (b - l)

/-- R134: the high holding level. -/
def highHolding (b : Nat) (e : WatchEntry) : Option Nat := e.upper.map fun u => limit16 (b + u - e.hysteresis)

/-- R134: the low holding level. -/
def lowHolding (b : Nat) (e : WatchEntry) : Option Nat := e.lower.map fun l => limit16 (b + e.hysteresis - l)

/-- R134: whether a reading is a high crossing, a low crossing or an inside reading. -/
def crossing (b r : Nat) (e : WatchEntry) : Option Direction :=
  if (highLevel b e).any fun h => h ≤ r then some .high
  else if (lowLevel b e).any fun l => r ≤ l then some .low
  else none

/-- R136: whether a reading holds in ABOVE or BELOW. -/
def holds (b r : Nat) (e : WatchEntry) : Bool :=
  match e.state with
  | .above => (highHolding b e).any fun h => h ≤ r
  | .below => (lowHolding b e).any fun l => r ≤ l
  | .inside => false
  | .fault => false

/-- R135: the baseline after a tracking step toward an inside reading. -/
def trackBaseline (b r shift : Nat) : Nat :=
  if shift = 15 then b else ((b : Int) + ((r : Int) - (b : Int)).tdiv (2 ^ shift)).toNat

/-- R117, R135: the state a crossing leads to, and its event kind (R138). -/
def Direction.crossed : Direction → WatchState × EventKind
  | .high => (.above, .crossedHigh)
  | .low => (.below, .crossedLow)

/-- What a judgment gives: the entry, the channel's baseline, and the event kind raised. -/
structure Verdict where
  entry : WatchEntry
  baseline : Option Nat
  event : Option EventKind
  deriving DecidableEq, Repr

/-- R135: the pending count after a crossing. -/
def WatchEntry.crossingCount (e : WatchEntry) (d : Direction) : Nat :=
  if 0 < e.count ∧ e.direction = d then e.count + 1 else 1

/-- R135: an entry in INSIDE judged with reading r against baseline b. -/
def judgeInside (b r : Nat) (e : WatchEntry) : Verdict :=
  match crossing b r e with
  | some d =>
    let n := e.crossingCount d
    if n = e.persistence then
      { entry := { e with state := d.crossed.1, count := 0, direction := d, last := some r },
        baseline := some b, event := some d.crossed.2 }
    else { entry := { e with count := n, direction := d, last := some r }, baseline := some b, event := none }
  | none =>
    { entry := { e with count := 0, last := some r }, baseline := some (trackBaseline b r e.shift), event := none }

/-- R136: an entry in ABOVE or BELOW judged with reading r against baseline b. -/
def judgeOutside (b r : Nat) (e : WatchEntry) : Verdict :=
  if holds b r e then { entry := { e with count := 0, last := some r }, baseline := some b, event := none }
  else if e.count + 1 = e.persistence then
    { entry := { e with state := .inside, count := 0, last := some r }, baseline := some b, event := some .returned }
  else { entry := { e with count := e.count + 1, last := some r }, baseline := some b, event := none }

/-- R133, R135, R136: a judgment with a reading. An entry in FAULT has no job (R128), so none is judged. -/
def judge (baseline : Option Nat) (r : Nat) (e : WatchEntry) : Verdict :=
  match baseline with
  | none => { entry := { e with count := 0, last := some r }, baseline := some r, event := none }
  | some b =>
    match e.state with
    | .inside => judgeInside b r e
    | .above => judgeOutside b r e
    | .below => judgeOutside b r e
    | .fault => { entry := e, baseline := some b, event := none }

/-- R137: a judgment with status OPEN. -/
def judgeOpen (baseline : Option Nat) (e : WatchEntry) : Verdict :=
  { entry := { e with state := .fault, count := 0 }, baseline := baseline, event := some .watchFault }

/-- R132, step 3: the reading of a watch job: the mean, or the ceiling for CEILING; none for OPEN. -/
def watchReading (n ceiling : Nat) (samples : List Sample) : Option Nat :=
  match runStatus n samples with
  | .opened => none
  | .ceiling => some ceiling
  | _ => (summaryOf samples).map Summary.mean

/-- R132: the verdict of a watch job's sample list. -/
def watchVerdict (n ceiling : Nat) (samples : List Sample) (baseline : Option Nat) (e : WatchEntry) : Verdict :=
  match watchReading n ceiling samples with
  | some r => judge baseline r e
  | none => judgeOpen baseline e

/-- R138: the event record of a verdict, if it raises one. -/
def Verdict.report (v : Verdict) (before : WatchEntry) (reading : Option Nat) (round : Nat) : Option Report :=
  v.event.map fun kind => .event kind before.id before.ch before.state (reading.getD 0) v.baseline round

/-- Raises a report if there is one. -/
def raiseOption (r : Option Report) (s : State) : State :=
  match r with
  | some r => raise r s
  | none => s

/-- R132, steps 4 and 5: the running-job record goes, the claim is released, the round may complete. -/
def endRunning (w : RunningWatch) (s : State) : State :=
  (releaseWatchClaim w.ch s).modWatch fun u =>
    WatchUnit.completeRound { u with running := u.running.filter fun x => x.id != w.id }

/-- The running-job record of a watch id (R119). -/
def runningWatch (s : State) (id : WatchId) : Option RunningWatch := s.watch.running.find? fun w => w.id == id

/-- R132, step 3: the judgment of a running job's entry, with its baseline write and its event. -/
def applyVerdict (w : RunningWatch) (job : Job) (e : WatchEntry) (s : State) : State :=
  let v := watchVerdict job.n job.ceiling job.samples (s.channels[w.ch].baseline) e
  raiseOption (v.report e (watchReading job.n job.ceiling job.samples) w.round)
    ((modEntry e.id (fun _ => v.entry) s).modChan w.ch fun x => { x with baseline := v.baseline })

/-- R132: a watch job ends normally. -/
def watchNormalEnd (id : WatchId) (job : Job) (s : State) : State :=
  match runningWatch s id with
  | none => s
  | some w =>
    match w.discard, watchEntry s id with
    | false, some e => endRunning w (applyVerdict w job e s)
    | _, _ => endRunning w s

/-- R15, R132: a watch job ends by a fault: skipped and counted, unless it is marked for discard. -/
def watchFaultEnd (id : WatchId) (s : State) : State :=
  match runningWatch s id with
  | none => s
  | some w => endRunning w (if w.discard then s else modEntry id WatchEntry.skip s)

end Sys2Proof.Machine
end

