-- ==== Sys2Proof/Machine/Converters.lean ====
section
/-! DEFINITION. Converters: dispatch (R6, R29), checks (R11, R12), pending marks (R8, R10, R151), cuts (R16). -/

namespace Sys2Proof.Machine

/-! ### Dispatch (R6, R28, R29, R41) -/

/-- R29: the profile values a hop set names at this moment. -/
def copyProfiles (s : State) (hop : HopIx) : List Profile := s.hopSets[hop].map fun p => s.profiles[p]

/-- R41, R84: the compensation applied to each connected channel. -/
def appliedTo (s : State) (item : Item) : List Applied :=
  item.channels.map fun ch => { ch := ch, trim := s.channels[ch].trim, comp := s.channels[ch].comp }

/-- R6: the new job record of an item, a trial or a watch job. -/
def newJob (s : State) (owner : JobOwner) (item : Item) (n settle ceiling : Nat) (hop : HopIx) : Job :=
  { owner := owner, connection := .electrodes item, n := n, settle := settle, ceiling := ceiling,
    profiles := copyProfiles s hop, applied := appliedTo s item, samples := [], cut := false }

/-- R6: the converter connects: SETTLING for settle code 1..11, SAMPLING for code 0. -/
def connect (c : ConvId) (job : Job) (s : State) : State :=
  s.modConv c fun v => { v with state := if job.settle = 0 then .sampling else .settling, job := some job }

/-- R86: an item of a MEASURE is dispatched; its entry becomes RUNNING and records the converter. -/
def dispatchItem (c : ConvId) (k : CtxId) (i : Nat) (b : MeasureBody) (e : ItemEntry) (s : State) : State :=
  modItem k i (fun e => { e with job := .running, conv := some c })
    (connect c (newJob s (.item k i) e.item b.n b.settle b.ceiling (Fin.ofNat 8 b.hop)) s)

/-- R107: the ready trial of a TRIM is dispatched. -/
def dispatchTrial (c : ConvId) (k : CtxId) (b : TrimBody) (q : Search) (s : State) : State :=
  (connect c (newJob s (.trial k) (.single b.chan) b.n b.settle b.ceiling (Fin.ofNat 8 b.hop)) s).modCtx k
    fun x => { x with search := some { q with job := .running } }

/-- R52, R131: a watch job is granted its claim and dispatched. -/
def dispatchWatch (c : ConvId) (e : WatchEntry) (s : State) : State :=
  ((connect c (newJob s (.watch e.id) (.single e.ch) e.n e.settle e.ceiling e.hop) s).modChan e.ch
      fun x => { x with holder := some .watchUnit }).modWatch fun w =>
    { w with
      pending := w.pending.filter fun x => x != e.id
      running := w.running ++ [{ id := e.id, ch := e.ch, conv := c, round := w.round, discard := false }] }

/-! ### Checks and marks -/

/-- R11: the job record of a check: the internal reference, profile 0 alone, settle code 6, ceiling 65535, n = 4. -/
def checkJob (s : State) (owner : CheckOwner) : Job :=
  { owner := .check owner, connection := .reference, n := 4, settle := 6, ceiling := 65535,
    profiles := [s.profiles[(0 : ProfileIx)]], applied := [], samples := [], cut := false }

/-- R11: a check starts; the converter's current state becomes the check origin. -/
def startCheck (c : ConvId) (owner : CheckOwner) (s : State) : State :=
  s.modConv c fun v => { v with state := .checking, origin := some v.state, job := some (checkJob s owner) }

/-- Clears a converter's pending mark. -/
def clearMark (c : ConvId) (s : State) : State := s.modConv c fun v => { v with mark := none }

/-- What a CONVERTER_SET context waits for (R61, R151). -/
def setWait (k : CtxId) (w : ConvWait) (s : State) : State :=
  s.modCtx k fun c => { c with action := c.action.map fun a => { a with waits := w } }

/-- R8, R12, R13, R151: a pending mark is resolved against the converter's new state, IDLE or OFFLINE. A hold mark
makes it HELD and its CONVERTER_SET completes; a check mark starts a check that belongs to the mark's owner, but not
in HALTED (R10). -/
def resolveMark (c : ConvId) (s : State) : State :=
  match s.converters[c].mark with
  | none => s
  | some m =>
    match m.kind with
    | .hold =>
      completeContext m.owner .success (.converter c .held none none) (changeConvState c .held (clearMark c s))
    | .check =>
      if s.engine.state = .halted then s
      else setWait m.owner .check (startCheck c (.context m.owner) (clearMark c s))

/-- R127, R178: the engine enters RUNNING and the period timer starts with the full period. -/
def enterRunning (s : State) : State :=
  (s.modEngine fun e => { e with state := .running }).modWatch WatchUnit.startTimer

/-- R178: a start-up check has ended: its converter leaves the start-up checks left, and the last one in LOADING lets
the engine enter RUNNING. -/
def startupCheckEnded (c : ConvId) (s : State) : State :=
  let s1 := s.modEngine fun e => { e with startupLeft := e.startupLeft.filter fun x => x != c }
  if s1.engine.state = .loading ∧ s1.engine.startupLeft = [] then enterRunning s1 else s1

/-- R12: the owner of a check is handed its result. `new` is the converter's state by the result (log entry 17). -/
def handCheckResult (c : ConvId) (owner : CheckOwner) (pass : Bool) (new : ConvState) (mean : Option Nat) (s : State) :
    State :=
  match owner with
  | .context k => completeContext k (if pass then .success else .checkFailed) (.converter c new mean none) s
  | .engineControl => startupCheckEnded c s
  | .nobody => s

/-- The owner of a converter's running check. -/
def checkOwner (v : Converter) : CheckOwner :=
  match v.job with
  | some j =>
    match j.owner with
    | .check o => o
    | _ => .nobody
  | none => .nobody

/-- The converter's job record and check origin are cleared. -/
def clearJob (c : ConvId) (s : State) : State := s.modConv c fun v => { v with job := none, origin := none }

/-- R12: a passed check: IDLE, with CONVERTER_ONLINE when the origin was OFFLINE or HELD. -/
def checkPass (c : ConvId) (mean : Option Nat) (s : State) : State :=
  let v := s.converters[c]
  let s1 := clearJob c (s.modConv c fun v => { v with state := .idle })
  let s2 := match v.origin with
    | some .offline => raise (.converterOnline c .offline mean) s1
    | some .held => raise (.converterOnline c .held mean) s1
    | _ => s1
  resolveMark c (handCheckResult c (checkOwner v) true .idle mean s2)

/-- R12, R13: a failed check: CONVERTER_OFFLINE with its cause, and the converter OFFLINE. -/
def checkFail (c : ConvId) (cause : OfflineCause) (mean : Option Nat) (s : State) : State :=
  let v := s.converters[c]
  let s1 := clearJob c (changeConvState c .offline (raise (.converterOffline c cause mean) s))
  resolveMark c (handCheckResult c (checkOwner v) false .offline mean s1)

/-- R12: a check ends at its fourth sample or at a STALL. -/
def concludeCheck (c : ConvId) (samples : List Sample) (s : State) : State :=
  let mean := meanOf (goodReadings samples)
  if checkPasses samples then checkPass c mean s else checkFail c .checkFailed mean s

/-! ### Cuts (R16) -/

/-- Whether a job is an ITEM or TRIAL job of a context. -/
def Job.ownedBy (k : CtxId) (j : Job) : Bool :=
  match j.owner with
  | .item k' _ => k' == k
  | .trial k' => k' == k
  | .watch _ => false
  | .check _ => false

/-- R16: a cut sets the job's cut flag; a converter in SETTLING or SAMPLING stops at once and discharges. -/
def Converter.cutFor (k : CtxId) (v : Converter) : Converter :=
  match v.job with
  | some j =>
    if j.ownedBy k then
      { v with
        job := some { j with cut := true }
        state := if v.state = .settling ∨ v.state = .sampling then .discharging else v.state }
    else v
  | none => v

/-- R16: a cut sets the cut flag of a job in fault discharge. -/
def FaultDischarge.cutFor (k : CtxId) (d : FaultDischarge) : FaultDischarge :=
  { d with job := d.job.map fun j => if j.ownedBy k then { j with cut := true } else j }

/-- R16: every running ITEM or TRIAL job of a context is cut. -/
def cutJobs (k : CtxId) (s : State) : State :=
  { s with
    converters := s.converters.map (Converter.cutFor k)
    faultDischarges := s.faultDischarges.map (FaultDischarge.cutFor k) }

/-! ### Early ends (R77, R145, R152, R181) -/

/-- R10, R152: the marks a context set are withdrawn, and a check it owns is no longer handed to it. -/
def Converter.disown (k : CtxId) (v : Converter) : Converter :=
  { v with
    mark := v.mark.filter fun m => m.owner != k
    job := v.job.map fun j => if j.owner = .check (.context k) then { j with owner := .check .nobody } else j }

/-- R73: the list read of a context that leaves LISTING early is discarded when it arrives. -/
def discardListReads (k : CtxId) (s : State) : State :=
  { s with listReads := s.listReads.map fun r => if r.owner = k then { r with discarded := true } else r }

/-- R95: the entries of a MEASURE whose end cause is set: NOT_STARTED becomes ENDED with item status ABORTED. -/
def ItemEntry.endIfNotStarted (e : ItemEntry) : ItemEntry := if e.job = .notStarted then e.endAborted else e

/-- R77: what an ACTIVE context does when its end cause has been set. -/
def endActive (k : CtxId) (c : Context) (e : EndCause × CtxState) (s : State) : State :=
  match c.request.body with
  | .measure _ =>
    measureWorkEnd k (cutJobs k (s.modCtx k fun c => { c with items := c.items.map ItemEntry.endIfNotStarted }))
  | .trim _ =>
    match c.search with
    | some q => if q.job = .running then cutJobs k s else trimEarlyEnd k s
    | none => s
  | _ => completeEarly k e { s with converters := s.converters.map (Converter.disown k) }

/-- R77: an ABORT or a STOP_CUT sets a context's end cause; a context that has one keeps it, and a context in WRITING
or POSTING is not given one. -/
def setEndCause (cause : EndCause) (k : CtxId) (s : State) : State :=
  match s.contexts[k] with
  | none => s
  | some c =>
    if c.endCause.isSome then s
    else
      let e := (cause, c.state)
      let s1 := s.modCtx k fun c => { c with endCause := some e }
      match c.state with
      | .listing => completeEarly k e (discardListReads k s1)
      | .claiming => completeEarly k e s1
      | .active => endActive k c e s1
      | .writing => s
      | .posting => s

end Sys2Proof.Machine
end

