-- ==== Sys2Proof/Machine/Claims.lean ====
section
/-! DEFINITION. The claim arbiter (R47, R48, R49), the CHANNEL_SET at its grant (R55), and the watch claim (R52). -/

namespace Sys2Proof.Machine

/-- R48: whether a context in use waits for a channel of a set: in CLAIMING with its claim set, in LISTING with all
64 channels. -/
def Context.waitsFor (c : Context) (set : List Chan) : Bool :=
  match c.state with
  | .listing => !set.isEmpty
  | .claiming => c.claimSet.any fun ch => set.contains ch
  | .active => false
  | .writing => false
  | .posting => false

/-- R48, test 2 turned round: an older context waits for a channel of the set. -/
def olderWaits (s : State) (c : Context) : Bool :=
  allContexts.any fun k =>
    match s.contexts[k] with
    | some o => decide (o.admission < c.admission) && o.waitsFor c.claimSet
    | none => false

/-- R48: a context in CLAIMING is granted when no channel of its set has a holder and no older context waits for
one. -/
def grantable (s : State) (c : Context) : Bool :=
  c.state == .claiming && c.claimSet.all (fun ch => (s.channels[ch].holder).isNone) && !olderWaits s c

/-- R49: the lowest-numbered channel of a set that is OFF. -/
def firstOff (s : State) (set : List Chan) : Option Chan := set.find? fun ch => !s.channels[ch].ready

/-- The park mode of a checked code (R54, 11.3). -/
def parkOfCode : Nat → Park
  | 0 => .ground
  | 1 => .float
  | _ => .shield

/-- The compensation mode of a checked code (R54, 11.3). -/
def compOfCode : Nat → Comp
  | 0 => .load
  | _ => .gain

/-- R55: the baseline by its action: 0 KEEP, 1 CLEAR, 2 SET. -/
def applyBaselineAction (action value : Nat) (old : Option Nat) : Option Nat :=
  match action with
  | 0 => old
  | 1 => none
  | _ => some value

/-- R55, step 2: every used field is written, all as one event. -/
def ChannelSetBody.apply (b : ChannelSetBody) (e : Channel) : Channel :=
  { e with
    ready := if b.hasState then b.state == 1 else e.ready
    park := if b.hasPark then parkOfCode b.park else e.park
    comp := if b.hasComp then compOfCode b.comp else e.comp
    trim := if b.hasTrim then b.trim else e.trim
    baseline := if b.hasBaseline then applyBaselineAction b.baselineAction b.baselineValue e.baseline else e.baseline }

/-- R57: the detail that reports a channel entry. -/
def Channel.detail (e : Channel) : Detail := .entry e.ready e.park e.comp e.trim e.baseline

/-- R55, step 1: a CHANNEL_SET that would make a watched channel OFF is refused. A checked state code is 0 OFF or 1
READY. -/
def ChannelSetBody.refusedBy (b : ChannelSetBody) (e : Channel) : Bool :=
  b.hasState && b.state != 1 && e.watchLink.isSome

/-- R55, R57: a granted CHANNEL_SET executes, releases its claim and goes to POSTING. -/
def execChannelSet (k : CtxId) (b : ChannelSetBody) (s : State) : State :=
  let ch : Chan := Fin.ofNat 64 b.channel
  let e := s.channels[ch]
  if b.refusedBy e then completeContext k .channelWatched e.detail (releaseClaims k s)
  else
    completeContext k .success (b.apply e).detail (releaseClaims k (s.modChan ch b.apply))

/-- R49, R105: a granted MEASURE or TRIM with every channel READY enters ACTIVE; a TRIM saves its channel's trim and
baseline and its trial 0 becomes ready. -/
def activate (k : CtxId) (c : Context) (s : State) : State :=
  let s1 := s.modCtx k fun c => { c with state := .active }
  match c.request.body with
  | .trim b => beginTrial k b.chan (Search.atGrant s.channels[b.chan]) s1
  | _ => s1

/-- R49: a context is granted its whole claim set. -/
def grant (k : CtxId) (c : Context) (s : State) : State :=
  let s1 := holdClaims k c.claimSet s
  match c.request.body with
  | .channelSet b => execChannelSet k b s1
  | _ =>
    match firstOff s c.claimSet with
    | some ch => completeContext k .channelOff (.channel ch) (releaseClaims k s1)
    | none => activate k c s1

/-- R47: one context of a pass. -/
def tryGrant (s : State) (k : CtxId) : State :=
  match s.contexts[k] with
  | some c => if grantable s c then grant k c s else s
  | none => s

/-- R20, R47, R53: the arbiters act in RUNNING and STOPPING. -/
def arbitersRun (s : State) : Bool := s.engine.state == .running || s.engine.state == .stopping

/-- R47: a grant pass: the contexts in CLAIMING in order of admission number, smallest first. -/
def grantPass (s : State) : State :=
  if arbitersRun s then ((byAdmission s).filter (inState s .claiming)).foldl tryGrant s else s

/-- R52: the watch claim on a channel is granted when the channel has no holder and no context in CLAIMING has the
channel in its claim set. -/
def watchClaimGranted (s : State) (ch : Chan) : Bool :=
  (s.channels[ch].holder).isNone && !allContexts.any fun k =>
    match s.contexts[k] with
    | some c => c.state == .claiming && c.claimSet.contains ch
    | none => false

end Sys2Proof.Machine
end

