-- ==== Sys2Proof/Machine/Requests.lean ====
section
/-! DEFINITION. The requests that execute at their admission: PROFILE_SET (R33), the four watch requests (R120 to
R126), CONVERTER_SET (R147 to R150) and ABORT (R142 to R145). -/

namespace Sys2Proof.Machine

/-- The first check of a list that fails, as field code and index (R67: checks run in order and stop at the first
that fails). -/
def firstFailure (checks : List (Bool × Nat × Nat)) : Option (Nat × Nat) :=
  (checks.find? fun c => c.1).map fun c => c.2

/-! ### PROFILE_SET (R32, R33) -/

/-- R25: whether a half-cycle count lies in 2..16. -/
def countInRange (n : Nat) : Bool := 2 ≤ n && n ≤ 16

/-- R32, check 1: the high, then the low count of each profile whose presence bit is set. -/
def profileChecks (b : ProfileSetBody) : List (Bool × Nat × Nat) :=
  (((List.range 16).zip b.profiles).map fun x =>
    [(b.mask.getLsbD x.1 && !countInRange x.2.high, 48, x.1), (b.mask.getLsbD x.1 && !countInRange x.2.low, 49, x.1)]).flatten

/-- R32, check 4: each used hop entry, from position 0 upward. -/
def hopEntryChecks (b : ProfileSetBody) : List (Bool × Nat × Nat) :=
  ((List.range 24).zip (b.hopEntries.take b.hopLength)).map fun x => (b.hopWrite && !decide (x.2 < 16), 52, x.1)

/-- R32: the checks of a PROFILE_SET in order. -/
def ProfileSetBody.check (b : ProfileSetBody) : Option (Nat × Nat) :=
  firstFailure
    (profileChecks b
      ++ [(b.hopWrite && !(1 ≤ b.hopSet && b.hopSet ≤ 7), 50, 0),
          (b.hopWrite && !(1 ≤ b.hopLength && b.hopLength ≤ 24), 51, 0)]
      ++ hopEntryChecks b)

/-- R33: the new value of a profile. -/
def ProfileSetBody.newProfile (b : ProfileSetBody) (i : Nat) (old : Profile) : Profile :=
  if b.mask.getLsbD i then b.profiles.getD i old else old

/-- R33: the new list of the hop set written. -/
def ProfileSetBody.newHopSet (b : ProfileSetBody) : List ProfileIx := (b.hopEntries.take b.hopLength).map (Fin.ofNat 16)

/-- R33: a PROFILE_SET executes: all its writes as one event, and SUCCESS. -/
def execProfileSet (k : CtxId) (b : ProfileSetBody) (s : State) : State :=
  let s1 := { s with profiles := s.profiles.mapIdx b.newProfile }
  let s2 := if b.hopWrite then { s1 with hopSets := s1.hopSets.set (Fin.ofNat 8 b.hopSet) b.newHopSet } else s1
  completeContext k .success (.profiles b.mask (if b.hopWrite then b.hopSet else 0)) s2

/-! ### WATCH_ADD (R120, R121) -/

/-- R120, step 5: the field checks made at execution. -/
def WatchAddBody.check (b : WatchAddBody) : Option (Nat × Nat) :=
  firstFailure
    [(!(1 ≤ b.n && b.n ≤ 16), 17, 0), (!decide (b.settle ≤ 11), 18, 0), (!decide (b.hop < 8), 19, 0),
     (!(256 ≤ b.ceiling && b.ceiling ≤ 65535), 20, 0), (b.upper == some 0, 57, 0), (b.lower == some 0, 58, 0),
     (b.upper.isNone && b.lower.isNone, 59, 0), (!decide (b.hysteresis ≤ 4095), 60, 0),
     (!(1 ≤ b.persistence && b.persistence ≤ 15), 61, 0), (!decide (b.shift ≤ 15), 62, 0)]

/-- R121: the new entry, INSIDE with nothing counted. -/
def WatchAddBody.entry (b : WatchAddBody) : WatchEntry :=
  { id := Fin.ofNat 32 b.id, ch := Fin.ofNat 64 b.channel, n := b.n, settle := b.settle, hop := Fin.ofNat 8 b.hop,
    ceiling := b.ceiling, upper := b.upper, lower := b.lower, hysteresis := b.hysteresis,
    persistence := b.persistence, shift := b.shift, state := .inside, count := 0, direction := .high, last := none,
    skipped := 0 }

/-- R118: an entry joins the list at the position of its id. -/
def insertEntry (e : WatchEntry) : List WatchEntry → List WatchEntry
  | [] => [e]
  | x :: xs => if e.id < x.id then e :: x :: xs else x :: insertEntry e xs

/-- R120, R121: a WATCH_ADD executes; its status and detail are the first check that fails, or SUCCESS. -/
def execWatchAdd (k : CtxId) (b : WatchAddBody) (s : State) : State :=
  let e := b.entry
  match watchEntry s e.id with
  | some old => completeContext k .idInUse (.watch e.id.val old.ch.val) s
  | none =>
    if !s.channels[e.ch].ready then completeContext k .channelOff (.channel e.ch) s
    else match s.channels[e.ch].watchLink with
      | some link => completeContext k .channelWatched (.watch link.val e.ch.val) s
      | none =>
        match b.check with
        | some (code, index) => completeContext k .invalidRequest (.field code index) s
        | none =>
          completeContext k .success (.watch e.id.val e.ch.val)
            ((s.modWatch fun w => { w with entries := insertEntry e w.entries }).modChan e.ch
              fun x => { x with watchLink := some e.id })

/-! ### WATCH_REMOVE, WATCH_QUERY, WATCH_TIMING (R122, R124, R126) -/

/-- R122, steps 1, 3 and 4: the entry leaves the list, its pending job is removed, its running job is marked for
discard; the round may complete. -/
def WatchUnit.remove (id : WatchId) (w : WatchUnit) : WatchUnit :=
  WatchUnit.completeRound
    { w with
      entries := w.entries.filter fun e => e.id != id
      pending := w.pending.filter fun x => x != id
      running := w.running.map fun r => if r.id = id then { r with discard := true } else r }

/-- R122: a WATCH_REMOVE executes. -/
def execWatchRemove (k : CtxId) (id : WatchId) (s : State) : State :=
  match watchEntry s id with
  | none => completeContext k .noSuchWatch (.watch id.val 0) s
  | some e =>
    completeContext k .success (.watch id.val e.ch.val)
      ((s.modWatch (WatchUnit.remove id)).modChan e.ch fun x => { x with watchLink := none })

/-- R124: a WATCH_QUERY executes: a snapshot and its write, or BUFFER_TOO_SMALL. -/
def execWatchQuery (k : CtxId) (c : Context) (s : State) : State :=
  let needed := queryLength s.watch.entries.length
  if c.request.resultLength < needed then completeContext k .bufferTooSmall (.length needed) s
  else
    enterWriting k .success (.query s.watch.entries.length s.watch.round) c.request.resultAddr
      (watchQueryResult c.queue c.request.tag s) s

/-- R126: a WATCH_TIMING executes: the new period, and the timer restarted from it. -/
def execWatchTiming (k : CtxId) (period : Nat) (s : State) : State :=
  completeContext k .success (.period period) (s.modWatch fun w => WatchUnit.startTimer { w with period := period })

/-! ### CONVERTER_SET (R147 to R150) -/

/-- The action of a checked code (R147, 11.3). -/
def actionOfCode : Nat → ConvAction
  | 1 => .hold
  | 2 => .release
  | _ => .check

/-- R148 to R150: a mark is left on a busy converter, owned by the context, which waits for it. -/
def leaveMark (c : ConvId) (kind : MarkKind) (k : CtxId) (s : State) : State :=
  setWait k .mark (s.modConv c fun v => { v with mark := some { kind := kind, owner := k } })

/-- R149, R150: a check that belongs to the context starts, and the context waits for it. -/
def ownCheck (c : ConvId) (k : CtxId) (s : State) : State := setWait k .check (startCheck c (.context k) s)

/-- R148. -/
def execHold (c : ConvId) (k : CtxId) (s : State) : State :=
  match s.converters[c].state with
  | .idle => completeContext k .success (.converter c .held none none) (changeConvState c .held s)
  | .offline => completeContext k .success (.converter c .held none none) (changeConvState c .held s)
  | .held => completeContext k .success (.converter c .held none none) s
  | .settling => leaveMark c .hold k s
  | .sampling => leaveMark c .hold k s
  | .discharging => leaveMark c .hold k s
  | .checking => leaveMark c .hold k s

/-- R149. -/
def execRelease (c : ConvId) (k : CtxId) (s : State) : State :=
  if s.converters[c].state = .held then ownCheck c k s
  else completeContext k .notHeld (.converter c s.converters[c].state none none) s

/-- R150. -/
def execCheck (c : ConvId) (k : CtxId) (s : State) : State :=
  match s.converters[c].state with
  | .idle => ownCheck c k s
  | .offline => ownCheck c k s
  | .held => completeContext k .converterHeld (.converter c .held none none) s
  | .settling => leaveMark c .check k s
  | .sampling => leaveMark c .check k s
  | .discharging => leaveMark c .check k s
  | .checking => leaveMark c .check k s

/-- R147: a CONVERTER_SET executes: it records its action, finds the converter marked (CONVERTER_BUSY), or acts. -/
def execConverterSet (k : CtxId) (c : ConvId) (action : ConvAction) (s : State) : State :=
  let s1 := s.modCtx k fun x => { x with action := some { conv := c, action := action, waits := .nothing } }
  match s.converters[c].mark with
  | some m => completeContext k .converterBusy (.converter c s.converters[c].state none (some m.kind)) s1
  | none =>
    match action with
    | .hold => execHold c k s1
    | .release => execRelease c k s1
    | .check => execCheck c k s1

/-! ### ABORT (R142 to R145) -/

/-- R143: the context of the target queue that holds the target tag, other than the ABORT's own. -/
def abortTarget (s : State) (k : CtxId) (queue : QueueId) (tag : Nat) : Option CtxId :=
  allContexts.find? fun t =>
    t != k && (match s.contexts[t] with
      | some c => c.queue == queue && c.holdsTag && c.request.tag == tag
      | none => false)

/-- R144: the other contexts in use of the target queue, in ascending admission number. -/
def abortAllTargets (s : State) (k : CtxId) (queue : QueueId) : List CtxId :=
  (byAdmission s).filter fun t =>
    t != k && (match s.contexts[t] with
      | some c => c.queue == queue
      | none => false)

/-- R143, R144: a target in LISTING, CLAIMING or ACTIVE is counted. -/
def countsAsAborted (s : State) (t : CtxId) : Bool :=
  inState s .listing t || inState s .claiming t || inState s .active t

/-- R143: an ABORT of scope ONE. -/
def execAbortOne (k : CtxId) (queue : QueueId) (tag : Nat) (s : State) : State :=
  match abortTarget s k queue tag with
  | none => completeContext k .notFound (.count 0) s
  | some t =>
    if inState s .writing t then completeContext k .tooLate (.state .writing) s
    else if inState s .posting t then completeContext k .tooLate (.state .posting) s
    else completeContext k .success (.count 1) (setEndCause .aborted t s)

/-- R144: an ABORT of scope ALL. -/
def execAbortAll (k : CtxId) (queue : QueueId) (s : State) : State :=
  let targets := (abortAllTargets s k queue).filter (countsAsAborted s)
  if targets.isEmpty then completeContext k .notFound (.count 0) s
  else
    completeContext k .success (.count targets.length)
      (targets.foldl (fun t x => setEndCause .aborted x t) s)

/-- R142: an ABORT executes; scope 1 is ONE, 2 is ALL. -/
def execAbort (k : CtxId) (queue : QueueId) (scope tag : Nat) (s : State) : State :=
  if scope = 1 then execAbortOne k queue tag s else execAbortAll k queue s

end Sys2Proof.Machine
end

