-- ==== Sys2Proof/Machine/Admission.lean ====
section
/-! DEFINITION. Admission: a fetched request becomes a context, runs its checks and enters the first state of its path
(R59, R64 to R70, R72). -/

namespace Sys2Proof.Machine

/-! ### The checks of an admission (R65 to R69) -/

/-- R66: whether a context in use of the queue holds the tag. -/
def tagHeld (s : State) (queue : QueueId) (tag : Nat) : Bool :=
  allContexts.any fun k =>
    match s.contexts[k] with
    | some c => c.queue == queue && c.holdsTag && c.request.tag == tag
    | none => false

/-- The kinds that write result data (R67). -/
def Body.writesResult : Body → Bool
  | .measure _ => true
  | .trim _ => true
  | .watchQuery => true
  | _ => false

/-- Whether a body is that of a MEASURE. -/
def Body.isMeasure : Body → Bool
  | .measure _ => true
  | _ => false

/-- R67: the common checks: kind (1), flags (2), result address (3). -/
def Request.commonCheck (r : Request) : Option (Nat × Nat) :=
  firstFailure
    [(r.body == .unknown, 1, 0),
     (!r.body.isMeasure && (r.flags.keepSamples || r.flags.setBaseline || r.flags.externalList), 2, 0),
     (r.body.writesResult && r.resultAddr.toNat % 4 != 0, 3, 0)]

/-- R68: the checks of sample count, settle code, hop set and ceiling, shared by MEASURE and TRIM. -/
def sampleChecks (n settle hop ceiling : Nat) : List (Bool × Nat × Nat) :=
  [(!(1 ≤ n && n ≤ 16), 17, 0), (!decide (settle ≤ 11), 18, 0), (!decide (hop < 8), 19, 0),
   (!(256 ≤ ceiling && ceiling ≤ 65535), 20, 0)]

/-- R68: the first failing check of a MEASURE body; the inline items come last. -/
def MeasureBody.check (b : MeasureBody) (external : Bool) : Option (Nat × Nat) :=
  match firstFailure
      ((!(1 ≤ b.itemCount && b.itemCount ≤ (if external then 32 else 8)), 16, 0)
        :: sampleChecks b.n b.settle b.hop b.ceiling
        ++ [(external && b.listAddr.toNat % 4 != 0, 21, 0)]) with
  | some e => some e
  | none =>
    if external then none
    else match checkItems 0 (b.inlineItems.take b.itemCount) with
      | .error e => some e
      | .ok _ => none

/-- R68: the first failing check of a TRIM body. -/
def TrimBody.check (b : TrimBody) : Option (Nat × Nat) :=
  firstFailure
    ((!decide (b.channel < 64), 32, 0) :: sampleChecks b.n b.settle b.hop b.ceiling
      ++ [(decide (b.windowHigh < b.windowLow), 34, 0)])

/-- R54: the first failing check of a CHANNEL_SET body. -/
def ChannelSetBody.check (b : ChannelSetBody) : Option (Nat × Nat) :=
  firstFailure
    [(!decide (b.channel < 64), 32, 0), (b.hasState && !decide (b.state ≤ 1), 40, 0),
     (b.hasPark && !decide (b.park ≤ 2), 41, 0), (b.hasComp && !decide (b.comp ≤ 1), 42, 0),
     (b.hasTrim && !decide (b.trim ≤ 127), 43, 0), (b.hasBaseline && !decide (b.baselineAction ≤ 2), 44, 0)]

/-- R67: the body checks made at admission, by kind. -/
def Request.bodyCheck (r : Request) : Option (Nat × Nat) :=
  match r.body with
  | .measure b => b.check r.flags.externalList
  | .trim b => b.check
  | .channelSet b => b.check
  | .profileSet b => b.check
  | .watchAdd b => firstFailure [(!decide (b.id < 32), 56, 0), (!decide (b.channel < 64), 32, 0)]
  | .watchRemove id => firstFailure [(!decide (id < 32), 56, 0)]
  | .watchQuery => none
  | .watchTiming period => firstFailure [(!decide (period ≤ 60000), 63, 0)]
  | .converterSet conv action =>
    firstFailure [(!decide (conv < 4), 64, 0), (!(1 ≤ action && action ≤ 3), 65, 0)]
  | .abort queue scope _ => firstFailure [(!decide (queue < 4), 72, 0), (!(scope == 1 || scope == 2), 73, 0)]
  | .unknown => none

/-- R69: the required result length checked at admission, for the kinds that have one. -/
def Request.requiredLength (r : Request) : Option Nat :=
  match r.body with
  | .measure b => some (measureLength r.flags.keepSamples b.n b.itemCount)
  | .trim _ => some trimLength
  | _ => none

/-- R65: the checks of an admission in order; the status and detail of the first that fails. -/
def admissionFailure (s : State) (queue : QueueId) (r : Request) : Option (Status × Detail) :=
  if tagHeld s queue r.tag then some (.tagInUse, .zero)
  else match r.commonCheck with
    | some (code, index) => some (.invalidRequest, .field code index)
    | none =>
      match r.bodyCheck with
      | some (code, index) => some (.invalidRequest, .field code index)
      | none =>
        match r.requiredLength with
        | some needed => if r.resultLength < needed then some (.bufferTooSmall, .length needed) else none
        | none => none

/-! ### The first state of the path (R59, R72) -/

/-- R46, R62, R72: the items become known: the item table and the claim set are formed and the context enters
CLAIMING. -/
def formItems (k : CtxId) (items : List Item) (s : State) : State :=
  s.modCtx k fun c =>
    { c with state := .claiming, items := items.map ItemEntry.fresh, claimSet := claimSetOf items }

/-- R46: a context with a claim set of one channel enters CLAIMING. -/
def claimOne (k : CtxId) (ch : Chan) (s : State) : State :=
  s.modCtx k fun c => { c with state := .claiming, claimSet := [ch] }

/-- R72: a MEASURE with EXTERNAL_LIST enters LISTING and issues one read of 4 x item count bytes. -/
def beginListing (k : CtxId) (b : MeasureBody) (s : State) : State :=
  let s1 := s.modCtx k fun c => { c with state := .listing }
  { s1 with
    listReads := s1.listReads ++ [{ owner := k, addr := b.listAddr, bytes := 4 * b.itemCount, discarded := false }] }

/-- R59, R83: a MEASURE that passed its checks. -/
def beginMeasure (k : CtxId) (b : MeasureBody) (external : Bool) (s : State) : State :=
  if external then beginListing k b s
  else match checkItems 0 (b.inlineItems.take b.itemCount) with
    | .ok items => formItems k items s
    | .error (code, index) => completeContext k .invalidRequest (.field code index) s

/-- R59: the path of a request that passed every check. -/
def beginPath (k : CtxId) (c : Context) (s : State) : State :=
  match c.request.body with
  | .measure b => beginMeasure k b c.request.flags.externalList s
  | .trim b => claimOne k b.chan s
  | .channelSet b => claimOne k (Fin.ofNat 64 b.channel) s
  | .profileSet b => execProfileSet k b s
  | .watchAdd b => execWatchAdd k b s
  | .watchRemove id => execWatchRemove k (Fin.ofNat 32 id) s
  | .watchQuery => execWatchQuery k c s
  | .watchTiming period => execWatchTiming k period s
  | .converterSet conv action => execConverterSet k (Fin.ofNat 4 conv) (actionOfCode action) s
  | .abort queue scope tag => execAbort k (Fin.ofNat 4 queue) scope tag s
  | .unknown => completeContext k .invalidRequest (.field 1 0) s

/-- R61, R64: a context as it is taken; it holds its tag unless the tag check failed (R66). -/
def Context.admitted (queue : QueueId) (number : Nat) (holdsTag : Bool) (r : Request) : Context :=
  { state := .active, queue := queue, holdsTag := holdsTag, admission := number, request := r, claimSet := [],
    items := [], search := none, action := none, endCause := none, result := none, bytesWritten := 0 }

/-- The lowest-numbered FREE context (log entry 6). -/
def firstFreeContext (s : State) : Option CtxId := allContexts.find? fun k => (s.contexts[k]).isNone

/-- R63, R64: a context is taken: the record copied, the admission number given, the in-flight count raised. -/
def takeContext (k : CtxId) (c : Context) (s : State) : State :=
  { s.modQueue c.queue fun q => { q with inFlight := q.inFlight + 1 } with
    contexts := s.contexts.set k (some c)
    nextAdmission := s.nextAdmission + 1 }

/-- R64, R65: a record is admitted. A record always finds a FREE context (R63); were there none, nothing would
happen (log entry 21). -/
def admitRecord (queue : QueueId) (r : Request) (s : State) : State :=
  match firstFreeContext s with
  | none => s
  | some k =>
    let c := Context.admitted queue s.nextAdmission (!tagHeld s queue r.tag) r
    let s1 := takeContext k c s
    match admissionFailure s queue r with
    | some (st, d) => completeContext k st d s1
    | none => beginPath k c s1

/-- R70, R162: a fenced record that arrives while its queue has contexts in use becomes the held record; otherwise
the record is admitted. -/
def arrive (queue : QueueId) (r : Request) (s : State) : State :=
  if r.flags.fence ∧ 0 < (s.queues[queue]).inFlight then s.modQueue queue fun q => { q with held := some r }
  else admitRecord queue r s

/-- R70: when a queue's in-flight count has fallen to 0 in RUNNING, its held record is admitted. -/
def admitHeld (queue : QueueId) (s : State) : State :=
  match (s.queues[queue]).held with
  | some r =>
    if s.engine.state = .running ∧ (s.queues[queue]).inFlight = 0 then
      admitRecord queue r (s.modQueue queue fun q => { q with held := none })
    else s
  | none => s

end Sys2Proof.Machine
end

