-- ==== Sys2Proof/Machine/Arbiters.lean ====
section
/-! DEFINITION. What follows inside every event, once the event's own effects are done: grant passes and NO_CONVERTER
ends (R47, R19), the converter arbiter (R20 to R23), the posting order (R167), the fetch arbiter (R161), the issue of
a ring write (R166) and the end-of-stop test (R182). Their order is log entry 3. -/

namespace Sys2Proof.Machine

/-! ### No converter online (R19) -/

/-- R19, R94, R111: one ACTIVE context's ready items or trial end NO_CONVERTER. -/
def contextNoConverter (s : State) (k : CtxId) : State :=
  match s.contexts[k] with
  | none => s
  | some c =>
    match c.state, c.request.body with
    | .active, .measure _ => measureNoConverter k s
    | .active, .trim _ => trialNoConverter k s
    | _, _ => s

/-- R19: while no converter is online, ready items and trials end NO_CONVERTER and pending watch jobs are skipped. -/
def noConverterEnds (s : State) : State :=
  if onlineCount s = 0 then skipAllPending ((byAdmission s).foldl contextNoConverter s) else s

/-- Grant passes and NO_CONVERTER ends until neither changes anything: a request granted while no converter is online
ends at once and its release may grant another. Each repetition needs a context that left CLAIMING, so 17 suffice. -/
def settleClaims : Nat → State → State
  | 0, s => s
  | n + 1, s =>
    let s1 := noConverterEnds (grantPass s)
    if onlineCount s1 = 0 ∧ arbitersRun s1 ∧ allContexts.any (inState s1 .claiming) then settleClaims n s1 else s1

/-! ### The converter arbiter (R20 to R23) -/

/-- R21, group 2: the first ready item of a context in list order, but for one that the list order of R85 holds back. -/
def firstReadyItem (c : Context) : Option Nat := c.items.zipIdx.findIdx? fun x => itemMayStart c.items x.2 x.1

/-- A ready item or trial (R22). -/
inductive Work where
  | item (k : CtxId) (i : Nat)
  | trial (k : CtxId)
  deriving DecidableEq, Repr

/-- R22: the ready item or trial of an ACTIVE context. -/
def readyWork (s : State) (k : CtxId) : Option Work :=
  match s.contexts[k] with
  | none => none
  | some c =>
    match c.state, c.request.body, c.search with
    | .active, .measure _, _ => (firstReadyItem c).map (Work.item k)
    | .active, .trim _, some q => if q.job = .notStarted then some (.trial k) else none
    | _, _, _ => none

/-- R21, group 2: the first ready item or trial by context in order of admission, oldest first. -/
def firstWork (s : State) : Option Work := (byAdmission s).findSome? (readyWork s)

/-- R6: a ready item or trial is dispatched on a converter. -/
def dispatchWork (c : ConvId) (w : Work) (s : State) : State :=
  match w with
  | .item k i =>
    match s.contexts[k] with
    | some x =>
      match x.request.body, x.items[i]? with
      | .measure b, some e => dispatchItem c k i b e s
      | _, _ => s
    | none => s
  | .trial k =>
    match trimParts s k with
    | some (_, b, q) => dispatchTrial c k b q s
    | none => s

/-- R23, R52, R131: a converter is offered to a watch job: dispatched with its claim, or skipped for the round. -/
def offerWatch (c : ConvId) (id : WatchId) (s : State) : State :=
  match watchEntry s id with
  | some e => if watchClaimGranted s e.ch then dispatchWatch c e s else skipPending id s
  | none => skipPending id s

/-- R20: the lowest-numbered free converter. -/
def firstFree (s : State) : Option ConvId := allConverters.find? fun c => (s.converters[c]).free

/-- R21: one grant of the arbiter, or one refused watch job; none when no converter is free or no candidate exists. -/
def arbiterStep (s : State) : Option State :=
  if arbitersRun s then
    match firstFree s with
    | none => none
    | some c =>
      match s.watch.promoted, s.watch.pending with
      | true, id :: _ => some (offerWatch c id s)
      | _, _ =>
        match firstWork s with
        | some w => some (dispatchWork c w s)
        | none =>
          match s.watch.pending with
          | id :: _ => some (offerWatch c id s)
          | [] => none
  else none

/-- R20: the arbiter grants again while a free converter and a candidate remain. Each step uses one of 4 converters
or removes one of 32 pending jobs, so 36 steps suffice. -/
def arbiterLoop : Nat → State → State
  | 0, s => s
  | n + 1, s =>
    match arbiterStep s with
    | some s1 => arbiterLoop n s1
    | none => s

/-! ### The posting order (R167) -/

/-- Whether a context stands in the posting order. -/
def inPosting (s : State) (k : CtxId) : Bool := s.posting.contains (.context k)

/-- R167: the contexts made ready in this event take their places after its reports, in ascending admission number. -/
def orderPosts (s : State) : State :=
  { s with
    posting := s.posting
      ++ ((byAdmission s).filter fun k => inState s .posting k && !inPosting s k).map PostRef.context }

/-! ### The fetch arbiter (R161) -/

/-- R161: a queue is eligible for a read. -/
def Queue.eligible (q : Queue) : Bool :=
  q.state == .active && q.fetchIndex != q.tail && q.held.isNone && decide (q.inFlight < q.quota)

/-- R161: the queues in order, starting from the one after the last-served. -/
def servingOrder (last : QueueId) : List QueueId := [last + 1, last + 2, last + 3, last]

/-- R161: when no read is outstanding and a queue is eligible, a read of its next slot is issued. -/
def issueFetch (s : State) : State :=
  if s.engine.state = .running ∧ s.fetchRead = none then
    match (servingOrder s.lastServed).find? fun q => (s.queues[q]).eligible with
    | some q =>
      { s.modQueue q fun d => { d with readOutstanding := true } with
        lastServed := q
        fetchRead := some { queue := q, addr := slotAddress (s.queues[q]).base 64 (s.queues[q]).fetchIndex,
                            current := true } }
    | none => s
  else s

/-! ### The issue of a ring write (R166, R172) -/

/-- The 16 bytes of a candidate's record as it stands when the write is issued (R191), and the lost count it
carries (R170). -/
def postRecord (s : State) : PostRef → Option (List Byte × Nat)
  | .context k =>
    match s.contexts[k] with
    | some c => some (completionRecord s.ring.phase c (s.queues[c.queue]).fetchIndex, 0)
    | none => none
  | .report =>
    match s.reports with
    | r :: _ => some (reportRecord s.ring.phase s.lost r, s.lost)
    | [] => none

/-- R166, R172: a record may be written when the ring is configured, no ring write is outstanding, the
posted-unreleased count is below the size, and the engine is not HALTED. -/
def mayPost (s : State) : Bool :=
  s.ring.configured && s.ringWrite.isNone && decide (s.ring.count < s.ring.size) && s.engine.state != .halted

/-- R166: the Completion Writer issues the write of the first candidate in the posting order. -/
def issueRingWrite (s : State) : State :=
  if mayPost s then
    match s.posting with
    | [] => s
    | p :: _ =>
      match postRecord s p with
      | some (data, lost) =>
        { s with
          ringWrite := some { source := p, addr := slotAddress s.ring.base 16 s.ring.writeIndex, data := data,
                              carriedLost := lost, stale := false } }
      | none => s
  else s

/-! ### The end of a stop (R182) -/

/-- R182: the four conditions. -/
def stopDone (s : State) : Bool :=
  contextsInUse s == 0 && s.watch.running.isEmpty
    && allConverters.all (fun c => s.converters[c].state != .checking) && s.reports.isEmpty

/-- R182, R188: a STOPPING engine becomes OFF when its conditions hold, and the STOPPED cause is set. -/
def testStop (s : State) : State :=
  if s.engine.state = .stopping ∧ stopDone s then
    (s.modEngine fun e => { e with state := .off }).modInterrupt fun u => { u with stickyStopped := true }
  else s

/-! ### The rest of an event -/

/-- Claim arbiter and converter arbiter. -/
def runArbiters (s : State) : State := arbiterLoop 36 (settleClaims 17 s)

/-- What follows the own effects of an event (log entry 3). -/
def finish (s : State) : State := testStop (issueRingWrite (issueFetch (orderPosts (runArbiters s))))

end Sys2Proof.Machine
end

