-- ==== Sys2Proof/Machine/EngineCommands.lean ====
section
/-! DEFINITION. DEVICE_RESET and the Engine Command writes: START, STOP_DRAIN, STOP_CUT, CLEAR and a refused code
(chapter 10). -/

namespace Sys2Proof.Machine

/-- The outcome of a command: every command of this block answers a next state. -/
abbrev Answer := Host.Outcome State Fault Refusal

/-- R173: every block takes its reset values; the commands that wait are outside the device. -/
def deviceReset (s : State) : State := { State.reset with pending := s.pending }

/-- R174, R186: a refused command changes the last error alone, with its code as reason. -/
def refuseCommand (code : Nat) (s : State) : State :=
  s.modEngine fun e => { e with lastError := .commandRefused, reasonCode := code, reasonIndex := 0 }

/-! ### START (R175, R157) -/

/-- R189: when the ring becomes unconfigured the coalescing timer stops and the late flag clears. -/
def InterruptUnit.ringGone (u : InterruptUnit) : InterruptUnit := { u with timer := none, late := false }

/-- R157, R165, R184: the queues and the completion ring become unconfigured, and transactions still in flight on them
act on no descriptor of a later session. -/
def unconfigureRings (s : State) : State :=
  { s with
    queues := s.queues.map fun _ => Queue.unconfigured
    ring := Ring.unconfigured
    fetchRead := s.fetchRead.map fun r => { r with current := false }
    ringWrite := s.ringWrite.map fun w => { w with stale := true }
    interrupt := s.interrupt.ringGone }

/-- R175: an accepted START. -/
def beginLoading (s : State) : State :=
  let s1 := unconfigureRings s
  { s1.modEngine (fun e => { e with
      state := .loading, stopMode := .none, lastError := .none, reasonCode := 0, reasonIndex := 0 }) with
    nextAdmission := 0
    setupReads := s1.setupReads ++ [{ addr := s.engine.setupAddress, abandoned := false }] }

/-- R174, R175: a write of START. -/
def startCommand (s : State) : State := if s.engine.state = .off then beginLoading s else refuseCommand 1 s

/-! ### Stops (R179 to R182) -/

/-- R180: what both stops do as they begin: the intake stops, held records are dropped, the period timer stops and
pending watch jobs are dropped. -/
def beginStop (mode : StopMode) (s : State) : State :=
  { (s.modEngine fun e => { e with state := .stopping, stopMode := mode }).modWatch WatchUnit.beginStop with
    queues := s.queues.map fun q => { q with held := none } }

/-- R181: every context then in LISTING, CLAIMING or ACTIVE is given the end cause STOPPED, oldest first. -/
def cutContexts (s : State) : State :=
  ((byAdmission s).filter (countsAsAborted s)).foldl (fun t k => setEndCause .stopped k t) s

/-- R174, R180: a write of STOP_DRAIN. -/
def stopDrainCommand (s : State) : State :=
  match s.engine.state with
  | .running => finish (beginStop .drain s)
  | .stopping => s
  | .off => refuseCommand 2 s
  | .loading => refuseCommand 2 s
  | .halted => refuseCommand 2 s

/-- R17, R179: a start-up check still running is abandoned and its converter becomes OFFLINE, with no notice. -/
def Converter.abandonCheck (v : Converter) : Converter :=
  if v.state = .checking then { v with state := .offline, job := none, origin := none } else v

/-- R173, R179, R184: the setup reads in flight are abandoned. -/
def abandonSetupReads (s : State) : State :=
  { s with setupReads := s.setupReads.map fun r => { r with abandoned := true } }

/-- R179: a STOP_CUT ends LOADING at once. -/
def cutLoading (s : State) : State :=
  let s1 := abandonSetupReads s
  { (s1.modEngine fun e => { e with state := .off, stopMode := .cut, startupLeft := [] }).modInterrupt
      (fun u => { u with stickyStopped := true }) with
    converters := s.converters.map Converter.abandonCheck }

/-- R174, R179, R181: a write of STOP_CUT. -/
def stopCutCommand (s : State) : State :=
  match s.engine.state with
  | .running => finish (cutContexts (beginStop .cut s))
  | .stopping =>
    if s.engine.stopMode = .cut then s
    else finish (cutContexts (s.modEngine fun e => { e with stopMode := .cut }))
  | .loading => finish (cutLoading s)
  | .off => refuseCommand 3 s
  | .halted => refuseCommand 3 s

/-! ### CLEAR (R184 and the rules it gathers) -/

/-- R37, R112: the TRIM restore of one context in ACTIVE. -/
def restoreForClear (s : State) (k : CtxId) : State :=
  match trimParts s k with
  | some (c, b, q) => if c.state = .active then restoreTrim b.chan q s else s
  | none => s

/-- R17: a converter at CLEAR: HELD stays HELD, every other becomes OFFLINE; job, mark and check origin go. -/
def Converter.atClear (v : Converter) : Converter :=
  { state := if v.state = .held then .held else .offline, mark := none, job := none, origin := none }

/-- R17: the pins that a job stopped by CLEAR leaves discharging. -/
def clearedPins (s : State) (c : ConvId) : Option ClearDischarge :=
  match s.converters[c].state, s.converters[c].job with
  | .settling, some j => some { conv := c, connection := j.connection }
  | .sampling, some j => some { conv := c, connection := j.connection }
  | .discharging, some j => some { conv := c, connection := j.connection }
  | _, _ => none

/-- R37, R141: a channel entry at CLEAR, after the TRIM restore: no holder, no watch link. -/
def Channel.atClear (e : Channel) : Channel := { e with holder := none, watchLink := none }

/-- R187, R184: the Interrupt Unit at CLEAR. -/
def InterruptUnit.atClear (u : InterruptUnit) : InterruptUnit :=
  { u with timer := none, late := false, stickyHalt := false, stickySetupFailed := false, stickyStopped := false }

/-- R173, R184: Engine Control at CLEAR; the setup address is kept. -/
def Engine.atClear (e : Engine) : Engine :=
  { state := .off, stopMode := .none, lastError := .none, reasonCode := 0, reasonIndex := 0,
    setupAddress := e.setupAddress, startupLeft := [] }

/-- R184: an accepted CLEAR. What it does not name is kept (log entry 20). -/
def clearCommand (s : State) : State :=
  let r := abandonSetupReads (unconfigureRings (allContexts.foldl restoreForClear s))
  { r with
    engine := s.engine.atClear
    interrupt := s.interrupt.atClear
    channels := r.channels.map Channel.atClear
    converters := s.converters.map Converter.atClear
    faultDischarges := s.faultDischarges.map fun d => { d with job := none }
    clearDischarges := s.clearDischarges ++ allConverters.filterMap (clearedPins s)
    contexts := s.contexts.map fun _ => none
    listReads := s.listReads.map fun x => { x with discarded := true }
    resultWrites := s.resultWrites.map fun x => { x with abandoned := true }
    reports := []
    lost := 0
    posting := []
    watch := WatchUnit.atReset }

/-! ### The commands -/

/-- DEVICE_RESET (R173). -/
def execDeviceReset (s : State) : Answer := .next (deviceReset s)

/-- START (R174, R175). -/
def execStart (s : State) : Answer := .next (startCommand s)

/-- STOP_DRAIN (R174, R180). -/
def execStopDrain (s : State) : Answer := .next (stopDrainCommand s)

/-- STOP_CUT (R174, R179, R181). -/
def execStopCut (s : State) : Answer := .next (stopCutCommand s)

/-- CLEAR (R174, R184). -/
def execClear (s : State) : Answer := .next (clearCommand s)

/-- R174: a write of the Engine Command register acts by its code. -/
def engineCommandWrite (word : Reg) (s : State) : State :=
  match commandCode word with
  | 1 => startCommand s
  | 2 => stopDrainCommand s
  | 3 => stopCutCommand s
  | 4 => clearCommand s
  | code => refuseCommand code s

/-- COMMAND_REFUSED (R174): the write of a code that names no command; a word whose code names one acts as that
command (log entry 12). -/
def execCommandRefused (word : Reg) (s : State) : Answer := .next (engineCommandWrite word s)

end Sys2Proof.Machine
end

