-- ==== Sys2Proof/Machine/RegisterWrites.lean ====
section
/-! DEFINITION. Writes of Submit Index, Release Index, Interrupt Control and the other offsets of the window
(R160, R168, R187, R189, R192). -/

namespace Sys2Proof.Machine

/-- R163: a queue becomes FAULTED and a QUEUE_FAULT notice is raised. -/
def faultQueue (q : QueueId) (reason : QueueFaultReason) (tail : Nat) (s : State) : State :=
  raise (.queueFault q reason (s.queues[q]).fetchIndex tail) (s.modQueue q fun d => { d with state := .faulted })

/-- R160: a write of the Submit Index register. -/
def submitWrite (word : Reg) (s : State) : State :=
  let q := submitQueue word
  let tail := submitTail word
  if s.engine.state ≠ .running ∨ (s.queues[q]).state ≠ .active then
    s.modEngine fun e => { e with lastError := .submitRefused, reasonCode := 0, reasonIndex := q.val }
  else if (s.queues[q]).size ≤ tail then finish (faultQueue q .tailInvalid tail s)
  else finish (s.modQueue q fun d => { d with tail := tail })

/-- R168, step 2: the number of records a release of v would release. -/
def releaseCount (ring : Ring) (v : Nat) : Nat := (v + ring.size - ring.head) % ring.size

/-- R189: the Interrupt Unit at an accepted release that leaves a count. -/
def InterruptUnit.released (count : Nat) (u : InterruptUnit) : InterruptUnit :=
  { u with
    late := false
    timer := if count = 0 ∨ u.timerSetting = 0 then none else some (coalescingPeriods u.timerSetting) }

/-- R168, step 3, and R189: an accepted release. -/
def releaseRecords (v : Nat) (s : State) : State :=
  let r := releaseCount s.ring v
  { s with ring := { s.ring with head := v, count := s.ring.count - r } }.modInterrupt
    (InterruptUnit.released (s.ring.count - r))

/-- R168: a write of the Release Index register. -/
def releaseWrite (word : Reg) (s : State) : State :=
  let v := releaseValue word
  if ¬ s.ring.configured ∨ s.ring.size ≤ v ∨ s.ring.count < releaseCount s.ring v then
    s.modEngine fun e => { e with lastError := .releaseInvalid, reasonCode := 0, reasonIndex := 0 }
  else finish (releaseRecords v s)

/-- R187, R189: the Interrupt Unit after a write of Interrupt Control. -/
def InterruptUnit.write (word : Reg) (u : InterruptUnit) : InterruptUnit :=
  let w := word.toNat
  { enCompletion := bit w 0
    enHalt := bit w 1
    enSetupFailed := bit w 2
    enStopped := bit w 3
    threshold := bits w 8 8
    timerSetting := bits w 16 8
    timer := if bits w 16 8 = 0 then none else u.timer
    late := u.late
    stickyHalt := u.stickyHalt && !bit w 28
    stickySetupFailed := u.stickySetupFailed && !bit w 29
    stickyStopped := u.stickyStopped && !bit w 30 }

/-- R187: a write of the Interrupt Control register. -/
def interruptWrite (word : Reg) (s : State) : State := s.modInterrupt (InterruptUnit.write word)

/-- R192: a write of an offset of the window. Setup Address stores the value; a write to Engine Status or to an offset
that names no register is ignored. The offsets of the other registers act as those registers do (log entry 12). -/
def windowWrite (offset word : Reg) (s : State) : State :=
  if offset = 0x08#32 then s.modEngine fun e => { e with setupAddress := word }
  else if offset = 0x00#32 then engineCommandWrite word s
  else if offset = 0x0C#32 then submitWrite word s
  else if offset = 0x10#32 then releaseWrite word s
  else if offset = 0x14#32 then interruptWrite word s
  else s

/-- SUBMIT_INDEX (R160). -/
def execSubmitIndex (word : Reg) (s : State) : Answer := .next (submitWrite word s)

/-- RELEASE_INDEX (R168). -/
def execReleaseIndex (word : Reg) (s : State) : Answer := .next (releaseWrite word s)

/-- INTERRUPT_CONTROL (R187). -/
def execInterruptControl (word : Reg) (s : State) : Answer := .next (interruptWrite word s)

/-- REGISTER_WRITE (R185, R192). -/
def execRegisterWrite (offset word : Reg) (s : State) : Answer := .next (windowWrite offset word s)

end Sys2Proof.Machine
end

