-- ==== Sys2Proof/WellFormed.lean ====
section
/-! DEFINITION. Which commands are well formed: the checks a table row's own words put on its operands. -/

namespace Sys2Proof

/-- R174: the codes 1..4 name a command, so a COMMAND_REFUSED carries another code in bits 0..3. -/
def namesNoCommand (word : Reg) : Bool :=
  let code := word.toNat % 16
  code == 0 || 4 < code

/-- R192: the offsets whose writes are rows of their own. -/
def hasOwnRow (offset : Reg) : Bool :=
  offset == 0x00#32 || offset == 0x0C#32 || offset == 0x10#32 || offset == 0x14#32

/-- A setup read and a fetch read are one read of 64 bytes (R155, R161). -/
def ReadEnd.wfBlock : ReadEnd → Bool
  | .data bytes => bytes.length == 64
  | .busError => true

/-- A list read is one read of 4 x item count bytes, item count 1..32 (R72). -/
def ReadEnd.wfList : ReadEnd → Bool
  | .data bytes => bytes.length % 4 == 0 && 4 ≤ bytes.length && bytes.length ≤ 128
  | .busError => true

/-- The well-formed commands. -/
def Instr.wellFormed : Instr → Bool
  | .deviceReset => true
  | .start => true
  | .stopDrain => true
  | .stopCut => true
  | .clear => true
  | .commandRefused word => namesNoCommand word
  | .submitIndex _ => true
  | .releaseIndex _ => true
  | .interruptControl _ => true
  | .registerWrite offset _ => !hasOwnRow offset
  | .setupReadEnd _ how => how.wfBlock
  | .fetchReadEnd how => how.wfBlock
  | .listReadEnd _ how => how.wfList
  | .resultWriteEnd _ _ => true
  | .completionRingWriteEnd _ => true
  | .settleEnd _ => true
  | .sampleEnd _ _ => true
  | .dischargeEnd _ => true
  | .faultEvent _ => true
  | .faultDischargeEnd _ => true
  | .clearDischargeEnd _ => true
  | .periodTimerExpiry => true
  | .coalescingTimerExpiry => true

end Sys2Proof
end

