-- ==== Sys2Proof/Machine/BusEnds.lean ====
section
/-! DEFINITION. The ends of the bus transactions the device issued (R154): setup read, fetch read, list read, result
write, completion ring write. An end of a transaction that is not in flight, or data of another length than was
read, cannot arrive and acts on nothing (log entry 2). -/

namespace Sys2Proof.Machine

/-! ### The setup read (R155 to R157, R176 to R178) -/

/-- R176: LOADING ends in OFF with an error, and SETUP_FAILED is set. -/
def failSetup (error : LastError) (code index : Nat) (s : State) : State :=
  (s.modEngine fun e => { e with state := .off, lastError := error, reasonCode := code, reasonIndex := index }).modInterrupt
    fun u => { u with stickySetupFailed := true }

/-- R157: a configured queue as the session takes it up. -/
def SetupQueue.descriptor (q : SetupQueue) : Queue :=
  { state := .active, base := BitVec.ofNat 32 q.base, size := q.size, quota := q.quota, fetchIndex := 0, tail := 0,
    inFlight := 0, held := none, readOutstanding := false }

/-- R157: the queue descriptors of a valid block; queues from the count on stay UNCONFIGURED. -/
def SetupBlock.descriptor (b : SetupBlock) (i : Nat) : Queue :=
  match b.configured[i]? with
  | some q => q.descriptor
  | none => Queue.unconfigured

/-- R157: the completion ring of a valid block. -/
def SetupBlock.ring (b : SetupBlock) : Ring :=
  { configured := true, base := BitVec.ofNat 32 b.ringBase, size := b.ringSize, writeIndex := 0, head := 0,
    phase := true, count := 0 }

/-- R157, R177, step 1: the Fetch Unit and the Completion Writer take up a valid block. -/
def takeUp (b : SetupBlock) (s : State) : State :=
  { s with queues := s.queues.mapIdx fun i _ => b.descriptor i, lastServed := 3, ring := b.ring }

/-- R177, step 3: the converters that start a start-up check. -/
def startupConverters (s : State) : List ConvId := allConverters.filter fun c => s.converters[c].state != .held

/-- R177, step 3: every converter that is not HELD starts a start-up check; with none, NO_CONVERTER is raised and the
engine enters RUNNING. -/
def startupChecks (s : State) : State :=
  let cs := startupConverters s
  let s1 := (cs.foldl (fun t c => startCheck c .engineControl t) s).modEngine fun e => { e with startupLeft := cs }
  if cs.isEmpty then enterRunning (raise .noConverter s1) else s1

/-- R177: a valid setup block prepares the session. -/
def prepareSession (b : SetupBlock) (s : State) : State :=
  startupChecks ((takeUp b s).modWatch (WatchUnit.prepare b.watchPeriod))

/-- R176: the setup read of the current LOADING ends. -/
def endSetup (how : ReadEnd) (s : State) : State :=
  match how with
  | .busError => failSetup .setupReadError 0 0 s
  | .data bytes =>
    match (SetupBlock.ofBytes bytes).check with
    | some (code, index) => failSetup .setupInvalid code index s
    | none => prepareSession (SetupBlock.ofBytes bytes) s

/-- R173, R176: a setup read ends; an abandoned one acts on nothing. -/
def setupReadEnd (k : Nat) (how : ReadEnd) (s : State) : State :=
  match s.setupReads[k]? with
  | none => s
  | some r =>
    if how.wfBlock then
      let s1 := { s with setupReads := s.setupReads.eraseIdx k }
      if r.abandoned ∨ s.engine.state ≠ .loading then s1 else finish (endSetup how s1)
    else s

/-! ### The fetch read (R162, R163) -/

/-- R161, R163: the read is over; its queue's mark clears when the read belongs to the present session. -/
def fetchOver (r : FetchRead) (s : State) : State :=
  let s1 := if r.current then s.modQueue r.queue fun q => { q with readOutstanding := false } else s
  { s1 with fetchRead := none }

/-- R162: the fetch index advances by one, wrapping from size-1 to 0. -/
def Queue.advance (q : Queue) : Queue := { q with fetchIndex := if q.fetchIndex + 1 = q.size then 0 else q.fetchIndex + 1 }

/-- R162, R163: what the end of a fetch read of the present session does in RUNNING on an ACTIVE queue. -/
def takeRecord (q : QueueId) (how : ReadEnd) (s : State) : State :=
  match how with
  | .data bytes => arrive q (Request.ofBytes bytes) (s.modQueue q Queue.advance)
  | .busError => faultQueue q .fetchError (s.queues[q]).tail s

/-- R162, R163: the fetch read ends. -/
def fetchReadEnd (how : ReadEnd) (s : State) : State :=
  match s.fetchRead with
  | none => s
  | some r =>
    if how.wfBlock then
      let s1 := fetchOver r s
      if r.current ∧ s.engine.state = .running ∧ (s.queues[r.queue]).state = .active then
        finish (takeRecord r.queue how s1)
      else finish s1
    else s

/-! ### List reads (R72, R73) -/

/-- R72: the list read of a context in LISTING ends. -/
def endListing (k : CtxId) (b : MeasureBody) (how : ReadEnd) (s : State) : State :=
  match how with
  | .busError => completeContext k .listReadError (.count b.itemCount) s
  | .data bytes =>
    match checkItems 0 (rawItems bytes b.itemCount) with
    | .error (code, index) => completeContext k .invalidRequest (.field code index) s
    | .ok items => formItems k items s

/-- Whether a list read ends with the bytes it asked for, or with a bus error. -/
def readFits (how : ReadEnd) (bytes : Nat) : Bool :=
  match how with
  | .data bs => bs.length == bytes
  | .busError => true

/-- R72, R73: a list read ends; a discarded one acts on no context. -/
def listReadEnd (i : Nat) (how : ReadEnd) (s : State) : State :=
  match s.listReads[i]? with
  | none => s
  | some r =>
    if readFits how r.bytes then
      let s1 := { s with listReads := s.listReads.eraseIdx i }
      if r.discarded then s1
      else match s.contexts[r.owner] with
        | none => s1
        | some c =>
          match c.state, c.request.body with
          | .listing, .measure b => finish (endListing r.owner b how s1)
          | _, _ => s1
    else s

/-! ### Result writes (R78) -/

/-- R78: the result write of a context in WRITING ends. -/
def endWriting (w : ResultWrite) (how : WriteEnd) (s : State) : State :=
  s.modCtx w.owner fun c =>
    match how with
    | .completes => { c with state := .posting, bytesWritten := w.data.length }
    | .busError =>
      { c with
        state := .posting
        result := c.result.map fun r => (.resultWriteError, .status r.1) }

/-- R78, R184: a result write ends; one whose context was abandoned acts on nothing. -/
def resultWriteEnd (i : Nat) (how : WriteEnd) (s : State) : State :=
  match s.resultWrites[i]? with
  | none => s
  | some w =>
    let s1 := { s with resultWrites := s.resultWrites.eraseIdx i }
    if w.abandoned then s1 else finish (endWriting w how s1)

/-! ### The completion ring write (R166, R170, R171, R183, R189) -/

/-- R166: the write index advances by one; when it wraps the phase toggles; the count rises by one. -/
def Ring.posted (r : Ring) : Ring :=
  if r.writeIndex + 1 = r.size then { r with writeIndex := 0, phase := !r.phase, count := r.count + 1 }
  else { r with writeIndex := r.writeIndex + 1, count := r.count + 1 }

/-- R189: the coalescing timer starts when a completed ring write raises the count from 0 to 1. -/
def InterruptUnit.posted (before : Nat) (u : InterruptUnit) : InterruptUnit :=
  { u with
    timer := if before = 0 ∧ u.timerSetting ≠ 0 then some (coalescingPeriods u.timerSetting) else u.timer }

/-- R79: the context becomes FREE, its queue's in-flight count falls by one, and at 0 the held record is admitted. -/
def freeContext (k : CtxId) (s : State) : State :=
  match s.contexts[k] with
  | none => s
  | some c =>
    admitHeld c.queue
      ({ s with contexts := s.contexts.set k none }.modQueue c.queue fun q => { q with inFlight := q.inFlight - 1 })

/-- R79, R166, R170: the source of a posted record is done with. -/
def sourceDone (w : RingWrite) (s : State) : State :=
  match w.source with
  | .context k => freeContext k { s with posting := s.posting.erase (.context k) }
  | .report =>
    { s with reports := s.reports.tail, posting := s.posting.erase .report, lost := s.lost - w.carriedLost }

/-- R166, R189: the ring and the Interrupt Unit at a completed ring write. -/
def ringPosted (s : State) : State :=
  { s with ringWrite := none, ring := s.ring.posted, interrupt := s.interrupt.posted s.ring.count }

/-- R171, R183: the engine enters HALTED: RING_WRITE_ERROR, the HALT cause, the period timer stopped. -/
def halt (s : State) : State :=
  ((s.modEngine fun e =>
      { e with state := .halted, lastError := .ringWriteError, reasonCode := 0, reasonIndex := 0 }).modInterrupt
    fun u => { u with stickyHalt := true }).modWatch fun w => { w with timer := none }

/-- R165, R166, R171: the completion ring write ends; one issued before the latest START or CLEAR ends on no
descriptor. -/
def ringWriteEnd (how : WriteEnd) (s : State) : State :=
  match s.ringWrite with
  | none => s
  | some w =>
    if w.stale then finish { s with ringWrite := none }
    else match how with
      | .completes => finish (sourceDone w (ringPosted s))
      | .busError => halt { s with ringWrite := none }

/-! ### The commands -/

/-- SETUP_READ_END (R176). -/
def execSetupReadEnd (k : Nat) (how : ReadEnd) (s : State) : Answer := .next (setupReadEnd k how s)

/-- FETCH_READ_END (R162). -/
def execFetchReadEnd (how : ReadEnd) (s : State) : Answer := .next (fetchReadEnd how s)

/-- LIST_READ_END (R72). -/
def execListReadEnd (k : Nat) (how : ReadEnd) (s : State) : Answer := .next (listReadEnd k how s)

/-- RESULT_WRITE_END (R78). -/
def execResultWriteEnd (k : Nat) (how : WriteEnd) (s : State) : Answer := .next (resultWriteEnd k how s)

/-- COMPLETION_RING_WRITE_END (R166). -/
def execCompletionRingWriteEnd (how : WriteEnd) (s : State) : Answer := .next (ringWriteEnd how s)

end Sys2Proof.Machine
end

