-- ==== Sys2Proof/Machine/ConverterEvents.lean ====
section
/-! DEFINITION. The analog events of the converters and the ends of discharge intervals (R1, R7, R8, R13 to R17). An
event of a converter that is in no state for it does not arrive and acts on nothing (log entry 2). -/

namespace Sys2Proof.Machine

/-! ### SETTLE_END and SAMPLE_END (R7, R12) -/

/-- R7: at the end of the settle interval the converter enters SAMPLING and starts sample 0. A check stays in CHECKING
throughout (R11, log entry 10). -/
def settleEnd (c : ConvId) (s : State) : State :=
  if s.converters[c].state = .settling then s.modConv c fun v => { v with state := .sampling } else s

/-- R7: a job after a measurement event. -/
def Job.sampled (j : Job) (x : Sample) : Job := { j with samples := j.samples ++ [x] }

/-- R7, R12: whether the run is over after its latest sample: at a STALL, or with n entries. -/
def Job.runOver (j : Job) : Bool := stallTaken j.samples || decide (j.n ≤ j.samples.length)

/-- R7: a measurement event in SAMPLING. -/
def sampleInRun (c : ConvId) (j : Job) (s : State) : State :=
  s.modConv c fun v => { v with job := some j, state := if j.runOver then .discharging else .sampling }

/-- R11, R12: a measurement event in CHECKING. -/
def sampleInCheck (c : ConvId) (j : Job) (s : State) : State :=
  if j.runOver then finish (concludeCheck c j.samples s) else s.modConv c fun v => { v with job := some j }

/-- R1, R7, R12: a sample ends. -/
def sampleEnd (c : ConvId) (outcome : SampleEnd) (s : State) : State :=
  match s.converters[c].state, s.converters[c].job with
  | .sampling, some j => sampleInRun c (j.sampled (recordSample j.ceiling outcome)) s
  | .checking, some j => sampleInCheck c (j.sampled (recordSample j.ceiling outcome)) s
  | _, _ => s

/-! ### DISCHARGE_END (R8) -/

/-- R8: the job's owner is handed the sample list, or, for a cut job, its context learns that the job has ended. -/
def handOver (j : Job) (s : State) : State :=
  match j.owner, j.cut with
  | .item k i, false => itemNormalEnd k i j.samples s
  | .item k i, true => itemCutEnd k i s
  | .trial k, false => trialNormalEnd k j.samples s
  | .trial k, true => trimEarlyEnd k s
  | .watch id, _ => watchNormalEnd id j s
  | .check _, _ => s

/-- R8: the converter clears its job record and takes its next state from its pending mark. -/
def releaseConverter (c : ConvId) (s : State) : State :=
  resolveMark c (s.modConv c fun v => { v with state := .idle, job := none })

/-- What a command does that can set an end cause (R77): a STOP_CUT, spelled by any of its rows, and the two ends that
admit an ABORT (R64, R70). The other commands set none. -/
def endCauseCommand (c : Instr) (s : State) : State :=
  match c with
  | .stopCut => stopCutCommand s
  | .commandRefused word => engineCommandWrite word s
  | .registerWrite offset word => windowWrite offset word s
  | .fetchReadEnd how => fetchReadEnd how s
  | .completionRingWriteEnd how => ringWriteEnd how s
  | .deviceReset => s
  | .start => s
  | .stopDrain => s
  | .clear => s
  | .submitIndex _ => s
  | .releaseIndex _ => s
  | .interruptControl _ => s
  | .setupReadEnd _ _ => s
  | .listReadEnd _ _ => s
  | .resultWriteEnd _ _ => s
  | .settleEnd _ => s
  | .sampleEnd _ _ => s
  | .dischargeEnd _ => s
  | .faultEvent _ => s
  | .faultDischargeEnd _ => s
  | .clearDischargeEnd _ => s
  | .periodTimerExpiry => s
  | .coalescingTimerExpiry => s

/-- Whether a context in use has its end cause set (R61). -/
def endCauseSet (s : State) (k : CtxId) : Bool := s.contexts[k].any fun c => c.endCause.isSome

/-- R115: an end cause for the context arrives together with the event just taken: the command that waits next sets it
(log entry 25). -/
def endCauseArrives (s : State) (k : CtxId) : Bool :=
  match s.pending with
  | [] => false
  | c :: _ => endCauseSet (endCauseCommand c s) k

/-- R106, R107: the trial of an ACTIVE TRIM with no end cause is ready, and R19 does not end it. -/
def trialWaits (s : State) (k : CtxId) : Bool :=
  match trimParts s k with
  | some (c, _, q) => c.state == .active && c.endCause.isNone && q.job == .notStarted && onlineCount s != 0
  | none => false

/-- One context of `t` as it is in `s`. -/
def putBack (k : CtxId) (s t : State) : State := { t with contexts := t.contexts.set k s.contexts[k] }

/-- R115: what follows an event but for the dispatch of one ready trial, which the arbiters do not see. -/
def finishBeforeTrial (k : CtxId) (s : State) : State :=
  putBack k s (finish (s.modCtx k fun c => { c with search := c.search.map Search.ended }))

/-- R115: what follows the normal end of a trial. When an end cause arrives together with it and is taken second, the next
trial is NOT_STARTED then, so the arbiters do not dispatch it in between (log entry 25). -/
def finishTrialEnd (k : CtxId) (s : State) : State :=
  if trialWaits s k && endCauseArrives (finishBeforeTrial k s) k then finishBeforeTrial k s else finish s

/-- What follows the end of a job. -/
def finishJobEnd (j : Job) (s : State) : State :=
  match j.owner, j.cut with
  | .trial k, false => finishTrialEnd k s
  | _, _ => finish s

/-- R8: the discharge interval ends: the owner finishes with the sample list, then the converter takes its next state,
as parts of the same event. -/
def dischargeEnd (c : ConvId) (s : State) : State :=
  match s.converters[c].state, s.converters[c].job with
  | .discharging, some j => finishJobEnd j (releaseConverter c (handOver j s))
  | _, _ => s

/-! ### FAULT_EVENT (R13) -/

/-- R13: a fault in SETTLING, SAMPLING or DISCHARGING: the converter opens its connection and becomes OFFLINE, and the
job's pins start a discharge interval of their own. -/
def faultJob (c : ConvId) (j : Job) (s : State) : State :=
  let s1 := changeConvState c .offline (raise (.converterOffline c .fault none) s)
  let s2 := clearJob c s1
  resolveMark c
    { s2 with faultDischarges := s2.faultDischarges ++ [{ conv := c, connection := j.connection, job := some j }] }

/-- R13: a fault event reaches a converter in SETTLING, SAMPLING, DISCHARGING and CHECKING. -/
def faultEvent (c : ConvId) (s : State) : State :=
  match s.converters[c].state, s.converters[c].job with
  | .settling, some j => finish (faultJob c j s)
  | .sampling, some j => finish (faultJob c j s)
  | .discharging, some j => finish (faultJob c j s)
  | .checking, _ => finish (checkFail c .fault none s)
  | _, _ => s

/-! ### FAULT_DISCHARGE_END and CLEAR_DISCHARGE_END (R14, R15, R17) -/

/-- R14, R15: a faulted job ends: a cut job as a cut job, an item or a trial by its fault end, a watch job skipped. -/
def faultEnd (j : Job) (s : State) : State :=
  match j.owner, j.cut with
  | .item k i, false => itemFaultEnd k i s
  | .item k i, true => itemCutEnd k i s
  | .trial k, false => trialFaultEnd k s
  | .trial k, true => trimEarlyEnd k s
  | .watch id, _ => watchFaultEnd id s
  | .check _, _ => s

/-- R14, R15, R17: the oldest fault discharge of a converter's job ends; a record that CLEAR discarded hands nothing
on (log entry 9). -/
def faultDischargeEnd (c : ConvId) (s : State) : State :=
  match s.faultDischarges.find? fun d => d.conv == c with
  | none => s
  | some d =>
    let s1 := { s with faultDischarges := s.faultDischarges.eraseP fun d => d.conv == c }
    match d.job with
    | some j => finish (faultEnd j s1)
    | none => s1

/-- R17: the discharge of the pins of a job that CLEAR stopped ends, and the pins return to their park modes. -/
def clearDischargeEnd (c : ConvId) (s : State) : State :=
  { s with clearDischarges := s.clearDischarges.eraseP fun d => d.conv == c }

/-! ### The commands -/

/-- SETTLE_END (R7). -/
def execSettleEnd (c : ConvId) (s : State) : Answer := .next (settleEnd c s)

/-- SAMPLE_END (R1). -/
def execSampleEnd (c : ConvId) (outcome : SampleEnd) (s : State) : Answer := .next (sampleEnd c outcome s)

/-- DISCHARGE_END (R8). -/
def execDischargeEnd (c : ConvId) (s : State) : Answer := .next (dischargeEnd c s)

/-- FAULT_EVENT (R13). -/
def execFaultEvent (c : ConvId) (s : State) : Answer := .next (faultEvent c s)

/-- FAULT_DISCHARGE_END (R14). -/
def execFaultDischargeEnd (c : ConvId) (s : State) : Answer := .next (faultDischargeEnd c s)

/-- CLEAR_DISCHARGE_END (R17). -/
def execClearDischargeEnd (c : ConvId) (s : State) : Answer := .next (clearDischargeEnd c s)

end Sys2Proof.Machine
end

