-- ==== Sys2Proof/Machine/TimerEvents.lean ====
section
/-! DEFINITION. The expiries of the period timer (R127 to R129) and of the coalescing timer (R189). A stopped timer
does not expire: its expiry acts on nothing (log entry 2). -/

namespace Sys2Proof.Machine

/-- R129: an expiry that finds a round in progress: the promoted flag, and ROUND_OVERRUN unless one was raised. -/
def overrunRound (s : State) : State :=
  let s1 := s.modWatch fun w => { w with promoted := true, overrun := true }
  if s.watch.overrun then s1 else raise (.roundOverrun s.watch.round) s1

/-- R127 to R129: an expiry starts a round or marks an overrun, and restarts the timer with the full period. -/
def periodExpiry (s : State) : State :=
  match s.watch.timer with
  | none => s
  | some _ =>
    let s1 := if s.watch.inProgress then overrunRound s else s.modWatch WatchUnit.startRound
    finish (s1.modWatch WatchUnit.startTimer)

/-- R189: the coalescing timer expires: it stops and the late flag is set. -/
def coalescingExpiry (s : State) : State :=
  match s.interrupt.timer with
  | none => s
  | some _ => s.modInterrupt fun u => { u with timer := none, late := true }

/-- PERIOD_TIMER_EXPIRY (R127). -/
def execPeriodTimerExpiry (s : State) : Answer := .next (periodExpiry s)

/-- COALESCING_TIMER_EXPIRY (R189). -/
def execCoalescingTimerExpiry (s : State) : Answer := .next (coalescingExpiry s)

end Sys2Proof.Machine
end

