-- ==== Sys2Proof/Machine/Dispatch.lean ====
section
/-! DEFINITION. One arm per command, each one direct call of its meaning. -/

namespace Sys2Proof.Machine

/-- The effect of a command on everything but the queue of commands that wait. -/
def exec (i : Instr) (s : State) : Host.Outcome State Fault Refusal :=
  match i with
  | .deviceReset => Sys2Proof.Machine.execDeviceReset s
  | .start => Sys2Proof.Machine.execStart s
  | .stopDrain => Sys2Proof.Machine.execStopDrain s
  | .stopCut => Sys2Proof.Machine.execStopCut s
  | .clear => Sys2Proof.Machine.execClear s
  | .commandRefused word => Sys2Proof.Machine.execCommandRefused word s
  | .submitIndex word => Sys2Proof.Machine.execSubmitIndex word s
  | .releaseIndex word => Sys2Proof.Machine.execReleaseIndex word s
  | .interruptControl word => Sys2Proof.Machine.execInterruptControl word s
  | .registerWrite offset word => Sys2Proof.Machine.execRegisterWrite offset word s
  | .setupReadEnd k how => Sys2Proof.Machine.execSetupReadEnd k how s
  | .fetchReadEnd how => Sys2Proof.Machine.execFetchReadEnd how s
  | .listReadEnd k how => Sys2Proof.Machine.execListReadEnd k how s
  | .resultWriteEnd k how => Sys2Proof.Machine.execResultWriteEnd k how s
  | .completionRingWriteEnd how => Sys2Proof.Machine.execCompletionRingWriteEnd how s
  | .settleEnd conv => Sys2Proof.Machine.execSettleEnd conv s
  | .sampleEnd conv outcome => Sys2Proof.Machine.execSampleEnd conv outcome s
  | .dischargeEnd conv => Sys2Proof.Machine.execDischargeEnd conv s
  | .faultEvent conv => Sys2Proof.Machine.execFaultEvent conv s
  | .faultDischargeEnd conv => Sys2Proof.Machine.execFaultDischargeEnd conv s
  | .clearDischargeEnd conv => Sys2Proof.Machine.execClearDischargeEnd conv s
  | .periodTimerExpiry => Sys2Proof.Machine.execPeriodTimerExpiry s
  | .coalescingTimerExpiry => Sys2Proof.Machine.execCoalescingTimerExpiry s

end Sys2Proof.Machine
end

