-- ==== Sys2Proof/Safety.lean ====
section
/-! DEFINITION. What counts as a sound state of the block, in the terms the statements use: one invariant per table of
the spec, and what the arbiters that follow an event leave alone. -/

namespace Sys2Proof.Machine

/-! ### Invariants -/

/-- R170: the report buffer holds up to eight records and the lost count saturates at 65535. -/
def State.ReportsInRange (s : State) : Prop := s.reports.length ≤ 8 ∧ s.lost ≤ 65535

/-- R165: a configured ring has an accepted size, its head is a slot, its count lies in 0..size, and its write index is
(head + count) mod size. -/
def Ring.Sound (r : Ring) : Prop :=
  r.configured = true →
    r.size ∈ ringSizes ∧ r.head < r.size ∧ r.count ≤ r.size ∧ r.writeIndex = (r.head + r.count) % r.size

/-- R165, R166: the completion ring, and the slot that a ring write of the present session is going to. -/
def State.RingSound (s : State) : Prop :=
  s.ring.Sound ∧ ∀ w, s.ringWrite = some w → w.stale = false → s.ring.configured = true ∧ s.ring.count < s.ring.size

/-- R25: both half-cycle counts lie in 2..16. -/
def Profile.Legal (p : Profile) : Prop := 2 ≤ p.high ∧ p.high ≤ 16 ∧ 2 ≤ p.low ∧ p.low ≤ 16

/-- R25, R27: every profile is legal, every hop set holds 1..24 indices, and hop set 0 is the list [0]; a held
PROFILE_SET record has its 24 hop positions (R32). -/
def State.ProfilesLegal (s : State) : Prop :=
  (∀ p : ProfileIx, s.profiles[p].Legal)
    ∧ (∀ h : HopIx, 1 ≤ s.hopSets[h].length ∧ s.hopSets[h].length ≤ 24)
    ∧ s.hopSets[(0 : HopIx)] = [0]
    ∧ ∀ (q : QueueId) (r : Request) (b : ProfileSetBody), (s.queues[q]).held = some r → r.body = .profileSet b →
        b.hopEntries.length = 24

/-- Whether a job is a check (R5). -/
def Job.isCheck (j : Job) : Bool :=
  match j.owner with
  | .item _ _ => false
  | .trial _ => false
  | .watch _ => false
  | .check _ => true

/-- R5: what a converter's record holds in each state. -/
def Converter.Sound (v : Converter) : Prop :=
  match v.state with
  | .offline => v.job = none ∧ v.origin = none
  | .idle => v.job = none ∧ v.origin = none
  | .held => v.job = none ∧ v.origin = none ∧ v.mark = none
  | .checking => (∃ j, v.job = some j ∧ j.isCheck = true) ∧ v.origin.isSome = true
  | .settling => (∃ j, v.job = some j ∧ j.isCheck = false) ∧ v.origin = none
  | .sampling => (∃ j, v.job = some j ∧ j.isCheck = false) ∧ v.origin = none
  | .discharging => (∃ j, v.job = some j ∧ j.isCheck = false) ∧ v.origin = none

/-- R5 for the four converters. -/
def State.ConvertersSound (s : State) : Prop := ∀ c : ConvId, s.converters[c].Sound

/-- R118: the watch list ascends by id, a channel's link names an entry exactly when that entry watches the channel, and
every linked channel is READY. R119: the pending jobs are watch ids of the list, in ascending order. -/
def State.WatchListSound (s : State) : Prop :=
  s.watch.entries.Pairwise (fun a b => a.id < b.id)
    ∧ (∀ (ch : Chan) (id : WatchId),
        s.channels[ch].watchLink = some id ↔ ∃ e ∈ s.watch.entries, e.id = id ∧ e.ch = ch)
    ∧ (∀ ch : Chan, s.channels[ch].watchLink.isSome = true → s.channels[ch].ready = true)
    ∧ s.watch.pending.Pairwise (· < ·) ∧ ∀ id ∈ s.watch.pending, ∃ e ∈ s.watch.entries, e.id = id

/-- The number of contexts in use that belong to a queue (R63). -/
def contextsOf (s : State) (q : QueueId) : Nat :=
  allContexts.countP fun k =>
    match s.contexts[k] with
    | some c => c.queue == q
    | none => false

/-- R63, R64, R66, R80: no context is in use in OFF and LOADING, each queue's in-flight count is the number of its
contexts in use, admission numbers are below the next one and distinct, and no two contexts of a queue hold one tag. -/
def State.ContextsSound (s : State) : Prop :=
  ((s.engine.state = .off ∨ s.engine.state = .loading) → ∀ k : CtxId, s.contexts[k] = none)
    ∧ (∀ q : QueueId, (s.queues[q]).inFlight = contextsOf s q)
    ∧ (∀ (k : CtxId) (c : Context), s.contexts[k] = some c → c.admission < s.nextAdmission)
    ∧ ∀ (k l : CtxId) (c d : Context), s.contexts[k] = some c → s.contexts[l] = some d → k ≠ l →
        c.admission ≠ d.admission
          ∧ ¬(c.queue = d.queue ∧ c.holdsTag = true ∧ d.holdsTag = true ∧ c.request.tag = d.request.tag)

/-- R182: the four conditions that end a stop. -/
def State.StopConditions (s : State) : Prop :=
  (∀ k : CtxId, s.contexts[k] = none) ∧ s.watch.running = []
    ∧ (∀ c : ConvId, s.converters[c].state ≠ .checking) ∧ s.reports = []

/-- R182: a STOPPING engine has not met them. -/
def State.StopOpen (s : State) : Prop := s.engine.state = .stopping → ¬s.StopConditions

/-! ### What the arbiters leave alone (log entry 3) -/

/-- What an item entry can become: a ready one is dispatched (R86) or ends NO_CONVERTER (R94); any other stays. -/
def ItemEntry.Kept (e f : ItemEntry) : Prop :=
  f = e
    ∨ (e.job = .notStarted
      ∧ ((∃ v : ConvId, f = { e with job := .running, conv := some v })
        ∨ f = { e with job := .ended, samples := [], status := some .noConverter }))

/-- A context whose work no arbiter ends: a MEASURE with a running item, a TRIM with a running trial, or a kind that
presents no claim set. -/
def Context.Busy (c : Context) : Prop :=
  match c.request.body with
  | .measure _ => ∃ e ∈ c.items, e.job = .running
  | .trim _ => ∀ q, c.search = some q → q.job = .running
  | _ => True

/-- What a claim grant, a dispatch or a NO_CONVERTER end leaves of a context in use. -/
structure Context.Kept (c d : Context) : Prop where
  queue : d.queue = c.queue
  holdsTag : d.holdsTag = c.holdsTag
  admission : d.admission = c.admission
  request : d.request = c.request
  claimSet : d.claimSet = c.claimSet
  action : d.action = c.action
  endCause : d.endCause = c.endCause
  bytesWritten : d.bytesWritten = c.bytesWritten
  waiting : c.state = .listing ∨ c.state = .writing ∨ c.state = .posting → d = c
  claiming : d.state = .claiming → c.state = .claiming
  busy : c.state = .active → c.Busy → d.state = .active ∧ d.search = c.search ∧ d.result = c.result
  items : d.items.length = c.items.length
    ∧ ∀ (i : Nat) (e : ItemEntry), c.items[i]? = some e → ∃ f, d.items[i]? = some f ∧ e.Kept f
  otherItems : (∀ b, c.request.body ≠ .measure b) → d.items = c.items

/-- Whether a body is that of a CHANNEL_SET. -/
def Body.isChannelSet : Body → Bool
  | .channelSet _ => true
  | _ => false

/-- No CHANNEL_SET waits in CLAIMING, so no grant writes a channel's configuration. -/
def State.NoChannelSetWaits (s : State) : Prop :=
  ∀ (k : CtxId) (c : Context), s.contexts[k] = some c → c.state = .claiming → c.request.body.isChannelSet = false

/-- `t` is `s` after the arbiters of one event: grants, NO_CONVERTER ends, dispatches, the posting order, the issue of
one fetch read and of one ring write, and the end of a stop. Everything named here is as it was. -/
structure Arbitrated (s t : State) : Prop where
  engine : t.engine = { s.engine with state := t.engine.state }
  engineState : t.engine.state = s.engine.state ∨ (s.engine.state = .stopping ∧ t.engine.state = .off)
  interrupt : t.interrupt = { s.interrupt with stickyStopped := t.interrupt.stickyStopped }
  stopped : t.interrupt.stickyStopped = true ↔ s.interrupt.stickyStopped = true ∨ t.engine.state ≠ s.engine.state
  profiles : t.profiles = s.profiles
  hopSets : t.hopSets = s.hopSets
  link : ∀ ch : Chan, t.channels[ch].watchLink = s.channels[ch].watchLink
    ∧ (s.channels[ch].watchLink.isSome = true → s.channels[ch].ready = true → t.channels[ch].ready = true)
  configuration : s.NoChannelSetWaits → ∀ ch : Chan, t.channels[ch].ready = s.channels[ch].ready
    ∧ t.channels[ch].park = s.channels[ch].park ∧ t.channels[ch].comp = s.channels[ch].comp
  converter : ∀ c : ConvId, t.converters[c].mark = s.converters[c].mark
    ∧ t.converters[c].origin = s.converters[c].origin ∧ (s.converters[c].free = false → t.converters[c] = s.converters[c])
  noGrant : arbitersRun s = false → t.converters = s.converters
    ∧ ∀ (ch : Chan) (h : Holder), t.channels[ch].holder = some h → s.channels[ch].holder = some h
  faultDischarges : t.faultDischarges = s.faultDischarges
  clearDischarges : t.clearDischarges = s.clearDischarges
  contextFree : ∀ k : CtxId, s.contexts[k] = none → t.contexts[k] = none
  contextUsed : ∀ (k : CtxId) (c : Context), s.contexts[k] = some c → ∃ d, t.contexts[k] = some d ∧ c.Kept d
  nextAdmission : t.nextAdmission = s.nextAdmission
  queue : ∀ q : QueueId, t.queues[q] = { s.queues[q] with readOutstanding := (t.queues[q]).readOutstanding }
  setupReads : t.setupReads = s.setupReads
  fetchRead : s.fetchRead.isSome = true → t.fetchRead = s.fetchRead
  notRunning : s.engine.state ≠ .running →
    t.fetchRead = s.fetchRead ∧ t.queues = s.queues ∧ t.lastServed = s.lastServed
  listReads : t.listReads = s.listReads
  resultWrites : s.resultWrites <+: t.resultWrites
  ring : t.ring = s.ring
  ringWrite : s.ringWrite.isSome = true → t.ringWrite = s.ringWrite
  issued : s.ringWrite = none → ∀ w, t.ringWrite = some w →
    w.stale = false ∧ s.ring.configured = true ∧ s.ring.count < s.ring.size
  halted : s.engine.state = .halted → t.ringWrite = s.ringWrite ∧ t.resultWrites = s.resultWrites
  reports : t.reports = s.reports
  lost : t.lost = s.lost
  posting : s.posting <+: t.posting
  watch : t.watch.period = s.watch.period ∧ t.watch.timer = s.watch.timer ∧ t.watch.round = s.watch.round
  watchEntries : t.watch.entries.map (fun e => { e with skipped := 0 })
    = s.watch.entries.map (fun e => { e with skipped := 0 })
  watchPending : t.watch.pending.Sublist s.watch.pending
  pending : t.pending = s.pending

/-! ### The path of a request (R59) -/

/-- R59, R72, R46: `t` is `base` after the request of the context `c` in `k`, which passed every check of its admission,
has entered its path, and the arbiters have run. -/
def PathTaken (k : CtxId) (c : Context) (base t : State) : Prop :=
  let claims (set : List Chan) : Prop :=
    Arbitrated (base.modCtx k fun d => { d with state := .claiming, claimSet := set }) t
  match c.request.body with
  | .measure b =>
    if c.request.flags.externalList then
      Arbitrated { base.modCtx k (fun d => { d with state := .listing }) with
        listReads := base.listReads ++
          [{ owner := k, addr := b.listAddr, bytes := 4 * b.itemCount, discarded := false }] } t
    else ∃ items, checkItems 0 (b.inlineItems.take b.itemCount) = .ok items
      ∧ Arbitrated (base.modCtx k fun d => { d with
          state := .claiming, claimSet := claimSetOf items
          items := items.map fun x =>
            { item := x, job := .notStarted, conv := none, retryUsed := false, samples := [], status := none
              delta := none, baselineWritten := false } }) t
  | .trim b => claims [b.chan]
  | .channelSet b => claims [Fin.ofNat 64 b.channel]
  | .profileSet b => Arbitrated (execProfileSet k b base) t
  | .watchAdd b => Arbitrated (execWatchAdd k b base) t
  | .watchRemove id => Arbitrated (execWatchRemove k (Fin.ofNat 32 id) base) t
  | .watchQuery => Arbitrated (execWatchQuery k c base) t
  | .watchTiming period => Arbitrated (execWatchTiming k period base) t
  | .converterSet v a => Arbitrated (execConverterSet k (Fin.ofNat 4 v)
      (if a = 1 then .hold else if a = 2 then .release else .check) base) t
  | .abort queue scope tag => Arbitrated (if scope = 1 then execAbortOne k (Fin.ofNat 4 queue) tag base
      else execAbortAll k (Fin.ofNat 4 queue) base) t
  | .unknown => False

/-- R64 to R66, R59: `t` is `s` after the record `r` of `queue` was admitted: it has taken a FREE context with the next
admission number, and stands in POSTING with the first check that fails, or has entered its path. -/
def RecordTaken (queue : QueueId) (r : Request) (s t : State) : Prop :=
  ∃ k : CtxId, s.contexts[k] = none
    ∧ let c : Context :=
        { state := .active, queue := queue, holdsTag := !tagHeld s queue r.tag, admission := s.nextAdmission, request := r
          claimSet := [], items := [], search := none, action := none, endCause := none, result := none, bytesWritten := 0 }
      let base (d : Context) : State := { s.modQueue queue (fun q => { q with inFlight := q.inFlight + 1 }) with
        nextAdmission := s.nextAdmission + 1, contexts := s.contexts.set k (some d) }
      (∀ (status : Status) (detail : Detail), admissionFailure s queue r = some (status, detail) →
          let d : Context := { c with state := .posting, result := some (status, detail) }
          t.contexts[k] = some d ∧ Arbitrated (base d) t)
        ∧ (admissionFailure s queue r = none → PathTaken k c (base c) t)

/-! ### Checks in order -/

/-- R67: checks run in order and stop at the first that fails: `answer` is the field code and index of the first check
whose failing condition holds, and none when no check fails. -/
def FirstFailing (checks : List (Prop × Nat × Nat)) (answer : Option (Nat × Nat)) : Prop :=
  (∀ (i : Nat) (fails : Prop) (code index : Nat), checks[i]? = some (fails, code, index) → fails →
      (∀ (j : Nat) (g : Prop × Nat × Nat), j < i → checks[j]? = some g → ¬g.1) → answer = some (code, index))
    ∧ ((∀ g ∈ checks, ¬g.1) → answer = none)

/-! ### The round of the Watch Unit -/

/-- R130: a Watch Unit after the event in which it was `w`: a round in progress with no pending and no running job has
completed, so it is in progress no longer and promoted and overrun are clear; any other round goes on. -/
def WatchUnit.roundTested (w : WatchUnit) : WatchUnit :=
  let completes := w.inProgress && w.pending.isEmpty && w.running.isEmpty
  { w with
    inProgress := w.inProgress && !completes
    promoted := w.promoted && !completes
    overrun := w.overrun && !completes }

/-- R131: a watch entry whose job was skipped: its count rises by one and saturates at 65535. -/
def WatchEntry.countedSkip (e : WatchEntry) : WatchEntry := { e with skipped := min 65535 (e.skipped + 1) }

/-- R19, R131: a Watch Unit after every pending job of `w` has been skipped; with no pending job nothing is skipped. -/
def WatchUnit.allSkipped (w : WatchUnit) : WatchUnit :=
  if w.pending = [] then w
  else
    WatchUnit.roundTested { w with
      pending := [], entries := w.entries.map fun e => if e.id ∈ w.pending then e.countedSkip else e }

/-! ### How a request ends -/

/-- R77, R95, R115, R152: the context `c` becomes `d` when an end cause reaches it. One that has an end cause, or is in
WRITING or POSTING, is left alone. In LISTING and CLAIMING, and in ACTIVE with no job to wait for, it goes to POSTING; a
MEASURE or TRIM whose job runs keeps ACTIVE until the cut job ends. -/
def Context.EndedBy (cause : EndCause) (c d : Context) : Prop :=
  let status : Status := match cause with
    | .aborted => .aborted
    | .stopped => .stopped
  let told : Context := { c with endCause := some (cause, c.state) }
  let posted : Context := { told with state := .posting, result := some (status, .state c.state) }
  if c.endCause.isSome then d = c
  else match c.state with
    | .writing => d = c
    | .posting => d = c
    | .listing => d = posted
    | .claiming => d = posted
    | .active =>
      match c.request.body with
      | .measure _ =>
        let items := c.items.map fun e =>
          if e.job = .notStarted then { e with job := .ended, samples := [], status := some .aborted } else e
        ((∃ e ∈ c.items, e.job = .running) → d = { told with items := items })
          ∧ ((∀ e ∈ c.items, e.job ≠ .running) → d = { posted with items := items })
      | .trim _ => ∀ q, c.search = some q → (q.job = .running → d = told)
          ∧ (q.job ≠ .running → d = { posted with search := some { q with job := .ended } })
      | _ => d = posted

/-- A job that works for the context `k`: of an item or of a trial. -/
def Job.WorksFor (k : CtxId) (j : Job) : Prop := (∃ i, j.owner = .item k i) ∨ j.owner = .trial k

/-- Whether an end cause cuts jobs of the context: an ACTIVE MEASURE, or a TRIM whose trial runs (R16, R77). -/
def Context.CutsJobs (c : Context) : Prop :=
  c.state = .active ∧ match c.request.body with
    | .measure _ => True
    | .trim _ => ∃ q, c.search = some q ∧ q.job = .running
    | _ => False

/-- R50: a channel entry after the context `k` has released its claims. -/
def Channel.releasedBy (k : CtxId) (e : Channel) : Channel :=
  if e.holder = some (.context k) then { e with holder := none } else e

/-- R112: the channel entries after the restore of a search on `ch` and the release of the claims of `k`. -/
def RestoredAndReleased (k : CtxId) (ch : Chan) (q : Search) (s t : State) : Prop :=
  t.channels[ch] = { s.channels[ch].releasedBy k with trim := q.savedTrim, baseline := q.savedBaseline }
    ∧ ∀ d : Chan, d ≠ ch → t.channels[d] = s.channels[d].releasedBy k

/-- R16, R77 and the rules it names: `t` is `s` after an end cause has reached the context `k`, which was `c`. -/
structure EndCauseTaken (cause : EndCause) (k : CtxId) (c : Context) (s t : State) : Prop where
  context : ∃ d, t.contexts[k] = some d ∧ c.EndedBy cause d
  others : ∀ l : CtxId, l ≠ k → t.contexts[l] = s.contexts[l]
  frame : t = { s with
    contexts := t.contexts, converters := t.converters, faultDischarges := t.faultDischarges
    channels := t.channels, listReads := t.listReads }
  spared : c.endCause.isSome = true ∨ c.state = .writing ∨ c.state = .posting → t = s
  listRead : c.endCause = none → c.state = .listing →
    t.listReads = s.listReads.map fun r => if r.owner = k then { r with discarded := true } else r
  otherReads : c.state ≠ .listing → t.listReads = s.listReads
  cut : c.endCause = none → c.CutsJobs → ∀ (v : ConvId) (j : Job), s.converters[v].job = some j → j.WorksFor k →
    t.converters[v] = { s.converters[v] with
      job := some { j with cut := true }
      state := if s.converters[v].state = .settling ∨ s.converters[v].state = .sampling then .discharging
        else s.converters[v].state }
  cutInFault : c.endCause = none → c.CutsJobs → ∀ (i : Nat) (d : FaultDischarge) (j : Job),
    s.faultDischarges[i]? = some d → d.job = some j → j.WorksFor k →
    t.faultDischarges[i]? = some { d with job := some { j with cut := true } }
  mark : c.endCause = none → c.state = .active → (∃ v a, c.request.body = .converterSet v a) →
    ∀ (v : ConvId) (m : Mark), s.converters[v].mark = some m → m.owner = k → t.converters[v].mark = none
  check : c.endCause = none → c.state = .active → (∃ v a, c.request.body = .converterSet v a) →
    ∀ (v : ConvId) (j : Job), s.converters[v].job = some j → j.owner = .check (.context k) →
      t.converters[v].job = some { j with owner := .check .nobody }
  otherConverters : ∀ v : ConvId, (∀ m, s.converters[v].mark = some m → m.owner ≠ k) →
    (∀ j, s.converters[v].job = some j → ¬j.WorksFor k ∧ j.owner ≠ .check (.context k)) →
    t.converters[v] = s.converters[v]
  otherDischarges : t.faultDischarges.length = s.faultDischarges.length
    ∧ ∀ (i : Nat) (d : FaultDischarge), s.faultDischarges[i]? = some d → (∀ j, d.job = some j → ¬j.WorksFor k) →
      t.faultDischarges[i]? = some d
  released : c.endCause = none → c.state = .active → (∃ b, c.request.body = .measure b) →
    (∀ e ∈ c.items, e.job ≠ .running) → ∀ ch : Chan, t.channels[ch] = s.channels[ch].releasedBy k
  restored : c.endCause = none → c.state = .active → ∀ (b : TrimBody) (q : Search), c.request.body = .trim b →
    c.search = some q → q.job ≠ .running → RestoredAndReleased k b.chan q s t
  held : c.state ≠ .active ∨ c.Busy → t.channels = s.channels

/-- R75, R77, R96, R97: `t` is `s` after the MEASURE `c` in `k`, whose items have all ended, has ended its work: SUCCESS or
PARTIAL with its result in WRITING, or its end cause in POSTING; its claims are released either way. -/
structure MeasureEnds (k : CtxId) (c : Context) (b : MeasureBody) (s t : State) : Prop where
  normal : c.endCause = none →
    let notGood := c.items.countP fun e => decide (e.status ≠ some .good)
    t.contexts[k] = some { c with
        state := .writing, result := some (if notGood = 0 then .success else .partialDone, .count notGood) }
      ∧ t.resultWrites = s.resultWrites ++ if s.engine.state = .halted then [] else
          [{ owner := k, addr := c.request.resultAddr, data := measureResult c b, abandoned := false }]
  early : ∀ (cause : EndCause) (st : CtxState), c.endCause = some (cause, st) →
    t.contexts[k] = some { c with
        state := .posting
        result := some (match cause with
          | .aborted => .aborted
          | .stopped => .stopped, .state st) }
      ∧ t.resultWrites = s.resultWrites
  released : ∀ ch : Chan, t.channels[ch] = s.channels[ch].releasedBy k
  others : ∀ l : CtxId, l ≠ k → t.contexts[l] = s.contexts[l]
  frame : t = { s with contexts := t.contexts, channels := t.channels, resultWrites := t.resultWrites }

/-- R75, R88, R93, R95: `t` is `s` after the item table of the MEASURE `c` in `k` has become `items`; the work ends when
every entry has ended, and goes on otherwise. -/
def ItemsBecome (k : CtxId) (c : Context) (b : MeasureBody) (items : List ItemEntry) (s t : State) : Prop :=
  let u : State := { s with contexts := s.contexts.set k (some { c with items := items }) }
  ((∃ e ∈ items, e.job ≠ .ended) → t = u)
    ∧ ((∀ e ∈ items, e.job = .ended) → MeasureEnds k { c with items := items } b u t)

/-- R112, R113: `t` is `s` after the search `q` of the TRIM `c` in `k` has ended without its verify, with `status`: the
saved trim and baseline restored, the claim released, WRITING with the 48-byte result. -/
structure SearchFails (k : CtxId) (c : Context) (b : TrimBody) (q : Search) (status : Status) (s t : State) : Prop where
  context : t.contexts[k] = some { c with
    state := .writing, search := some q, result := some (status, .trial q.trial q.savedTrim) }
  channels : RestoredAndReleased k b.chan q s t
  written : t.resultWrites = s.resultWrites ++ if s.engine.state = .halted then [] else
    [{ owner := k, addr := c.request.resultAddr, data := trimResult c b q status none q.savedTrim, abandoned := false }]
  others : ∀ l : CtxId, l ≠ k → t.contexts[l] = s.contexts[l]
  frame : t = { s with contexts := t.contexts, channels := t.channels, resultWrites := t.resultWrites }

/-- R115: `t` is `s` after the TRIM `c` in `k`, ended by a cause in state `st`, has no trial job left: restore, release,
POSTING, its trial ENDED (R106). -/
structure TrimEndsEarly (k : CtxId) (c : Context) (b : TrimBody) (q : Search) (cause : EndCause) (st : CtxState)
    (s t : State) : Prop where
  context : t.contexts[k] = some { c with
    state := .posting, search := some { q with job := .ended }
    result := some (match cause with
      | .aborted => .aborted
      | .stopped => .stopped, .state st) }
  channels : RestoredAndReleased k b.chan q s t
  others : ∀ l : CtxId, l ≠ k → t.contexts[l] = s.contexts[l]
  frame : t = { s with contexts := t.contexts, channels := t.channels }

/-! ### What the work of an event leaves alone -/

/-- `t` is `s` after work of contexts, converters and the Watch Unit inside one event, the arbiters among it: job ends,
faults, checks, pending marks, judgments. Everything named here is as it was. -/
structure Worked (s t : State) : Prop where
  registers : t.engine.setupAddress = s.engine.setupAddress ∧ t.engine.stopMode = s.engine.stopMode
    ∧ t.engine.lastError = s.engine.lastError ∧ t.engine.reasonCode = s.engine.reasonCode
    ∧ t.engine.reasonIndex = s.engine.reasonIndex
  engineState : t.engine.state = s.engine.state ∨ (s.engine.state = .loading ∧ t.engine.state = .running)
    ∨ (s.engine.state = .stopping ∧ t.engine.state = .off)
  interrupt : t.interrupt = { s.interrupt with stickyStopped := t.interrupt.stickyStopped }
  profiles : t.profiles = s.profiles
  hopSets : t.hopSets = s.hopSets
  link : ∀ ch : Chan, t.channels[ch].watchLink = s.channels[ch].watchLink
    ∧ (s.channels[ch].watchLink.isSome = true → s.channels[ch].ready = true → t.channels[ch].ready = true)
  configuration : s.NoChannelSetWaits → ∀ ch : Chan, t.channels[ch].ready = s.channels[ch].ready
    ∧ t.channels[ch].park = s.channels[ch].park ∧ t.channels[ch].comp = s.channels[ch].comp
  clearDischarges : t.clearDischarges = s.clearDischarges
  contextFree : ∀ k : CtxId, s.contexts[k] = none → t.contexts[k] = none
  contextUsed : ∀ (k : CtxId) (c : Context), s.contexts[k] = some c → ∃ d, t.contexts[k] = some d
    ∧ d.queue = c.queue ∧ d.holdsTag = c.holdsTag ∧ d.admission = c.admission ∧ d.request = c.request
    ∧ (d.state = .claiming → c.state = .claiming)
  nextAdmission : t.nextAdmission = s.nextAdmission
  queue : ∀ q : QueueId, t.queues[q] = { s.queues[q] with readOutstanding := (t.queues[q]).readOutstanding }
  setupReads : t.setupReads = s.setupReads
  fetchRead : s.fetchRead.isSome = true → t.fetchRead = s.fetchRead
  resultWrites : s.resultWrites <+: t.resultWrites
  ring : t.ring = s.ring
  ringWrite : s.ringWrite.isSome = true → t.ringWrite = s.ringWrite
  issued : s.ringWrite = none → ∀ w, t.ringWrite = some w →
    w.stale = false ∧ s.ring.configured = true ∧ s.ring.count < s.ring.size
  reports : s.ReportsInRange → t.ReportsInRange
  watch : t.watch.period = s.watch.period ∧ t.watch.round = s.watch.round
  watchEntries : t.watch.entries.map (fun e =>
      { e with state := .inside, count := 0, direction := .high, last := none, skipped := 0 })
    = s.watch.entries.map (fun e =>
      { e with state := .inside, count := 0, direction := .high, last := none, skipped := 0 })
  watchPending : t.watch.pending.Sublist s.watch.pending
  pending : t.pending = s.pending

end Sys2Proof.Machine
end

