-- ==== Sys2Proof/Certificates/Slice0/Obligations.lean ====
section
/-! DEFINITION. The statements for the provers. Where a statement says `Arbitrated s' t`, `s'` is the state after the
command's own effects, written out, and `t` is `s'` after the arbiters of the event (log entry 3): all that
`Arbitrated` names is in `t` as it is in `s'`. -/

open Sys2Proof Sys2Proof.Machine

/-! ### The queue of commands, device reset, the register window -/

/-- The block takes the command at the front of its queue, runs it on the state with the rest of the queue, and idles on
an empty queue (log entry 1); a command's own effect leaves the queue alone. -/
def Obligations.FrontCommandRuns : Prop :=
  (∀ (s : State) (c : Instr) (rest : List Instr),
      s.pending = c :: rest → step s = exec c { s with pending := rest })
    ∧ (∀ s : State, s.pending = [] → step s = .next s)
    ∧ ∀ (s t : State) (c : Instr), exec c s = .next t → t.pending = s.pending

/-- A device reset puts every block into the reset values its chapter gives (R5, R25, R27, R36, R61, R118, R119, R158,
R161, R165, R170, R173, R187), and the registers read their reset values (R192). The setup read is none, the posting order
is empty, every connection is open and every pin is in park mode GROUND (R17, R173). The whole state is that of reset but for
the commands that wait. The model's choice in it: that no bus transaction of an earlier session is in flight after it
(`t.ringWrite = none` and its like) and that the commands that wait are kept (`t.pending = s.pending`) is DEDUCED (log entry
8); the zeros of what an unconfigured descriptor and the next admission number hold are DESIGN CHOICE (log entries 13, 14). -/
def Obligations.DeviceResetValues : Prop :=
  ∀ s : State, ∃ t : State, exec .deviceReset s = .next t
    ∧ (∀ ch : Chan, t.channels[ch] =
        { ready := false, park := .ground, comp := .load, trim := 64, baseline := none, holder := none
          watchLink := none })
    ∧ (∀ p : ProfileIx, t.profiles[p] = { high := 4, low := 4 })
    ∧ (∀ h : HopIx, t.hopSets[h] = [0])
    ∧ (∀ c : ConvId, t.converters[c] = { state := .offline, mark := none, job := none, origin := none })
    ∧ (∀ k : CtxId, t.contexts[k] = none)
    ∧ (∀ q : QueueId, (t.queues[q]).state = .unconfigured ∧ (t.queues[q]).fetchIndex = 0 ∧ (t.queues[q]).tail = 0
        ∧ (t.queues[q]).inFlight = 0 ∧ (t.queues[q]).held = none ∧ (t.queues[q]).readOutstanding = false)
    ∧ t.lastServed = 3
    ∧ (t.ring.configured = false ∧ t.ring.writeIndex = 0 ∧ t.ring.head = 0 ∧ t.ring.phase = true ∧ t.ring.count = 0)
    ∧ t.ringWrite = none ∧ t.reports = [] ∧ t.lost = 0
    ∧ (t.watch.entries = [] ∧ t.watch.period = 0 ∧ t.watch.timer = none ∧ t.watch.round = 0
        ∧ t.watch.inProgress = false ∧ t.watch.pending = [] ∧ t.watch.promoted = false ∧ t.watch.running = []
        ∧ t.watch.overrun = false)
    ∧ (t.engine.state = .off ∧ t.engine.stopMode = .none ∧ t.engine.lastError = .none ∧ t.engine.reasonCode = 0
        ∧ t.engine.reasonIndex = 0 ∧ t.engine.setupAddress = 0 ∧ t.engine.startupLeft = [])
    ∧ (t.interrupt.enCompletion = false ∧ t.interrupt.enHalt = false ∧ t.interrupt.enSetupFailed = false
        ∧ t.interrupt.enStopped = false ∧ t.interrupt.threshold = 1 ∧ t.interrupt.timerSetting = 0
        ∧ t.interrupt.timer = none ∧ t.interrupt.late = false ∧ t.interrupt.stickyHalt = false
        ∧ t.interrupt.stickySetupFailed = false ∧ t.interrupt.stickyStopped = false)
    ∧ (readRegister 0x00#32 t = 0 ∧ readRegister 0x04#32 t = 0 ∧ readRegister 0x08#32 t = 0
        ∧ readRegister 0x0C#32 t = 0 ∧ readRegister 0x10#32 t = 0 ∧ readRegister 0x14#32 t = 0x100#32)
    ∧ (t.setupReads = [] ∧ t.fetchRead = none ∧ t.listReads = [] ∧ t.resultWrites = [] ∧ t.posting = [])
    ∧ (t.faultDischarges = [] ∧ t.clearDischarges = [] ∧ ∀ ch : Chan, pin t ch = .drivenLow)
    ∧ t.pending = s.pending ∧ t = { State.reset with pending := s.pending }

/-- R185: the Setup Address register, and the writes and reads of the window that do nothing (R192). -/
def Obligations.SetupAddressRegister : Prop :=
  ∀ (s : State) (word : Reg),
    exec (.registerWrite 0x08#32 word) s = .next { s with engine := { s.engine with setupAddress := word } }
      ∧ readRegister 0x08#32 s = s.engine.setupAddress
      ∧ (∃ t, exec .clear s = .next t ∧ t.engine.setupAddress = s.engine.setupAddress)
      ∧ (∃ t, exec .deviceReset s = .next t ∧ t.engine.setupAddress = 0)
      ∧ (s.engine.state = .off → ∃ t, exec .start s = .next t
          ∧ t.setupReads = s.setupReads ++ [{ addr := s.engine.setupAddress, abandoned := false }])
      ∧ (∀ offset : Reg, offset ∉ [0x00#32, 0x08#32, 0x0C#32, 0x10#32, 0x14#32] →
          exec (.registerWrite offset word) s = .next s)
      ∧ (∀ offset : Reg, offset ∉ [0x04#32, 0x08#32, 0x10#32, 0x14#32] → readRegister offset s = 0)

/-- R186 and the bits of 11.6: each field of Engine Status shows the state it is named for, and the bits between the
fields are zero. -/
def Obligations.EngineStatusFields : Prop :=
  ∀ s : State, let r := readRegister 0x04#32 s
    (r.extractLsb' 0 3).toNat = (match s.engine.state with
        | .off => 0
        | .loading => 1
        | .running => 2
        | .stopping => 3
        | .halted => 4)
      ∧ (r.extractLsb' 3 2).toNat = (match s.engine.stopMode with
        | .none => 0
        | .drain => 1
        | .cut => 2)
      ∧ (r.extractLsb' 5 3).toNat = 0
      ∧ (r.extractLsb' 8 4).toNat = (match s.engine.lastError with
        | .none => 0
        | .commandRefused => 1
        | .setupReadError => 2
        | .setupInvalid => 3
        | .submitRefused => 4
        | .releaseInvalid => 5
        | .ringWriteError => 6)
      ∧ (r.extractLsb' 12 4).toNat = s.engine.reasonCode % 16
      ∧ (r.extractLsb' 16 2).toNat = s.engine.reasonIndex % 4
      ∧ (r.extractLsb' 18 3).toNat = (List.finRange 4).countP (fun c => decide (s.converters[c].state ≠ .offline
          ∧ s.converters[c].state ≠ .held))
      ∧ (r.extractLsb' 21 3).toNat = 0
      ∧ (∀ c : ConvId, r.getLsbD (24 + c.val) = decide (s.converters[c].state = .held))
      ∧ ∀ q : QueueId, r.getLsbD (28 + q.val) = decide ((s.queues[q]).state = .faulted)

/-- R187: a write of Interrupt Control, a read of it (bits of 11.6), and the INT_N line. -/
def Obligations.InterruptControlRegister : Prop :=
  ∀ (s : State) (word : Reg),
    let setting := (word.extractLsb' 16 8).toNat
    let completion : Prop := s.ring.configured = true
      ∧ ((if s.interrupt.threshold = 0 then 1 else s.interrupt.threshold) ≤ s.ring.count ∨ s.interrupt.late = true)
    let r := readRegister 0x14#32 s
    exec (.interruptControl word) s = .next { s with
        interrupt :=
          { enCompletion := word.getLsbD 0, enHalt := word.getLsbD 1, enSetupFailed := word.getLsbD 2
            enStopped := word.getLsbD 3, threshold := (word.extractLsb' 8 8).toNat, timerSetting := setting
            timer := if setting = 0 then none else s.interrupt.timer
            late := s.interrupt.late
            stickyHalt := s.interrupt.stickyHalt && !word.getLsbD 28
            stickySetupFailed := s.interrupt.stickySetupFailed && !word.getLsbD 29
            stickyStopped := s.interrupt.stickyStopped && !word.getLsbD 30 } }
      ∧ (r.getLsbD 0 = s.interrupt.enCompletion ∧ r.getLsbD 1 = s.interrupt.enHalt
          ∧ r.getLsbD 2 = s.interrupt.enSetupFailed ∧ r.getLsbD 3 = s.interrupt.enStopped
          ∧ (r.extractLsb' 4 4).toNat = 0
          ∧ (r.extractLsb' 8 8).toNat = s.interrupt.threshold % 256
          ∧ (r.extractLsb' 16 8).toNat = s.interrupt.timerSetting % 256
          ∧ r.getLsbD 24 = s.interrupt.late ∧ (r.getLsbD 25 = true ↔ completion)
          ∧ (r.extractLsb' 26 2).toNat = 0
          ∧ r.getLsbD 28 = s.interrupt.stickyHalt ∧ r.getLsbD 29 = s.interrupt.stickySetupFailed
          ∧ r.getLsbD 30 = s.interrupt.stickyStopped ∧ r.getLsbD 31 = false)
      ∧ (intNLow s = true ↔ (completion ∧ s.interrupt.enCompletion = true)
          ∨ (s.interrupt.stickyHalt = true ∧ s.interrupt.enHalt = true)
          ∨ (s.interrupt.stickySetupFailed = true ∧ s.interrupt.enSetupFailed = true)
          ∨ (s.interrupt.stickyStopped = true ∧ s.interrupt.enStopped = true))

/-! ### Engine commands -/

/-- R174: what each command code does in each engine state, a refused command changing the last error alone. -/
def Obligations.CommandTable : Prop :=
  ∀ s : State,
    let refused (code : Nat) : State :=
      { s with engine := { s.engine with lastError := .commandRefused, reasonCode := code, reasonIndex := 0 } }
    let begun (c : Instr) (mode : StopMode) : Prop := ∃ t, exec c s = .next t ∧ t.engine.stopMode = mode
      ∧ (t.engine.state = .stopping ∨ t.engine.state = .off) ∧ (t.engine.state = .off ↔ t.StopConditions)
    (s.engine.state = .off → ∃ t, exec .start s = .next t ∧ t.engine.state = .loading)
      ∧ (s.engine.state ≠ .off → exec .start s = .next (refused 1))
      ∧ (s.engine.state = .running → begun .stopDrain .drain)
      ∧ (s.engine.state = .stopping → exec .stopDrain s = .next s)
      ∧ (s.engine.state = .off ∨ s.engine.state = .loading ∨ s.engine.state = .halted →
          exec .stopDrain s = .next (refused 2))
      ∧ (s.engine.state = .loading → ∃ t, exec .stopCut s = .next t ∧ t.engine.state = .off)
      ∧ (s.engine.state = .running ∨ (s.engine.state = .stopping ∧ s.engine.stopMode = .drain) →
          begun .stopCut .cut)
      ∧ (s.engine.state = .stopping ∧ s.engine.stopMode = .cut → exec .stopCut s = .next s)
      ∧ (s.engine.state = .off ∨ s.engine.state = .halted → exec .stopCut s = .next (refused 3))
      ∧ (∃ t, exec .clear s = .next t ∧ t.engine.state = .off)
      ∧ (∀ word : Reg, word.toNat % 16 ∉ [1, 2, 3, 4] →
          exec (.commandRefused word) s = .next (refused (word.toNat % 16)))
      ∧ readRegister 0x00#32 s = 0

/-- R175: an accepted START. -/
def Obligations.StartBeginsLoading : Prop :=
  ∀ s : State, s.engine.state = .off → ∃ t : State, exec .start s = .next t
    ∧ t.engine = { s.engine with
        state := .loading, stopMode := .none, lastError := .none, reasonCode := 0, reasonIndex := 0 }
    ∧ (∀ q : QueueId, (t.queues[q]).state = .unconfigured ∧ (t.queues[q]).inFlight = 0
        ∧ (t.queues[q]).held = none ∧ (t.queues[q]).readOutstanding = false)
    ∧ t.ring.configured = false ∧ t.ring.count = 0
    ∧ t.nextAdmission = 0
    ∧ t.setupReads = s.setupReads ++ [{ addr := s.engine.setupAddress, abandoned := false }]
    ∧ (∀ word : Reg, ∃ u, exec (.registerWrite 0x08#32 word) t = .next u ∧ u.engine.setupAddress = word
        ∧ u.setupReads = t.setupReads)
    ∧ t.channels = s.channels ∧ t.profiles = s.profiles ∧ t.hopSets = s.hopSets ∧ t.watch = s.watch
    ∧ t.reports = s.reports ∧ t.lost = s.lost ∧ t.converters = s.converters ∧ t.contexts = s.contexts
    ∧ t.faultDischarges = s.faultDischarges ∧ t.clearDischarges = s.clearDischarges ∧ t.posting = s.posting
    ∧ t.listReads = s.listReads ∧ t.resultWrites = s.resultWrites
    ∧ t.interrupt = { s.interrupt with timer := none, late := false }
    ∧ t.fetchRead = s.fetchRead.map (fun r => { r with current := false })
    ∧ t.ringWrite = s.ringWrite.map (fun w => { w with stale := true })

/-- R180: an accepted STOP_DRAIN stops the intake, drops held records and pending watch jobs without a skip, and touches
no context; the end of the stop is judged in the same event (R182). That dropping a round's last pending job completes the
round at once is DEDUCED (log entry 16). -/
def Obligations.StopDrainStopsIntake : Prop :=
  ∀ s : State, s.engine.state = .running →
    let complete := s.watch.inProgress && s.watch.running.isEmpty
    let watch := { s.watch with
      timer := none, pending := [], inProgress := s.watch.inProgress && !complete, promoted := s.watch.promoted && !complete
      overrun := s.watch.overrun && !complete }
    ∃ t : State, exec .stopDrain s = .next t
      ∧ Arbitrated { s with
          engine := { s.engine with state := .stopping, stopMode := .drain }
          queues := s.queues.map fun q => { q with held := none }
          watch := watch } t
      ∧ t.watch = watch
      ∧ (t.engine.state = .off ↔ t.StopConditions)

/-- R181 with R73, R74, R77, R95, R115, R152, R10 and R16: an accepted STOP_CUT gives every context in LISTING, CLAIMING or
ACTIVE the end cause STOPPED, oldest first, and each takes its end: a waiting request posts, a MEASURE or TRIM whose job
runs waits for the cut job, an idle TRIM is restored, a CONVERTER_SET withdraws its mark. What one end cause does is
`EndCauseTaken`. In LOADING a STOP_CUT abandons the setup read and the start-up checks that still run, and ends LOADING
(R179). DEDUCED: the arbiters, `finish`, run after these effects (log entry 3), a round whose last pending job is dropped
completes at once (log entry 16), and a check whose context is ended has the owner `nobody` (log entry 18). -/
def Obligations.StopCutEndsWork : Prop :=
  (∀ s : State, s.engine.state = .loading → ∃ t : State, exec .stopCut s = .next t
      ∧ Arbitrated { s with
          engine := { s.engine with state := .off, stopMode := .cut, startupLeft := [] }
          interrupt := { s.interrupt with stickyStopped := true }
          setupReads := s.setupReads.map fun r => { r with abandoned := true }
          converters := s.converters.map fun v =>
            if v.state = .checking then { v with state := .offline, job := none, origin := none } else v } t)
  ∧ (∀ s : State, s.engine.state = .running ∨ (s.engine.state = .stopping ∧ s.engine.stopMode = .drain) →
    let complete := s.watch.inProgress && s.watch.running.isEmpty
    let begun : State := if s.engine.state = .running then { s with
        engine := { s.engine with state := .stopping, stopMode := .cut }
        queues := s.queues.map fun q => { q with held := none }
        watch := { s.watch with
          timer := none, pending := [], inProgress := s.watch.inProgress && !complete
          promoted := s.watch.promoted && !complete, overrun := s.watch.overrun && !complete } }
      else { s with engine := { s.engine with stopMode := .cut } }
    let works (c : Context) : Prop := c.state = .listing ∨ c.state = .claiming ∨ c.state = .active
    let electrodes (v : Converter) : Prop := v.state = .settling ∨ v.state = .sampling ∨ v.state = .discharging
    ∃ (t : State) (order : List CtxId), exec .stopCut s = .next t
      ∧ t = finish (order.foldl (fun u k => setEndCause .stopped k u) begun)
      ∧ order.Nodup ∧ (∀ k : CtxId, k ∈ order ↔ ∃ c, s.contexts[k] = some c ∧ works c)
      ∧ order.Pairwise (fun k l => ∀ c d : Context, s.contexts[k] = some c → s.contexts[l] = some d →
          c.admission ≤ d.admission)
      ∧ t.engine.stopMode = .cut ∧ (t.engine.state = .stopping ∨ t.engine.state = .off)
      ∧ (t.engine.state = .off ↔ t.StopConditions)
      ∧ t.fetchRead = s.fetchRead ∧ t.nextAdmission = s.nextAdmission ∧ t.profiles = s.profiles ∧ t.hopSets = s.hopSets
      ∧ t.ring = s.ring ∧ t.setupReads = s.setupReads ∧ t.clearDischarges = s.clearDischarges
      ∧ t.reports = s.reports ∧ t.lost = s.lost ∧ t.watch.entries.map WatchEntry.id = s.watch.entries.map WatchEntry.id
      ∧ (s.engine.state = .running →
          t.watch.timer = none ∧ t.watch.pending = [] ∧ ∀ q : QueueId, (t.queues[q]).held = none)
      ∧ (∀ (k : CtxId) (c : Context), s.contexts[k] = some c → c.endCause = none →
          (c.state = .listing ∨ c.state = .claiming) →
          t.contexts[k] = some { c with
            state := .posting, endCause := some (.stopped, c.state), result := some (.stopped, .state c.state) })
      ∧ (∀ (k : CtxId) (c : Context) (conv action : Nat), s.contexts[k] = some c → c.endCause = none →
          c.state = .active → c.request.body = .converterSet conv action →
          t.contexts[k] = some { c with
            state := .posting, endCause := some (.stopped, .active), result := some (.stopped, .state .active) })
      ∧ (∀ (k : CtxId) (c : Context), s.contexts[k] = some c → (c.state = .writing ∨ c.state = .posting) →
          t.contexts[k] = some c)
      ∧ (∀ (v : ConvId) (j : Job) (k : CtxId) (i : Nat) (c : Context) (b : MeasureBody),
          (s.converters[v].state = .settling ∨ s.converters[v].state = .sampling) →
          s.converters[v].job = some j → j.owner = .item k i → s.contexts[k] = some c → c.endCause = none →
          c.state = .active → c.request.body = .measure b →
          t.converters[v].state = .discharging ∧ t.converters[v].job = some { j with cut := true })
      ∧ (∀ (k : CtxId) (c : Context), s.contexts[k] = some c → c.endCause = none →
          ∃ d, t.contexts[k] = some d ∧ c.EndedBy .stopped d)
      ∧ (∀ (k : CtxId) (c : Context) (b : MeasureBody), s.contexts[k] = some c → c.endCause = none → c.state = .active →
          c.request.body = .measure b → ∃ d, t.contexts[k] = some d ∧ d.endCause = some (.stopped, .active))
      ∧ (∀ (k : CtxId) (c : Context) (b : TrimBody) (q : Search), s.contexts[k] = some c → c.endCause = none →
          c.state = .active → c.request.body = .trim b → c.search = some q →
          ∃ d, t.contexts[k] = some d ∧ d.endCause = some (.stopped, .active)
            ∧ (d.state = .posting ↔ q.job ≠ .running))
      ∧ (∀ (v : ConvId) (j : Job) (k : CtxId) (c : Context), electrodes s.converters[v] → s.converters[v].job = some j →
          j.WorksFor k → s.contexts[k] = some c → c.endCause = none → c.CutsJobs →
          t.converters[v].state = .discharging ∧ t.converters[v].job = some { j with cut := true })
      ∧ (∀ (i : Nat) (x : FaultDischarge) (j : Job) (k : CtxId) (c : Context), s.faultDischarges[i]? = some x →
          x.job = some j → j.WorksFor k → s.contexts[k] = some c → c.endCause = none → c.CutsJobs →
          t.faultDischarges[i]? = some { x with job := some { j with cut := true } })
      ∧ ∀ (v : ConvId) (m : Mark) (c : Context) (conv action : Nat), s.converters[v].mark = some m →
          s.contexts[m.owner] = some c → c.endCause = none → c.state = .active →
          c.request.body = .converterSet conv action → t.converters[v].mark = none)
  ∧ ∀ (s : State) (k : CtxId) (c : Context), s.contexts[k] = some c →
      EndCauseTaken .stopped k c s (setEndCause .stopped k s)

/-- R184 with R17, R37, R71, R141, R158, R165, R170, R173 and R187: an accepted CLEAR, in any engine state. That
CLEAR keeps what R184 does not name is DEDUCED (log entry 20). -/
def Obligations.ClearEndsSession : Prop :=
  ∀ s : State, ∃ t : State, exec .clear s = .next t
    ∧ t.engine = { state := .off, stopMode := .none, lastError := .none, reasonCode := 0, reasonIndex := 0
                   setupAddress := s.engine.setupAddress, startupLeft := [] }
    ∧ (∀ k : CtxId, t.contexts[k] = none)
    ∧ (∀ c : ConvId, t.converters[c] =
        { state := if s.converters[c].state = .held then .held else .offline, mark := none, job := none
          origin := none })
    ∧ (t.watch.entries = [] ∧ t.watch.period = 0 ∧ t.watch.timer = none ∧ t.watch.round = 0
        ∧ t.watch.inProgress = false ∧ t.watch.pending = [] ∧ t.watch.promoted = false ∧ t.watch.running = []
        ∧ t.watch.overrun = false)
    ∧ t.reports = [] ∧ t.lost = 0 ∧ t.posting = []
    ∧ (∀ q : QueueId, (t.queues[q]).state = .unconfigured ∧ (t.queues[q]).fetchIndex = 0 ∧ (t.queues[q]).tail = 0
        ∧ (t.queues[q]).inFlight = 0 ∧ (t.queues[q]).held = none ∧ (t.queues[q]).readOutstanding = false)
    ∧ (t.ring.configured = false ∧ t.ring.writeIndex = 0 ∧ t.ring.head = 0 ∧ t.ring.phase = true ∧ t.ring.count = 0)
    ∧ (t.setupReads = s.setupReads.map (fun r => { r with abandoned := true })
        ∧ t.fetchRead = s.fetchRead.map (fun r => { r with current := false })
        ∧ t.listReads = s.listReads.map (fun r => { r with discarded := true })
        ∧ t.resultWrites = s.resultWrites.map (fun w => { w with abandoned := true })
        ∧ t.ringWrite = s.ringWrite.map (fun w => { w with stale := true }))
    ∧ t.interrupt = { s.interrupt with
        timer := none, late := false, stickyHalt := false, stickySetupFailed := false, stickyStopped := false }
    ∧ t.profiles = s.profiles ∧ t.hopSets = s.hopSets
    ∧ t.faultDischarges = s.faultDischarges.map (fun d => { d with job := none })
    ∧ (s.clearDischarges <+: t.clearDischarges
        ∧ ∀ d : ClearDischarge, d ∈ t.clearDischarges ↔ d ∈ s.clearDischarges
          ∨ ∃ j, s.converters[d.conv].job = some j ∧ j.connection = d.connection
            ∧ (s.converters[d.conv].state = .settling ∨ s.converters[d.conv].state = .sampling
              ∨ s.converters[d.conv].state = .discharging))
    ∧ t.lastServed = s.lastServed ∧ t.nextAdmission = s.nextAdmission ∧ t.pending = s.pending
    ∧ (∀ ch : Chan, t.channels[ch].ready = s.channels[ch].ready ∧ t.channels[ch].park = s.channels[ch].park
        ∧ t.channels[ch].comp = s.channels[ch].comp ∧ t.channels[ch].holder = none
        ∧ t.channels[ch].watchLink = none)
    ∧ (∀ ch : Chan,
        (∀ (k : CtxId) (c : Context) (b : TrimBody), s.contexts[k] = some c → c.state = .active →
          c.request.body = .trim b → b.chan ≠ ch) →
        t.channels[ch].trim = s.channels[ch].trim ∧ t.channels[ch].baseline = s.channels[ch].baseline)
    ∧ (∀ (k : CtxId) (c : Context) (b : TrimBody) (q : Search), s.contexts[k] = some c → c.state = .active →
        c.request.body = .trim b → c.search = some q →
        (∀ (l : CtxId) (d : Context) (e : TrimBody), s.contexts[l] = some d → d.state = .active →
          d.request.body = .trim e → e.chan = b.chan → l = k) →
        t.channels[b.chan].trim = q.savedTrim ∧ t.channels[b.chan].baseline = q.savedBaseline)

/-! ### Setup (chapters 9.1 and 10.2) -/

/-- R155, R156: the checks of the setup block in their order, with reason code and queue index, stopping at the first
that fails. The block's fields stand at the positions of 11.2, least significant byte first; no other byte is looked at
(R190). -/
def Obligations.SetupChecksInOrder : Prop :=
  (∀ bytes : List Byte,
    let at1 (off : Nat) : Nat := (bytes.getD off 0).toNat
    let at2 (off : Nat) : Nat := at1 off + 2 ^ 8 * at1 (off + 1)
    let at4 (off : Nat) : Nat := at2 off + 2 ^ 16 * at1 (off + 2) + 2 ^ 24 * at1 (off + 3)
    SetupBlock.ofBytes bytes =
      { queueCount := at1 0, watchPeriod := at2 4, ringBase := at4 8, ringSize := at2 12
        queues :=
          [{ base := at4 16, size := at2 20, quota := at1 22 }, { base := at4 28, size := at2 32, quota := at1 34 },
           { base := at4 40, size := at2 44, quota := at1 46 }, { base := at4 52, size := at2 56, quota := at1 58 }] })
  ∧ ∀ b : SetupBlock, b.queues.length = 4 →
    let powerOfTwoIn (low high n : Nat) : Prop := low ≤ n ∧ n ≤ high ∧ ∃ e, n = 2 ^ e
    (¬(1 ≤ b.queueCount ∧ b.queueCount ≤ 4) → b.check = some (1, 0))
      ∧ (1 ≤ b.queueCount ∧ b.queueCount ≤ 4 →
          let good (q : SetupQueue) : Prop := q.base % 64 = 0 ∧ powerOfTwoIn 16 1024 q.size ∧ q.quota ≠ 0
          let earlier (i : Nat) : Prop := ∀ j q, j < i → j < b.queueCount → b.queues[j]? = some q → good q
          (∀ i q, i < b.queueCount → b.queues[i]? = some q → earlier i → q.base % 64 ≠ 0 → b.check = some (2, i))
            ∧ (∀ i q, i < b.queueCount → b.queues[i]? = some q → earlier i → q.base % 64 = 0 →
                ¬powerOfTwoIn 16 1024 q.size → b.check = some (3, i))
            ∧ (∀ i q, i < b.queueCount → b.queues[i]? = some q → earlier i → q.base % 64 = 0 →
                powerOfTwoIn 16 1024 q.size → q.quota = 0 → b.check = some (4, i))
            ∧ (earlier 4 →
                let quotas := ((b.queues.take b.queueCount).map SetupQueue.quota).sum
                (b.ringBase % 16 ≠ 0 → b.check = some (5, 0))
                  ∧ (b.ringBase % 16 = 0 → ¬powerOfTwoIn 32 4096 b.ringSize → b.check = some (6, 0))
                  ∧ (b.ringBase % 16 = 0 → powerOfTwoIn 32 4096 b.ringSize → 16 < quotas → b.check = some (7, 0))
                  ∧ (b.ringBase % 16 = 0 → powerOfTwoIn 32 4096 b.ringSize → quotas ≤ 16 → 60000 < b.watchPeriod →
                      b.check = some (8, 0))
                  ∧ (b.ringBase % 16 = 0 → powerOfTwoIn 32 4096 b.ringSize → quotas ≤ 16 → b.watchPeriod ≤ 60000 →
                      b.check = none)))

/-- R176: the setup read that ends with a bus error or brings a block that fails a check ends LOADING in OFF; the end of
an abandoned setup read acts on nothing. -/
def Obligations.SetupReadFails : Prop :=
  ∀ (s : State) (k : Nat) (r : SetupRead), s.setupReads[k]? = some r →
    (r.abandoned = false → s.engine.state = .loading →
        (∃ t, exec (.setupReadEnd k .busError) s = .next t ∧ Arbitrated { s with
          setupReads := s.setupReads.eraseIdx k
          engine := { s.engine with
            state := .off, lastError := .setupReadError, reasonCode := 0, reasonIndex := 0 }
          interrupt := { s.interrupt with stickySetupFailed := true } } t)
        ∧ ∀ (bytes : List Byte) (code index : Nat), bytes.length = 64 →
            (SetupBlock.ofBytes bytes).check = some (code, index) →
            ∃ t, exec (.setupReadEnd k (.data bytes)) s = .next t ∧ Arbitrated { s with
              setupReads := s.setupReads.eraseIdx k
              engine := { s.engine with
                state := .off, lastError := .setupInvalid, reasonCode := code, reasonIndex := index }
              interrupt := { s.interrupt with stickySetupFailed := true } } t)
      ∧ (r.abandoned = true ∨ s.engine.state ≠ .loading → ∀ how : ReadEnd,
          (∀ bytes, how = .data bytes → bytes.length = 64) →
          exec (.setupReadEnd k how) s = .next { s with setupReads := s.setupReads.eraseIdx k })

/-- R177 with R11, R139, R157 and R178: a valid setup block prepares the session and starts a check on every converter
that is not HELD; with none, NO_CONVERTER is raised and the engine enters RUNNING at once. -/
def Obligations.ValidSetupPreparesSession : Prop :=
  ∀ (s : State) (k : Nat) (r : SetupRead) (bytes : List Byte), s.setupReads[k]? = some r → r.abandoned = false →
    s.engine.state = .loading → bytes.length = 64 → (SetupBlock.ofBytes bytes).check = none →
    let b := SetupBlock.ofBytes bytes
    ∃ t : State, exec (.setupReadEnd k (.data bytes)) s = .next t
      ∧ t.setupReads = s.setupReads.eraseIdx k
      ∧ (∀ (q : QueueId) (d : SetupQueue), q.val < b.queueCount → b.queues[q.val]? = some d →
          t.queues[q] =
            { state := .active, base := BitVec.ofNat 32 d.base, size := d.size, quota := d.quota, fetchIndex := 0
              tail := 0, inFlight := 0, held := none, readOutstanding := (t.queues[q]).readOutstanding })
      ∧ (∀ q : QueueId, b.queueCount ≤ q.val → (t.queues[q]).state = .unconfigured)
      ∧ t.lastServed = 3
      ∧ t.ring =
          { configured := true, base := BitVec.ofNat 32 b.ringBase, size := b.ringSize, writeIndex := 0, head := 0
            phase := true, count := 0 }
      ∧ (t.watch.period = b.watchPeriod ∧ t.watch.round = 0 ∧ t.watch.inProgress = false ∧ t.watch.pending = []
          ∧ t.watch.promoted = false ∧ t.watch.running = [] ∧ t.watch.overrun = false
          ∧ t.watch.entries = s.watch.entries.map fun e =>
              { e with state := .inside, count := 0, direction := .high, last := none, skipped := 0 })
      ∧ (∀ c : ConvId, s.converters[c].state ≠ .held →
          t.converters[c] =
            { state := .checking, mark := s.converters[c].mark, origin := some s.converters[c].state
              job := some
                { owner := .check .engineControl, connection := .reference, n := 4, settle := 6, ceiling := 65535
                  profiles := [s.profiles[(0 : ProfileIx)]], applied := [], samples := [], cut := false } })
      ∧ (∀ c : ConvId, s.converters[c].state = .held → t.converters[c] = s.converters[c])
      ∧ (∀ c : ConvId, c ∈ t.engine.startupLeft ↔ s.converters[c].state ≠ .held)
      ∧ ((∃ c : ConvId, s.converters[c].state ≠ .held) →
          t.engine.state = .loading ∧ t.watch.timer = none ∧ t.reports = s.reports ∧ t.lost = s.lost)
      ∧ ((∀ c : ConvId, s.converters[c].state = .held) →
          t.engine.state = .running
            ∧ t.watch.timer = (if b.watchPeriod = 0 then none else some (b.watchPeriod * 32000))
            ∧ t.reports = (if s.reports.length < 8 then s.reports ++ [.noConverter] else s.reports)
            ∧ t.lost = (if s.reports.length < 8 then s.lost else min 65535 (s.lost + 1)))

/-! ### Submission queues and admission (chapters 4.3, 4.4, 9.2, 9.3) -/

/-- R160: a Submit Index write is refused, faults its queue, or sets its tail. -/
def Obligations.SubmitIndexWrite : Prop :=
  ∀ (s : State) (word : Reg),
    let q : QueueId := Fin.ofNat 4 (word.extractLsb' 16 2).toNat
    let tail := (word.extractLsb' 0 12).toNat
    (s.engine.state ≠ .running ∨ (s.queues[q]).state ≠ .active →
        exec (.submitIndex word) s = .next { s with
          engine := { s.engine with lastError := .submitRefused, reasonCode := 0, reasonIndex := q.val } })
      ∧ (s.engine.state = .running → (s.queues[q]).state = .active → (s.queues[q]).size ≤ tail →
          ∃ t, exec (.submitIndex word) s = .next t
            ∧ t.queues[q] = { s.queues[q] with
                state := .faulted, readOutstanding := (t.queues[q]).readOutstanding }
            ∧ t.reports = (if s.reports.length < 8
                then s.reports ++ [.queueFault q .tailInvalid (s.queues[q]).fetchIndex tail] else s.reports)
            ∧ t.lost = (if s.reports.length < 8 then s.lost else min 65535 (s.lost + 1))
            ∧ t.engine.lastError = s.engine.lastError
            ∧ Arbitrated (raise (.queueFault q .tailInvalid (s.queues[q]).fetchIndex tail)
                (s.modQueue q fun d => { d with state := .faulted })) t)
      ∧ (s.engine.state = .running → (s.queues[q]).state = .active → tail < (s.queues[q]).size →
          ∃ t, exec (.submitIndex word) s = .next t
            ∧ Arbitrated (s.modQueue q fun d => { d with tail := tail }) t)

/-- R161: when no read is outstanding and a queue is eligible, the first eligible queue after the last-served one is
served, at its next slot, and nothing else moves; the slot address is stated where base + 64 x index fits in 32 bits
(past it, it is a free value, log entry 7). -/
def Obligations.FetchArbiterServes : Prop :=
  ∀ s : State, s.engine.state = .running → s.fetchRead = none →
    let eligible (q : QueueId) : Prop := (s.queues[q]).state = .active
      ∧ (s.queues[q]).fetchIndex ≠ (s.queues[q]).tail ∧ (s.queues[q]).held = none
      ∧ (s.queues[q]).inFlight < (s.queues[q]).quota
    ((∀ q, ¬eligible q) → issueFetch s = s)
      ∧ ∀ n : Nat, 1 ≤ n → n ≤ 4 →
          let q : QueueId := s.lastServed + Fin.ofNat 4 n
          eligible q → (∀ m : Nat, 1 ≤ m → m < n → ¬eligible (s.lastServed + Fin.ofNat 4 m)) →
          (issueFetch s).lastServed = q
            ∧ issueFetch s = { s.modQueue q (fun d => { d with readOutstanding := true }) with
                lastServed := q, fetchRead := (issueFetch s).fetchRead }
            ∧ ∃ addr, (issueFetch s).fetchRead = some { queue := q, addr := addr, current := true }
                ∧ ((s.queues[q]).base.toNat + 64 * (s.queues[q]).fetchIndex < 2 ^ 32 →
                    addr.toNat = (s.queues[q]).base.toNat + 64 * (s.queues[q]).fetchIndex)

/-- R162, R64: a record that arrives in RUNNING and is not held by its fence takes a FREE context with the next admission
number, and its queue's fetch index and in-flight count advance; every context in use stays in use with its queue, tag,
number and record. -/
def Obligations.RecordAdmitted : Prop :=
  ∀ (s : State) (r : FetchRead) (bytes : List Byte), s.fetchRead = some r → r.current = true →
    s.engine.state = .running → (s.queues[r.queue]).state = .active → bytes.length = 64 →
    ((Request.ofBytes bytes).flags.fence = false ∨ (s.queues[r.queue]).inFlight = 0) →
    (∃ k : CtxId, s.contexts[k] = none) →
    ∃ (t : State) (k : CtxId) (c : Context), exec (.fetchReadEnd (.data bytes)) s = .next t
      ∧ s.contexts[k] = none ∧ t.contexts[k] = some c
      ∧ c.queue = r.queue ∧ c.admission = s.nextAdmission ∧ c.request = Request.ofBytes bytes
      ∧ c.holdsTag = !tagHeld s r.queue (Request.ofBytes bytes).tag
      ∧ c.bytesWritten = 0
      ∧ t.nextAdmission = s.nextAdmission + 1 ∧ t.engine = s.engine ∧ t.interrupt = s.interrupt ∧ t.ring = s.ring
      ∧ t.setupReads = s.setupReads ∧ t.clearDischarges = s.clearDischarges
      ∧ (t.queues[r.queue]).inFlight = (s.queues[r.queue]).inFlight + 1
      ∧ (t.queues[r.queue]).fetchIndex
          = (if (s.queues[r.queue]).fetchIndex + 1 = (s.queues[r.queue]).size then 0
             else (s.queues[r.queue]).fetchIndex + 1)
      ∧ ∀ (l : CtxId) (d : Context), s.contexts[l] = some d → ∃ e, t.contexts[l] = some e
          ∧ e.queue = d.queue ∧ e.holdsTag = d.holdsTag ∧ e.admission = d.admission ∧ e.request = d.request

/-- R65, R66: a record that fails a check still becomes a context: it presents no claim set, does no work, and stands in
POSTING with the status and detail of the first check that fails and no bytes written. -/
def Obligations.FailedAdmissionPosts : Prop :=
  ∀ (s : State) (r : FetchRead) (bytes : List Byte) (status : Status) (detail : Detail), s.fetchRead = some r →
    r.current = true → s.engine.state = .running → (s.queues[r.queue]).state = .active → bytes.length = 64 →
    ((Request.ofBytes bytes).flags.fence = false ∨ (s.queues[r.queue]).inFlight = 0) →
    (∃ k : CtxId, s.contexts[k] = none) →
    admissionFailure s r.queue (Request.ofBytes bytes) = some (status, detail) →
    ∃ (t : State) (k : CtxId) (c : Context), exec (.fetchReadEnd (.data bytes)) s = .next t
      ∧ s.contexts[k] = none ∧ t.contexts[k] = some c
      ∧ c.state = .posting ∧ c.result = some (status, detail) ∧ c.bytesWritten = 0 ∧ c.claimSet = [] ∧ c.items = []
      ∧ (status = .tagInUse ↔ c.holdsTag = false)
      ∧ Arbitrated
          { s.modQueue r.queue (fun q => { q with
              readOutstanding := false, inFlight := q.inFlight + 1
              fetchIndex := if q.fetchIndex + 1 = q.size then 0 else q.fetchIndex + 1 }) with
            fetchRead := none, nextAdmission := s.nextAdmission + 1, contexts := s.contexts.set k (some c) } t

/-- R59, R72, R46: the path of a record that passes its checks. A PROFILE_SET, a watch request, a CONVERTER_SET and an
ABORT execute at their admission; a TRIM, a CHANNEL_SET and a MEASURE with inline items present their claim sets; a
MEASURE with EXTERNAL_LIST issues its list read. -/
def Obligations.RequestsTakeTheirPaths : Prop :=
  ∀ (s : State) (r : FetchRead) (bytes : List Byte), s.fetchRead = some r → r.current = true →
    s.engine.state = .running → (s.queues[r.queue]).state = .active → bytes.length = 64 →
    ((Request.ofBytes bytes).flags.fence = false ∨ (s.queues[r.queue]).inFlight = 0) →
    (∃ k : CtxId, s.contexts[k] = none) → admissionFailure s r.queue (Request.ofBytes bytes) = none →
    let q := Request.ofBytes bytes
    let c : Context :=
      { state := .active, queue := r.queue, holdsTag := true, admission := s.nextAdmission, request := q, claimSet := []
        items := [], search := none, action := none, endCause := none, result := none, bytesWritten := 0 }
    ∃ (t : State) (k : CtxId), exec (.fetchReadEnd (.data bytes)) s = .next t ∧ s.contexts[k] = none
      ∧ let base : State :=
          { s.modQueue r.queue (fun d => { d with
              readOutstanding := false, inFlight := d.inFlight + 1
              fetchIndex := if d.fetchIndex + 1 = d.size then 0 else d.fetchIndex + 1 }) with
            fetchRead := none, nextAdmission := s.nextAdmission + 1, contexts := s.contexts.set k (some c) }
        PathTaken k c base t

/-- R65 to R69: the checks of an admission run in order: the tag, the common fields, the body fields of the kind (R32, R54,
R68, R104, R120, R122, R126, R142, R147), the result length; the first field that fails gives INVALID_REQUEST with its code
and index (R67). So do the item checks of a list (R68, R72), which give the items their descriptors name (R83), and the
checks a WATCH_ADD makes at its execution (R120, step 5). A record's fields, and those of an item list, stand at the
positions of 11.3, least significant byte first; no other byte is looked at (R190). -/
def Obligations.AdmissionChecks : Prop :=
  let within (low n high : Nat) : Prop := low ≤ n ∧ n ≤ high
  let sampling (n settle hop ceiling : Nat) : List (Prop × Nat × Nat) :=
    [(¬within 1 n 16, 17, 0), (¬settle ≤ 11, 18, 0), (¬hop ≤ 7, 19, 0), (¬within 256 ceiling 65535, 20, 0)]
  let twoChannels (mask : Byte) : Prop := ∃ i j : Nat, i < j ∧ j < 8 ∧ mask.getLsbD i = true ∧ mask.getLsbD j = true
  let itemChecks (l : List RawItem) : List (Prop × Nat × Nat) := l.zipIdx.flatMap fun x =>
    [(x.1.kind ≠ 1 ∧ x.1.kind ≠ 2, 22, x.2), (x.1.kind = 1 ∧ ¬x.1.sel ≤ 63, 23, x.2),
     (x.1.kind = 2 ∧ ¬x.1.sel ≤ 7, 24, x.2), (x.1.kind = 2 ∧ ¬twoChannels x.1.mask, 25, x.2)]
  let bodyChecks (r : Request) : List (Prop × Nat × Nat) :=
    match r.body with
    | .measure b =>
      [(¬within 1 b.itemCount (if r.flags.externalList then 32 else 8), 16, 0)]
        ++ sampling b.n b.settle b.hop b.ceiling
        ++ (if r.flags.externalList then [(b.listAddr.toNat % 4 ≠ 0, 21, 0)]
            else itemChecks (b.inlineItems.take b.itemCount))
    | .trim b =>
      [(¬b.channel ≤ 63, 32, 0)] ++ sampling b.n b.settle b.hop b.ceiling ++ [(b.windowHigh < b.windowLow, 34, 0)]
    | .channelSet b =>
      [(¬b.channel ≤ 63, 32, 0), (b.hasState = true ∧ ¬b.state ≤ 1, 40, 0), (b.hasPark = true ∧ ¬b.park ≤ 2, 41, 0),
       (b.hasComp = true ∧ ¬b.comp ≤ 1, 42, 0), (b.hasTrim = true ∧ ¬b.trim ≤ 127, 43, 0),
       (b.hasBaseline = true ∧ ¬b.baselineAction ≤ 2, 44, 0)]
    | .profileSet b =>
      (((List.range 16).zip b.profiles).flatMap fun x =>
          [(b.mask.getLsbD x.1 = true ∧ ¬within 2 x.2.high 16, 48, x.1),
           (b.mask.getLsbD x.1 = true ∧ ¬within 2 x.2.low 16, 49, x.1)])
        ++ [(b.hopWrite = true ∧ ¬within 1 b.hopSet 7, 50, 0), (b.hopWrite = true ∧ ¬within 1 b.hopLength 24, 51, 0)]
        ++ (((List.range 24).zip (b.hopEntries.take b.hopLength)).map fun x =>
          (b.hopWrite = true ∧ ¬x.2 ≤ 15, 52, x.1))
    | .watchAdd b => [(¬b.id ≤ 31, 56, 0), (¬b.channel ≤ 63, 32, 0)]
    | .watchRemove id => [(¬id ≤ 31, 56, 0)]
    | .watchQuery => []
    | .watchTiming period => [(¬period ≤ 60000, 63, 0)]
    | .converterSet v action => [(¬v ≤ 3, 64, 0), (¬within 1 action 3, 65, 0)]
    | .abort queue scope _ => [(¬queue ≤ 3, 72, 0), (scope ≠ 1 ∧ scope ≠ 2, 73, 0)]
    | .unknown => []
  let writesResult (r : Request) : Prop := (∃ b, r.body = .measure b) ∨ (∃ b, r.body = .trim b) ∨ r.body = .watchQuery
  let fieldChecks (r : Request) : List (Prop × Nat × Nat) :=
    [(r.body = .unknown, 1, 0),
     ((∀ b, r.body ≠ .measure b)
        ∧ (r.flags.keepSamples = true ∨ r.flags.setBaseline = true ∨ r.flags.externalList = true), 2, 0),
     (writesResult r ∧ r.resultAddr.toNat % 4 ≠ 0, 3, 0)] ++ bodyChecks r
  (∀ bytes : List Byte,
    let at1 (off : Nat) : Nat := (bytes.getD off 0).toNat
    let at2 (off : Nat) : Nat := at1 off + 2 ^ 8 * at1 (off + 1)
    let at4 (off : Nat) : Nat := at2 off + 2 ^ 16 * at1 (off + 2) + 2 ^ 24 * at1 (off + 3)
    let flag (off i : Nat) : Bool := (bytes.getD off 0).getLsbD i
    let item (off : Nat) : RawItem := { kind := at1 off, sel := at1 (off + 1), mask := bytes.getD (off + 2) 0 }
    (∀ count : Nat, rawItems bytes count = (List.range count).map fun i => item (4 * i))
      ∧ Request.ofBytes bytes =
        { kind := at1 0
          flags := { fence := flag 1 0, keepSamples := flag 1 1, setBaseline := flag 1 2, externalList := flag 1 3 }
          tag := at2 2, resultAddr := BitVec.ofNat 32 (at4 4), resultLength := at4 8
          body :=
            if at1 0 = 1 then .measure
              { itemCount := at1 12, n := at1 13, settle := at1 14, hop := at1 15, ceiling := at2 16
                listAddr := BitVec.ofNat 32 (at4 20)
                inlineItems := [item 24, item 28, item 32, item 36, item 40, item 44, item 48, item 52] }
            else if at1 0 = 2 then .trim
              { channel := at1 12, n := at1 13, settle := at1 14, hop := at1 15, ceiling := at2 16
                windowLow := at2 18, windowHigh := at2 20 }
            else if at1 0 = 3 then .channelSet
              { channel := at1 12, hasState := flag 13 0, hasPark := flag 13 1, hasComp := flag 13 2
                hasTrim := flag 13 3, hasBaseline := flag 13 4, state := at1 14, park := at1 15, comp := at1 16
                trim := at1 17, baselineAction := at1 18, baselineValue := at2 20 }
            else if at1 0 = 4 then .profileSet
              { mask := BitVec.ofNat 16 (at2 12), hopWrite := flag 14 0, hopSet := at1 15, hopLength := at1 16
                profiles := (List.range 16).map fun p =>
                  { high := at1 (18 + p) % 16 + 1, low := at1 (18 + p) / 16 + 1 }
                hopEntries := (List.range 24).map fun k => at1 (34 + k) }
            else if at1 0 = 5 then .watchAdd
              { id := at1 12, channel := at1 13, n := at1 14, settle := at1 15, hop := at1 16, persistence := at1 17
                ceiling := at2 18, upper := if flag 27 0 then some (at2 20) else none
                lower := if flag 27 1 then some (at2 22) else none, hysteresis := at2 24, shift := at1 26 }
            else if at1 0 = 6 then .watchRemove (at1 12)
            else if at1 0 = 7 then .watchQuery
            else if at1 0 = 8 then .watchTiming (at2 12)
            else if at1 0 = 9 then .converterSet (at1 12) (at1 13)
            else if at1 0 = 10 then .abort (at1 12) (at1 13) (at2 14)
            else .unknown })
  ∧ (∀ (s : State) (q : QueueId) (r : Request),
    let passesCommon : Prop := tagHeld s q r.tag = false ∧ r.commonCheck = none ∧ r.bodyCheck = none
    (tagHeld s q r.tag = true ↔ ∃ (k : CtxId) (c : Context),
        s.contexts[k] = some c ∧ c.queue = q ∧ c.holdsTag = true ∧ c.request.tag = r.tag)
      ∧ (tagHeld s q r.tag = true → admissionFailure s q r = some (.tagInUse, .zero))
      ∧ (tagHeld s q r.tag = false → r.body = .unknown →
          admissionFailure s q r = some (.invalidRequest, .field 1 0))
      ∧ (tagHeld s q r.tag = false → r.body ≠ .unknown → r.body.isMeasure = false →
          (r.flags.keepSamples || r.flags.setBaseline || r.flags.externalList) = true →
          admissionFailure s q r = some (.invalidRequest, .field 2 0))
      ∧ (∀ b : TrimBody, r.body = .trim b → tagHeld s q r.tag = false →
          (r.flags.keepSamples || r.flags.setBaseline || r.flags.externalList) = false →
          r.resultAddr.toNat % 4 ≠ 0 → admissionFailure s q r = some (.invalidRequest, .field 3 0))
      ∧ (∀ b : TrimBody, r.body = .trim b → passesCommon →
          admissionFailure s q r = if r.resultLength < 48 then some (.bufferTooSmall, .length 48) else none)
      ∧ (∀ b : MeasureBody, r.body = .measure b → passesCommon →
          let area := if r.flags.keepSamples then 2 * b.n + (if b.n % 2 = 0 then 0 else 2) else 0
          let needed := 16 + (16 + area) * b.itemCount
          admissionFailure s q r = if r.resultLength < needed then some (.bufferTooSmall, .length needed) else none)
      ∧ (∀ period : Nat, r.body = .watchTiming period → passesCommon → admissionFailure s q r = none)
      ∧ (∀ code index : Nat, tagHeld s q r.tag = false → r.commonCheck = none → r.bodyCheck = some (code, index) →
          admissionFailure s q r = some (.invalidRequest, .field code index))
      ∧ FirstFailing (bodyChecks r) r.bodyCheck
      ∧ (tagHeld s q r.tag = false → ∃ field : Option (Nat × Nat), FirstFailing (fieldChecks r) field
          ∧ (∀ code index : Nat, field = some (code, index) →
              admissionFailure s q r = some (.invalidRequest, .field code index))
          ∧ (field = none → admissionFailure s q r = match r.body with
              | .measure b =>
                let area := if r.flags.keepSamples then 2 * b.n + (if b.n % 2 = 0 then 0 else 2) else 0
                let needed := 16 + (16 + area) * b.itemCount
                if r.resultLength < needed then some (.bufferTooSmall, .length needed) else none
              | .trim _ => if r.resultLength < 48 then some (.bufferTooSmall, .length 48) else none
              | _ => none)))
  ∧ (∀ b : WatchAddBody, FirstFailing
      (sampling b.n b.settle b.hop b.ceiling
        ++ [(b.upper = some 0, 57, 0), (b.lower = some 0, 58, 0), (b.upper = none ∧ b.lower = none, 59, 0),
            (¬b.hysteresis ≤ 4095, 60, 0), (¬within 1 b.persistence 15, 61, 0), (¬b.shift ≤ 15, 62, 0)]) b.check)
  ∧ ∀ l : List RawItem,
      (∀ code index : Nat, checkItems 0 l = .error (code, index) → FirstFailing (itemChecks l) (some (code, index)))
        ∧ (∀ items : List Item, checkItems 0 l = .ok items → FirstFailing (itemChecks l) none
            ∧ items.length = l.length
            ∧ ∀ (i : Nat) (x : RawItem), l[i]? = some x → ∃ item, items[i]? = some item
                ∧ (x.kind = 1 → ∃ ch : Chan, item = .single ch ∧ ch.val = x.sel)
                ∧ (x.kind = 2 → ∃ g : Group, item = .gang g x.mask ∧ g.val = x.sel))

/-- R163: a fetch read that ends with a bus error in RUNNING faults its ACTIVE queue and raises QUEUE_FAULT; a read that
ends outside RUNNING, on a FAULTED queue, or that was issued before the latest START or CLEAR, takes no record. A fenced
record that arrives while its queue has contexts in use becomes the held record and takes no context (R70). -/
def Obligations.FetchEndsWithoutContext : Prop :=
  ∀ (s : State) (r : FetchRead) (how : ReadEnd), s.fetchRead = some r →
    (∀ bytes, how = .data bytes → bytes.length = 64) →
    (r.current = true → s.engine.state = .running → (s.queues[r.queue]).state = .active → how = .busError →
        ∃ t, exec (.fetchReadEnd how) s = .next t
          ∧ t.queues[r.queue] = { s.queues[r.queue] with state := .faulted, readOutstanding := false }
          ∧ t.reports = (if s.reports.length < 8
              then s.reports ++
                [.queueFault r.queue .fetchError (s.queues[r.queue]).fetchIndex (s.queues[r.queue]).tail]
              else s.reports)
          ∧ t.lost = (if s.reports.length < 8 then s.lost else min 65535 (s.lost + 1))
          ∧ Arbitrated (raise
              (.queueFault r.queue .fetchError (s.queues[r.queue]).fetchIndex (s.queues[r.queue]).tail)
              { s.modQueue r.queue (fun q => { q with state := .faulted, readOutstanding := false }) with
                fetchRead := none }) t)
      ∧ (r.current = false ∨ s.engine.state ≠ .running ∨ (s.queues[r.queue]).state ≠ .active →
          ∃ t, exec (.fetchReadEnd how) s = .next t ∧ Arbitrated
            (if r.current = true then
              { s.modQueue r.queue (fun q => { q with readOutstanding := false }) with fetchRead := none }
             else { s with fetchRead := none }) t)
      ∧ ∀ bytes : List Byte, r.current = true → s.engine.state = .running →
          (s.queues[r.queue]).state = .active → how = .data bytes → (Request.ofBytes bytes).flags.fence = true →
          0 < (s.queues[r.queue]).inFlight →
          ∃ t : State, exec (.fetchReadEnd how) s = .next t
            ∧ (t.queues[r.queue]).readOutstanding = false
            ∧ Arbitrated
                { s.modQueue r.queue (fun q => { q with
                    held := some (Request.ofBytes bytes), readOutstanding := false
                    fetchIndex := if q.fetchIndex + 1 = q.size then 0 else q.fetchIndex + 1 }) with
                  fetchRead := none } t

/-! ### List reads, result writes and the completion ring (chapters 4.5, 9.4 to 9.7) -/

/-- R72: the list read of a context in LISTING brings its items, brings a list that fails the item checks, or ends with a
bus error; a discarded list read acts on no context (R73). The claim set holds every channel of every item, each once
(R46). -/
def Obligations.ListReadEnds : Prop :=
  ∀ (s : State) (i : Nat) (r : ListRead), s.listReads[i]? = some r →
    (∀ (c : Context) (b : MeasureBody), r.discarded = false → s.contexts[r.owner] = some c → c.state = .listing →
        c.request.body = .measure b →
        (∃ t, exec (.listReadEnd i .busError) s = .next t
          ∧ t.contexts[r.owner] = some { c with
              state := .posting, result := some (.listReadError, .count b.itemCount) }
          ∧ Arbitrated { s.modCtx r.owner (fun d => { d with
                state := .posting, result := some (.listReadError, .count b.itemCount) }) with
              listReads := s.listReads.eraseIdx i } t)
        ∧ (∀ (bytes : List Byte) (code index : Nat), bytes.length = r.bytes →
            checkItems 0 (rawItems bytes b.itemCount) = .error (code, index) →
            ∃ t, exec (.listReadEnd i (.data bytes)) s = .next t
              ∧ t.contexts[r.owner] = some { c with
                  state := .posting, result := some (.invalidRequest, .field code index) }
              ∧ Arbitrated { s.modCtx r.owner (fun d => { d with
                    state := .posting, result := some (.invalidRequest, .field code index) }) with
                  listReads := s.listReads.eraseIdx i } t)
        ∧ ∀ (bytes : List Byte) (items : List Item), bytes.length = r.bytes →
            checkItems 0 (rawItems bytes b.itemCount) = .ok items →
            ∃ t, exec (.listReadEnd i (.data bytes)) s = .next t
              ∧ Arbitrated { s.modCtx r.owner (fun d => { d with
                    state := .claiming
                    items := items.map fun x =>
                      { item := x, job := .notStarted, conv := none, retryUsed := false, samples := [], status := none
                        delta := none, baselineWritten := false }
                    claimSet := claimSetOf items }) with listReads := s.listReads.eraseIdx i } t)
      ∧ (r.discarded = true → ∀ how : ReadEnd, (∀ bytes, how = .data bytes → bytes.length = r.bytes) →
          exec (.listReadEnd i how) s = .next { s with listReads := s.listReads.eraseIdx i })
      ∧ ∀ items : List Item, (claimSetOf items).Nodup
          ∧ ∀ ch : Chan, ch ∈ claimSetOf items ↔ ∃ it ∈ items,
              match it with
              | .single c => ch = c
              | .gang g mask => ch.val / 8 = g.val ∧ mask.getLsbD (ch.val % 8) = true

/-- R78: the result write of a context in WRITING completes, or ends with a bus error; a write whose context a CLEAR
abandoned acts on nothing. -/
def Obligations.ResultWriteEnds : Prop :=
  ∀ (s : State) (i : Nat) (w : ResultWrite), s.resultWrites[i]? = some w →
    (∀ (c : Context) (status : Status) (detail : Detail), w.abandoned = false → s.contexts[w.owner] = some c →
        c.state = .writing → c.result = some (status, detail) →
        (∃ t, exec (.resultWriteEnd i .completes) s = .next t
          ∧ t.contexts[w.owner] = some { c with state := .posting, bytesWritten := w.data.length }
          ∧ Arbitrated { s.modCtx w.owner (fun d => { d with state := .posting, bytesWritten := w.data.length }) with
              resultWrites := s.resultWrites.eraseIdx i } t)
        ∧ ∃ t, exec (.resultWriteEnd i .busError) s = .next t
          ∧ t.contexts[w.owner] = some { c with
              state := .posting, result := some (.resultWriteError, .status status) }
          ∧ Arbitrated { s.modCtx w.owner (fun d => { d with
                state := .posting, result := d.result.map fun x => (.resultWriteError, .status x.1) }) with
              resultWrites := s.resultWrites.eraseIdx i } t)
      ∧ (w.abandoned = true → ∀ how : WriteEnd,
          exec (.resultWriteEnd i how) s = .next { s with resultWrites := s.resultWrites.eraseIdx i })

/-- R166, R189: a ring write of the present session completes: the write index advances and wraps with a toggled phase,
the count rises, and a count that rises from 0 to 1 starts the coalescing timer; a posted report leaves the buffer and
takes the lost count it carried with it (R170), and a posted context becomes FREE (R79). Which record a write carries: that
of the first candidate of the posting order (R167), in the slot at the write index, with the current phase; a context's with
its queue's fetch index (R79, R164), a report's with the current lost count, which the write carries (R170). When the
in-flight count of the context's queue falls to 0 in RUNNING, the queue's held record is admitted: it runs the checks of R65
and stands in POSTING or takes its path (R70, R64, R59). The posting
order takes a report when it is raised, and then the contexts newly in POSTING, in ascending admission number. A slot address
past 32 bits is a free value (DESIGN CHOICE, log entry 7); that the write is issued after the arbiters is DEDUCED (log entry
3). -/
def Obligations.RingWriteCompletes : Prop :=
  (∀ s : State,
    let mayWrite : Prop := s.ring.configured = true ∧ s.ringWrite = none ∧ s.ring.count < s.ring.size
      ∧ s.engine.state ≠ .halted
    let issues (source : PostRef) (data : List Byte) (lost : Nat) : Prop := ∃ addr : Addr,
      issueRingWrite s = { s with
          ringWrite := some { source := source, addr := addr, data := data, carriedLost := lost, stale := false } }
      ∧ (s.ring.base.toNat + 16 * s.ring.writeIndex < 2 ^ 32 →
          addr.toNat = s.ring.base.toNat + 16 * s.ring.writeIndex)
    finish s = testStop (issueRingWrite (issueFetch (orderPosts (runArbiters s))))
      ∧ (¬mayWrite ∨ s.posting = [] → issueRingWrite s = s)
      ∧ (∀ (k : CtxId) (rest : List PostRef) (c : Context), mayWrite → s.posting = .context k :: rest →
          s.contexts[k] = some c →
          issues (.context k) (completionRecord s.ring.phase c (s.queues[c.queue]).fetchIndex) 0)
      ∧ (∀ (rest : List PostRef) (r : Report) (more : List Report), mayWrite → s.posting = .report :: rest →
          s.reports = r :: more → issues .report (reportRecord s.ring.phase s.lost r) s.lost)
      ∧ (∀ r : Report, raise r s = if s.reports.length < 8 then
            { s with reports := s.reports ++ [r], posting := s.posting ++ [.report] }
          else { s with lost := min 65535 (s.lost + 1) })
      ∧ ∃ order : List CtxId, orderPosts s = { s with posting := s.posting ++ order.map .context } ∧ order.Nodup
        ∧ (∀ k : CtxId, k ∈ order ↔ .context k ∉ s.posting ∧ ∃ c, s.contexts[k] = some c ∧ c.state = .posting)
        ∧ order.Pairwise (fun k l => ∀ c d : Context, s.contexts[k] = some c → s.contexts[l] = some d →
            c.admission ≤ d.admission))
  ∧ ∀ (s : State) (w : RingWrite), s.ringWrite = some w → w.stale = false →
    let posted : State :=
      { s with
        ringWrite := none
        ring := { s.ring with
          writeIndex := if s.ring.writeIndex + 1 = s.ring.size then 0 else s.ring.writeIndex + 1
          phase := if s.ring.writeIndex + 1 = s.ring.size then !s.ring.phase else s.ring.phase
          count := s.ring.count + 1 }
        interrupt := { s.interrupt with
          timer := if s.ring.count = 0 ∧ s.interrupt.timerSetting ≠ 0 then some (s.interrupt.timerSetting * 1600)
            else s.interrupt.timer } }
    ∃ t : State, exec (.completionRingWriteEnd .completes) s = .next t
      ∧ t.ring = posted.ring ∧ t.interrupt.timer = posted.interrupt.timer ∧ t.interrupt.late = s.interrupt.late
      ∧ (w.source = .report → t.reports = s.reports.tail ∧ t.lost = s.lost - w.carriedLost
          ∧ (∀ k : CtxId, s.contexts[k] = none ↔ t.contexts[k] = none)
          ∧ Arbitrated { posted with
              reports := s.reports.tail, posting := s.posting.erase .report, lost := s.lost - w.carriedLost } t)
      ∧ (∀ (k : CtxId) (c : Context), w.source = .context k → s.contexts[k] = some c →
          ((s.queues[c.queue]).held = none ∨ s.engine.state ≠ .running ∨ 1 < (s.queues[c.queue]).inFlight) →
          t.contexts[k] = none
            ∧ (t.queues[c.queue]).inFlight = (s.queues[c.queue]).inFlight - 1
            ∧ t.nextAdmission = s.nextAdmission
            ∧ t.reports = s.reports ∧ t.lost = s.lost
            ∧ Arbitrated ({ posted with
                posting := s.posting.erase (.context k), contexts := s.contexts.set k none }.modQueue c.queue
                  fun q => { q with inFlight := q.inFlight - 1 }) t)
      ∧ (∀ (k : CtxId) (c : Context) (r : Request), w.source = .context k → s.contexts[k] = some c →
          (s.queues[c.queue]).held = some r → s.engine.state = .running → (s.queues[c.queue]).inFlight = 1 →
          t.nextAdmission = s.nextAdmission + 1 ∧ (t.queues[c.queue]).held = none
            ∧ (∃ (l : CtxId) (d : Context), t.contexts[l] = some d ∧ d.request = r ∧ d.queue = c.queue
                ∧ d.admission = s.nextAdmission)
            ∧ RecordTaken c.queue r ({ posted with
                posting := s.posting.erase (.context k), contexts := s.contexts.set k none }.modQueue c.queue
                  fun q => { q with inFlight := 0, held := none }) t)

/-- R171, R183: a ring write that ends with a bus error halts the engine; the ring, the record's source and the lost
count keep their values. A ring write issued before the latest START or CLEAR ends on no descriptor, however it ends
(R165). -/
def Obligations.RingWriteErrorHalts : Prop :=
  ∀ (s : State) (w : RingWrite), s.ringWrite = some w →
    (w.stale = false → exec (.completionRingWriteEnd .busError) s = .next { s with
        ringWrite := none
        engine := { s.engine with state := .halted, lastError := .ringWriteError, reasonCode := 0, reasonIndex := 0 }
        interrupt := { s.interrupt with stickyHalt := true }
        watch := { s.watch with timer := none } })
      ∧ (w.stale = true → ∀ how : WriteEnd, ∃ t : State, exec (.completionRingWriteEnd how) s = .next t
          ∧ Arbitrated { s with ringWrite := none } t)

/-- R168, with the release rows of R189: a Release Index write is refused, or moves the head. A read of the register
returns the write index, and 0 while the ring is unconfigured (R169). -/
def Obligations.ReleaseIndexWrite : Prop :=
  ∀ (s : State) (word : Reg), s.ring.Sound →
    let v := (word.extractLsb' 0 16).toNat
    let r := (((v : Int) - (s.ring.head : Int)) % (s.ring.size : Int)).toNat
    let refused : State :=
      { s with engine := { s.engine with lastError := .releaseInvalid, reasonCode := 0, reasonIndex := 0 } }
    (s.ring.configured = false ∨ s.ring.size ≤ v → exec (.releaseIndex word) s = .next refused)
      ∧ (s.ring.configured = true → v < s.ring.size → s.ring.count < r → exec (.releaseIndex word) s = .next refused)
      ∧ (s.ring.configured = true → v < s.ring.size → r ≤ s.ring.count →
          ∃ t, exec (.releaseIndex word) s = .next t ∧ Arbitrated { s with
            ring := { s.ring with head := v, count := s.ring.count - r }
            interrupt := { s.interrupt with
              late := false
              timer := if s.ring.count - r = 0 ∨ s.interrupt.timerSetting = 0 then none
                else some (s.interrupt.timerSetting * 1600) } } t)
      ∧ (readRegister 0x10#32 s).toNat = if s.ring.configured then s.ring.writeIndex else 0

/-- R79, R138, R170, 11.4: the three kinds of completion ring record are 16 bytes; each field stands at its position, least
significant byte first, and what is reserved or absent is zero (R191). The status codes, and the fields of each form of the
detail word. -/
def Obligations.CompletionRecordLayout : Prop :=
  let one (p : Bool) : Nat := if p then 1 else 0
  let at0 (kind : Nat) (phase : Bool) : Nat := kind + (if phase then 128 else 0)
  (∀ (phase : Bool) (c : Context) (status : Status) (detail : Detail) (head : Nat), c.result = some (status, detail) →
    let bytes := completionRecord phase c head
    bytes.length = 16
      ∧ byteAt bytes 0 = 1 + (if phase then 128 else 0)
      ∧ byteAt bytes 1 = c.queue.val
      ∧ halfAt bytes 2 = c.request.tag % 65536
      ∧ byteAt bytes 4 = status.code
      ∧ byteAt bytes 5 = c.request.kind % 256
      ∧ halfAt bytes 6 = head % 65536
      ∧ wordAt bytes 8 = c.bytesWritten % 4294967296
      ∧ wordAt bytes 12 = detail.word % 4294967296)
  ∧ (∀ (phase : Bool) (lost : Nat) (kind : EventKind) (id : WatchId) (ch : Chan) (st : WatchState) (reading : Nat)
      (baseline : Option Nat) (round : Nat),
    let bytes := reportRecord phase lost (.event kind id ch st reading baseline round)
    bytes.length = 16
      ∧ byteAt bytes 0 = at0 2 phase
      ∧ byteAt bytes 1 = (match kind with
          | .crossedHigh => 1
          | .crossedLow => 2
          | .returned => 3
          | .watchFault => 4)
      ∧ byteAt bytes 2 = id.val ∧ byteAt bytes 3 = ch.val
      ∧ byteAt bytes 4 = (match st with
          | .inside => 0
          | .above => 1
          | .below => 2
          | .fault => 3)
      ∧ byteAt bytes 5 = one baseline.isSome ∧ halfAt bytes 6 = reading % 65536
      ∧ halfAt bytes 8 = baseline.getD 0 % 65536 ∧ halfAt bytes 10 = round % 65536 ∧ halfAt bytes 12 = lost % 65536
      ∧ halfAt bytes 14 = 0)
  ∧ (∀ (phase : Bool) (lost : Nat),
    let notice (r : Report) (kind subject cause : Nat) (mean : Option Nat) (w8 w10 : Nat) : Prop :=
      let bytes := reportRecord phase lost r
      bytes.length = 16 ∧ byteAt bytes 0 = at0 3 phase ∧ byteAt bytes 1 = kind ∧ byteAt bytes 2 = subject
        ∧ byteAt bytes 3 = cause ∧ byteAt bytes 4 = one mean.isSome ∧ byteAt bytes 5 = 0
        ∧ halfAt bytes 6 = mean.getD 0 % 65536 ∧ halfAt bytes 8 = w8 % 65536 ∧ halfAt bytes 10 = w10 % 65536
        ∧ halfAt bytes 12 = lost % 65536 ∧ halfAt bytes 14 = 0
    (∀ (v : ConvId) (mean : Option Nat),
        notice (.converterOffline v .fault mean) 1 v.val 1 mean 0 0
          ∧ notice (.converterOffline v .checkFailed mean) 1 v.val 2 mean 0 0
          ∧ notice (.converterOnline v .offline mean) 2 v.val 3 mean 0 0
          ∧ notice (.converterOnline v .held mean) 2 v.val 4 mean 0 0)
      ∧ notice .noConverter 3 0 0 none 0 0
      ∧ (∀ (q : QueueId) (index tail : Nat), notice (.queueFault q .tailInvalid index tail) 4 q.val 5 none index tail
          ∧ notice (.queueFault q .fetchError index tail) 4 q.val 6 none index tail)
      ∧ ∀ round : Nat, notice (.roundOverrun round) 5 0 0 none round 0)
  ∧ [Status.success, .partialDone, .invalidRequest, .tagInUse, .bufferTooSmall, .channelOff, .channelWatched, .idInUse,
      .noSuchWatch, .notFound, .tooLate, .aborted, .stopped, .noConverter, .converterFault, .outOfRange, .opened, .notHeld,
      .converterHeld, .converterBusy, .checkFailed, .listReadError, .resultWriteError].map Status.code = List.range 23
  ∧ ((∀ n : Nat, (Detail.count n).word = n)
    ∧ (∀ code index : Nat, code < 256 → index < 256 →
        let w := (Detail.field code index).word
        w % 256 = code ∧ w / 256 = index)
    ∧ (∀ bytes : Nat, (Detail.length bytes).word = bytes)
    ∧ (∀ ch : Chan, (Detail.channel ch).word = ch.val)
    ∧ (∀ (ready : Bool) (park : Park) (comp : Comp) (trim : Nat) (baseline : Option Nat), baseline.getD 0 < 65536 →
        let w := (Detail.entry ready park comp trim baseline).word
        w % 2 ^ 16 = baseline.getD 0 ∧ w / 2 ^ 16 % 2 = one baseline.isSome ∧ w / 2 ^ 17 % 2 = one ready
          ∧ w / 2 ^ 18 % 4 = (match park with
            | .ground => 0
            | .float => 1
            | .shield => 2)
          ∧ w / 2 ^ 20 % 16 = one (comp = .gain) ∧ w / 2 ^ 24 = trim)
    ∧ (∀ id channel : Nat, id < 256 →
        let w := (Detail.watch id channel).word
        w % 256 = id ∧ w / 256 = channel)
    ∧ (∀ entries round : Nat, entries < 65536 →
        let w := (Detail.query entries round).word
        w % 2 ^ 16 = entries ∧ w / 2 ^ 16 = round)
    ∧ (∀ ms : Nat, (Detail.period ms).word = ms)
    ∧ (∀ (mask : BitVec 16) (hopSet : Nat),
        let w := (Detail.profiles mask hopSet).word
        w % 2 ^ 16 = mask.toNat ∧ w / 2 ^ 16 = hopSet)
    ∧ (∀ (mean : Option Nat) (decided : Nat), mean.getD 0 < 65536 →
        let w := (Detail.trim mean decided).word
        w % 2 ^ 16 = mean.getD 0 ∧ w / 2 ^ 16 % 256 = one mean.isSome ∧ w / 2 ^ 24 = decided)
    ∧ (∀ number restored : Nat, number < 65536 →
        let w := (Detail.trial number restored).word
        w % 2 ^ 24 = number ∧ w / 2 ^ 24 = restored)
    ∧ (∀ (v : ConvId) (st : ConvState) (mean : Option Nat) (mark : Option MarkKind), mean.getD 0 < 65536 →
        let w := (Detail.converter v st mean mark).word
        w % 2 ^ 16 = mean.getD 0 ∧ w / 2 ^ 16 % 16 = one mean.isSome
          ∧ w / 2 ^ 20 % 16 = (match mark with
            | none => 0
            | some .hold => 1
            | some .check => 2)
          ∧ w / 2 ^ 24 % 16 = (match st with
            | .offline => 0
            | .idle => 1
            | .settling => 2
            | .sampling => 3
            | .discharging => 4
            | .checking => 5
            | .held => 6)
          ∧ w / 2 ^ 28 = v.val)
    ∧ (∀ st : CtxState, (Detail.state st).word = match st with
        | .listing => 1
        | .claiming => 2
        | .active => 3
        | .writing => 4
        | .posting => 5)
    ∧ (∀ status : Status, (Detail.status status).word = status.code)
    ∧ Detail.zero.word = 0)

/-! ### Converter events (chapters 1.2 to 1.5) -/

/-- R7: the end of the settle interval starts sample 0; in SAMPLING each event appends its outcome, and the converter
enters DISCHARGING at a STALL or with n entries. The reading recorded is that of R1; that a count at or above the ceiling
is recorded CEILING is DEDUCED (log entry 11). -/
def Obligations.SettleAndSample : Prop :=
  ∀ (s : State) (c : ConvId) (j : Job), s.converters[c].job = some j →
    (s.converters[c].state = .settling →
        exec (.settleEnd c) s = .next (s.modConv c fun v => { v with state := .sampling }))
      ∧ (s.converters[c].state = .sampling → ∀ (outcome : SampleEnd) (x : Sample),
          (match outcome with
            | .good count => if count.toNat < j.ceiling then x = .good count.toNat else x = .ceiling j.ceiling
            | .ceiling => x = .ceiling j.ceiling
            | .stall => x = .stall) →
          (∀ y ∈ j.samples, y ≠ .stall) →
          exec (.sampleEnd c outcome) s = .next (s.modConv c fun v => { v with
            job := some { j with samples := j.samples ++ [x] }
            state := if x = .stall ∨ j.n ≤ j.samples.length + 1 then .discharging else .sampling }))

/-- R12 with R11, R8, R10, R151, R153 and R178: a check ends at its fourth sample or at a STALL; it passes with four GOOD
samples and a mean in 3072..5119. The converter becomes IDLE or OFFLINE, and the owner of the check is handed the result;
a mark that is pending then is resolved against that new state. That the owner's detail shows the state by the result alone
(log entry 17), and that the arbiters, `finish`, run after these effects (log entry 3), is DEDUCED. A check that fails on the
last online converter, and a hold mark that takes effect there, raises NO_CONVERTER (R18); that a check started in the same
event does not take that notice back is DEDUCED (log entry 4). -/
def Obligations.CheckEnds : Prop :=
  ∀ (s : State) (c : ConvId) (j : Job) (outcome : SampleEnd) (x : Sample) (origin : ConvState),
    s.converters[c].state = .checking → s.converters[c].job = some j →
    s.converters[c].origin = some origin → j.n = 4 → j.ceiling = 65535 →
    (∀ y ∈ j.samples, y ≠ .stall) → x = recordSample 65535 outcome →
    let samples := j.samples ++ [x]
    let readings := goodReadings samples
    let mean := if readings = [] then none else some (readings.sum / readings.length)
    let passes : Prop := readings.length = 4 ∧ 3072 ≤ readings.sum / 4 ∧ readings.sum / 4 ≤ 5119
    let noneLeft : List Report := if ∀ d : ConvId, d ≠ c → s.converters[d].state.online = false then [.noConverter] else []
    let u := concludeCheck c samples s
    (x ≠ .stall → samples.length < 4 →
        exec (.sampleEnd c outcome) s = .next (s.modConv c fun v => { v with job := some { j with samples := samples } }))
      ∧ (x = .stall ∨ samples.length = 4 → ∃ t : State, exec (.sampleEnd c outcome) s = .next t
          ∧ Worked s t
          ∧ t = finish u
          ∧ (∀ d : ConvId, d ≠ c → u.converters[d] = s.converters[d])
          ∧ (s.reports.length + 2 ≤ 8 →
              let online : List Report :=
                if origin = .offline ∨ origin = .held then [.converterOnline c origin mean] else []
              (¬passes → t.reports = s.reports ++ [.converterOffline c .checkFailed mean] ++ noneLeft)
                ∧ (passes → samples.length = 4 → ∀ m : Mark, s.converters[c].mark = some m →
                    (m.kind = .hold → t.reports = s.reports ++ online ++ noneLeft)
                      ∧ (m.kind = .check → t.reports = s.reports ++ online)))
          ∧ (j.owner = .check .engineControl → c ∉ t.engine.startupLeft
              ∧ (s.engine.state = .loading → (∀ d ∈ s.engine.startupLeft, d = c) → t.engine.state = .running
                  ∧ t.watch.timer = (if s.watch.period = 0 then none else some (s.watch.period * 32000))))
          ∧ (s.converters[c].mark = none →
              (passes → samples.length = 4 →
                (origin = .idle → t.reports = s.reports)
                  ∧ (origin = .offline ∨ origin = .held →
                      t.reports = if s.reports.length < 8 then s.reports ++ [.converterOnline c origin mean]
                        else s.reports)
                  ∧ (∀ (k : CtxId) (d : Context), j.owner = .check (.context k) → s.contexts[k] = some d →
                      t.contexts[k] = some { d with
                        state := .posting, result := some (.success, .converter c .idle mean none) })
                  ∧ u.converters[c] = { state := .idle, mark := none, job := none, origin := none }
                  ∧ (s.engine.state = .off ∨ s.engine.state = .halted →
                      t.converters[c] = { state := .idle, mark := none, job := none, origin := none }))
              ∧ (¬passes →
                t.converters[c] = { state := .offline, mark := none, job := none, origin := none }
                  ∧ (s.reports.length < 8 →
                      t.reports.take (s.reports.length + 1) = s.reports ++ [.converterOffline c .checkFailed mean])
                  ∧ ∀ (k : CtxId) (d : Context), j.owner = .check (.context k) → s.contexts[k] = some d →
                      t.contexts[k] = some { d with
                        state := .posting, result := some (.checkFailed, .converter c .offline mean none) }))
          ∧ ∀ m : Mark, s.converters[c].mark = some m →
              (m.kind = .hold → t.converters[c] = { state := .held, mark := none, job := none, origin := none }
                ∧ ∀ d : Context, s.contexts[m.owner] = some d → j.owner ≠ .check (.context m.owner) →
                    t.contexts[m.owner] = some { d with
                      state := .posting, result := some (.success, .converter c .held none none) })
              ∧ (m.kind = .check → s.engine.state ≠ .halted →
                  (t.converters[c].state = .checking ∧ t.converters[c].mark = none
                    ∧ t.converters[c].job = some
                      { owner := .check (.context m.owner), connection := .reference, n := 4, settle := 6
                        ceiling := 65535, profiles := [s.profiles[(0 : ProfileIx)]], applied := [], samples := []
                        cut := false })
                  ∧ (passes → t.converters[c].origin = some .idle) ∧ (¬passes → t.converters[c].origin = some .offline)
                  ∧ ∀ d : Context, s.contexts[m.owner] = some d → j.owner ≠ .check (.context m.owner) →
                      u.contexts[m.owner] = some { d with
                        action := d.action.map fun a => { a with waits := .check } })
              ∧ (m.kind = .check → s.engine.state = .halted →
                  (passes → t.converters[c] = { state := .idle, mark := some m, job := none, origin := none })
                    ∧ (¬passes → t.converters[c] = { state := .offline, mark := some m, job := none, origin := none }))
              ∧ (∀ (k : CtxId) (d : Context), j.owner = .check (.context k) → k ≠ m.owner → s.contexts[k] = some d →
                  (passes → t.contexts[k] = some { d with
                      state := .posting, result := some (.success, .converter c .idle mean none) })
                    ∧ (¬passes → t.contexts[k] = some { d with
                      state := .posting, result := some (.checkFailed, .converter c .offline mean none) }))
              ∧ (s.reports.length < 8 →
                  (passes → origin = .offline ∨ origin = .held →
                      t.reports.take (s.reports.length + 1) = s.reports ++ [.converterOnline c origin mean])
                    ∧ (¬passes →
                      t.reports.take (s.reports.length + 1) = s.reports ++ [.converterOffline c .checkFailed mean])))

/-- R8: at the end of the discharge interval the job ends, and the converter takes its next state from its pending mark:
HELD for a hold mark, a check with origin IDLE for a check mark, and IDLE with none. Without a mark the freed converter
is shown where the arbiter makes no grants, and in the state before the arbiters. A cut job's item ends ABORTED (R95) and
its MEASURE goes on or ends; a cut trial ends its TRIM with the restore (R115); a trial and a watch job that end normally
hand over their samples (R108, R132). A hold mark that takes effect on the last online converter raises NO_CONVERTER (R18);
no other next state raises a report. That the count is watched at that change (log entry 4), and that the arbiters, `finish`,
run after these effects (log entry 3), is DEDUCED. When an end cause arrives together with the normal end of a trial and is
taken second, the arbiters leave the next trial NOT_STARTED (R115); that it arrives together when the command that sets it
waits next in the queue is a DESIGN CHOICE (log entry 25). -/
def Obligations.DischargeTakesNextState : Prop :=
  ∀ (s : State) (c : ConvId) (j : Job), s.converters[c].state = .discharging → s.converters[c].job = some j →
    s.converters[c].origin = none →
    let freed (u : State) : State := u.modConv c fun v => { v with state := .idle, job := none }
    let moveOn (u : State) : State := if s.converters[c].mark = none then freed u else resolveMark c (freed u)
    ∃ t : State, exec (.dischargeEnd c) s = .next t
      ∧ (s.converters[c].mark = none → s.engine.state ≠ .running → s.engine.state ≠ .stopping →
          t.converters[c] = { state := .idle, mark := none, job := none, origin := none })
      ∧ (∀ m : Mark, s.converters[c].mark = some m → m.kind = .hold →
          t.converters[c] = { state := .held, mark := none, job := none, origin := none }
            ∧ ∀ d : Context, s.contexts[m.owner] = some d → j.isCheck = false →
                (∀ i, j.owner ≠ .item m.owner i) → j.owner ≠ .trial m.owner →
                t.contexts[m.owner] = some { d with
                  state := .posting, result := some (.success, .converter c .held none none) })
      ∧ (let handed := match j.owner with
            | .watch id => (watchNormalEnd id j s).reports
            | _ => s.reports
          ((∀ m : Mark, s.converters[c].mark = some m → m.kind = .check) → t.reports = handed)
            ∧ ∀ m : Mark, s.converters[c].mark = some m → m.kind = .hold → handed.length + 1 ≤ 8 →
                t.reports = handed ++
                  if ∀ d : ConvId, d ≠ c → s.converters[d].state.online = false then [.noConverter] else [])
      ∧ (∀ m : Mark, s.converters[c].mark = some m → m.kind = .check → s.engine.state ≠ .halted →
          t.converters[c] =
            { state := .checking, mark := none, origin := some .idle
              job := some
                { owner := .check (.context m.owner), connection := .reference, n := 4, settle := 6, ceiling := 65535
                  profiles := [s.profiles[(0 : ProfileIx)]], applied := [], samples := [], cut := false } })
      ∧ (∀ m : Mark, s.converters[c].mark = some m → m.kind = .check → s.engine.state = .halted →
          t.converters[c] = { state := .idle, mark := some m, job := none, origin := none })
      ∧ (∀ d : ConvId, d ≠ c → s.converters[d].free = false → t.converters[d] = s.converters[d])
      ∧ (s.WatchListSound → Worked s t)
      ∧ (∀ (k : CtxId) (i : Nat) (d : Context) (b : MeasureBody) (e : ItemEntry), j.owner = .item k i → j.cut = true →
          s.contexts[k] = some d → d.request.body = .measure b → d.items[i]? = some e →
          ∃ u, ItemsBecome k d b (d.items.set i { e with job := .ended, samples := [], status := some .aborted }) s u
            ∧ t = finish (moveOn u))
      ∧ (∀ (k : CtxId) (d : Context) (b : TrimBody) (q : Search) (cause : EndCause) (st : CtxState),
          j.owner = .trial k → j.cut = true → s.contexts[k] = some d → d.request.body = .trim b → d.search = some q →
          d.endCause = some (cause, st) → ∃ u, TrimEndsEarly k d b q cause st s u ∧ t = finish (moveOn u))
      ∧ (∀ k : CtxId, j.owner = .trial k → j.cut = false →
          let u := moveOn (trialNormalEnd k j.samples s)
          let unseen := putBack k u (finish (u.modCtx k fun d => { d with
            search := d.search.map fun q => { q with job := .ended } }))
          let bringsEndCause (c : Instr) : Prop := c = .stopCut ∨ (∃ w, c = .commandRefused w) ∨ (∃ o w, c = .registerWrite o w)
            ∨ (∃ how, c = .fetchReadEnd how) ∨ ∃ how, c = .completionRingWriteEnd how
          let together : Prop := (∃ (d : Context) (b : TrimBody) (q : Search), u.contexts[k] = some d ∧ d.state = .active
              ∧ d.endCause = none ∧ d.request.body = .trim b ∧ d.search = some q ∧ q.job = .notStarted)
            ∧ (∃ v : ConvId, u.converters[v].state.online = true)
            ∧ ∃ (c : Instr) (rest : List Instr) (x : State) (e : Context), s.pending = c :: rest ∧ bringsEndCause c
              ∧ exec c unseen = .next x ∧ x.contexts[k] = some e ∧ e.endCause ≠ none
          (¬together → t = finish u)
            ∧ (together → t = unseen ∧ t.contexts[k] = u.contexts[k] ∧ Arbitrated u t))
      ∧ ∀ id : WatchId, j.owner = .watch id → t = finish (moveOn (watchNormalEnd id j s))

/-- R88 with R89, R90, R91 and R92: an item job that ends normally fills its entry, forms the delta against the baseline
as it stands, and with SET_BASELINE writes the mean of a SINGLE item to its channel (the write is read before the
arbiters, which may grant the channel to other work in the same event). The MEASURE goes on, or its work ends: SUCCESS or
PARTIAL with its result in WRITING, its claims released (R75, R96). The bytes of its result (R97 to R100, 11.5). That the
arbiters, `finish`, run after these effects is DEDUCED (log entry 3). -/
def Obligations.ItemEndsNormally : Prop :=
  (∀ (s : State) (v : ConvId) (j : Job) (k : CtxId) (i : Nat) (c : Context) (b : MeasureBody) (e : ItemEntry),
    s.converters[v].state = .discharging → s.converters[v].job = some j → j.owner = .item k i → j.cut = false →
    (∀ m, s.converters[v].mark = some m → m.owner ≠ k) →
    s.contexts[k] = some c → c.state = .active → c.request.body = .measure b → c.items[i]? = some e →
    let summary := summaryOf j.samples
    let writes := c.request.flags.setBaseline && summary.isSome
    let freed (u : State) : State := u.modConv v fun x => { x with state := .idle, job := none }
    let moveOn (u : State) : State := if s.converters[v].mark = none then freed u else resolveMark v (freed u)
    let baselined : State := match e.item, summary with
      | .single ch, some m =>
        if c.request.flags.setBaseline then s.modChan ch fun x => { x with baseline := some m.mean } else s
      | _, _ => s
    ∃ (t : State) (d : Context) (e' : ItemEntry), exec (.dischargeEnd v) s = .next t ∧ t.contexts[k] = some d
      ∧ d.items[i]? = some e' ∧ e'.job = .ended ∧ e'.samples = j.samples ∧ e'.status = some (runStatus b.n j.samples)
      ∧ e'.retryUsed = e.retryUsed ∧ e'.conv = e.conv ∧ e'.item = e.item
      ∧ (∀ (g : Group) (mask : Byte), e.item = .gang g mask → e'.delta = none ∧ e'.baselineWritten = false)
      ∧ (∀ ch : Chan, e.item = .single ch →
          e'.baselineWritten = writes
            ∧ (∀ (m : Summary) (x : Nat), summary = some m → s.channels[ch].baseline = some x →
                e'.delta = some (max (-32768) (min 32767 ((m.mean : Int) - (x : Int)))))
            ∧ ((summary = none ∨ s.channels[ch].baseline = none) → e'.delta = none))
      ∧ (∀ (ch : Chan) (m : Summary), e.item = .single ch → writes = true → summary = some m →
          (itemNormalEnd k i j.samples s).channels[ch].baseline = some m.mean)
      ∧ (∀ ch : Chan, e.item ≠ .single ch ∨ writes = false →
          (itemNormalEnd k i j.samples s).channels[ch].baseline = s.channels[ch].baseline)
      ∧ Worked s t
      ∧ ∃ u, ItemsBecome k c b (c.items.set i e') baselined u ∧ t = finish (moveOn u))
  ∧ ∀ (c : Context) (b : MeasureBody),
    let one (p : Bool) : Nat := if p then 1 else 0
    let keeps := c.request.flags.keepSamples
    let area := if keeps then 2 * b.n + (if b.n % 2 = 0 then 0 else 2) else 0
    ∃ (header : List Byte) (blocks : List (List Byte)), measureResult c b = header ++ blocks.flatten
      ∧ header.length = 16
      ∧ byteAt header 0 = c.queue.val ∧ byteAt header 1 = 2 * one keeps + 4 * one c.request.flags.setBaseline
      ∧ halfAt header 2 = c.request.tag % 65536 ∧ byteAt header 4 = b.itemCount % 256 ∧ byteAt header 5 = b.n % 256
      ∧ byteAt header 6 = b.settle % 256 ∧ byteAt header 7 = b.hop % 256 ∧ halfAt header 8 = b.ceiling % 65536
      ∧ byteAt header 10 = area % 256
      ∧ byteAt header 11 = (c.items.countP fun e => decide (e.status ≠ some .good)) % 256
      ∧ byteAt header 12 = (c.items.countP fun e => e.baselineWritten) % 256
      ∧ (∀ off : Nat, 13 ≤ off → byteAt header off = 0)
      ∧ blocks.length = c.items.length
      ∧ ∀ (i : Nat) (e : ItemEntry) (block : List Byte), c.items[i]? = some e → blocks[i]? = some block →
          let summary := summaryOf e.samples
          block.length = 16 + area
            ∧ byteAt block 0 = (match e.status with
              | some .good => 0
              | some .degraded => 1
              | some .ceiling => 2
              | some .opened => 3
              | some .converterFault => 4
              | some .noConverter => 5
              | some .aborted => 0
              | none => 0)
            ∧ byteAt block 1 = one (e.samples.any Sample.isStall) + 2 * one e.retryUsed + 4 * one summary.isSome
                + 8 * one e.delta.isSome + 16 * one e.baselineWritten
            ∧ byteAt block 2 = (match e.conv with
              | some v => v.val
              | none => 255)
            ∧ byteAt block 3 = e.samples.length % 256 ∧ byteAt block 4 = (goodReadings e.samples).length % 256
            ∧ byteAt block 5 = e.samples.countP Sample.isCeiling % 256
            ∧ (∀ m : Summary, summary = some m → halfAt block 6 = m.mean % 65536 ∧ halfAt block 8 = m.minimum % 65536
                ∧ halfAt block 10 = m.maximum % 65536)
            ∧ (summary = none → halfAt block 6 = 0 ∧ halfAt block 8 = 0 ∧ halfAt block 10 = 0)
            ∧ (halfAt block 12 : Int) = e.delta.getD 0 % 65536
            ∧ halfAt block 14 = 0
            ∧ (∀ (p : Nat) (x : Sample), e.samples[p]? = some x → 2 * p + 1 < area → halfAt block (16 + 2 * p)
                = (match x with
                  | .good r => r % 65536
                  | .ceiling r => r % 65536
                  | .stall => 0))
            ∧ ∀ p : Nat, e.samples.length ≤ p → halfAt block (16 + 2 * p) = 0

/-- R13: a fault in SETTLING, SAMPLING or DISCHARGING takes the converter OFFLINE with a notice and sends the job's pins to
their own discharge; a fault in CHECKING ends the check as failed with no mean, and its owner is told (R151, R178). In every
case a pending mark is resolved against OFFLINE: a hold mark makes the converter HELD and completes its CONVERTER_SET, a
check mark starts a check with origin OFFLINE, but not in HALTED (R10). NO_CONVERTER follows exactly when the converter was
the last one online (R18). When the online count is judged (log entry 4), that the owner's detail shows OFFLINE whatever the
mark then does (log entry 17), and that the arbiters, `finish`, run after these effects (log entry 3), is DEDUCED. -/
def Obligations.FaultTakesConverterOffline : Prop :=
  let noticed (s t : State) (c : ConvId) : Prop :=
    (s.reports.length < 8 → t.reports.take (s.reports.length + 1) = s.reports ++ [.converterOffline c .fault none])
      ∧ (s.reports.length + 2 ≤ 8 → t.reports = s.reports ++ [.converterOffline c .fault none] ++
          (if ∀ d : ConvId, d ≠ c → s.converters[d].state.online = false then [.noConverter] else []))
  let markResolved (s t : State) (c : ConvId) : Prop :=
    (s.converters[c].mark = none → t.converters[c] = { state := .offline, mark := none, job := none, origin := none })
      ∧ ∀ m : Mark, s.converters[c].mark = some m →
        (m.kind = .hold → t.converters[c] = { state := .held, mark := none, job := none, origin := none })
          ∧ (m.kind = .check → s.engine.state ≠ .halted → t.converters[c] =
              { state := .checking, mark := none, origin := some .offline
                job := some
                  { owner := .check (.context m.owner), connection := .reference, n := 4, settle := 6, ceiling := 65535
                    profiles := [s.profiles[(0 : ProfileIx)]], applied := [], samples := [], cut := false } })
          ∧ (m.kind = .check → s.engine.state = .halted →
              t.converters[c] = { state := .offline, mark := some m, job := none, origin := none })
  let marked (s u t : State) (m : Mark) (c : ConvId) : Prop := ∀ d : Context, s.contexts[m.owner] = some d →
    (m.kind = .hold →
        t.contexts[m.owner] = some { d with
          state := .posting, result := some (.success, .converter c .held none none) })
      ∧ (m.kind = .check → s.engine.state ≠ .halted →
          u.contexts[m.owner] = some { d with action := d.action.map fun a => { a with waits := .check } })
  (∀ (s : State) (c : ConvId) (j : Job),
    (s.converters[c].state = .settling ∨ s.converters[c].state = .sampling ∨ s.converters[c].state = .discharging) →
    s.converters[c].job = some j →
    ∃ t : State, exec (.faultEvent c) s = .next t
      ∧ t.faultDischarges = s.faultDischarges ++ [{ conv := c, connection := j.connection, job := some j }]
      ∧ noticed s t c ∧ markResolved s t c
      ∧ t = finish (faultJob c j s)
      ∧ (∀ m : Mark, s.converters[c].mark = some m → marked s (faultJob c j s) t m c)
      ∧ (∀ d : ConvId, d ≠ c → s.converters[d].free = false → t.converters[d] = s.converters[d])
      ∧ Worked s t)
  ∧ ∀ (s : State) (c : ConvId) (j : Job) (owner : CheckOwner), s.converters[c].state = .checking →
    s.converters[c].job = some j → j.owner = .check owner →
    ∃ t : State, exec (.faultEvent c) s = .next t
      ∧ t.faultDischarges = s.faultDischarges
      ∧ noticed s t c ∧ markResolved s t c
      ∧ t = finish (checkFail c .fault none s)
      ∧ (∀ m : Mark, s.converters[c].mark = some m → owner ≠ .context m.owner →
          marked s (checkFail c .fault none s) t m c)
      ∧ (∀ (k : CtxId) (d : Context), owner = .context k → s.contexts[k] = some d →
          (∀ m : Mark, s.converters[c].mark = some m → m.owner ≠ k) →
          t.contexts[k] = some { d with
            state := .posting, result := some (.checkFailed, .converter c .offline none none) })
      ∧ (owner = .engineControl → c ∉ t.engine.startupLeft
          ∧ (s.engine.state = .loading → (∀ d ∈ s.engine.startupLeft, d = c) → t.engine.state = .running
              ∧ t.watch.timer = (if s.watch.period = 0 then none else some (s.watch.period * 32000))))
      ∧ (∀ d : ConvId, d ≠ c → s.converters[d].free = false → t.converters[d] = s.converters[d])
      ∧ Worked s t

/-- R14, R93 and R111 with R15: the end of a converter's oldest fault discharge. An item or a trial gets one retry: it is
ready again with nothing of the faulted run; when its retry is used it ends CONVERTER_FAULT, and with it the search of the
trial (R112, R113), or the work of a MEASURE whose last item it was (R75). A cut job ends as cut (R95, R115). A watch job is
skipped and counted, and its claim released; one marked for discard is not counted; the round completes when it was the last
(R130, R132). The record of a job that a CLEAR discarded hands nothing on (R17; that it waits out its interval is DEDUCED, log
entry 9, and that the arbiters, `finish`, run after these effects, log entry 3). -/
def Obligations.FaultDischargeEnds : Prop :=
  (∀ (s : State) (v : ConvId) (j : Job) (before rest : List FaultDischarge) (x : Connection),
    s.faultDischarges = before ++ { conv := v, connection := x, job := some j } :: rest → (∀ d ∈ before, d.conv ≠ v) →
    let ended : State := { s with faultDischarges := before ++ rest }
    let becomes (k : CtxId) (c : Context) : State := { ended with contexts := s.contexts.set k (some c) }
    ∃ t : State, exec (.faultDischargeEnd v) s = .next t ∧ t.faultDischarges = before ++ rest ∧ Worked s t
      ∧ (∀ (k : CtxId) (i : Nat) (c : Context) (b : MeasureBody) (e : ItemEntry), j.owner = .item k i → j.cut = false →
          s.contexts[k] = some c → c.state = .active → c.request.body = .measure b → c.items[i]? = some e →
          ∃ (d : Context) (e' : ItemEntry), t.contexts[k] = some d ∧ d.items[i]? = some e' ∧ e'.retryUsed = true
            ∧ (e.retryUsed = true → e' = { e with job := .ended, samples := [], status := some .converterFault }))
      ∧ (∀ (k : CtxId) (i : Nat) (c : Context) (b : MeasureBody) (e : ItemEntry), j.owner = .item k i →
          s.contexts[k] = some c → c.request.body = .measure b → c.items[i]? = some e →
          (j.cut = false → e.retryUsed = false →
              let retried := becomes k { c with
                items := c.items.set i { e with job := .notStarted, samples := [], retryUsed := true } }
              t = finish retried ∧ Arbitrated retried t)
            ∧ (j.cut = false → e.retryUsed = true → ∃ u, t = finish u ∧ ItemsBecome k c b
                (c.items.set i { e with job := .ended, samples := [], status := some .converterFault }) ended u)
            ∧ (j.cut = true → ∃ u, t = finish u ∧ ItemsBecome k c b
                (c.items.set i { e with job := .ended, samples := [], status := some .aborted }) ended u))
      ∧ (∀ (k : CtxId) (c : Context) (b : TrimBody) (q : Search), j.owner = .trial k → s.contexts[k] = some c →
          c.request.body = .trim b → c.search = some q →
          (j.cut = false → q.retryUsed = false →
              let retried := becomes k { c with search := some { q with job := .notStarted, retryUsed := true } }
              t = finish retried ∧ Arbitrated retried t)
            ∧ (j.cut = false → q.retryUsed = true → ∃ u, t = finish u ∧ SearchFails k c b { q with
                job := .ended
                log := q.log ++ [{ trim := q.trialTrim, status := .converterFault, cls := none, retryUsed := true
                                   mean := none }] } .converterFault ended u)
            ∧ (∀ (cause : EndCause) (st : CtxState), j.cut = true → c.endCause = some (cause, st) →
                ∃ u, t = finish u ∧ TrimEndsEarly k c b q cause st ended u))
      ∧ (∀ (id : WatchId) (w : RunningWatch), j.owner = .watch id →
          s.watch.running.find? (fun r => r.id == id) = some w → s.channels[w.ch].holder = some .watchUnit →
          let skipped : State := { ended with
            channels := s.channels.set w.ch { s.channels[w.ch] with holder := none }
            watch := WatchUnit.roundTested { s.watch with
              running := s.watch.running.filter fun r => r.id != id
              entries := if w.discard then s.watch.entries else s.watch.entries.map fun e =>
                if e.id = id then e.countedSkip else e } }
          t = finish skipped ∧ Arbitrated skipped t
            ∧ (s.watch.pending = [] → t.watch = skipped.watch ∧ t.channels[w.ch].holder ≠ some .watchUnit)))
  ∧ ∀ (s : State) (v : ConvId) (before rest : List FaultDischarge) (x : Connection),
    s.faultDischarges = before ++ { conv := v, connection := x, job := none } :: rest → (∀ d ∈ before, d.conv ≠ v) →
    exec (.faultDischargeEnd v) s = .next { s with faultDischarges := before ++ rest }

/-- R17: the discharge of the pins of a job that CLEAR stopped ends, and nothing else changes. -/
def Obligations.ClearDischargeEnds : Prop :=
  ∀ (s : State) (before rest : List ClearDischarge) (d : ClearDischarge),
    s.clearDischarges = before ++ d :: rest → (∀ x ∈ before, x.conv ≠ d.conv) →
    exec (.clearDischargeEnd d.conv) s = .next { s with clearDischarges := before ++ rest }

/-! ### Timers (chapters 7.3 and 10.7) -/

/-- R128, R129: an expiry of the period timer starts a round, whose pending jobs are the entries not in FAULT in ascending
id, or marks an overrun of the round in progress, and restarts the timer with the full period (R127). The coalescing
timer's expiry stops it and sets the late flag (R189). A stopped timer does not expire (DESIGN CHOICE, log entry 2); the
arbiters, `finish`, run after the expiry (DEDUCED, log entry 3). -/
def Obligations.TimersExpire : Prop :=
  (∀ s : State, s.interrupt.timer = none → exec .coalescingTimerExpiry s = .next s)
    ∧ (∀ (s : State) (left : Nat), s.interrupt.timer = some left → exec .coalescingTimerExpiry s
        = .next { s with interrupt := { s.interrupt with timer := none, late := true } })
    ∧ (∀ s : State, s.watch.timer = none → exec .periodTimerExpiry s = .next s)
    ∧ ∀ (s : State) (left : Nat), s.watch.timer = some left →
      let timer := if s.watch.period = 0 then none else some (s.watch.period * 32000)
      let jobs := (s.watch.entries.filter fun e => decide (e.state ≠ .fault)).map WatchEntry.id
      let started : State := { s with
        watch := { s.watch with
          timer := timer
          round := (s.watch.round + 1) % 65536
          inProgress := !jobs.isEmpty
          promoted := false
          running := []
          pending := jobs
          overrun := if jobs.isEmpty then false else s.watch.overrun } }
      let overran : State := (if s.watch.overrun then id else raise (.roundOverrun s.watch.round)) { s with
        watch := { s.watch with promoted := true, overrun := true, timer := timer } }
      (s.watch.inProgress = false → exec .periodTimerExpiry s = .next (finish started)
          ∧ Arbitrated started (finish started))
        ∧ (s.watch.inProgress = true → exec .periodTimerExpiry s = .next (finish overran)
            ∧ ∃ t, exec .periodTimerExpiry s = .next t
            ∧ t.watch.round = s.watch.round ∧ t.watch.timer = timer
            ∧ t.reports = (if s.watch.overrun = false ∧ s.reports.length < 8
                then s.reports ++ [.roundOverrun s.watch.round] else s.reports)
            ∧ (t.watch.inProgress = true → t.watch.promoted = true ∧ t.watch.overrun = true)
            ∧ Arbitrated overran t)


/-! ### Readings, items and trials (chapters 5 and 6) -/

/-- R89, R90: the counts, the summary and the item status of a sample list that a normal end can hand over: at most one
STALL, and that one last; n entries without a STALL, or fewer ended by one. -/
def Obligations.SummaryAndStatus : Prop :=
  ∀ (n ceiling : Nat) (l : List Sample), 1 ≤ n →
    (∀ x ∈ l.dropLast, x ≠ .stall) →
    (∀ r, Sample.good r ∈ l → r < ceiling) →
    (Sample.stall ∈ l ∧ l.length ≤ n ∨ Sample.stall ∉ l ∧ l.length = n) →
    let g := (goodReadings l).length
    let c := l.countP Sample.isCeiling
    let summary := summaryOf l
    (takenCount l = g + c + (if Sample.stall ∈ l then 1 else 0))
      ∧ (summary.isSome = true ↔ 1 ≤ g ∧ l.length ≤ 2 * g ∧ Sample.stall ∉ l)
      ∧ (∀ m : Summary, summary = some m →
          m.mean = (goodReadings l).sum / g ∧ m.minimum ∈ goodReadings l ∧ m.maximum ∈ goodReadings l
            ∧ (∀ r ∈ goodReadings l, m.minimum ≤ r ∧ r ≤ m.maximum)
            ∧ m.minimum ≤ m.mean ∧ m.mean ≤ m.maximum ∧ m.maximum < ceiling)
      ∧ (runStatus n l = .good ↔ l.length = n ∧ g = n)
      ∧ (runStatus n l = .degraded ↔ summary.isSome = true ∧ g < n)
      ∧ (runStatus n l = .ceiling ↔ Sample.stall ∉ l ∧ g < c)
      ∧ (runStatus n l = .opened ↔ Sample.stall ∈ l)

/-- R109 with R107 and R108: the class of a trial; the decision on trials 0..6, after which the next trial is ready and its
trim stands in the channel's entry; and that the search reaches every one of the 128 trims. -/
def Obligations.TrimDecision : Prop :=
  (∀ (n low high : Nat) (l : List Sample), 1 ≤ n → low ≤ high →
      let status := runStatus n l
      let cls := classify low high status ((summaryOf l).map Summary.mean)
      (status = .opened ↔ cls = none)
        ∧ (status = .ceiling → cls = some .tooHigh)
        ∧ (∀ m : Summary, summaryOf l = some m →
            (cls = some .tooHigh ↔ high < m.mean) ∧ (cls = some .inWindow ↔ low ≤ m.mean ∧ m.mean ≤ high)
              ∧ (cls = some .tooLow ↔ m.mean < low)))
    ∧ (∀ (q : Search) (cls : TrialClass), q.trial < 7 →
      (q.decide cls).trial = q.trial + 1
        ∧ (q.decide cls).decided = q.decided +
            (if cls = .inWindow ∨ (q.comp = .load ∧ cls = .tooHigh) ∨ (q.comp = .gain ∧ cls = .tooLow)
              then 2 ^ (6 - q.trial) else 0)
        ∧ (q.decide cls).savedTrim = q.savedTrim ∧ (q.decide cls).savedBaseline = q.savedBaseline
        ∧ (q.decide cls).comp = q.comp ∧ (q.decide cls).log = q.log)
    ∧ (∀ (s : State) (k : CtxId) (c : Context) (b : TrimBody) (q : Search) (l : List Sample) (cls : TrialClass),
        s.contexts[k] = some c → c.request.body = .trim b → c.search = some q → q.trial < 7 →
        classify b.windowLow b.windowHigh (runStatus b.n l) ((summaryOf l).map Summary.mean) = some cls →
        let next := q.decide cls
        let trim := next.decided + (if q.trial < 6 then 2 ^ (5 - q.trial) else 0)
        (trialNormalEnd k l s).channels[b.chan] = { s.channels[b.chan] with trim := trim }
          ∧ ∃ e : Search, (trialNormalEnd k l s).contexts[k] = some { c with search := some e }
            ∧ e.trial = next.trial ∧ e.decided = next.decided ∧ e.trialTrim = trim ∧ e.job = .notStarted
            ∧ e.retryUsed = false ∧ e.savedTrim = q.savedTrim ∧ e.savedBaseline = q.savedBaseline
            ∧ e.log = q.log ++ [{ trim := q.trialTrim, status := runStatus b.n l, cls := some cls
                                  retryUsed := q.retryUsed, mean := (summaryOf l).map Summary.mean }]
            ∧ trialNormalEnd k l s = { s.modChan b.chan (fun x => { x with trim := trim }) with
                contexts := s.contexts.set k (some { c with search := some e }) })
    ∧ ∀ (q : Search), q.decided = 0 → q.trial = 0 →
        (∀ classes : List TrialClass, classes.length = 7 →
            (classes.foldl Search.decide q).decided < 128 ∧ (classes.foldl Search.decide q).trial = 7)
          ∧ ∀ trim : Nat, trim < 128 → ∃ classes : List TrialClass, classes.length = 7
              ∧ (classes.foldl Search.decide q).decided = trim

/-- R105, R107: a granted TRIM saves its channel's trim and baseline, and its trial 0 is ready with bit 64 as the working
trim. -/
def Obligations.TrimGrantSaves : Prop :=
  ∀ (s : State) (k : CtxId) (c : Context) (b : TrimBody), s.contexts[k] = some c → c.request.body = .trim b →
    c.claimSet = [b.chan] → s.channels[b.chan].ready = true →
    let old := s.channels[b.chan]
    (∀ d : Context, (grant k c s).contexts[k] = some d → d = { c with
        state := .active
        search := some
          { savedTrim := old.trim, savedBaseline := old.baseline, comp := old.comp, decided := 0, trial := 0
            trialTrim := 64, job := .notStarted, retryUsed := false, log := [] } })
      ∧ (∃ d, (grant k c s).contexts[k] = some d)
      ∧ (grant k c s).channels[b.chan] = { old with trim := 64, holder := some (.context k) }
      ∧ (∀ ch : Chan, ch ≠ b.chan → (grant k c s).channels[ch] = s.channels[ch])
      ∧ (∀ l : CtxId, l ≠ k → (grant k c s).contexts[l] = s.contexts[l])
      ∧ grant k c s = { s with channels := (grant k c s).channels, contexts := (grant k c s).contexts }

/-- R110, R112, R113: a verify trial whose mean lies in the window ends the search SUCCESS with the decided trim and the
mean written; any other verify ends OUT_OF_RANGE or OPEN with the saved values back. A trial of any number that ends OPEN ends it so (R111). Either way the channel is released and the context
goes to WRITING with its 48-byte result, whose bytes are those of 11.5 (R114). -/
def Obligations.VerifyEndsSearch : Prop :=
  (∀ (s : State) (k : CtxId) (c : Context) (b : TrimBody) (q : Search) (l : List Sample), s.contexts[k] = some c →
    c.request.body = .trim b → c.search = some q → q.trial = 7 → 1 ≤ b.n → b.windowLow ≤ b.windowHigh →
    s.channels[b.chan].holder = some (.context k) →
    let mean := (summaryOf l).map Summary.mean
    let t := trialNormalEnd k l s
    let written (status : Status) (detail : Detail) (trim : Nat) (baseline : Option Nat) : Prop :=
      t.channels[b.chan] = { s.channels[b.chan] with trim := trim, baseline := baseline, holder := none }
        ∧ ∃ d, t.contexts[k] = some d ∧ d.state = .writing ∧ d.result = some (status, detail)
          ∧ (s.engine.state = .halted → t.resultWrites = s.resultWrites)
          ∧ (s.engine.state ≠ .halted → ∃ data, t.resultWrites = s.resultWrites ++
              [{ owner := k, addr := c.request.resultAddr, data := data, abandoned := false }]
              ∧ data.length = 48
              ∧ data = trimResult c b { q with
                  job := .ended
                  log := q.log ++ [{ trim := q.trialTrim, status := runStatus b.n l
                                     cls := classify b.windowLow b.windowHigh (runStatus b.n l) mean
                                     retryUsed := q.retryUsed, mean := mean }] }
                  status (if runStatus b.n l = .opened then none else mean) trim)
    (∀ m, mean = some m → b.windowLow ≤ m → m ≤ b.windowHigh →
        written .success (.trim (some m) q.decided) q.decided (some m))
      ∧ (runStatus b.n l ≠ .opened → (∀ m, mean = some m → m < b.windowLow ∨ b.windowHigh < m) →
          written .outOfRange (.trim mean q.decided) q.savedTrim q.savedBaseline)
      ∧ (runStatus b.n l = .opened → written .opened (.trial 7 q.savedTrim) q.savedTrim q.savedBaseline)
      ∧ t = { s with channels := t.channels, contexts := t.contexts, resultWrites := t.resultWrites }
      ∧ (∀ l : CtxId, l ≠ k → t.contexts[l] = s.contexts[l])
      ∧ ∀ ch : Chan, ch ≠ b.chan → s.channels[ch].holder ≠ some (.context k) → t.channels[ch] = s.channels[ch])
  ∧ (∀ (s : State) (k : CtxId) (c : Context) (b : TrimBody) (q : Search) (l : List Sample), s.contexts[k] = some c →
    c.request.body = .trim b → c.search = some q → runStatus b.n l = .opened →
    SearchFails k c b { q with
        job := .ended
        log := q.log ++ [{ trim := q.trialTrim, status := .opened, cls := none, retryUsed := q.retryUsed, mean := none }] }
      .opened s (trialNormalEnd k l s))
  ∧ ∀ (c : Context) (b : TrimBody) (q : Search) (status : Status) (mean : Option Nat) (after : Nat), q.log.length ≤ 8 →
    let one (p : Bool) : Nat := if p then 1 else 0
    ∃ (header : List Byte) (entries : List (List Byte)) (rest : List Byte),
      trimResult c b q status mean after = header ++ entries.flatten ++ rest
      ∧ header.length = 16 ∧ rest = List.replicate (4 * (8 - q.log.length)) 0
      ∧ byteAt header 0 = c.queue.val ∧ byteAt header 1 = b.channel % 256 ∧ halfAt header 2 = c.request.tag % 65536
      ∧ byteAt header 4 = status.code ∧ byteAt header 5 = one (q.comp = .gain) + 2 * one mean.isSome
      ∧ byteAt header 6 = q.log.length ∧ byteAt header 7 = q.decided % 256 ∧ byteAt header 8 = q.savedTrim % 256
      ∧ byteAt header 9 = after % 256 ∧ halfAt header 10 = mean.getD 0 % 65536
      ∧ halfAt header 12 = b.windowLow % 65536 ∧ halfAt header 14 = b.windowHigh % 65536
      ∧ entries.length = q.log.length
      ∧ ∀ (i : Nat) (e : TrialLog) (bytes : List Byte), q.log[i]? = some e → entries[i]? = some bytes → e.trim ≤ 127 →
          bytes.length = 4 ∧ byteAt bytes 0 = e.trim + 128 * one e.mean.isSome
            ∧ byteAt bytes 1 % 16 = (match e.status with
              | .good => 0
              | .degraded => 1
              | .ceiling => 2
              | .opened => 3
              | .converterFault => 4
              | .noConverter => 5
              | .aborted => 0)
            ∧ byteAt bytes 1 / 16 % 4 = (match e.cls with
              | none => 0
              | some .tooHigh => 1
              | some .inWindow => 2
              | some .tooLow => 3)
            ∧ byteAt bytes 1 / 64 = one e.retryUsed ∧ halfAt bytes 2 = e.mean.getD 0 % 65536

/-! ### Watch judgments (chapter 7.4) -/

/-- R134: the levels, limited to 0..65535, and the three kinds of reading. -/
def Obligations.WatchLevels : Prop :=
  ∀ (b r : Nat) (e : WatchEntry), b ≤ 65535 → r ≤ 65535 → (∀ u, e.upper = some u → 1 ≤ u) →
    (∀ l, e.lower = some l → 1 ≤ l) →
    let limited (x : Int) : Int := max 0 (min 65535 x)
    (∀ u, e.upper = some u → ∃ h hold, highLevel b e = some h ∧ highHolding b e = some hold
        ∧ (h : Int) = limited ((b : Int) + u) ∧ (hold : Int) = limited ((b : Int) + u - e.hysteresis))
      ∧ (e.upper = none → highLevel b e = none ∧ highHolding b e = none)
      ∧ (∀ l, e.lower = some l → ∃ lo hold, lowLevel b e = some lo ∧ lowHolding b e = some hold
          ∧ (lo : Int) = limited ((b : Int) - l) ∧ (hold : Int) = limited ((b : Int) - l + e.hysteresis))
      ∧ (e.lower = none → lowLevel b e = none ∧ lowHolding b e = none)
      ∧ (crossing b r e = some .high ↔ ∃ h, highLevel b e = some h ∧ h ≤ r)
      ∧ (crossing b r e = some .low ↔ ∃ lo, lowLevel b e = some lo ∧ r ≤ lo)

/-- R135, R136: the judgment of an entry in INSIDE, and of an entry in ABOVE or BELOW. -/
def Obligations.JudgeEntry : Prop :=
  ∀ (b r : Nat) (e : WatchEntry), b ≤ 65535 → r ≤ 65535 →
    let v := judge (some b) r e
    (e.state = .inside →
        (∀ d : Direction, crossing b r e = some d →
            let count := if 0 < e.count ∧ e.direction = d then e.count + 1 else 1
            v.baseline = some b
              ∧ (count = e.persistence →
                  v.entry = { e with
                      state := (match d with
                        | .high => .above
                        | .low => .below)
                      count := 0, direction := d, last := some r }
                    ∧ v.event = some (match d with
                        | .high => .crossedHigh
                        | .low => .crossedLow))
              ∧ (count ≠ e.persistence →
                  v.entry = { e with count := count, direction := d, last := some r } ∧ v.event = none))
          ∧ (crossing b r e = none →
              v.entry = { e with count := 0, last := some r } ∧ v.event = none
                ∧ (e.shift = 15 → v.baseline = some b)
                ∧ (e.shift = 0 → v.baseline = some r)
                ∧ (e.shift < 15 → ∃ x, v.baseline = some x
                    ∧ (b ≤ r → x = b + (r - b) / 2 ^ e.shift) ∧ (r ≤ b → x = b - (b - r) / 2 ^ e.shift))))
      ∧ (e.state = .above ∨ e.state = .below →
          let holding : Prop := (e.state = .above ∧ ∃ h, highHolding b e = some h ∧ h ≤ r)
            ∨ (e.state = .below ∧ ∃ l, lowHolding b e = some l ∧ r ≤ l)
          v.baseline = some b
            ∧ (holding → v.entry = { e with count := 0, last := some r } ∧ v.event = none)
            ∧ (¬holding → e.count + 1 = e.persistence →
                v.entry = { e with state := .inside, count := 0, last := some r } ∧ v.event = some .returned)
            ∧ (¬holding → e.count + 1 ≠ e.persistence →
                v.entry = { e with count := e.count + 1, last := some r } ∧ v.event = none))

/-- R133, R137, R132: an UNSET baseline is learned from a reading without a judgment; OPEN puts the entry in FAULT and
raises WATCH_FAULT; the reading is the mean, or the ceiling for CEILING. A watch job that ends normally takes its verdict,
unless it is marked for discard: entry, baseline and event (R138), which is raised and queued to be posted, or counted as
lost at a full report buffer (R170); either way its record goes, its claim is released, and the round completes when no job is
left (R130). A job marked for discard, and one whose entry is gone (R122), does that and no more: entries, baselines, reports,
the lost count and the posting order stay (R123). -/
def Obligations.WatchVerdicts : Prop :=
  (∀ (n ceiling : Nat) (l : List Sample) (baseline : Option Nat) (e : WatchEntry),
    let v := watchVerdict n ceiling l baseline e
    (runStatus n l = .opened →
        v.entry = { e with state := .fault, count := 0 } ∧ v.baseline = baseline ∧ v.event = some .watchFault)
      ∧ (runStatus n l = .ceiling → v = judge baseline ceiling e)
      ∧ (∀ m : Summary, summaryOf l = some m → v = judge baseline m.mean e)
      ∧ ∀ r : Nat, judge none r e =
          { entry := { e with count := 0, last := some r }, baseline := some r, event := none })
  ∧ (∀ (s : State) (id : WatchId) (j : Job) (w : RunningWatch),
    s.watch.running.find? (fun r => r.id == id) = some w → s.channels[w.ch].holder = some .watchUnit →
    (w.discard = true ∨ ∀ e ∈ s.watch.entries, e.id ≠ id) →
    watchNormalEnd id j s = { s with
      channels := s.channels.set w.ch { s.channels[w.ch] with holder := none }
      watch := WatchUnit.roundTested { s.watch with running := s.watch.running.filter fun r => r.id != id } })
  ∧ ∀ (s : State) (id : WatchId) (j : Job) (w : RunningWatch) (e : WatchEntry),
    s.watch.running.find? (fun r => r.id == id) = some w → s.watch.entries.find? (fun x => x.id == id) = some e →
    s.channels[w.ch].holder = some .watchUnit →
    let v := watchVerdict j.n j.ceiling j.samples s.channels[w.ch].baseline e
    let t := watchNormalEnd id j s
    t = { s with channels := t.channels, watch := t.watch, reports := t.reports, lost := t.lost, posting := t.posting }
      ∧ t.channels = s.channels.set w.ch { s.channels[w.ch] with
          holder := none, baseline := if w.discard then s.channels[w.ch].baseline else v.baseline }
      ∧ t.watch = WatchUnit.roundTested { s.watch with
          running := s.watch.running.filter fun r => r.id != id
          entries := if w.discard then s.watch.entries else s.watch.entries.map fun x => if x.id = id then v.entry else x }
      ∧ (w.discard = true ∨ v.event = none →
          t.reports = s.reports ∧ t.lost = s.lost ∧ t.posting = s.posting)
      ∧ ∀ kind : EventKind, w.discard = false → v.event = some kind →
          (8 ≤ s.reports.length →
            t.reports = s.reports ∧ t.lost = min 65535 (s.lost + 1) ∧ t.posting = s.posting)
          ∧ (s.reports.length < 8 → ∃ reading,
            t.reports = s.reports ++ [.event kind e.id e.ch e.state reading v.baseline w.round]
            ∧ t.lost = s.lost ∧ t.posting = s.posting ++ [.report]
            ∧ (runStatus j.n j.samples = .ceiling → reading = j.ceiling)
            ∧ (runStatus j.n j.samples = .opened → reading = 0)
            ∧ ∀ m : Summary, summaryOf j.samples = some m → reading = m.mean)

/-! ### Requests that execute at once (chapters 2.4, 3.7, 7.2, 8) -/

/-- R33: a PROFILE_SET that passes its checks writes its profiles and its hop set as one event and completes SUCCESS. -/
def Obligations.ProfileSetExecutes : Prop :=
  ∀ (s : State) (k : CtxId) (c : Context) (b : ProfileSetBody), s.contexts[k] = some c → b.check = none →
    b.profiles.length = 16 → b.hopEntries.length = 24 →
    let t := execProfileSet k b s
    (∀ p : ProfileIx, some t.profiles[p] = if b.mask.getLsbD p.val then b.profiles[p.val]? else some s.profiles[p])
      ∧ (∀ h : HopIx, (b.hopWrite = true ∧ h.val = b.hopSet →
            (t.hopSets[h]).map Fin.val = b.hopEntries.take b.hopLength)
          ∧ (b.hopWrite = false ∨ h.val ≠ b.hopSet → t.hopSets[h] = s.hopSets[h]))
      ∧ t.contexts[k] = some { c with
          state := .posting
          result := some (.success, .profiles b.mask (if b.hopWrite then b.hopSet else 0)) }
      ∧ (∀ l : CtxId, l ≠ k → t.contexts[l] = s.contexts[l])
      ∧ t = { s with profiles := t.profiles, hopSets := t.hopSets, contexts := t.contexts }

/-- R55, R57: a granted CHANNEL_SET is refused when it would turn a watched channel OFF, and otherwise writes every used
field as one event; either way it releases its claim and reports the entry. -/
def Obligations.ChannelSetExecutes : Prop :=
  ∀ (s : State) (k : CtxId) (c : Context) (b : ChannelSetBody), s.contexts[k] = some c → b.check = none →
    s.channels[(Fin.ofNat 64 b.channel : Chan)].holder = some (.context k) →
    let ch : Chan := Fin.ofNat 64 b.channel
    let old := s.channels[ch]
    let t := execChannelSet k b s
    let refused : Prop := b.hasState = true ∧ b.state = 0 ∧ old.watchLink.isSome = true
    (refused → t.channels[ch] = { old with holder := none }
        ∧ t.contexts[k] = some { c with
            state := .posting
            result := some (.channelWatched, .entry old.ready old.park old.comp old.trim old.baseline) })
      ∧ (¬refused →
          let new := t.channels[ch]
          (new.ready = if b.hasState then decide (b.state = 1) else old.ready)
            ∧ (new.park = if b.hasPark then (if b.park = 0 then .ground else if b.park = 1 then .float else .shield)
                else old.park)
            ∧ (new.comp = if b.hasComp then (if b.comp = 0 then .load else .gain) else old.comp)
            ∧ (new.trim = if b.hasTrim then b.trim else old.trim)
            ∧ (new.baseline = if b.hasBaseline then
                (if b.baselineAction = 0 then old.baseline else if b.baselineAction = 1 then none
                 else some b.baselineValue) else old.baseline)
            ∧ new.holder = none ∧ new.watchLink = old.watchLink
            ∧ t.contexts[k] = some { c with
                state := .posting, result := some (.success, .entry new.ready new.park new.comp new.trim new.baseline) })
      ∧ (∀ d : Chan, d ≠ ch → s.channels[d].holder ≠ some (.context k) → t.channels[d] = s.channels[d])
      ∧ (∀ l : CtxId, l ≠ k → t.contexts[l] = s.contexts[l])
      ∧ t = { s with channels := t.channels, contexts := t.contexts }

/-- R120, R121: the steps of a WATCH_ADD at its execution, and the entry it places. -/
def Obligations.WatchAddExecutes : Prop :=
  ∀ (s : State) (k : CtxId) (c : Context) (b : WatchAddBody), s.contexts[k] = some c → b.id < 32 → b.channel < 64 →
    let id : WatchId := Fin.ofNat 32 b.id
    let ch : Chan := Fin.ofNat 64 b.channel
    let t := execWatchAdd k b s
    let completes (status : Status) (detail : Detail) : Prop :=
      t.contexts[k] = some { c with state := .posting, result := some (status, detail) }
    let unchanged : Prop := t.watch = s.watch ∧ t.channels = s.channels
    (∀ e ∈ s.watch.entries, e.id = id → (∀ d ∈ s.watch.entries, d.id = id → d = e) →
        completes .idInUse (.watch b.id e.ch.val) ∧ unchanged)
      ∧ ((∀ e ∈ s.watch.entries, e.id ≠ id) →
          (s.channels[ch].ready = false → completes .channelOff (.channel ch) ∧ unchanged)
            ∧ (∀ link, s.channels[ch].ready = true → s.channels[ch].watchLink = some link →
                completes .channelWatched (.watch link.val b.channel) ∧ unchanged)
            ∧ (s.channels[ch].ready = true → s.channels[ch].watchLink = none →
                (∀ code index, b.check = some (code, index) →
                    completes .invalidRequest (.field code index) ∧ unchanged)
                  ∧ (b.check = none → completes .success (.watch b.id b.channel)
                      ∧ t.channels[ch] = { s.channels[ch] with watchLink := some id }
                      ∧ (∀ d : Chan, d ≠ ch → t.channels[d] = s.channels[d])
                      ∧ ∃ e ∈ t.watch.entries, e =
                            { id := id, ch := ch, n := b.n, settle := b.settle, hop := Fin.ofNat 8 b.hop
                              ceiling := b.ceiling, upper := b.upper, lower := b.lower, hysteresis := b.hysteresis
                              persistence := b.persistence, shift := b.shift, state := .inside, count := 0
                              direction := .high, last := none, skipped := 0 }
                          ∧ ∀ d : WatchEntry, d ∈ t.watch.entries ↔ d = e ∨ d ∈ s.watch.entries)))
      ∧ (∀ l : CtxId, l ≠ k → t.contexts[l] = s.contexts[l])
      ∧ t = { s with
          watch := { s.watch with entries := t.watch.entries }, channels := t.channels, contexts := t.contexts }

/-- R122, R124, R126: WATCH_REMOVE, WATCH_QUERY and WATCH_TIMING at their execution; a WATCH_REMOVE marks the running job of
its own id for discard and no other, and one of the last pending job with none running completes the round (R130). The bytes of a
WATCH_QUERY's result (R125, 11.5). -/
def Obligations.WatchRequestsExecute : Prop :=
  (∀ (s : State) (k : CtxId) (c : Context), s.contexts[k] = some c →
    let framed (t : State) : Prop := (∀ l : CtxId, l ≠ k → t.contexts[l] = s.contexts[l])
      ∧ t = { s with
          watch := t.watch, channels := t.channels, contexts := t.contexts, resultWrites := t.resultWrites }
    (∀ id : WatchId, (∀ e ∈ s.watch.entries, e.id ≠ id) →
        (execWatchRemove k id s).contexts[k] =
            some { c with state := .posting, result := some (.noSuchWatch, .watch id.val 0) }
          ∧ (execWatchRemove k id s).watch = s.watch ∧ (execWatchRemove k id s).channels = s.channels
          ∧ (execWatchRemove k id s).resultWrites = s.resultWrites ∧ framed (execWatchRemove k id s))
      ∧ (∀ e : WatchEntry, s.watch.entries.find? (fun x => x.id == e.id) = some e →
          let t := execWatchRemove k e.id s
          t.contexts[k] = some { c with state := .posting, result := some (.success, .watch e.id.val e.ch.val) }
            ∧ t.watch.entries = s.watch.entries.filter (fun x => x.id != e.id)
            ∧ t.watch.pending = s.watch.pending.filter (fun x => x != e.id)
            ∧ t.channels[e.ch] = { s.channels[e.ch] with watchLink := none }
            ∧ (∀ d : Chan, d ≠ e.ch → t.channels[d] = s.channels[d])
            ∧ t.watch.period = s.watch.period ∧ t.watch.timer = s.watch.timer ∧ t.watch.round = s.watch.round
            ∧ (s.watch.inProgress = true → (∀ id ∈ s.watch.pending, id = e.id) → s.watch.running = [] →
                t.watch.inProgress = false ∧ t.watch.promoted = false ∧ t.watch.overrun = false)
            ∧ (s.watch.inProgress = false ∨ (∃ id ∈ s.watch.pending, id ≠ e.id) ∨ s.watch.running ≠ [] →
                t.watch.inProgress = s.watch.inProgress ∧ t.watch.promoted = s.watch.promoted
                  ∧ t.watch.overrun = s.watch.overrun)
            ∧ t.resultWrites = s.resultWrites ∧ framed t
            ∧ t.watch.running = s.watch.running.map fun r => if r.id = e.id then { r with discard := true } else r)
      ∧ (∀ period : Nat, period ≤ 60000 →
          let t := execWatchTiming k period s
          t.watch = { s.watch with
              period := period, timer := if period = 0 then none else some (period * 32000) }
            ∧ t.contexts[k] = some { c with state := .posting, result := some (.success, .period period) }
            ∧ t.channels = s.channels ∧ t.resultWrites = s.resultWrites ∧ framed t)
      ∧ (let t := execWatchQuery k c s
         let needed := 16 + 16 * s.watch.entries.length
         t.watch = s.watch ∧ t.channels = s.channels ∧ framed t
          ∧ (c.request.resultLength < needed → t.resultWrites = s.resultWrites
              ∧ t.contexts[k] = some { c with
                  state := .posting, result := some (.bufferTooSmall, .length needed) })
          ∧ (needed ≤ c.request.resultLength → s.engine.state ≠ .halted →
              t.contexts[k] = some { c with
                  state := .writing, result := some (.success, .query s.watch.entries.length s.watch.round) }
                ∧ ∃ data, t.resultWrites = s.resultWrites ++
                    [{ owner := k, addr := c.request.resultAddr, data := data, abandoned := false }]
                    ∧ data.length = needed ∧ data = watchQueryResult c.queue c.request.tag s)))
  ∧ ∀ (s : State) (queue : QueueId) (tag : Nat),
    let one (p : Bool) : Nat := if p then 1 else 0
    ∃ (header : List Byte) (blocks : List (List Byte)), watchQueryResult queue tag s = header ++ blocks.flatten
      ∧ header.length = 16
      ∧ byteAt header 0 = queue.val ∧ byteAt header 1 = s.watch.entries.length % 256 ∧ halfAt header 2 = tag % 65536
      ∧ halfAt header 4 = s.watch.round % 65536 ∧ byteAt header 6 = one s.watch.inProgress + 2 * one s.watch.promoted
      ∧ byteAt header 7 = s.watch.pending.length % 256 ∧ halfAt header 8 = s.watch.period % 65536
      ∧ (∀ off : Nat, 10 ≤ off → byteAt header off = 0)
      ∧ blocks.length = s.watch.entries.length
      ∧ ∀ (i : Nat) (e : WatchEntry) (block : List Byte), s.watch.entries[i]? = some e → blocks[i]? = some block →
          e.count ≤ 15 → e.persistence ≤ 15 →
          let baseline := s.channels[e.ch].baseline
          block.length = 16 ∧ byteAt block 0 = e.id.val ∧ byteAt block 1 = e.ch.val
            ∧ byteAt block 2 = (match e.state with
                | .inside => 0
                | .above => 1
                | .below => 2
                | .fault => 3) + 4 * one (e.direction = .low) + 8 * one e.upper.isSome + 16 * one e.lower.isSome
                + 32 * one e.last.isSome + 64 * one baseline.isSome
            ∧ byteAt block 3 = e.count + 16 * e.persistence
            ∧ halfAt block 4 = e.last.getD 0 % 65536 ∧ halfAt block 6 = baseline.getD 0 % 65536
            ∧ halfAt block 8 = e.skipped % 65536 ∧ halfAt block 10 = e.upper.getD 0 % 65536
            ∧ halfAt block 12 = e.lower.getD 0 % 65536 ∧ halfAt block 14 = e.hysteresis % 65536

/-- R147 to R150: what a CONVERTER_SET does to its converter in each state: actions 1 HOLD, 2 RELEASE, 3 CHECK. -/
def Obligations.ConverterSetExecutes : Prop :=
  ∀ (s : State) (k : CtxId) (c : Context) (v : ConvId), s.contexts[k] = some c →
    let old := s.converters[v]
    let after (action : ConvAction) : State := execConverterSet k v action s
    let completes (action : ConvAction) (status : Status) (st : ConvState) (mark : Option MarkKind) : Prop :=
      ∃ d, (after action).contexts[k] = some d ∧ d.state = .posting
        ∧ d.result = some (status, .converter v st none mark)
    let waits (action : ConvAction) (w : ConvWait) : Prop :=
      (after action).contexts[k] = some { c with action := some { conv := v, action := action, waits := w } }
    let checks (action : ConvAction) : Prop := waits action .check ∧ (after action).converters[v] = { old with
      state := .checking, origin := some old.state
      job := some
        { owner := .check (.context k), connection := .reference, n := 4, settle := 6, ceiling := 65535
          profiles := [s.profiles[(0 : ProfileIx)]], applied := [], samples := [], cut := false } }
    let busy : Prop := old.state = .settling ∨ old.state = .sampling ∨ old.state = .discharging ∨ old.state = .checking
    (∀ (m : Mark) (action : ConvAction), old.mark = some m →
        completes action .converterBusy old.state (some m.kind) ∧ (after action).converters = s.converters)
      ∧ (old.mark = none →
          (old.state = .idle ∨ old.state = .offline → completes .hold .success .held none
              ∧ (after .hold).converters[v] = { old with state := .held })
            ∧ (old.state = .held → completes .hold .success .held none ∧ (after .hold).converters = s.converters)
            ∧ (busy → waits .hold .mark
                ∧ (after .hold).converters[v] = { old with mark := some { kind := .hold, owner := k } })
            ∧ (old.state = .held → checks .release)
            ∧ (old.state ≠ .held → completes .release .notHeld old.state none
                ∧ (after .release).converters = s.converters)
            ∧ (old.state = .idle ∨ old.state = .offline → checks .check)
            ∧ (old.state = .held → completes .check .converterHeld .held none
                ∧ (after .check).converters = s.converters)
            ∧ (busy → waits .check .mark
                ∧ (after .check).converters[v] = { old with mark := some { kind := .check, owner := k } }))
      ∧ (∀ (action : ConvAction) (d : ConvId), d ≠ v → (after action).converters[d] = s.converters[d])
      ∧ ∀ action : ConvAction, let t := after action
        (∀ l : CtxId, l ≠ k → t.contexts[l] = s.contexts[l])
          ∧ t = { s with
              converters := t.converters, contexts := t.contexts, reports := t.reports, lost := t.lost
              posting := t.posting }
          ∧ ((∀ d : ConvId, d ≠ v → s.converters[d].state.online = false) → action = .hold → old.state = .idle →
              old.mark = none → s.reports.length < 8 → t.reports = s.reports ++ [.noConverter])
          ∧ ((∃ d : ConvId, d ≠ v ∧ s.converters[d].state.online = true) ∨ old.state ≠ .idle ∨ action ≠ .hold →
              t.reports = s.reports ∧ t.lost = s.lost)

/-- R143, R144 with R77: an ABORT of scope ONE finds the one context that holds the tag and answers by its state; of scope
ALL it ends every other context of the queue in LISTING, CLAIMING or ACTIVE with cause ABORTED, oldest first, leaves those
in WRITING and POSTING as they are, and counts the ones it ended. What one end cause does is `EndCauseTaken`; that a check
whose context is ended has the owner `nobody` is DEDUCED (log entry 18). -/
def Obligations.AbortExecutes : Prop :=
  (∀ (s : State) (k : CtxId) (a : Context) (q : QueueId) (tag : Nat), s.contexts[k] = some a → s.ContextsSound →
    let holds (l : CtxId) : Prop := l ≠ k ∧ ∃ c : Context,
      s.contexts[l] = some c ∧ c.queue = q ∧ c.holdsTag = true ∧ c.request.tag = tag
    let working (l : CtxId) : Prop := ∃ c : Context, s.contexts[l] = some c
      ∧ (c.state = .listing ∨ c.state = .claiming ∨ c.state = .active)
    let one := execAbortOne k q tag s
    let all := execAbortAll k q s
    let answers (t : State) (status : Status) (detail : Detail) : Prop :=
      t.contexts[k] = some { a with state := .posting, result := some (status, detail) }
    let posts (status : Status) (detail : Detail) (u : State) : State :=
      u.modCtx k fun c => { c with state := .posting, result := some (status, detail) }
    let targets := (List.finRange 16).countP fun l => l != k && (match s.contexts[l] with
      | some c => c.queue == q && (c.state == .listing || c.state == .claiming || c.state == .active)
      | none => false)
    ((∀ l, ¬holds l) → answers one .notFound (.count 0))
      ∧ (∀ (l : CtxId) (c : Context), holds l → s.contexts[l] = some c →
          (c.state = .writing → answers one .tooLate (.state .writing) ∧ one.contexts[l] = some c)
            ∧ (c.state = .posting → answers one .tooLate (.state .posting) ∧ one.contexts[l] = some c)
            ∧ (working l → answers one .success (.count 1)
                ∧ (∃ d, one.contexts[l] = some d
                  ∧ d.endCause = (if c.endCause.isSome then c.endCause else some (.aborted, c.state))
                  ∧ (c.endCause = none → c.state = .listing ∨ c.state = .claiming → d.state = .posting
                      ∧ d.result = some (.aborted, .state c.state)))
                ∧ (∃ d, one.contexts[l] = some d ∧ c.EndedBy .aborted d)
                ∧ one = posts .success (.count 1) (setEndCause .aborted l s)))
      ∧ (∀ m : CtxId, m ≠ k → ¬holds m → one.contexts[m] = s.contexts[m])
      ∧ (targets = 0 → answers all .notFound (.count 0) ∧ all = posts .notFound (.count 0) s)
      ∧ (0 < targets → answers all .success (.count targets)
          ∧ ∃ order : List CtxId, order.Nodup
            ∧ (∀ l : CtxId, l ∈ order ↔ l ≠ k ∧ working l ∧ ∀ c, s.contexts[l] = some c → c.queue = q)
            ∧ order.Pairwise (fun l m => ∀ c d : Context, s.contexts[l] = some c → s.contexts[m] = some d →
                c.admission ≤ d.admission)
            ∧ all = posts .success (.count targets) (order.foldl (fun u l => setEndCause .aborted l u) s))
      ∧ (∀ (m : CtxId) (c : Context), m ≠ k → s.contexts[m] = some c → c.queue ≠ q → all.contexts[m] = some c)
      ∧ (∀ (m : CtxId) (c : Context), m ≠ k → s.contexts[m] = some c → c.queue = q →
          (∃ d, all.contexts[m] = some d ∧ c.EndedBy .aborted d)
            ∧ (working m → ∃ d, all.contexts[m] = some d
                ∧ d.endCause = (if c.endCause.isSome then c.endCause else some (.aborted, c.state))
                ∧ (c.endCause = none → c.state = .listing ∨ c.state = .claiming →
                    d.state = .posting ∧ d.result = some (.aborted, .state c.state)))
            ∧ (c.state = .writing ∨ c.state = .posting → all.contexts[m] = some c))
      ∧ ∀ t : State, t = one ∨ t = all → t = { s with
          channels := t.channels, converters := t.converters, faultDischarges := t.faultDischarges
          contexts := t.contexts, listReads := t.listReads, resultWrites := t.resultWrites })
  ∧ ∀ (s : State) (k : CtxId) (c : Context), s.contexts[k] = some c →
      EndCauseTaken .aborted k c s (setEndCause .aborted k s)


/-! ### Pins and the arbiters (chapters 1.6, 3.2) -/

/-- R38 to R40: a pin is connected to the converter that holds its channel, discharging after a fault or a CLEAR, or
parked by its entry; the shield carries the waveform of the lowest-numbered converter in SAMPLING. -/
def Obligations.PinsAndShield : Prop :=
  ∀ (s : State) (ch : Chan),
    let holds (c : ConvId) : Prop := (s.converters[c].state = .settling ∨ s.converters[c].state = .sampling
      ∨ s.converters[c].state = .discharging) ∧ ∃ j, s.converters[c].job = some j ∧ ch ∈ j.connection.channels
    let discharging : Prop := (∃ d ∈ s.faultDischarges, ch ∈ d.connection.channels)
      ∨ ∃ d ∈ s.clearDischarges, ch ∈ d.connection.channels
    (∀ c : ConvId, holds c → (∀ d : ConvId, d < c → ¬holds d) → pin s ch = .connected c)
      ∧ ((∀ c, ¬holds c) → discharging → pin s ch = .discharging)
      ∧ ((∀ c, ¬holds c) → ¬discharging → pin s ch = (match s.channels[ch].park with
          | .ground => .drivenLow
          | .float => .highImpedance
          | .shield => .shield (shieldWaveform s)))
      ∧ ((∀ c : ConvId, s.converters[c].state ≠ .sampling) → shieldWaveform s = none)
      ∧ ∀ (c : ConvId) (j : Job), s.converters[c].state = .sampling → s.converters[c].job = some j →
          (∀ d : ConvId, d < c → s.converters[d].state ≠ .sampling) →
          shieldWaveform s = j.profiles[j.samples.length % j.profiles.length]?

/-- R20 to R23, R45, R47 to R49, R52: the two arbiters. A grant pass takes the contexts in CLAIMING, oldest first; one is
granted when no channel of its set has a holder and no older context waits for one (a context in LISTING waits for all 64),
and takes its whole set. The converter arbiter grants the lowest-numbered free converter: to a promoted watch job first,
then to the oldest context's first ready item or ready trial, then to a watch job; a watch job that cannot have its claim is
skipped, and the round completes when it was the last of its jobs (R130). While no converter is online, ready items and trials
end NO_CONVERTER instead (R19, R94, R111) and every pending watch job is skipped, and none of them is left after the arbiters of
an event. After those in RUNNING or STOPPING, either no converter is free, or no item, no trial and no
watch job waits for one. A watch list of 32 entries (R118) makes at most 32 pending jobs. Items that share a channel start in
list order (R85). That the arbiter then passes over an item that R22's conditions alone make ready (log entry 24), and the
order of the arbiters inside one event (log entry 3), is DEDUCED. -/
def Obligations.ArbiterLeavesNothingGrantable : Prop :=
  let runs (s : State) : Prop := s.engine.state = .running ∨ s.engine.state = .stopping
  (∀ (items : List ItemEntry) (e : ItemEntry), itemReady items e = true ↔ e.job = .notStarted
      ∧ ∀ r ∈ items, r.job = .running → ∀ ch ∈ r.item.channels, ch ∉ e.item.channels)
  ∧ (∀ (items : List ItemEntry) (i : Nat) (e : ItemEntry), itemMayStart items i e = true ↔ itemReady items e = true
      ∧ ∀ (j : Nat) (r : ItemEntry), j < i → items[j]? = some r → r.job = .notStarted →
          ∀ ch ∈ r.item.channels, ch ∉ e.item.channels)
  ∧ (∀ v : Converter, v.free = true ↔ v.state = .idle ∧ v.mark = none)
  ∧ (∀ s : State, s.engine.state = .running ∨ s.engine.state = .stopping → s.watch.pending.length ≤ 32 →
    let t := finish s
    (∀ c : ConvId, t.converters[c].free = false)
      ∨ (t.watch.pending = [] ∧ ∀ (k : CtxId) (c : Context), t.contexts[k] = some c → c.state = .active →
          (∀ b, c.request.body = .measure b → ∀ (i : Nat) (e : ItemEntry), c.items[i]? = some e →
              itemMayStart c.items i e = false)
            ∧ (∀ (b : TrimBody) (q : Search), c.request.body = .trim b → c.search = some q → q.job ≠ .notStarted)))
  ∧ (∀ s : State,
      (¬runs s → grantPass s = s)
        ∧ (runs s → ∃ order : List CtxId, grantPass s = order.foldl tryGrant s ∧ order.Nodup
          ∧ (∀ k : CtxId, k ∈ order ↔ ∃ c, s.contexts[k] = some c ∧ c.state = .claiming)
          ∧ order.Pairwise (fun k l => ∀ c d : Context, s.contexts[k] = some c → s.contexts[l] = some d →
              c.admission ≤ d.admission))
        ∧ (runs s → (∃ v : ConvId, s.converters[v].state.online = true) →
            finish s = testStop (issueRingWrite (issueFetch (orderPosts (arbiterLoop 36 (grantPass s)))))))
  ∧ (∀ (s : State) (k : CtxId) (c : Context), s.contexts[k] = some c →
      let olderWaits : Prop := ∃ (l : CtxId) (o : Context), s.contexts[l] = some o ∧ o.admission < c.admission
        ∧ ((o.state = .listing ∧ c.claimSet ≠ []) ∨ (o.state = .claiming ∧ ∃ ch ∈ o.claimSet, ch ∈ c.claimSet))
      let held (ch : Chan) : Channel :=
        if ch ∈ c.claimSet then { s.channels[ch] with holder := some (.context k) } else s.channels[ch]
      ((c.state ≠ .claiming ∨ (∃ ch ∈ c.claimSet, s.channels[ch].holder ≠ none) ∨ olderWaits) → tryGrant s k = s)
        ∧ (c.state = .claiming → (∀ ch ∈ c.claimSet, s.channels[ch].holder = none) → ¬olderWaits →
            tryGrant s k = grant k c s
              ∧ (∀ b, c.request.body = .measure b → (∀ ch ∈ c.claimSet, s.channels[ch].ready = true) →
                  tryGrant s k = { s with
                      channels := (tryGrant s k).channels
                      contexts := s.contexts.set k (some { c with state := .active }) }
                    ∧ ∀ ch : Chan, (tryGrant s k).channels[ch] = held ch)
              ∧ (∀ ch : Chan, (∃ b, c.request.body = .measure b) ∨ (∃ b, c.request.body = .trim b) → ch ∈ c.claimSet →
                  s.channels[ch].ready = false → c.claimSet.Pairwise (· < ·) →
                  (∀ d ∈ c.claimSet, d < ch → s.channels[d].ready = true) →
                  tryGrant s k = { s with
                      channels := (tryGrant s k).channels
                      contexts := s.contexts.set k (some { c with
                        state := .posting, result := some (.channelOff, .channel ch) }) }
                    ∧ ∀ d : Chan, (tryGrant s k).channels[d] = (held d).releasedBy k)
              ∧ (∀ b, c.request.body = .channelSet b → tryGrant s k = execChannelSet k b (holdClaims k c.claimSet s)
                  ∧ ∀ ch : Chan, (holdClaims k c.claimSet s).channels[ch] = held ch)))
  ∧ (∀ (s : State) (v : ConvId), runs s → s.converters[v].free = true → (∀ d : ConvId, d < v → s.converters[d].free = false) →
      let ready (k : CtxId) (w : Work) : Prop := ∃ c, s.contexts[k] = some c ∧ c.state = .active
        ∧ ((∃ b i e, c.request.body = .measure b ∧ w = .item k i ∧ c.items[i]? = some e
              ∧ itemMayStart c.items i e = true
              ∧ ∀ (j : Nat) (f : ItemEntry), j < i → c.items[j]? = some f → itemMayStart c.items j f = false)
          ∨ (∃ b q, c.request.body = .trim b ∧ w = .trial k ∧ c.search = some q ∧ q.job = .notStarted))
      let oldest (k : CtxId) : Prop := ∀ (c d : Context) (l : CtxId) (w : Work), s.contexts[k] = some c →
        s.contexts[l] = some d → l ≠ k → ready l w → c.admission < d.admission
      (∀ id rest, s.watch.promoted = true → s.watch.pending = id :: rest → arbiterStep s = some (offerWatch v id s))
        ∧ (∀ (k : CtxId) (w : Work), (s.watch.promoted = false ∨ s.watch.pending = []) → ready k w → oldest k →
            arbiterStep s = some (dispatchWork v w s))
        ∧ (∀ id rest, s.watch.promoted = false → s.watch.pending = id :: rest → (∀ k w, ¬ready k w) →
            arbiterStep s = some (offerWatch v id s))
        ∧ (s.watch.pending = [] → (∀ k w, ¬ready k w) → arbiterStep s = none))
  ∧ (∀ s : State, (¬runs s ∨ ∀ v : ConvId, s.converters[v].free = false) → arbiterStep s = none)
  ∧ (∀ (s : State) (k : CtxId) (c : Context), s.contexts[k] = some c → c.state = .active →
      (∀ b, c.request.body = .measure b → ItemsBecome k c b (c.items.map fun e => if itemReady c.items e then
          { e with job := .ended, samples := [], status := some .noConverter } else e) s (contextNoConverter s k))
        ∧ ∀ b q, c.request.body = .trim b → c.search = some q → q.job = .notStarted → SearchFails k c b { q with
            job := .ended
            log := q.log ++ [{ trim := q.trialTrim, status := .noConverter, cls := none, retryUsed := q.retryUsed
                               mean := none }] } .noConverter s (contextNoConverter s k))
  ∧ (∀ s : State, ((∃ v : ConvId, s.converters[v].state.online = true) → noConverterEnds s = s)
      ∧ ((∀ v : ConvId, s.converters[v].state.online = false) →
          (s.watch.pending.Nodup → ∃ order : List CtxId,
              noConverterEnds s = { order.foldl contextNoConverter s with watch := s.watch.allSkipped }
                ∧ order.Nodup ∧ (∀ k : CtxId, k ∈ order ↔ s.contexts[k] ≠ none)
                ∧ order.Pairwise (fun k l => ∀ c d : Context, s.contexts[k] = some c → s.contexts[l] = some d →
                    c.admission ≤ d.admission))
            ∧ (s.watch.pending.Nodup → (finish s).watch = s.watch.allSkipped)
            ∧ (finish s).watch.pending = []
            ∧ ∀ (k : CtxId) (c : Context), (finish s).contexts[k] = some c → c.state = .active →
                (∀ b, c.request.body = .measure b → ∀ e ∈ c.items, itemReady c.items e = false)
                  ∧ ∀ (b : TrimBody) (q : Search), c.request.body = .trim b → c.search = some q → q.job ≠ .notStarted))
  ∧ ∀ (s : State) (v : ConvId) (e : WatchEntry), s.watch.entries.find? (fun x => x.id == e.id) = some e →
      let claimed : Prop := s.channels[e.ch].holder ≠ none
        ∨ ∃ (k : CtxId) (c : Context), s.contexts[k] = some c ∧ c.state = .claiming ∧ e.ch ∈ c.claimSet
      (claimed → offerWatch v e.id s = { s with watch := WatchUnit.roundTested { s.watch with
          pending := s.watch.pending.filter fun x => x != e.id
          entries := s.watch.entries.map fun x => if x.id = e.id then x.countedSkip else x } })
        ∧ (¬claimed → offerWatch v e.id s = dispatchWatch v e s
          ∧ (offerWatch v e.id s).channels[e.ch] = { s.channels[e.ch] with holder := some .watchUnit }
          ∧ (offerWatch v e.id s).watch = { s.watch with
              pending := s.watch.pending.filter fun x => x != e.id
              running := s.watch.running ++
                [{ id := e.id, ch := e.ch, conv := v, round := s.watch.round, discard := false }] }
          ∧ ∃ job, (offerWatch v e.id s).converters[v].job = some job ∧ job.owner = .watch e.id ∧ job.n = e.n
            ∧ job.settle = e.settle ∧ job.ceiling = e.ceiling ∧ job.connection = .electrodes (.single e.ch)
            ∧ job.profiles = (s.hopSets[e.hop]).map fun p => s.profiles[p])

/-- R6, R29, R86, R107: a dispatched item runs on its converter with the request's parameters, the profile values its hop set
names at that moment and the trims of its channels; its entry becomes RUNNING and records the converter. So
does the ready trial of a TRIM, on its one channel. Nothing else changes. That the job record keeps the trims is DEDUCED
(log entry 22). -/
def Obligations.DispatchMakesJob : Prop :=
  (∀ (s : State) (v : ConvId) (k : CtxId) (c : Context) (b : MeasureBody) (i : Nat) (e : ItemEntry),
    s.contexts[k] = some c → c.request.body = .measure b → c.items[i]? = some e → b.hop < 8 →
    let t := dispatchWork v (.item k i) s
    t = { s with
        converters := s.converters.set v { s.converters[v] with
          state := if b.settle = 0 then .sampling else .settling
          job := some
            { owner := .item k i, connection := .electrodes e.item, n := b.n, settle := b.settle, ceiling := b.ceiling
              profiles := (s.hopSets[(Fin.ofNat 8 b.hop : HopIx)]).map fun p => s.profiles[p]
              applied := e.item.channels.map fun ch =>
                { ch := ch, trim := s.channels[ch].trim, comp := s.channels[ch].comp }
              samples := [], cut := false } }
        contexts := s.contexts.set k
          (some { c with items := c.items.set i { e with job := .running, conv := some v } }) })
  ∧ ∀ (s : State) (v : ConvId) (k : CtxId) (c : Context) (b : TrimBody) (q : Search), s.contexts[k] = some c →
    c.request.body = .trim b → c.search = some q → b.hop < 8 →
    let t := dispatchWork v (.trial k) s
    t = { s with
        converters := s.converters.set v { s.converters[v] with
          state := if b.settle = 0 then .sampling else .settling
          job := some
            { owner := .trial k, connection := .electrodes (.single b.chan), n := b.n, settle := b.settle
              ceiling := b.ceiling, profiles := (s.hopSets[(Fin.ofNat 8 b.hop : HopIx)]).map fun p => s.profiles[p]
              applied := [{ ch := b.chan, trim := s.channels[b.chan].trim, comp := s.channels[b.chan].comp }]
              samples := [], cut := false } }
        contexts := s.contexts.set k (some { c with search := some { q with job := .running } }) }

/-! ### Invariants that every step keeps, and rules of the whole machine -/

/-- Every invariant of Safety.lean holds right after a device reset. -/
def Obligations.ResetIsSound : Prop :=
  State.reset.ReportsInRange ∧ State.reset.RingSound ∧ State.reset.ProfilesLegal ∧ State.reset.ConvertersSound
    ∧ State.reset.WatchListSound ∧ State.reset.ContextsSound ∧ State.reset.StopOpen

/-- R170: the report buffer never holds more than eight records, and the lost count never exceeds 65535. -/
def Obligations.ReportsStayInRange : Prop :=
  ∀ s t : State, s.ReportsInRange → step s = .next t → t.ReportsInRange

/-- R165, R166: the write index stays (head + posted-unreleased count) mod size, the count stays within the ring, and the
device writes only to a slot that the host has released. -/
def Obligations.RingStaysSound : Prop :=
  ∀ s t : State, s.RingSound → step s = .next t → t.RingSound

/-- R25, R27, R35: the profiles stay legal, hop set 0 stays [0], no hop set becomes empty or too long, and the Profile
Table changes only in RUNNING or at a device reset. -/
def Obligations.ProfileTableStaysLegal : Prop :=
  (∀ s t : State, s.ProfilesLegal → step s = .next t → t.ProfilesLegal)
    ∧ ∀ (c : Instr) (s t : State), exec c s = .next t → c ≠ .deviceReset → s.engine.state ≠ .running →
        t.profiles = s.profiles ∧ t.hopSets = s.hopSets

/-- R5, R9: every converter record stays as its state gives: no job in OFFLINE, IDLE and HELD, a check with its origin in
CHECKING, and an electrode job in SETTLING, SAMPLING and DISCHARGING. -/
def Obligations.ConvertersStaySound : Prop :=
  ∀ s t : State, s.ConvertersSound → step s = .next t → t.ConvertersSound

/-- R118: the watch list stays ascending with distinct ids, every watched channel stays READY, and the link and the list
agree. R119: the pending jobs stay watch ids of the list, in ascending order. -/
def Obligations.WatchListStaysSound : Prop :=
  ∀ s t : State, s.WatchListSound → step s = .next t → t.WatchListSound

/-- R63, R64, R66, R80: each queue's in-flight count stays the number of its contexts in use, admission numbers stay
distinct, no two contexts of a queue hold one tag, and none is in use in OFF and LOADING. -/
def Obligations.ContextsStaySound : Prop :=
  ∀ s t : State, s.ContextsSound → step s = .next t → t.ContextsSound

/-- R182: a stop ends at the first event after which its four conditions hold, and not before; STOPPED is then set
(R188). -/
def Obligations.StopEndsExactly : Prop :=
  (∀ s t : State, s.StopOpen → step s = .next t → t.StopOpen)
    ∧ ∀ (c : Instr) (s t : State), c.wellFormed = true → c ≠ .clear → c ≠ .deviceReset →
        s.engine.state = .stopping → exec c s = .next t → t.engine.state = .off →
        t.StopConditions ∧ t.interrupt.stickyStopped = true

/-- R183: HALTED is left only through CLEAR or a device reset. In it nothing is fetched, admitted, granted or dispatched,
no check starts, and no ring write and no result write is issued. -/
def Obligations.HaltedStartsNothing : Prop :=
  ∀ (c : Instr) (s t : State), c.wellFormed = true → c ≠ .clear → c ≠ .deviceReset → s.engine.state = .halted →
    exec c s = .next t →
    t.engine.state = .halted
      ∧ (t.fetchRead = s.fetchRead ∨ t.fetchRead = none)
      ∧ (t.ringWrite = s.ringWrite ∨ t.ringWrite = none)
      ∧ t.resultWrites.length ≤ s.resultWrites.length
      ∧ t.setupReads.length ≤ s.setupReads.length
      ∧ t.nextAdmission = s.nextAdmission
      ∧ (∀ k : CtxId, s.contexts[k] = none → t.contexts[k] = none)
      ∧ (∀ (v : ConvId) (j : Job), t.converters[v].job = some j →
          ∃ i, s.converters[v].job = some i ∧ i.owner = j.owner)
      ∧ ∀ (ch : Chan) (h : Holder), t.channels[ch].holder = some h → s.channels[ch].holder = some h

/-- R80, R71: a context in use becomes FREE only when the ring write of its own completion record completes, or at a
CLEAR or a device reset. -/
def Obligations.ContextFreedOnlyByItsRecord : Prop :=
  ∀ (c : Instr) (s t : State) (k : CtxId), c.wellFormed = true → c ≠ .clear → c ≠ .deviceReset →
    exec c s = .next t → s.contexts[k] ≠ none → t.contexts[k] = none →
    c = .completionRingWriteEnd .completes
      ∧ ∃ w, s.ringWrite = some w ∧ w.stale = false ∧ w.source = .context k
end

