-- ==== Sys2Proof/Laws/State.lean ====
section
/-! SUPPORT. One lemma per field per update of the state, true by rfl, and what a read of a table gives after an update
of it. -/

namespace Sys2Proof.Machine

variable (s : State)

/-! ### modConv -/

@[simp] theorem modConv_engine (c : ConvId) (f : Converter → Converter) :
    (s.modConv c f).engine = s.engine := rfl

@[simp] theorem modConv_interrupt (c : ConvId) (f : Converter → Converter) :
    (s.modConv c f).interrupt = s.interrupt := rfl

@[simp] theorem modConv_channels (c : ConvId) (f : Converter → Converter) :
    (s.modConv c f).channels = s.channels := rfl

@[simp] theorem modConv_profiles (c : ConvId) (f : Converter → Converter) :
    (s.modConv c f).profiles = s.profiles := rfl

@[simp] theorem modConv_hopSets (c : ConvId) (f : Converter → Converter) :
    (s.modConv c f).hopSets = s.hopSets := rfl

@[simp] theorem modConv_converters (c : ConvId) (f : Converter → Converter) :
    (s.modConv c f).converters = s.converters.set c (f s.converters[c]) := rfl

@[simp] theorem modConv_faultDischarges (c : ConvId) (f : Converter → Converter) :
    (s.modConv c f).faultDischarges = s.faultDischarges := rfl

@[simp] theorem modConv_clearDischarges (c : ConvId) (f : Converter → Converter) :
    (s.modConv c f).clearDischarges = s.clearDischarges := rfl

@[simp] theorem modConv_contexts (c : ConvId) (f : Converter → Converter) :
    (s.modConv c f).contexts = s.contexts := rfl

@[simp] theorem modConv_nextAdmission (c : ConvId) (f : Converter → Converter) :
    (s.modConv c f).nextAdmission = s.nextAdmission := rfl

@[simp] theorem modConv_queues (c : ConvId) (f : Converter → Converter) :
    (s.modConv c f).queues = s.queues := rfl

@[simp] theorem modConv_lastServed (c : ConvId) (f : Converter → Converter) :
    (s.modConv c f).lastServed = s.lastServed := rfl

@[simp] theorem modConv_setupReads (c : ConvId) (f : Converter → Converter) :
    (s.modConv c f).setupReads = s.setupReads := rfl

@[simp] theorem modConv_fetchRead (c : ConvId) (f : Converter → Converter) :
    (s.modConv c f).fetchRead = s.fetchRead := rfl

@[simp] theorem modConv_listReads (c : ConvId) (f : Converter → Converter) :
    (s.modConv c f).listReads = s.listReads := rfl

@[simp] theorem modConv_resultWrites (c : ConvId) (f : Converter → Converter) :
    (s.modConv c f).resultWrites = s.resultWrites := rfl

@[simp] theorem modConv_ring (c : ConvId) (f : Converter → Converter) :
    (s.modConv c f).ring = s.ring := rfl

@[simp] theorem modConv_ringWrite (c : ConvId) (f : Converter → Converter) :
    (s.modConv c f).ringWrite = s.ringWrite := rfl

@[simp] theorem modConv_reports (c : ConvId) (f : Converter → Converter) :
    (s.modConv c f).reports = s.reports := rfl

@[simp] theorem modConv_lost (c : ConvId) (f : Converter → Converter) :
    (s.modConv c f).lost = s.lost := rfl

@[simp] theorem modConv_posting (c : ConvId) (f : Converter → Converter) :
    (s.modConv c f).posting = s.posting := rfl

@[simp] theorem modConv_watch (c : ConvId) (f : Converter → Converter) :
    (s.modConv c f).watch = s.watch := rfl

@[simp] theorem modConv_pending (c : ConvId) (f : Converter → Converter) :
    (s.modConv c f).pending = s.pending := rfl

/-! ### modChan -/

@[simp] theorem modChan_engine (ch : Chan) (f : Channel → Channel) :
    (s.modChan ch f).engine = s.engine := rfl

@[simp] theorem modChan_interrupt (ch : Chan) (f : Channel → Channel) :
    (s.modChan ch f).interrupt = s.interrupt := rfl

@[simp] theorem modChan_channels (ch : Chan) (f : Channel → Channel) :
    (s.modChan ch f).channels = s.channels.set ch (f s.channels[ch]) := rfl

@[simp] theorem modChan_profiles (ch : Chan) (f : Channel → Channel) :
    (s.modChan ch f).profiles = s.profiles := rfl

@[simp] theorem modChan_hopSets (ch : Chan) (f : Channel → Channel) :
    (s.modChan ch f).hopSets = s.hopSets := rfl

@[simp] theorem modChan_converters (ch : Chan) (f : Channel → Channel) :
    (s.modChan ch f).converters = s.converters := rfl

@[simp] theorem modChan_faultDischarges (ch : Chan) (f : Channel → Channel) :
    (s.modChan ch f).faultDischarges = s.faultDischarges := rfl

@[simp] theorem modChan_clearDischarges (ch : Chan) (f : Channel → Channel) :
    (s.modChan ch f).clearDischarges = s.clearDischarges := rfl

@[simp] theorem modChan_contexts (ch : Chan) (f : Channel → Channel) :
    (s.modChan ch f).contexts = s.contexts := rfl

@[simp] theorem modChan_nextAdmission (ch : Chan) (f : Channel → Channel) :
    (s.modChan ch f).nextAdmission = s.nextAdmission := rfl

@[simp] theorem modChan_queues (ch : Chan) (f : Channel → Channel) :
    (s.modChan ch f).queues = s.queues := rfl

@[simp] theorem modChan_lastServed (ch : Chan) (f : Channel → Channel) :
    (s.modChan ch f).lastServed = s.lastServed := rfl

@[simp] theorem modChan_setupReads (ch : Chan) (f : Channel → Channel) :
    (s.modChan ch f).setupReads = s.setupReads := rfl

@[simp] theorem modChan_fetchRead (ch : Chan) (f : Channel → Channel) :
    (s.modChan ch f).fetchRead = s.fetchRead := rfl

@[simp] theorem modChan_listReads (ch : Chan) (f : Channel → Channel) :
    (s.modChan ch f).listReads = s.listReads := rfl

@[simp] theorem modChan_resultWrites (ch : Chan) (f : Channel → Channel) :
    (s.modChan ch f).resultWrites = s.resultWrites := rfl

@[simp] theorem modChan_ring (ch : Chan) (f : Channel → Channel) :
    (s.modChan ch f).ring = s.ring := rfl

@[simp] theorem modChan_ringWrite (ch : Chan) (f : Channel → Channel) :
    (s.modChan ch f).ringWrite = s.ringWrite := rfl

@[simp] theorem modChan_reports (ch : Chan) (f : Channel → Channel) :
    (s.modChan ch f).reports = s.reports := rfl

@[simp] theorem modChan_lost (ch : Chan) (f : Channel → Channel) :
    (s.modChan ch f).lost = s.lost := rfl

@[simp] theorem modChan_posting (ch : Chan) (f : Channel → Channel) :
    (s.modChan ch f).posting = s.posting := rfl

@[simp] theorem modChan_watch (ch : Chan) (f : Channel → Channel) :
    (s.modChan ch f).watch = s.watch := rfl

@[simp] theorem modChan_pending (ch : Chan) (f : Channel → Channel) :
    (s.modChan ch f).pending = s.pending := rfl

/-! ### modQueue -/

@[simp] theorem modQueue_engine (q : QueueId) (f : Queue → Queue) :
    (s.modQueue q f).engine = s.engine := rfl

@[simp] theorem modQueue_interrupt (q : QueueId) (f : Queue → Queue) :
    (s.modQueue q f).interrupt = s.interrupt := rfl

@[simp] theorem modQueue_channels (q : QueueId) (f : Queue → Queue) :
    (s.modQueue q f).channels = s.channels := rfl

@[simp] theorem modQueue_profiles (q : QueueId) (f : Queue → Queue) :
    (s.modQueue q f).profiles = s.profiles := rfl

@[simp] theorem modQueue_hopSets (q : QueueId) (f : Queue → Queue) :
    (s.modQueue q f).hopSets = s.hopSets := rfl

@[simp] theorem modQueue_converters (q : QueueId) (f : Queue → Queue) :
    (s.modQueue q f).converters = s.converters := rfl

@[simp] theorem modQueue_faultDischarges (q : QueueId) (f : Queue → Queue) :
    (s.modQueue q f).faultDischarges = s.faultDischarges := rfl

@[simp] theorem modQueue_clearDischarges (q : QueueId) (f : Queue → Queue) :
    (s.modQueue q f).clearDischarges = s.clearDischarges := rfl

@[simp] theorem modQueue_contexts (q : QueueId) (f : Queue → Queue) :
    (s.modQueue q f).contexts = s.contexts := rfl

@[simp] theorem modQueue_nextAdmission (q : QueueId) (f : Queue → Queue) :
    (s.modQueue q f).nextAdmission = s.nextAdmission := rfl

@[simp] theorem modQueue_queues (q : QueueId) (f : Queue → Queue) :
    (s.modQueue q f).queues = s.queues.set q (f s.queues[q]) := rfl

@[simp] theorem modQueue_lastServed (q : QueueId) (f : Queue → Queue) :
    (s.modQueue q f).lastServed = s.lastServed := rfl

@[simp] theorem modQueue_setupReads (q : QueueId) (f : Queue → Queue) :
    (s.modQueue q f).setupReads = s.setupReads := rfl

@[simp] theorem modQueue_fetchRead (q : QueueId) (f : Queue → Queue) :
    (s.modQueue q f).fetchRead = s.fetchRead := rfl

@[simp] theorem modQueue_listReads (q : QueueId) (f : Queue → Queue) :
    (s.modQueue q f).listReads = s.listReads := rfl

@[simp] theorem modQueue_resultWrites (q : QueueId) (f : Queue → Queue) :
    (s.modQueue q f).resultWrites = s.resultWrites := rfl

@[simp] theorem modQueue_ring (q : QueueId) (f : Queue → Queue) :
    (s.modQueue q f).ring = s.ring := rfl

@[simp] theorem modQueue_ringWrite (q : QueueId) (f : Queue → Queue) :
    (s.modQueue q f).ringWrite = s.ringWrite := rfl

@[simp] theorem modQueue_reports (q : QueueId) (f : Queue → Queue) :
    (s.modQueue q f).reports = s.reports := rfl

@[simp] theorem modQueue_lost (q : QueueId) (f : Queue → Queue) :
    (s.modQueue q f).lost = s.lost := rfl

@[simp] theorem modQueue_posting (q : QueueId) (f : Queue → Queue) :
    (s.modQueue q f).posting = s.posting := rfl

@[simp] theorem modQueue_watch (q : QueueId) (f : Queue → Queue) :
    (s.modQueue q f).watch = s.watch := rfl

@[simp] theorem modQueue_pending (q : QueueId) (f : Queue → Queue) :
    (s.modQueue q f).pending = s.pending := rfl

/-! ### modCtx -/

@[simp] theorem modCtx_engine (k : CtxId) (f : Context → Context) :
    (s.modCtx k f).engine = s.engine := rfl

@[simp] theorem modCtx_interrupt (k : CtxId) (f : Context → Context) :
    (s.modCtx k f).interrupt = s.interrupt := rfl

@[simp] theorem modCtx_channels (k : CtxId) (f : Context → Context) :
    (s.modCtx k f).channels = s.channels := rfl

@[simp] theorem modCtx_profiles (k : CtxId) (f : Context → Context) :
    (s.modCtx k f).profiles = s.profiles := rfl

@[simp] theorem modCtx_hopSets (k : CtxId) (f : Context → Context) :
    (s.modCtx k f).hopSets = s.hopSets := rfl

@[simp] theorem modCtx_converters (k : CtxId) (f : Context → Context) :
    (s.modCtx k f).converters = s.converters := rfl

@[simp] theorem modCtx_faultDischarges (k : CtxId) (f : Context → Context) :
    (s.modCtx k f).faultDischarges = s.faultDischarges := rfl

@[simp] theorem modCtx_clearDischarges (k : CtxId) (f : Context → Context) :
    (s.modCtx k f).clearDischarges = s.clearDischarges := rfl

@[simp] theorem modCtx_contexts (k : CtxId) (f : Context → Context) :
    (s.modCtx k f).contexts = s.contexts.set k (s.contexts[k].map f) := rfl

@[simp] theorem modCtx_nextAdmission (k : CtxId) (f : Context → Context) :
    (s.modCtx k f).nextAdmission = s.nextAdmission := rfl

@[simp] theorem modCtx_queues (k : CtxId) (f : Context → Context) :
    (s.modCtx k f).queues = s.queues := rfl

@[simp] theorem modCtx_lastServed (k : CtxId) (f : Context → Context) :
    (s.modCtx k f).lastServed = s.lastServed := rfl

@[simp] theorem modCtx_setupReads (k : CtxId) (f : Context → Context) :
    (s.modCtx k f).setupReads = s.setupReads := rfl

@[simp] theorem modCtx_fetchRead (k : CtxId) (f : Context → Context) :
    (s.modCtx k f).fetchRead = s.fetchRead := rfl

@[simp] theorem modCtx_listReads (k : CtxId) (f : Context → Context) :
    (s.modCtx k f).listReads = s.listReads := rfl

@[simp] theorem modCtx_resultWrites (k : CtxId) (f : Context → Context) :
    (s.modCtx k f).resultWrites = s.resultWrites := rfl

@[simp] theorem modCtx_ring (k : CtxId) (f : Context → Context) :
    (s.modCtx k f).ring = s.ring := rfl

@[simp] theorem modCtx_ringWrite (k : CtxId) (f : Context → Context) :
    (s.modCtx k f).ringWrite = s.ringWrite := rfl

@[simp] theorem modCtx_reports (k : CtxId) (f : Context → Context) :
    (s.modCtx k f).reports = s.reports := rfl

@[simp] theorem modCtx_lost (k : CtxId) (f : Context → Context) :
    (s.modCtx k f).lost = s.lost := rfl

@[simp] theorem modCtx_posting (k : CtxId) (f : Context → Context) :
    (s.modCtx k f).posting = s.posting := rfl

@[simp] theorem modCtx_watch (k : CtxId) (f : Context → Context) :
    (s.modCtx k f).watch = s.watch := rfl

@[simp] theorem modCtx_pending (k : CtxId) (f : Context → Context) :
    (s.modCtx k f).pending = s.pending := rfl

/-! ### modWatch -/

@[simp] theorem modWatch_engine (f : WatchUnit → WatchUnit) :
    (s.modWatch f).engine = s.engine := rfl

@[simp] theorem modWatch_interrupt (f : WatchUnit → WatchUnit) :
    (s.modWatch f).interrupt = s.interrupt := rfl

@[simp] theorem modWatch_channels (f : WatchUnit → WatchUnit) :
    (s.modWatch f).channels = s.channels := rfl

@[simp] theorem modWatch_profiles (f : WatchUnit → WatchUnit) :
    (s.modWatch f).profiles = s.profiles := rfl

@[simp] theorem modWatch_hopSets (f : WatchUnit → WatchUnit) :
    (s.modWatch f).hopSets = s.hopSets := rfl

@[simp] theorem modWatch_converters (f : WatchUnit → WatchUnit) :
    (s.modWatch f).converters = s.converters := rfl

@[simp] theorem modWatch_faultDischarges (f : WatchUnit → WatchUnit) :
    (s.modWatch f).faultDischarges = s.faultDischarges := rfl

@[simp] theorem modWatch_clearDischarges (f : WatchUnit → WatchUnit) :
    (s.modWatch f).clearDischarges = s.clearDischarges := rfl

@[simp] theorem modWatch_contexts (f : WatchUnit → WatchUnit) :
    (s.modWatch f).contexts = s.contexts := rfl

@[simp] theorem modWatch_nextAdmission (f : WatchUnit → WatchUnit) :
    (s.modWatch f).nextAdmission = s.nextAdmission := rfl

@[simp] theorem modWatch_queues (f : WatchUnit → WatchUnit) :
    (s.modWatch f).queues = s.queues := rfl

@[simp] theorem modWatch_lastServed (f : WatchUnit → WatchUnit) :
    (s.modWatch f).lastServed = s.lastServed := rfl

@[simp] theorem modWatch_setupReads (f : WatchUnit → WatchUnit) :
    (s.modWatch f).setupReads = s.setupReads := rfl

@[simp] theorem modWatch_fetchRead (f : WatchUnit → WatchUnit) :
    (s.modWatch f).fetchRead = s.fetchRead := rfl

@[simp] theorem modWatch_listReads (f : WatchUnit → WatchUnit) :
    (s.modWatch f).listReads = s.listReads := rfl

@[simp] theorem modWatch_resultWrites (f : WatchUnit → WatchUnit) :
    (s.modWatch f).resultWrites = s.resultWrites := rfl

@[simp] theorem modWatch_ring (f : WatchUnit → WatchUnit) :
    (s.modWatch f).ring = s.ring := rfl

@[simp] theorem modWatch_ringWrite (f : WatchUnit → WatchUnit) :
    (s.modWatch f).ringWrite = s.ringWrite := rfl

@[simp] theorem modWatch_reports (f : WatchUnit → WatchUnit) :
    (s.modWatch f).reports = s.reports := rfl

@[simp] theorem modWatch_lost (f : WatchUnit → WatchUnit) :
    (s.modWatch f).lost = s.lost := rfl

@[simp] theorem modWatch_posting (f : WatchUnit → WatchUnit) :
    (s.modWatch f).posting = s.posting := rfl

@[simp] theorem modWatch_watch (f : WatchUnit → WatchUnit) :
    (s.modWatch f).watch = f s.watch := rfl

@[simp] theorem modWatch_pending (f : WatchUnit → WatchUnit) :
    (s.modWatch f).pending = s.pending := rfl

/-! ### modEngine -/

@[simp] theorem modEngine_engine (f : Engine → Engine) :
    (s.modEngine f).engine = f s.engine := rfl

@[simp] theorem modEngine_interrupt (f : Engine → Engine) :
    (s.modEngine f).interrupt = s.interrupt := rfl

@[simp] theorem modEngine_channels (f : Engine → Engine) :
    (s.modEngine f).channels = s.channels := rfl

@[simp] theorem modEngine_profiles (f : Engine → Engine) :
    (s.modEngine f).profiles = s.profiles := rfl

@[simp] theorem modEngine_hopSets (f : Engine → Engine) :
    (s.modEngine f).hopSets = s.hopSets := rfl

@[simp] theorem modEngine_converters (f : Engine → Engine) :
    (s.modEngine f).converters = s.converters := rfl

@[simp] theorem modEngine_faultDischarges (f : Engine → Engine) :
    (s.modEngine f).faultDischarges = s.faultDischarges := rfl

@[simp] theorem modEngine_clearDischarges (f : Engine → Engine) :
    (s.modEngine f).clearDischarges = s.clearDischarges := rfl

@[simp] theorem modEngine_contexts (f : Engine → Engine) :
    (s.modEngine f).contexts = s.contexts := rfl

@[simp] theorem modEngine_nextAdmission (f : Engine → Engine) :
    (s.modEngine f).nextAdmission = s.nextAdmission := rfl

@[simp] theorem modEngine_queues (f : Engine → Engine) :
    (s.modEngine f).queues = s.queues := rfl

@[simp] theorem modEngine_lastServed (f : Engine → Engine) :
    (s.modEngine f).lastServed = s.lastServed := rfl

@[simp] theorem modEngine_setupReads (f : Engine → Engine) :
    (s.modEngine f).setupReads = s.setupReads := rfl

@[simp] theorem modEngine_fetchRead (f : Engine → Engine) :
    (s.modEngine f).fetchRead = s.fetchRead := rfl

@[simp] theorem modEngine_listReads (f : Engine → Engine) :
    (s.modEngine f).listReads = s.listReads := rfl

@[simp] theorem modEngine_resultWrites (f : Engine → Engine) :
    (s.modEngine f).resultWrites = s.resultWrites := rfl

@[simp] theorem modEngine_ring (f : Engine → Engine) :
    (s.modEngine f).ring = s.ring := rfl

@[simp] theorem modEngine_ringWrite (f : Engine → Engine) :
    (s.modEngine f).ringWrite = s.ringWrite := rfl

@[simp] theorem modEngine_reports (f : Engine → Engine) :
    (s.modEngine f).reports = s.reports := rfl

@[simp] theorem modEngine_lost (f : Engine → Engine) :
    (s.modEngine f).lost = s.lost := rfl

@[simp] theorem modEngine_posting (f : Engine → Engine) :
    (s.modEngine f).posting = s.posting := rfl

@[simp] theorem modEngine_watch (f : Engine → Engine) :
    (s.modEngine f).watch = s.watch := rfl

@[simp] theorem modEngine_pending (f : Engine → Engine) :
    (s.modEngine f).pending = s.pending := rfl

/-! ### modInterrupt -/

@[simp] theorem modInterrupt_engine (f : InterruptUnit → InterruptUnit) :
    (s.modInterrupt f).engine = s.engine := rfl

@[simp] theorem modInterrupt_interrupt (f : InterruptUnit → InterruptUnit) :
    (s.modInterrupt f).interrupt = f s.interrupt := rfl

@[simp] theorem modInterrupt_channels (f : InterruptUnit → InterruptUnit) :
    (s.modInterrupt f).channels = s.channels := rfl

@[simp] theorem modInterrupt_profiles (f : InterruptUnit → InterruptUnit) :
    (s.modInterrupt f).profiles = s.profiles := rfl

@[simp] theorem modInterrupt_hopSets (f : InterruptUnit → InterruptUnit) :
    (s.modInterrupt f).hopSets = s.hopSets := rfl

@[simp] theorem modInterrupt_converters (f : InterruptUnit → InterruptUnit) :
    (s.modInterrupt f).converters = s.converters := rfl

@[simp] theorem modInterrupt_faultDischarges (f : InterruptUnit → InterruptUnit) :
    (s.modInterrupt f).faultDischarges = s.faultDischarges := rfl

@[simp] theorem modInterrupt_clearDischarges (f : InterruptUnit → InterruptUnit) :
    (s.modInterrupt f).clearDischarges = s.clearDischarges := rfl

@[simp] theorem modInterrupt_contexts (f : InterruptUnit → InterruptUnit) :
    (s.modInterrupt f).contexts = s.contexts := rfl

@[simp] theorem modInterrupt_nextAdmission (f : InterruptUnit → InterruptUnit) :
    (s.modInterrupt f).nextAdmission = s.nextAdmission := rfl

@[simp] theorem modInterrupt_queues (f : InterruptUnit → InterruptUnit) :
    (s.modInterrupt f).queues = s.queues := rfl

@[simp] theorem modInterrupt_lastServed (f : InterruptUnit → InterruptUnit) :
    (s.modInterrupt f).lastServed = s.lastServed := rfl

@[simp] theorem modInterrupt_setupReads (f : InterruptUnit → InterruptUnit) :
    (s.modInterrupt f).setupReads = s.setupReads := rfl

@[simp] theorem modInterrupt_fetchRead (f : InterruptUnit → InterruptUnit) :
    (s.modInterrupt f).fetchRead = s.fetchRead := rfl

@[simp] theorem modInterrupt_listReads (f : InterruptUnit → InterruptUnit) :
    (s.modInterrupt f).listReads = s.listReads := rfl

@[simp] theorem modInterrupt_resultWrites (f : InterruptUnit → InterruptUnit) :
    (s.modInterrupt f).resultWrites = s.resultWrites := rfl

@[simp] theorem modInterrupt_ring (f : InterruptUnit → InterruptUnit) :
    (s.modInterrupt f).ring = s.ring := rfl

@[simp] theorem modInterrupt_ringWrite (f : InterruptUnit → InterruptUnit) :
    (s.modInterrupt f).ringWrite = s.ringWrite := rfl

@[simp] theorem modInterrupt_reports (f : InterruptUnit → InterruptUnit) :
    (s.modInterrupt f).reports = s.reports := rfl

@[simp] theorem modInterrupt_lost (f : InterruptUnit → InterruptUnit) :
    (s.modInterrupt f).lost = s.lost := rfl

@[simp] theorem modInterrupt_posting (f : InterruptUnit → InterruptUnit) :
    (s.modInterrupt f).posting = s.posting := rfl

@[simp] theorem modInterrupt_watch (f : InterruptUnit → InterruptUnit) :
    (s.modInterrupt f).watch = s.watch := rfl

@[simp] theorem modInterrupt_pending (f : InterruptUnit → InterruptUnit) :
    (s.modInterrupt f).pending = s.pending := rfl

theorem modConv_get (c d : ConvId) (f : Converter → Converter) :
    (s.modConv c f).converters[d] = if d = c then f s.converters[c] else s.converters[d] := by
  simp only [modConv_converters, Fin.getElem_fin, Vector.getElem_set, Fin.ext_iff, eq_comm]

theorem modChan_get (ch d : Chan) (f : Channel → Channel) :
    (s.modChan ch f).channels[d] = if d = ch then f s.channels[ch] else s.channels[d] := by
  simp only [modChan_channels, Fin.getElem_fin, Vector.getElem_set, Fin.ext_iff, eq_comm]

theorem modQueue_get (q d : QueueId) (f : Queue → Queue) :
    (s.modQueue q f).queues[d] = if d = q then f s.queues[q] else s.queues[d] := by
  simp only [modQueue_queues, Fin.getElem_fin, Vector.getElem_set, Fin.ext_iff, eq_comm]

/-- Two changes of one context are one. -/
theorem modCtx_modCtx (k : CtxId) (f g : Context → Context) :
    (s.modCtx k f).modCtx k g = s.modCtx k fun c => g (f c) := by
  simp [State.modCtx, Function.comp_def]

theorem modCtx_get (k d : CtxId) (f : Context → Context) :
    (s.modCtx k f).contexts[d] = if d = k then s.contexts[k].map f else s.contexts[d] := by
  simp only [modCtx_contexts, Fin.getElem_fin, Vector.getElem_set, Fin.ext_iff, eq_comm]

end Sys2Proof.Machine
end

