-- ==== Sys2Proof/Laws/Ops.lean ====
section
/-! SUPPORT. One lemma per shared operation that says what it can do; later proofs cite these and do not unfold the
operation. -/

namespace Sys2Proof.Machine

variable (s : State)

/-! ### raise (R170) -/

/-- A report enters the buffer and the posting order, or is counted lost; nothing else changes. -/
theorem raise_cases (r : Report) :
    (s.reports.length < 8 ∧ raise r s = { s with reports := s.reports ++ [r], posting := s.posting ++ [.report] }) ∨
      (8 ≤ s.reports.length ∧ raise r s = { s with lost := min 65535 (s.lost + 1) }) := by
  unfold raise Config.reportPlaces Config.saturation
  split
  · exact .inl ⟨‹_›, rfl⟩
  · exact .inr ⟨by omega, rfl⟩

/-- raise changes only the report buffer, the posting order and the lost count. -/
theorem raise_same (r : Report) :
    raise r s = { s with
      reports := (raise r s).reports, posting := (raise r s).posting, lost := (raise r s).lost } := by
  rcases raise_cases s r with ⟨_, h⟩ | ⟨_, h⟩ <;> rw [h]

@[simp] theorem raise_engine (r : Report) : (raise r s).engine = s.engine := by rw [raise_same]
@[simp] theorem raise_interrupt (r : Report) : (raise r s).interrupt = s.interrupt := by rw [raise_same]
@[simp] theorem raise_channels (r : Report) : (raise r s).channels = s.channels := by rw [raise_same]
@[simp] theorem raise_profiles (r : Report) : (raise r s).profiles = s.profiles := by rw [raise_same]
@[simp] theorem raise_hopSets (r : Report) : (raise r s).hopSets = s.hopSets := by rw [raise_same]
@[simp] theorem raise_converters (r : Report) : (raise r s).converters = s.converters := by rw [raise_same]
@[simp] theorem raise_faultDischarges (r : Report) : (raise r s).faultDischarges = s.faultDischarges := by
  rw [raise_same]
@[simp] theorem raise_clearDischarges (r : Report) : (raise r s).clearDischarges = s.clearDischarges := by
  rw [raise_same]
@[simp] theorem raise_contexts (r : Report) : (raise r s).contexts = s.contexts := by rw [raise_same]
@[simp] theorem raise_nextAdmission (r : Report) : (raise r s).nextAdmission = s.nextAdmission := by rw [raise_same]
@[simp] theorem raise_queues (r : Report) : (raise r s).queues = s.queues := by rw [raise_same]
@[simp] theorem raise_lastServed (r : Report) : (raise r s).lastServed = s.lastServed := by rw [raise_same]
@[simp] theorem raise_setupReads (r : Report) : (raise r s).setupReads = s.setupReads := by rw [raise_same]
@[simp] theorem raise_fetchRead (r : Report) : (raise r s).fetchRead = s.fetchRead := by rw [raise_same]
@[simp] theorem raise_listReads (r : Report) : (raise r s).listReads = s.listReads := by rw [raise_same]
@[simp] theorem raise_resultWrites (r : Report) : (raise r s).resultWrites = s.resultWrites := by rw [raise_same]
@[simp] theorem raise_ring (r : Report) : (raise r s).ring = s.ring := by rw [raise_same]
@[simp] theorem raise_ringWrite (r : Report) : (raise r s).ringWrite = s.ringWrite := by rw [raise_same]
@[simp] theorem raise_watch (r : Report) : (raise r s).watch = s.watch := by rw [raise_same]
@[simp] theorem raise_pending (r : Report) : (raise r s).pending = s.pending := by rw [raise_same]

/-- R170: raising a report keeps the buffer within eight records and the lost count within 65535. -/
theorem raise_inRange (r : Report) (h : s.ReportsInRange) : (raise r s).ReportsInRange := by
  rcases raise_cases s r with ⟨hl, he⟩ | ⟨_, he⟩ <;> rw [he]
  · exact ⟨by simpa using hl, h.2⟩
  · exact ⟨h.1, Nat.min_le_left _ _⟩

/-! ### The online count and NO_CONVERTER (R18) -/

/-- The online count depends on the converters alone. -/
theorem onlineCount_congr {s t : State} (h : s.converters = t.converters) : onlineCount s = onlineCount t := by
  unfold onlineCount
  rw [h]

/-- R18: NO_CONVERTER is raised exactly when the count has fallen from above zero to zero. -/
theorem raiseIfNoneOnline_cases (before : Nat) :
    (0 < before ∧ onlineCount s = 0 ∧ raiseIfNoneOnline before s = raise .noConverter s) ∨
      ((before = 0 ∨ 0 < onlineCount s) ∧ raiseIfNoneOnline before s = s) := by
  unfold raiseIfNoneOnline
  split
  · exact .inl ⟨‹_ ∧ _›.1, ‹_ ∧ _›.2, rfl⟩
  · exact .inr ⟨by omega, rfl⟩

/-- A converter's new state raises at most the one NO_CONVERTER notice. -/
theorem changeConvState_cases (c : ConvId) (st : ConvState) :
    changeConvState c st s = s.modConv c (fun v => { v with state := st }) ∨
      changeConvState c st s = raise .noConverter (s.modConv c fun v => { v with state := st }) := by
  unfold changeConvState
  rcases raiseIfNoneOnline_cases (s.modConv c fun v => { v with state := st }) (onlineCount s) with ⟨_, _, h⟩ | ⟨_, h⟩
  · exact .inr h
  · exact .inl h

/-! ### Claims (R49, R50, R52) -/

/-- R49: the channels of the set take the context as holder, and no other field changes. -/
theorem holdClaims_get (k : CtxId) (set : List Chan) (ch : Chan) :
    (holdClaims k set s).channels[ch]
      = if ch ∈ set then { s.channels[ch] with holder := some (.context k) } else s.channels[ch] := by
  have hiff : ((set.map Fin.val).contains ch.val = true) ↔ ch ∈ set := by
    simp only [List.contains_eq_mem, List.mem_map, decide_eq_true_eq]
    exact ⟨fun ⟨x, hx, he⟩ => (Fin.ext he) ▸ hx, fun h => ⟨ch, h, rfl⟩⟩
  simp only [holdClaims, Fin.getElem_fin, Vector.getElem_mapIdx]
  by_cases h : ch ∈ set
  · rw [if_pos h, if_pos (hiff.2 h)]
  · rw [if_neg h, if_neg (fun x => h (hiff.1 x))]

/-- R50: a release clears the holder of the context's channels and nothing else. -/
theorem releaseClaims_get (k : CtxId) (ch : Chan) :
    (releaseClaims k s).channels[ch]
      = if s.channels[ch].holder = some (.context k) then { s.channels[ch] with holder := none }
        else s.channels[ch] := by
  simp [releaseClaims]

/-! ### Leaving ACTIVE (R75, R78) -/

/-- R78: a result write is issued unless the engine is HALTED. -/
theorem enterWriting_cases (k : CtxId) (st : Status) (d : Detail) (addr : Addr) (data : List Byte) :
    let s1 := s.modCtx k fun c => { c with state := .writing, result := some (st, d) }
    (s.engine.state = .halted ∧ enterWriting k st d addr data s = s1) ∨
      (s.engine.state ≠ .halted ∧ enterWriting k st d addr data s
        = { s1 with resultWrites :=
              s1.resultWrites ++ [{ owner := k, addr := addr, data := data, abandoned := false }] }) := by
  intro s1
  unfold enterWriting
  split
  · exact .inl ⟨‹_›, rfl⟩
  · exact .inr ⟨‹_›, rfl⟩

end Sys2Proof.Machine
end

