-- ==== Sys2Proof/Laws/Arbiters.lean ====
section
/-! SUPPORT. What the arbiters that follow an event can do: each of their operations, and `finish` as a whole, leaves
alone what `Arbitrated` names. -/

namespace Sys2Proof.Machine

variable {s t u : State}

/-! ### Kept contexts -/

theorem ItemEntry.Kept.refl (e : ItemEntry) : e.Kept e := .inl rfl

theorem ItemEntry.Kept.eq_of_started {e f : ItemEntry} (h : e.Kept f) (hj : e.job ≠ .notStarted) : f = e := by
  rcases h with h | ⟨h, _⟩
  · exact h
  · exact absurd h hj

theorem ItemEntry.Kept.trans {e f g : ItemEntry} (h : e.Kept f) (k : f.Kept g) : e.Kept g := by
  rcases h with rfl | ⟨hj, ⟨v, rfl⟩ | rfl⟩
  · exact k
  · exact .inr ⟨hj, .inl ⟨v, k.eq_of_started (by simp)⟩⟩
  · exact .inr ⟨hj, .inr (k.eq_of_started (by simp))⟩

/-- A descriptor and a retry flag outlast the arbiters. -/
theorem ItemEntry.Kept.same {e f : ItemEntry} (h : e.Kept f) : f.item = e.item ∧ f.retryUsed = e.retryUsed := by
  rcases h with rfl | ⟨_, ⟨v, rfl⟩ | rfl⟩ <;> exact ⟨rfl, rfl⟩

theorem Context.Kept.refl (c : Context) : c.Kept c where
  queue := rfl
  holdsTag := rfl
  admission := rfl
  request := rfl
  claimSet := rfl
  action := rfl
  endCause := rfl
  bytesWritten := rfl
  waiting := fun _ => rfl
  claiming := fun h => h
  busy := fun h _ => ⟨h, rfl, rfl⟩
  items := ⟨rfl, fun _ e h => ⟨e, h, .refl e⟩⟩
  otherItems := fun _ => rfl

/-- An ended entry, and a running one, stay as they are. -/
theorem Context.Kept.startedItem {c d : Context} (h : c.Kept d) {i : Nat} {e : ItemEntry} (he : c.items[i]? = some e)
    (hj : e.job ≠ .notStarted) : d.items[i]? = some e := by
  obtain ⟨f, hf, hk⟩ := h.items.2 i e he
  rwa [hk.eq_of_started hj] at hf

theorem Context.Kept.stillBusy {c d : Context} (h : c.Kept d) (ha : c.state = .active) (hb : c.Busy) : d.Busy := by
  have hs := h.busy ha hb
  unfold Context.Busy at hb ⊢
  rw [h.request]
  split at hb
  · rename_i hx
    obtain ⟨e, he, hj⟩ := hb
    obtain ⟨i, hi⟩ := List.mem_iff_getElem?.1 he
    exact ⟨e, List.mem_of_getElem? (h.startedItem hi (by simp [hj])), hj⟩
  · intro q hq
    exact hb q (hs.2.1 ▸ hq)
  · trivial

theorem Context.Kept.trans {c d e : Context} (h : c.Kept d) (g : d.Kept e) : c.Kept e where
  queue := g.queue.trans h.queue
  holdsTag := g.holdsTag.trans h.holdsTag
  admission := g.admission.trans h.admission
  request := g.request.trans h.request
  claimSet := g.claimSet.trans h.claimSet
  action := g.action.trans h.action
  endCause := g.endCause.trans h.endCause
  bytesWritten := g.bytesWritten.trans h.bytesWritten
  waiting := fun hs => by
    have := h.waiting hs
    subst this
    exact g.waiting hs
  claiming := fun hs => h.claiming (g.claiming hs)
  busy := fun ha hb => by
    have a := h.busy ha hb
    have b := g.busy a.1 (h.stillBusy ha hb)
    exact ⟨b.1, b.2.1.trans a.2.1, b.2.2.trans a.2.2⟩
  items := ⟨g.items.1.trans h.items.1, fun i x hx => by
    obtain ⟨y, hy, hxy⟩ := h.items.2 i x hx
    obtain ⟨z, hz, hyz⟩ := g.items.2 i y hy
    exact ⟨z, hz, hxy.trans hyz⟩⟩
  otherItems := fun hb => (g.otherItems (by rw [h.request]; exact hb)).trans (h.otherItems hb)

/-! ### Arbitrated is a preorder -/

theorem Arbitrated.refl (s : State) : Arbitrated s s where
  engine := rfl
  engineState := .inl rfl
  interrupt := rfl
  stopped := by simp
  profiles := rfl
  hopSets := rfl
  link := fun _ => ⟨rfl, fun _ h => h⟩
  configuration := fun _ _ => ⟨rfl, rfl, rfl⟩
  converter := fun _ => ⟨rfl, rfl, fun _ => rfl⟩
  noGrant := fun _ => ⟨rfl, fun _ _ h => h⟩
  faultDischarges := rfl
  clearDischarges := rfl
  contextFree := fun _ h => h
  contextUsed := fun _ c h => ⟨c, h, .refl c⟩
  nextAdmission := rfl
  queue := fun _ => rfl
  setupReads := rfl
  fetchRead := fun _ => rfl
  notRunning := fun _ => ⟨rfl, rfl, rfl⟩
  listReads := rfl
  resultWrites := List.prefix_rfl
  ring := rfl
  ringWrite := fun _ => rfl
  issued := fun hn w hw => by rw [hn] at hw; cases hw
  halted := fun _ => ⟨rfl, rfl⟩
  reports := rfl
  lost := rfl
  posting := List.prefix_rfl
  watch := ⟨rfl, rfl, rfl⟩
  watchEntries := rfl
  watchPending := .refl _
  pending := rfl

/-- A converter that is not free is unchanged, so it is still not free. -/
theorem Arbitrated.notFree (h : Arbitrated s t) (c : ConvId) (hf : s.converters[c].free = false) :
    t.converters[c].free = false := by
  rw [(h.converter c).2.2 hf]
  exact hf

/-- The arbiters bring no CHANNEL_SET into CLAIMING. -/
theorem Arbitrated.noChannelSetWaits (h : Arbitrated s t) (hn : s.NoChannelSetWaits) : t.NoChannelSetWaits := by
  intro k d hd hs
  cases hk : s.contexts[k] with
  | none => rw [h.contextFree k hk] at hd; cases hd
  | some c =>
    obtain ⟨e, he, hc⟩ := h.contextUsed k c hk
    rw [he] at hd
    cases hd
    rw [hc.request]
    exact hn k c hk (hc.claiming hs)

/-- Only a stop's end changes the engine state. -/
theorem Arbitrated.state_eq (h : Arbitrated s t) (hn : s.engine.state ≠ .stopping) :
    s.engine.state = t.engine.state := by
  rcases h.engineState with he | ⟨he, _⟩
  · exact he.symm
  · exact absurd he hn

theorem Arbitrated.arbitersRun_false (h : Arbitrated s t) (hn : arbitersRun s = false) : arbitersRun t = false := by
  have : s.engine.state ≠ .stopping := by
    intro he
    rw [arbitersRun, he] at hn
    cases hn
  rw [arbitersRun, ← h.state_eq this]
  exact hn

theorem Arbitrated.notRunning_state (h : Arbitrated s t) (hn : s.engine.state ≠ .running) :
    t.engine.state ≠ .running := by
  rcases h.engineState with he | ⟨_, he⟩ <;> rw [he]
  · exact hn
  · simp

theorem Arbitrated.trans (h : Arbitrated s t) (g : Arbitrated t u) : Arbitrated s u where
  engine := by rw [g.engine, h.engine]
  engineState := by
    rcases g.engineState with hg | ⟨h1, h2⟩
    · rw [hg]; exact h.engineState
    · rcases h.engineState with hh | ⟨_, h4⟩
      · exact .inr ⟨hh ▸ h1, h2⟩
      · rw [h4] at h1; cases h1
  interrupt := by rw [g.interrupt, h.interrupt]
  stopped := by
    rw [g.stopped, h.stopped]
    rcases g.engineState with hg | ⟨h1, h2⟩
    · rw [hg]; simp
    · rcases h.engineState with hh | ⟨_, h4⟩
      · rw [hh]; simp
      · rw [h4] at h1; cases h1
  profiles := g.profiles.trans h.profiles
  hopSets := g.hopSets.trans h.hopSets
  link := fun ch =>
    have a := h.link ch
    have b := g.link ch
    ⟨b.1.trans a.1, fun hl hr => b.2 (by rw [a.1]; exact hl) (a.2 hl hr)⟩
  configuration := fun hn ch =>
    have a := h.configuration hn ch
    have b := g.configuration (h.noChannelSetWaits hn) ch
    ⟨b.1.trans a.1, b.2.1.trans a.2.1, b.2.2.trans a.2.2⟩
  converter := fun c =>
    have a := h.converter c
    have b := g.converter c
    ⟨b.1.trans a.1, b.2.1.trans a.2.1, fun hf => (b.2.2 (h.notFree c hf)).trans (a.2.2 hf)⟩
  noGrant := fun hn =>
    have a := h.noGrant hn
    have b := g.noGrant (h.arbitersRun_false hn)
    ⟨b.1.trans a.1, fun ch x hx => a.2 ch x (b.2 ch x hx)⟩
  faultDischarges := g.faultDischarges.trans h.faultDischarges
  clearDischarges := g.clearDischarges.trans h.clearDischarges
  contextFree := fun k hk => g.contextFree k (h.contextFree k hk)
  contextUsed := fun k c hk => by
    obtain ⟨d, hd, hcd⟩ := h.contextUsed k c hk
    obtain ⟨e, he, hde⟩ := g.contextUsed k d hd
    exact ⟨e, he, hcd.trans hde⟩
  nextAdmission := g.nextAdmission.trans h.nextAdmission
  queue := fun q => by rw [g.queue q, h.queue q]
  setupReads := g.setupReads.trans h.setupReads
  fetchRead := fun hs => by
    have := h.fetchRead hs
    rw [g.fetchRead (by rw [this]; exact hs), this]
  notRunning := fun hn =>
    have a := h.notRunning hn
    have b := g.notRunning (h.notRunning_state hn)
    ⟨b.1.trans a.1, b.2.1.trans a.2.1, b.2.2.trans a.2.2⟩
  listReads := g.listReads.trans h.listReads
  resultWrites := h.resultWrites.trans g.resultWrites
  ring := g.ring.trans h.ring
  ringWrite := fun hs => by
    have := h.ringWrite hs
    rw [g.ringWrite (by rw [this]; exact hs), this]
  issued := fun hn w hw => by
    cases ht : t.ringWrite with
    | none =>
      have := g.issued ht w hw
      rwa [h.ring] at this
    | some v =>
      rw [g.ringWrite (by rw [ht]; rfl), ht] at hw
      cases hw
      exact h.issued hn _ ht
  halted := fun hn =>
    have a := h.halted hn
    have b := g.halted (h.state_eq (by rw [hn]; simp) ▸ hn)
    ⟨b.1.trans a.1, b.2.trans a.2⟩
  reports := g.reports.trans h.reports
  lost := g.lost.trans h.lost
  posting := h.posting.trans g.posting
  watch := ⟨g.watch.1.trans h.watch.1, g.watch.2.1.trans h.watch.2.1, g.watch.2.2.trans h.watch.2.2⟩
  watchEntries := g.watchEntries.trans h.watchEntries
  watchPending := g.watchPending.trans h.watchPending
  pending := g.pending.trans h.pending

/-- A fold of operations that each leave these alone leaves them alone. -/
theorem Arbitrated.foldl {α : Type} (f : State → α → State) (hf : ∀ t x, Arbitrated t (f t x)) (l : List α) (s : State) :
    Arbitrated s (l.foldl f s) := by
  induction l generalizing s with
  | nil => exact .refl s
  | cons x xs ih => exact (hf s x).trans (ih (f s x))

/-! ### One lemma per table update -/

/-- A change of channel entries that keeps configuration but for trim and baseline. -/
theorem Arbitrated.ofChannels (v : Vector Channel 64)
    (hc : arbitersRun s = false → ∀ (ch : Chan) (h : Holder), v[ch].holder = some h → s.channels[ch].holder = some h)
    (h : ∀ ch : Chan, v[ch].ready = s.channels[ch].ready ∧ v[ch].park = s.channels[ch].park
      ∧ v[ch].comp = s.channels[ch].comp ∧ v[ch].watchLink = s.channels[ch].watchLink) :
    Arbitrated s { s with channels := v } :=
  { Arbitrated.refl s with
    link := fun ch => ⟨(h ch).2.2.2, fun _ hr => (h ch).1.trans hr⟩
    configuration := fun _ ch => ⟨(h ch).1, (h ch).2.1, (h ch).2.2.1⟩
    noGrant := fun hn => ⟨rfl, hc hn⟩ }

theorem Arbitrated.ofModChan (ch : Chan) (f : Channel → Channel)
    (hc : arbitersRun s = true ∨ ∀ e, (f e).holder = e.holder)
    (h : ∀ e, (f e).ready = e.ready ∧ (f e).park = e.park ∧ (f e).comp = e.comp ∧ (f e).watchLink = e.watchLink) :
    Arbitrated s (s.modChan ch f) := by
  have hg : ∀ d : Chan, (s.channels.set ch (f s.channels[ch]))[d] = if d = ch then f s.channels[ch] else s.channels[d] :=
    fun d => modChan_get s ch d f
  refine Arbitrated.ofChannels _ (fun hn d x hx => ?_) fun d => ?_
  · rcases hc with hc | hc
    · rw [hc] at hn; cases hn
    · rw [hg] at hx
      split at hx
      · subst d; rwa [hc] at hx
      · exact hx
  · rw [hg]
    split
    · subst d; exact h _
    · exact ⟨rfl, rfl, rfl, rfl⟩

theorem Arbitrated.ofModCtx (k : CtxId) (f : Context → Context) (h : ∀ c, s.contexts[k] = some c → c.Kept (f c)) :
    Arbitrated s (s.modCtx k f) := by
  refine { Arbitrated.refl s with contextFree := fun l hl => ?_, contextUsed := fun l c hl => ?_ }
  · rw [modCtx_get]
    split
    · subst l; rw [hl]; rfl
    · exact hl
  · rw [modCtx_get]
    split
    · subst l; rw [hl]; exact ⟨f c, rfl, h c hl⟩
    · exact ⟨c, hl, .refl c⟩

theorem Arbitrated.ofModWatch (f : WatchUnit → WatchUnit)
    (h : (f s.watch).period = s.watch.period ∧ (f s.watch).timer = s.watch.timer ∧ (f s.watch).round = s.watch.round)
    (g : (f s.watch).entries.map (fun e => { e with skipped := 0 })
      = s.watch.entries.map (fun e => { e with skipped := 0 }))
    (p : (f s.watch).pending.Sublist s.watch.pending) : Arbitrated s (s.modWatch f) :=
  { Arbitrated.refl s with watch := h, watchEntries := g, watchPending := p }

theorem Arbitrated.ofModConv (c : ConvId) (f : Converter → Converter) (hf : s.converters[c].free = true)
    (hr : arbitersRun s = true) (h : ∀ v, (f v).mark = v.mark ∧ (f v).origin = v.origin) : Arbitrated s (s.modConv c f) := by
  refine { Arbitrated.refl s with converter := fun d => ?_, noGrant := fun hn => by rw [hr] at hn; cases hn }
  rw [modConv_get]
  split
  · subst d
    exact ⟨(h _).1, (h _).2, fun hn => by rw [hf] at hn; cases hn⟩
  · exact ⟨rfl, rfl, fun _ => rfl⟩

/-! ### The shared operations -/

theorem releaseClaims_arbitrated (k : CtxId) (s : State) : Arbitrated s (releaseClaims k s) := by
  have hg := releaseClaims_get s k
  simp only [releaseClaims] at hg
  refine Arbitrated.ofChannels _ (fun _ ch x hx => ?_) fun ch => ?_
  · rw [hg] at hx
    split at hx
    · cases hx
    · exact hx
  · rw [hg]
    split <;> exact ⟨rfl, rfl, rfl, rfl⟩

theorem holdClaims_arbitrated (k : CtxId) (set : List Chan) (hr : arbitersRun s = true) :
    Arbitrated s (holdClaims k set s) := by
  have hg := holdClaims_get s k set
  simp only [holdClaims] at hg
  refine Arbitrated.ofChannels _ (fun hn => by rw [hr] at hn; cases hn) fun ch => ?_
  rw [hg]
  split <;> exact ⟨rfl, rfl, rfl, rfl⟩

/-- A context in use whose items or search may still change: CLAIMING or ACTIVE. -/
def inWork (s : State) (k : CtxId) : Prop :=
  ∀ c, s.contexts[k] = some c → c.state = .claiming ∨ c.state = .active

/-- A context in use that an arbiter may move on: CLAIMING, or ACTIVE with nothing that runs. -/
def mayLeave (s : State) (k : CtxId) : Prop :=
  ∀ c, s.contexts[k] = some c → c.state = .claiming ∨ (c.state = .active ∧ ¬c.Busy)

theorem inWork_congr {k : CtxId} (h : t.contexts[k] = s.contexts[k]) (hw : inWork s k) : inWork t k := by
  intro c hc
  exact hw c (h ▸ hc)

theorem mayLeave_congr {k : CtxId} (h : t.contexts[k] = s.contexts[k]) (hw : mayLeave s k) : mayLeave t k := by
  intro c hc
  exact hw c (h ▸ hc)

theorem mayLeave_claiming {k : CtxId} {c : Context} (hk : s.contexts[k] = some c) (hs : c.state = .claiming) :
    mayLeave s k := by
  intro d hd
  rw [hk] at hd
  cases hd
  exact .inl hs

/-- A change of state, search and result of a context that may leave. -/
theorem Context.Kept.ofLeaving {c : Context} (hc : c.state = .claiming ∨ (c.state = .active ∧ ¬c.Busy)) (st : CtxState)
    (hs : st = .claiming → c.state = .claiming) (q : Option Search) (r : Option (Status × Detail)) :
    c.Kept { c with state := st, search := q, result := r } where
  queue := rfl
  holdsTag := rfl
  admission := rfl
  request := rfl
  claimSet := rfl
  action := rfl
  endCause := rfl
  bytesWritten := rfl
  waiting := fun h => by rcases hc with h1 | ⟨h1, _⟩ <;> rw [h1] at h <;> simp at h
  claiming := hs
  busy := fun h hb => by
    rcases hc with h1 | ⟨_, h1⟩
    · rw [h1] at h; cases h
    · exact absurd hb h1
  items := ⟨rfl, fun _ e h => ⟨e, h, .refl e⟩⟩
  otherItems := fun _ => rfl

theorem completeContext_arbitrated (k : CtxId) (st : Status) (d : Detail) (hw : mayLeave s k) :
    Arbitrated s (completeContext k st d s) :=
  Arbitrated.ofModCtx k _ fun c hc => .ofLeaving (hw c hc) .posting (fun h => by cases h) c.search _

theorem enterWriting_arbitrated (k : CtxId) (st : Status) (d : Detail) (addr : Addr) (data : List Byte)
    (hw : mayLeave s k) : Arbitrated s (enterWriting k st d addr data s) := by
  have h1 : Arbitrated s (s.modCtx k fun c => { c with state := .writing, result := some (st, d) }) :=
    Arbitrated.ofModCtx k _ fun c hc => .ofLeaving (hw c hc) .writing (fun h => by cases h) c.search _
  rcases enterWriting_cases s k st d addr data with ⟨_, he⟩ | ⟨_, he⟩
  · rw [he]; exact h1
  · rw [he]
    rename_i hh
    refine h1.trans { Arbitrated.refl _ with resultWrites := List.prefix_append _ _, halted := fun h => ?_ }
    exact absurd h hh

theorem completeEarly_arbitrated (k : CtxId) (e : EndCause × CtxState) (hw : mayLeave s k) :
    Arbitrated s (completeEarly k e s) := completeContext_arbitrated k _ _ hw

theorem modItems_arbitrated (k : CtxId) (f : Context → List ItemEntry) (hw : inWork s k)
    (hb : ∀ c, s.contexts[k] = some c → ∃ b, c.request.body = .measure b)
    (he : ∀ c, s.contexts[k] = some c → (f c).length = c.items.length
      ∧ ∀ (i : Nat) (e : ItemEntry), c.items[i]? = some e → ∃ x, (f c)[i]? = some x ∧ e.Kept x) :
    Arbitrated s (s.modCtx k fun c => { c with items := f c }) := by
  apply Arbitrated.ofModCtx
  intro c hc
  refine { Context.Kept.refl c with waiting := fun h => ?_, items := he c hc, otherItems := fun h => ?_ }
  · rcases hw c hc with h1 | h1 <;> rw [h1] at h <;> simp at h
  · obtain ⟨b, hb⟩ := hb c hc
    exact absurd hb (h b)

theorem modSearch_arbitrated (k : CtxId) (q : Option Search) (hw : mayLeave s k) :
    Arbitrated s (s.modCtx k fun c => { c with search := q }) :=
  Arbitrated.ofModCtx k _ fun c hc => .ofLeaving (hw c hc) c.state (fun h => h) q c.result

theorem modCtx_inWork (k : CtxId) (f : Context → Context) (hf : ∀ c, (f c).state = c.state) (hw : inWork s k) :
    inWork (s.modCtx k f) k := by
  intro c hc
  rw [modCtx_get, if_pos rfl] at hc
  cases hk : s.contexts[k] with
  | none => rw [hk] at hc; cases hc
  | some d =>
    rw [hk] at hc
    cases hc
    rw [hf]
    exact hw d hk

/-! ### MEASURE and TRIM ends -/

theorem measureWorkEnd_arbitrated (k : CtxId) (hw : inWork s k) : Arbitrated s (measureWorkEnd k s) := by
  unfold measureWorkEnd
  split
  · exact .refl s
  · rename_i c hc
    split
    · rename_i b hb
      split
      · rename_i ha
        have hm : mayLeave s k := by
          intro d hd
          rw [hc] at hd
          cases hd
          refine (hw c hc).imp_right fun h => ⟨h, ?_⟩
          simp only [Context.Busy, hb, not_exists, not_and]
          intro e he
          have := List.all_eq_true.1 ha e he
          simp_all
        split
        · exact (releaseClaims_arbitrated k s).trans (completeEarly_arbitrated k _ (mayLeave_congr rfl hm))
        · exact (releaseClaims_arbitrated k s).trans (enterWriting_arbitrated k _ _ _ _ (mayLeave_congr rfl hm))
      · exact .refl s
    · exact .refl s

theorem measureNoConverter_arbitrated (k : CtxId) (hw : inWork s k)
    (hb : ∀ c, s.contexts[k] = some c → ∃ b, c.request.body = .measure b) : Arbitrated s (measureNoConverter k s) := by
  refine (modItems_arbitrated k (fun c => c.items.map fun e => if itemReady c.items e then e.endNoConverter else e) hw hb
    fun c _ => ⟨by simp, fun i e he => ?_⟩).trans (measureWorkEnd_arbitrated k (modCtx_inWork k _ (fun _ => rfl) hw))
  simp only [List.getElem?_map, he, Option.map_some, Option.some.injEq, exists_eq_left']
  split
  · rename_i hr
    simp only [itemReady, Bool.and_eq_true, beq_iff_eq] at hr
    exact .inr ⟨hr.1, .inr rfl⟩
  · exact .refl e

theorem trimParts_some {k : CtxId} {c : Context} {b : TrimBody} {q : Search} (h : trimParts s k = some (c, b, q)) :
    s.contexts[k] = some c ∧ c.request.body = .trim b ∧ c.search = some q := by
  unfold trimParts at h
  split at h
  · split at h
    · cases h
      exact ⟨‹_›, ‹_›, ‹_›⟩
    · cases h
  · cases h

theorem settleTrim_arbitrated (st : Status) (ch : Chan) (q : Search) (mean : Option Nat) (s : State) :
    Arbitrated s (settleTrim st ch q mean s) := by
  unfold settleTrim restoreTrim
  split <;> exact Arbitrated.ofModChan _ _ (.inr fun _ => rfl) fun _ => ⟨rfl, rfl, rfl, rfl⟩

theorem settleTrim_contexts (st : Status) (ch : Chan) (q : Search) (mean : Option Nat) (s : State) :
    (settleTrim st ch q mean s).contexts = s.contexts := by
  unfold settleTrim restoreTrim
  split <;> rfl

theorem endSearch_arbitrated (k : CtxId) (c : Context) (b : TrimBody) (q : Search) (st : Status) (mean : Option Nat)
    (hk : s.contexts[k] = some c) (hb : c.request.body = .trim b) (hq : q.job ≠ .running) (hw : mayLeave s k) :
    Arbitrated s (endSearch k c b q st mean s) := by
  unfold endSearch
  refine ((modSearch_arbitrated k (some q) hw).trans (settleTrim_arbitrated st _ q mean _)).trans
    ((releaseClaims_arbitrated k _).trans (enterWriting_arbitrated k _ _ _ _ ?_))
  refine mayLeave_congr (s := s.modCtx k fun c => { c with search := some q }) ?_ ?_
  · show (settleTrim st b.chan q mean _).contexts[k] = _
    rw [settleTrim_contexts]
  · intro d hd
    rw [modCtx_get, if_pos rfl, hk] at hd
    cases hd
    refine (hw c hk).imp_right fun h => ⟨h.1, ?_⟩
    simp only [Context.Busy, hb]
    exact fun h => hq (h q rfl)

theorem trialNoConverter_arbitrated (k : CtxId) (hw : inWork s k) : Arbitrated s (trialNoConverter k s) := by
  unfold trialNoConverter
  split
  · exact .refl s
  · rename_i c b q hp
    split
    · rename_i hj
      obtain ⟨hk, hb, hq⟩ := trimParts_some hp
      refine endSearch_arbitrated k c b _ _ _ hk hb (by simp [Search.logged]) fun d hd => ?_
      rw [hk] at hd
      cases hd
      refine (hw c hk).imp_right fun h => ⟨h, ?_⟩
      simp only [Context.Busy, hb]
      intro h
      rw [h q hq] at hj
      cases hj
    · exact .refl s

/-! ### NO_CONVERTER (R19) -/

theorem contextNoConverter_arbitrated (s : State) (k : CtxId) : Arbitrated s (contextNoConverter s k) := by
  unfold contextNoConverter
  split
  · exact .refl s
  · rename_i c hc
    have hw : c.state = .active → inWork s k := by
      intro ha d hd
      rw [hc] at hd
      cases hd
      exact .inr ha
    split
    · refine measureNoConverter_arbitrated k (hw ‹_›) fun d hd => ?_
      rw [hc] at hd
      cases hd
      exact ⟨_, ‹_›⟩
    · exact trialNoConverter_arbitrated k (hw ‹_›)
    · exact .refl s

theorem completeRound_same (w : WatchUnit) :
    w.completeRound = { w with
      inProgress := w.completeRound.inProgress, promoted := w.completeRound.promoted,
      overrun := w.completeRound.overrun } := by
  unfold WatchUnit.completeRound
  split <;> rfl

/-- R130: the round test of the model is the one Safety.lean states. -/
theorem completeRound_eq (w : WatchUnit) : w.completeRound = w.roundTested := by
  rcases w with ⟨entries, period, timer, round, inProgress, pending, promoted, running, overrun⟩
  unfold WatchUnit.completeRound WatchUnit.roundTested
  cases inProgress <;> cases pending <;> cases running <;> simp

theorem completeRound_arbitrated (f : WatchUnit → WatchUnit)
    (h : (f s.watch).period = s.watch.period ∧ (f s.watch).timer = s.watch.timer ∧ (f s.watch).round = s.watch.round)
    (g : (f s.watch).entries.map (fun e => { e with skipped := 0 })
      = s.watch.entries.map (fun e => { e with skipped := 0 }))
    (p : (f s.watch).pending.Sublist s.watch.pending) :
    Arbitrated s (s.modWatch fun w => WatchUnit.completeRound (f w)) := by
  apply Arbitrated.ofModWatch
  · rw [completeRound_same]; exact h
  · rw [completeRound_same]; exact g
  · rw [completeRound_same]; exact p

theorem skipPending_arbitrated (id : WatchId) (s : State) : Arbitrated s (skipPending id s) := by
  have h1 : Arbitrated s (modEntry id WatchEntry.skip s) := by
    unfold modEntry
    refine Arbitrated.ofModWatch _ ⟨rfl, rfl, rfl⟩ ?_ (.refl _)
    simp only [List.map_map]
    apply List.map_congr_left
    intro e _
    simp only [Function.comp]
    split <;> rfl
  refine h1.trans ?_
  unfold skipPending
  exact completeRound_arbitrated _ ⟨rfl, rfl, rfl⟩ rfl List.filter_sublist

theorem skipAllPending_arbitrated (s : State) : Arbitrated s (skipAllPending s) :=
  Arbitrated.foldl _ (fun t id => skipPending_arbitrated id t) _ s

theorem noConverterEnds_arbitrated (s : State) : Arbitrated s (noConverterEnds s) := by
  unfold noConverterEnds
  split
  · exact (Arbitrated.foldl _ contextNoConverter_arbitrated _ s).trans (skipAllPending_arbitrated _)
  · exact .refl s

/-! ### Grants (R47 to R49, R55) -/

/-- R49, R105: a context in CLAIMING becomes ACTIVE. -/
theorem activate_arbitrated (k : CtxId) (c : Context) (hw : mayLeave s k) : Arbitrated s (activate k c s) := by
  unfold activate
  split
  · rename_i b _
    have h1 : Arbitrated s (s.modCtx k fun c =>
        { c with state := .active, search := some (Search.atGrant s.channels[b.chan]).readied }) :=
      Arbitrated.ofModCtx k _ fun c hc => .ofLeaving (hw c hc) .active (fun h => by cases h) _ c.result
    have h2 : beginTrial k b.chan (Search.atGrant s.channels[b.chan]) (s.modCtx k fun c => { c with state := .active })
        = (s.modCtx k fun c =>
            { c with state := .active, search := some (Search.atGrant s.channels[b.chan]).readied }).modChan b.chan
          fun e => { e with trim := (Search.atGrant s.channels[b.chan]).readied.trialTrim } := by
      unfold beginTrial
      rw [modCtx_modCtx]
    simp only [h2]
    exact h1.trans (Arbitrated.ofModChan _ _ (.inr fun _ => rfl) fun _ => ⟨rfl, rfl, rfl, rfl⟩)
  · exact Arbitrated.ofModCtx k _ fun c hc => .ofLeaving (hw c hc) .active (fun h => by cases h) c.search c.result

/-- R55: a granted CHANNEL_SET never turns a watched channel OFF. -/
theorem channelSet_arbitrated (k : CtxId) (c : Context) (b : ChannelSetBody) (hk : s.contexts[k] = some c)
    (hs : c.state = .claiming) (hb : c.request.body = .channelSet b) : Arbitrated s (execChannelSet k b s) := by
  have hw := mayLeave_claiming hk hs
  unfold execChannelSet
  simp only
  split
  · exact (releaseClaims_arbitrated k s).trans (completeContext_arbitrated k _ _ (mayLeave_congr rfl hw))
  · rename_i hr
    have h1 : Arbitrated s (s.modChan (Fin.ofNat 64 b.channel) b.apply) := by
      refine { Arbitrated.refl s with link := fun ch => ?_, configuration := fun hn => ?_, noGrant := fun _ => ⟨rfl, fun ch x hx => ?_⟩ }
      · rw [modChan_get]
        split
        · subst ch
          refine ⟨rfl, fun hl hy => ?_⟩
          simp only [ChannelSetBody.refusedBy, hl, Bool.and_true, Bool.and_eq_true, not_and] at hr
          simp only [ChannelSetBody.apply]
          split
          · simpa using hr ‹_›
          · exact hy
        · exact ⟨rfl, fun _ h => h⟩
      · have := hn k c hk hs
        rw [hb] at this
        cases this
      · rw [modChan_get] at hx
        split at hx
        · subst ch; exact hx
        · exact hx
    exact h1.trans ((releaseClaims_arbitrated k _).trans (completeContext_arbitrated k _ _ (mayLeave_congr rfl hw)))

/-- R49: a grant of a context in CLAIMING. -/
theorem grant_arbitrated (k : CtxId) (c : Context) (hk : s.contexts[k] = some c) (hs : c.state = .claiming)
    (hr : arbitersRun s = true) : Arbitrated s (grant k c s) := by
  have hw := mayLeave_claiming hk hs
  unfold grant
  split
  · exact (holdClaims_arbitrated k _ hr).trans (channelSet_arbitrated k c _ hk hs ‹_›)
  · split
    · exact (holdClaims_arbitrated k _ hr).trans ((releaseClaims_arbitrated k _).trans
        (completeContext_arbitrated k _ _ (mayLeave_congr rfl hw)))
    · exact (holdClaims_arbitrated k _ hr).trans (activate_arbitrated k c (mayLeave_congr rfl hw))

theorem grant_engine (k : CtxId) (c : Context) (s : State) : (grant k c s).engine = s.engine := by
  unfold grant execChannelSet activate
  simp only
  split
  · split <;> rfl
  · split
    · rfl
    · split <;> rfl

theorem tryGrant_engine (s : State) (k : CtxId) : (tryGrant s k).engine = s.engine := by
  unfold tryGrant
  split
  · split
    · exact grant_engine _ _ s
    · rfl
  · rfl

theorem tryGrant_arbitrated (k : CtxId) (hr : arbitersRun s = true) : Arbitrated s (tryGrant s k) := by
  unfold tryGrant
  split
  · split
    · rename_i c hc hg
      simp only [grantable, Bool.and_eq_true, beq_iff_eq] at hg
      exact grant_arbitrated k c hc hg.1.1 hr
    · exact .refl s
  · exact .refl s

theorem tryGrants_arbitrated (l : List CtxId) (hr : arbitersRun s = true) : Arbitrated s (l.foldl tryGrant s) := by
  induction l generalizing s with
  | nil => exact .refl s
  | cons k l ih =>
    refine (tryGrant_arbitrated k hr).trans (ih ?_)
    rw [arbitersRun, tryGrant_engine]
    exact hr

theorem grantPass_arbitrated (s : State) : Arbitrated s (grantPass s) := by
  unfold grantPass
  split
  · exact tryGrants_arbitrated _ ‹_›
  · exact .refl s

theorem settleClaims_arbitrated (n : Nat) (s : State) : Arbitrated s (settleClaims n s) := by
  induction n generalizing s with
  | zero => exact .refl s
  | succ n ih =>
    unfold settleClaims
    have h := (grantPass_arbitrated s).trans (noConverterEnds_arbitrated _)
    simp only
    split
    · exact h.trans (ih _)
    · exact h

/-! ### Dispatch (R20 to R23) -/

theorem connect_arbitrated (c : ConvId) (j : Job) (hf : s.converters[c].free = true) (hr : arbitersRun s = true) :
    Arbitrated s (connect c j s) :=
  Arbitrated.ofModConv c _ hf hr fun _ => ⟨rfl, rfl⟩

/-- R86: dispatching an entry that is NOT_STARTED keeps the table. -/
theorem modify_items (l : List ItemEntry) (i : Nat) (v : ConvId)
    (hi : ∀ e, l[i]? = some e → e.job = .notStarted) :
    (l.modify i fun e => { e with job := .running, conv := some v }).length = l.length
      ∧ ∀ (j : Nat) (e : ItemEntry), l[j]? = some e →
        ∃ f, (l.modify i fun e => { e with job := .running, conv := some v })[j]? = some f ∧ e.Kept f := by
  refine ⟨by simp, fun j e he => ?_⟩
  rw [List.getElem?_modify, he]
  by_cases h : i = j
  · subst h
    exact ⟨_, by simp, .inr ⟨hi e he, .inl ⟨v, rfl⟩⟩⟩
  · exact ⟨e, by simp [h], .refl e⟩

theorem dispatchItem_arbitrated (c : ConvId) (k : CtxId) (i : Nat) (b : MeasureBody) (e : ItemEntry)
    (hf : s.converters[c].free = true) (hr : arbitersRun s = true) (hw : inWork s k)
    (hb : ∀ x, s.contexts[k] = some x → ∃ b, x.request.body = .measure b)
    (hi : ∀ x, s.contexts[k] = some x → ∀ e, x.items[i]? = some e → e.job = .notStarted) :
    Arbitrated s (dispatchItem c k i b e s) :=
  (connect_arbitrated c _ hf hr).trans
    (modItems_arbitrated k _ (inWork_congr rfl hw) hb fun x hx => modify_items x.items i c (hi x hx))

theorem dispatchTrial_arbitrated (c : ConvId) (k : CtxId) (b : TrimBody) (q : Search)
    (hf : s.converters[c].free = true) (hr : arbitersRun s = true) (hw : mayLeave s k) :
    Arbitrated s (dispatchTrial c k b q s) :=
  (connect_arbitrated c _ hf hr).trans (modSearch_arbitrated k _ (mayLeave_congr rfl hw))

theorem dispatchWatch_arbitrated (c : ConvId) (e : WatchEntry) (hf : s.converters[c].free = true)
    (hr : arbitersRun s = true) : Arbitrated s (dispatchWatch c e s) := by
  refine (connect_arbitrated c _ hf hr).trans
    ((Arbitrated.ofModChan e.ch (fun x => { x with holder := some .watchUnit }) (.inl ?_)
        fun _ => ⟨rfl, rfl, rfl, rfl⟩).trans (Arbitrated.ofModWatch _ ⟨rfl, rfl, rfl⟩ rfl List.filter_sublist))
  exact hr

theorem offerWatch_arbitrated (c : ConvId) (id : WatchId) (hf : s.converters[c].free = true)
    (hr : arbitersRun s = true) : Arbitrated s (offerWatch c id s) := by
  unfold offerWatch
  split
  · split
    · exact dispatchWatch_arbitrated c _ hf hr
    · exact skipPending_arbitrated id s
  · exact skipPending_arbitrated id s

/-- R22: a ready item is NOT_STARTED, in an ACTIVE MEASURE. -/
theorem readyWork_item {k l : CtxId} {i : Nat} (h : readyWork s k = some (.item l i)) {x : Context}
    (hx : s.contexts[l] = some x) : x.state = .active ∧ (∃ b, x.request.body = .measure b)
      ∧ ∀ e, x.items[i]? = some e → e.job = .notStarted := by
  unfold readyWork at h
  split at h
  · cases h
  · rename_i c hc
    split at h
    · simp only [Option.map_eq_some_iff] at h
      obtain ⟨j, hj, hw⟩ := h
      cases hw
      rw [hc] at hx
      cases hx
      obtain ⟨hlt, hp, _⟩ := List.findIdx?_eq_some_iff_getElem.1 hj
      refine ⟨‹_›, ⟨_, ‹_›⟩, fun e he => ?_⟩
      rw [List.getElem?_eq_getElem (by simpa using hlt)] at he
      cases he
      simp only [List.getElem_zipIdx, itemMayStart, itemReady, Bool.and_eq_true, beq_iff_eq] at hp
      exact hp.1.1
    · split at h <;> cases h
    · cases h

/-- R22: a ready trial is NOT_STARTED, in an ACTIVE TRIM. -/
theorem readyWork_trial {k l : CtxId} (h : readyWork s k = some (.trial l)) {x : Context}
    (hx : s.contexts[l] = some x) : x.state = .active ∧ ¬x.Busy := by
  unfold readyWork at h
  split at h
  · cases h
  · rename_i c hc
    split at h
    · simp at h
    · rename_i b q ha hb hq
      split at h
      · rename_i hj
        cases h
        rw [hc] at hx
        cases hx
        refine ⟨ha, ?_⟩
        simp only [Context.Busy, hb]
        intro hn
        rw [hn q hq] at hj
        cases hj
      · cases h
    · cases h

theorem dispatchWork_arbitrated (c : ConvId) (w : Work) (hf : s.converters[c].free = true)
    (hr : arbitersRun s = true) (h : firstWork s = some w) : Arbitrated s (dispatchWork c w s) := by
  obtain ⟨k, _, hk⟩ := List.exists_of_findSome?_eq_some h
  unfold dispatchWork
  split
  · split
    · split
      · exact dispatchItem_arbitrated c _ _ _ _ hf hr (fun x hx => .inr (readyWork_item hk hx).1)
          (fun x hx => (readyWork_item hk hx).2.1) fun x hx => (readyWork_item hk hx).2.2
      · exact .refl s
    · exact .refl s
  · split
    · exact dispatchTrial_arbitrated c _ _ _ hf hr fun x hx => .inr (readyWork_trial hk hx)
    · exact .refl s

theorem arbiterStep_arbitrated (h : arbiterStep s = some t) : Arbitrated s t := by
  unfold arbiterStep at h
  split at h
  · rename_i hr
    split at h
    · cases h
    · rename_i c hc
      have hf : s.converters[c].free = true := by
        have := List.find?_some hc
        simpa using this
      split at h
      · cases h; exact offerWatch_arbitrated c _ hf hr
      · split at h
        · cases h; exact dispatchWork_arbitrated c _ hf hr ‹_›
        · split at h
          · cases h; exact offerWatch_arbitrated c _ hf hr
          · cases h
  · cases h

theorem arbiterLoop_arbitrated (n : Nat) (s : State) : Arbitrated s (arbiterLoop n s) := by
  induction n generalizing s with
  | zero => exact .refl s
  | succ n ih =>
    unfold arbiterLoop
    split
    · exact (arbiterStep_arbitrated ‹_›).trans (ih _)
    · exact .refl s

theorem runArbiters_arbitrated (s : State) : Arbitrated s (runArbiters s) :=
  (settleClaims_arbitrated 17 s).trans (arbiterLoop_arbitrated 36 _)

/-! ### Posting order, fetch, ring write, end of a stop -/

theorem orderPosts_arbitrated (s : State) : Arbitrated s (orderPosts s) :=
  { Arbitrated.refl s with posting := List.prefix_append _ _ }

theorem issueFetch_arbitrated (s : State) : Arbitrated s (issueFetch s) := by
  unfold issueFetch
  split
  · rename_i h
    split
    · rename_i q _
      refine { Arbitrated.refl s with fetchRead := ?_, queue := ?_, notRunning := fun hn => absurd h.1 hn }
      · intro d
        dsimp only
        rw [modQueue_get]
        split
        · subst d; rfl
        · rfl
      · intro hs
        rw [h.2] at hs
        cases hs
    · exact .refl s
  · exact .refl s

theorem issueRingWrite_arbitrated (s : State) : Arbitrated s (issueRingWrite s) := by
  unfold issueRingWrite
  split
  · rename_i h
    simp only [mayPost, Bool.and_eq_true] at h
    split
    · exact .refl s
    · split
      · refine { Arbitrated.refl s with
          ringWrite := fun hs => ?_, halted := fun hn => by simp [hn] at h
          issued := fun _ w hw => by
            cases hw
            exact ⟨rfl, h.1.1.1, by simpa using h.1.2⟩ }
        have := h.1.1.2
        rw [Option.isNone_iff_eq_none] at this
        rw [this] at hs
        cases hs
      · exact .refl s
  · exact .refl s

theorem testStop_arbitrated (s : State) : Arbitrated s (testStop s) := by
  unfold testStop
  split
  · rename_i h
    refine { Arbitrated.refl s with engine := rfl, engineState := .inr ⟨h.1, rfl⟩, interrupt := rfl, stopped := ?_ }
    simp [h.1]
  · exact .refl s

/-- What follows the own effects of an event leaves alone all that `Arbitrated` names. -/
theorem finish_arbitrated (s : State) : Arbitrated s (finish s) :=
  (runArbiters_arbitrated s).trans ((orderPosts_arbitrated _).trans ((issueFetch_arbitrated _).trans
    ((issueRingWrite_arbitrated _).trans (testStop_arbitrated _))))

end Sys2Proof.Machine
end

