-- ==== Sys2Proof/Laws/Ends.lean ====
section
/-! SUPPORT. What the end of a request's work does, said once: a MEASURE whose items have all ended, a TRIM ended early,
and an end cause that reaches a context. -/

namespace Sys2Proof.Machine

variable {s : State}

/-! ### Small lemmas -/

theorem modCtx_self {k : CtxId} {c : Context} (hk : s.contexts[k] = some c) (f : Context → Context) :
    (s.modCtx k f).contexts[k] = some (f c) := by rw [modCtx_get, if_pos rfl, hk, Option.map_some]

theorem modCtx_other {k l : CtxId} (h : l ≠ k) (f : Context → Context) :
    (s.modCtx k f).contexts[l] = s.contexts[l] := by rw [modCtx_get, if_neg h]

/-- R50: a release clears the holder of the context's channels. -/
theorem releaseClaims_releasedBy (s : State) (k : CtxId) (ch : Chan) :
    (releaseClaims k s).channels[ch] = s.channels[ch].releasedBy k := by
  rw [releaseClaims_get]
  rfl

theorem notGoodCount_eq (items : List ItemEntry) :
    notGoodCount items = items.countP fun e => decide (e.status ≠ some .good) := by
  unfold notGoodCount
  congr 1
  funext e
  simp [ItemEntry.notGood, bne, Bool.beq_eq_decide_eq]

theorem allEnded_iff (items : List ItemEntry) : allEnded items = true ↔ ∀ e ∈ items, e.job = .ended := by
  simp [allEnded]

/-! ### The end of a MEASURE (R75, R96) -/

/-- R75, R96: the work of a MEASURE whose entries have all ended. -/
theorem measureWorkEnd_ends {k : CtxId} {c : Context} {b : MeasureBody} (hk : s.contexts[k] = some c)
    (hb : c.request.body = .measure b) (ha : allEnded c.items = true) : MeasureEnds k c b s (measureWorkEnd k s) := by
  have hk' : (releaseClaims k s).contexts[k] = some c := hk
  cases hc : c.endCause with
  | none =>
    have he : measureWorkEnd k s = enterWriting k (measureStatus c.items).1 (measureStatus c.items).2
        c.request.resultAddr (measureResult c b) (releaseClaims k s) := by
      simp only [measureWorkEnd, hk, hb, ha, hc, if_true]
    rw [he]
    rcases enterWriting_cases (releaseClaims k s) k (measureStatus c.items).1 (measureStatus c.items).2
      c.request.resultAddr (measureResult c b) with ⟨hh, h⟩ | ⟨hh, h⟩
    all_goals
      rw [h]
      refine ⟨fun _ => ⟨(modCtx_self hk' _).trans ?_, ?_⟩, fun _ _ h => by simp [hc] at h, releaseClaims_releasedBy s k,
        fun l hl => modCtx_other hl _, rfl⟩
      · simp only [measureStatus, notGoodCount_eq]
    · rw [if_pos (show s.engine.state = .halted from hh), List.append_nil]; rfl
    · rw [if_neg (show ¬s.engine.state = .halted from hh)]; rfl
  | some e =>
    obtain ⟨cause, st⟩ := e
    have he : measureWorkEnd k s = completeEarly k (cause, st) (releaseClaims k s) := by
      simp only [measureWorkEnd, hk, hb, ha, hc, if_true]
    rw [he]
    refine ⟨fun h => by simp [hc] at h, fun cause' st' h => ?_, releaseClaims_releasedBy s k,
      fun l hl => modCtx_other hl _, rfl⟩
    cases hc.symm.trans h
    refine ⟨(modCtx_self hk' _).trans ?_, rfl⟩
    cases cause <;> rfl

/-- The work of a MEASURE goes on while an entry has not ended. -/
theorem measureWorkEnd_goesOn {k : CtxId} {c : Context} (hk : s.contexts[k] = some c)
    (ha : allEnded c.items = false) : measureWorkEnd k s = s := by
  simp only [measureWorkEnd, hk, ha]
  split <;> simp

/-- R75, R88, R93, R95: what follows a change of a MEASURE's item table. -/
theorem measureWorkEnd_itemsBecome {k : CtxId} {c : Context} {b : MeasureBody} (hk : s.contexts[k] = some c)
    (hb : c.request.body = .measure b) (f : Context → List ItemEntry) :
    ItemsBecome k c b (f c) s (measureWorkEnd k (s.modCtx k fun x => { x with items := f x })) := by
  have hu : s.modCtx k (fun x => { x with items := f x })
      = { s with contexts := s.contexts.set k (some { c with items := f c }) } := by
    simp only [State.modCtx, hk, Option.map_some]
  have hc := modCtx_self hk fun x => { x with items := f x }
  refine ⟨fun ⟨e, he, hj⟩ => ?_, fun h => ?_⟩
  · rw [measureWorkEnd_goesOn hc (Bool.eq_false_iff.2 fun h => hj ((allEnded_iff _).1 h e he)), hu]
  · rw [← hu]
    exact measureWorkEnd_ends hc hb ((allEnded_iff _).2 h)

/-! ### The early end of a TRIM (R115) -/

/-- R112: the restore of a search and the release of its claims. -/
theorem restore_released (s : State) (k : CtxId) (ch : Chan) (q : Search) :
    RestoredAndReleased k ch q s (releaseClaims k (restoreTrim ch q s)) := by
  refine ⟨(releaseClaims_releasedBy _ k ch).trans ?_, fun d hd => (releaseClaims_releasedBy _ k d).trans ?_⟩
  · rw [restoreTrim, modChan_get, if_pos rfl]
    simp only [Channel.releasedBy]
    split <;> rfl
  · rw [restoreTrim, modChan_get, if_neg hd]

/-- R112, R115: an ended TRIM with no trial job left. -/
theorem trimEarlyEnd_ends {k : CtxId} {c : Context} {b : TrimBody} {q : Search} {cause : EndCause} {st : CtxState}
    (hk : s.contexts[k] = some c) (hb : c.request.body = .trim b) (hq : c.search = some q)
    (he : c.endCause = some (cause, st)) : TrimEndsEarly k c b q cause st s (trimEarlyEnd k s) := by
  have h : trimEarlyEnd k s = completeEarly k (cause, st)
      (releaseClaims k (restoreTrim b.chan q (s.modCtx k fun c => { c with search := some q.ended }))) := by
    simp only [trimEarlyEnd, trimParts, hk, hb, hq, he]
  have hk' : (releaseClaims k (restoreTrim b.chan q (s.modCtx k fun c => { c with search := some q.ended }))).contexts[k]
      = some { c with search := some q.ended } := modCtx_self hk _
  rw [h]
  refine ⟨(modCtx_self hk' _).trans ?_, restore_released _ k b.chan q,
    fun l hl => (modCtx_other hl _).trans (modCtx_other hl _), rfl⟩
  cases cause <;> rfl

/-! ### An end cause reaches a context (R16, R77) -/

theorem worksFor_iff (k : CtxId) (j : Job) : j.ownedBy k = true ↔ j.WorksFor k := by
  unfold Job.ownedBy Job.WorksFor
  cases j.owner <;> simp

theorem cutFor_works {k : CtxId} {v : Converter} {j : Job} (hj : v.job = some j) (hw : j.WorksFor k) :
    v.cutFor k = { v with
      job := some { j with cut := true }
      state := if v.state = .settling ∨ v.state = .sampling then .discharging else v.state } := by
  simp only [Converter.cutFor, hj, (worksFor_iff k j).2 hw, if_true]

theorem cutFor_other {k : CtxId} {v : Converter} (hw : ∀ j, v.job = some j → ¬j.WorksFor k) : v.cutFor k = v := by
  unfold Converter.cutFor
  split
  · rw [if_neg fun h => hw _ ‹_› ((worksFor_iff k _).1 h)]
  · rfl

theorem dischargeCutFor_works {k : CtxId} {d : FaultDischarge} {j : Job} (hj : d.job = some j) (hw : j.WorksFor k) :
    d.cutFor k = { d with job := some { j with cut := true } } := by
  simp only [FaultDischarge.cutFor, hj, Option.map_some, (worksFor_iff k j).2 hw, if_true]

theorem dischargeCutFor_other {k : CtxId} {d : FaultDischarge} (hw : ∀ j, d.job = some j → ¬j.WorksFor k) :
    d.cutFor k = d := by
  obtain ⟨v, x, job⟩ := d
  cases job with
  | none => rfl
  | some j =>
    simp only [FaultDischarge.cutFor, Option.map_some]
    rw [if_neg fun h => hw j rfl ((worksFor_iff k j).1 h)]

theorem cutJobs_conv (k : CtxId) (s : State) (v : ConvId) :
    (cutJobs k s).converters[v] = s.converters[v].cutFor k := by
  simp [cutJobs]

/-- An end cause leaves alone a context that has one, or that writes or posts. -/
theorem setEndCause_spared {k : CtxId} {c : Context} (hk : s.contexts[k] = some c) (cause : EndCause)
    (h : c.endCause.isSome = true ∨ c.state = .writing ∨ c.state = .posting) : setEndCause cause k s = s := by
  rcases h with h | h | h <;> simp only [setEndCause, hk, h, if_true] <;> split <;> rfl

/-- An end cause that changes nothing. -/
theorem EndCauseTaken.ofSpared {k : CtxId} {c : Context} (hk : s.contexts[k] = some c) (cause : EndCause)
    (h : c.endCause.isSome = true ∨ c.state = .writing ∨ c.state = .posting) : EndCauseTaken cause k c s s := by
  have hb : ∀ {P : Prop}, c.endCause = none → c.state = .active → P := fun he ha => by
    rw [he, ha] at h; simp at h
  have hl : ∀ {P : Prop}, c.endCause = none → c.state = .listing → P := fun he ha => by
    rw [he, ha] at h; simp at h
  refine
    { context := ⟨c, hk, ?_⟩
      others := fun _ _ => rfl
      frame := rfl
      spared := fun _ => rfl
      listRead := fun he ha => hl he ha
      otherReads := fun _ => rfl
      cut := fun he hc => hb he hc.1
      cutInFault := fun he hc => hb he hc.1
      mark := fun he ha => hb he ha
      check := fun he ha => hb he ha
      otherConverters := fun _ _ _ => rfl
      otherDischarges := ⟨rfl, fun _ _ h _ => h⟩
      released := fun he ha => hb he ha
      restored := fun he ha => hb he ha
      held := fun _ => rfl }
  unfold Context.EndedBy
  rcases h with h | h | h <;> simp only [h, if_true] <;> split <;> trivial

/-- R77: what is left of an end cause's work on a context that no job works for. -/
theorem EndCauseTaken.ofWaiting {k : CtxId} {c : Context} (he : c.endCause = none) (cause : EndCause)
    (hs : c.state = .listing ∨ c.state = .claiming) {l : List ListRead}
    (hl : l = if c.state = .listing then
        s.listReads.map fun r => if r.owner = k then { r with discarded := true } else r else s.listReads) :
    EndCauseTaken cause k c s { s with
      contexts := s.contexts.set k (some { c with
        endCause := some (cause, c.state), state := .posting, result := some (cause.status, .state c.state) })
      listReads := l } := by
  have hn : ∀ {P : Prop}, c.state = .active → P := fun ha => by rw [ha] at hs; simp at hs
  have hb : ∀ {P : Prop}, c.CutsJobs → P := fun h => hn h.1
  refine
    { context := ⟨_, Vector.getElem_set_self _, ?_⟩
      others := fun m hm => Vector.getElem_set_ne k.isLt m.isLt (by simpa [Fin.ext_iff, eq_comm] using hm)
      frame := rfl
      spared := fun h => ?_
      listRead := fun _ h => by simp [hl, h]
      otherReads := fun h => by simp [hl, h]
      cut := fun _ hc => hb hc
      cutInFault := fun _ hc => hb hc
      mark := fun _ ha => hn ha
      check := fun _ ha => hn ha
      otherConverters := fun _ _ _ => rfl
      otherDischarges := ⟨rfl, fun _ _ h _ => h⟩
      released := fun _ ha => hn ha
      restored := fun _ ha => hn ha
      held := fun _ => rfl }
  · unfold Context.EndedBy
    rcases hs with hs | hs <;> simp only [he, hs, Option.isSome_none, if_false, Bool.false_eq_true] <;> cases cause <;> rfl
  · rcases hs with hs | hs <;> rw [he, hs] at h <;> simp at h

/-- R16, R77: an end cause of an ACTIVE context whose running jobs are cut. -/
theorem EndCauseTaken.ofCut {k : CtxId} {c : Context} (he : c.endCause = none) (ha : c.state = .active)
    (hc : c.CutsJobs) (cause : EndCause) {d : Context} (hd : c.EndedBy cause d) {v : Vector Channel 64}
    (hv : ∀ b, c.request.body = .measure b → (∀ e ∈ c.items, e.job ≠ .running) → ∀ ch : Chan,
      v[ch] = s.channels[ch].releasedBy k) (hbusy : c.Busy → v = s.channels) :
    EndCauseTaken cause k c s { cutJobs k s with
      contexts := s.contexts.set k (some d), channels := v } := by
  have hset : ∀ {P : Prop}, (∃ v a, c.request.body = .converterSet v a) → P := fun ⟨_, _, hb⟩ => by
    have := hc.2; rw [hb] at this; exact this.elim
  have hidle : ∀ {P : Prop} (b : TrimBody) (q : Search), c.request.body = .trim b → c.search = some q →
      q.job ≠ .running → P := fun b q hb hq hj => by
    have := hc.2
    rw [hb] at this
    obtain ⟨q', hq', hj'⟩ := this
    cases hq.symm.trans hq'
    exact absurd hj' hj
  refine
    { context := ⟨d, Vector.getElem_set_self _, hd⟩
      others := fun m hm => Vector.getElem_set_ne k.isLt m.isLt (by simpa [Fin.ext_iff, eq_comm] using hm)
      frame := rfl
      spared := fun h => by rw [he, ha] at h; simp at h
      listRead := fun _ h => by rw [ha] at h; cases h
      otherReads := fun _ => rfl
      cut := fun _ _ v j hj hw => (cutJobs_conv k s v).trans (cutFor_works hj hw)
      cutInFault := fun _ _ i d j hd hj hw => by
        show (s.faultDischarges.map _)[i]? = _
        rw [List.getElem?_map, hd, Option.map_some, dischargeCutFor_works hj hw]
      mark := fun _ _ h => hset h
      check := fun _ _ h => hset h
      otherConverters := fun v _ h => (cutJobs_conv k s v).trans (cutFor_other fun j hj => (h j hj).1)
      otherDischarges := ⟨List.length_map _, fun i d hd hw => by
        show (s.faultDischarges.map _)[i]? = _
        rw [List.getElem?_map, hd, Option.map_some, dischargeCutFor_other hw]⟩
      released := fun _ _ ⟨b, hb⟩ h => hv b hb h
      restored := fun _ _ b q hb hq hj => hidle b q hb hq hj
      held := fun h => ?_ }
  rcases h with h | h
  · exact absurd ha h
  · exact hbusy h

/-- R77: an end cause of an ACTIVE context that no electrode job works for, but of a TRIM at rest. -/
theorem EndCauseTaken.ofDisown {k : CtxId} {c : Context} (he : c.endCause = none) (ha : c.state = .active)
    (hm : ∀ b, c.request.body ≠ .measure b) (ht : ∀ b, c.request.body ≠ .trim b) (cause : EndCause) :
    EndCauseTaken cause k c s { s with
      contexts := s.contexts.set k (some { c with
        endCause := some (cause, .active), state := .posting, result := some (cause.status, .state .active) })
      converters := s.converters.map (Converter.disown k) } := by
  have hget : ∀ v : ConvId, (s.converters.map (Converter.disown k))[v] = s.converters[v].disown k := fun v => by simp
  have hn : ∀ {P : Prop}, c.CutsJobs → P := fun hc => by
    have h := hc.2
    cases hb : c.request.body with
    | measure b => exact absurd hb (hm b)
    | trim b => exact absurd hb (ht b)
    | _ => rw [hb] at h; exact h.elim
  refine
    { context := ⟨_, Vector.getElem_set_self _, ?_⟩
      others := fun m hm => Vector.getElem_set_ne k.isLt m.isLt (by simpa [Fin.ext_iff, eq_comm] using hm)
      frame := rfl
      spared := fun h => by rw [he, ha] at h; simp at h
      listRead := fun _ h => by rw [ha] at h; cases h
      otherReads := fun _ => rfl
      cut := fun _ hc => hn hc
      cutInFault := fun _ hc => hn hc
      mark := fun _ _ _ v m hv hk => ?_
      check := fun _ _ _ v j hj ho => ?_
      otherConverters := fun v h1 h2 => ?_
      otherDischarges := ⟨rfl, fun _ _ h _ => h⟩
      released := fun _ _ ⟨b, hb⟩ => absurd hb (hm b)
      restored := fun _ _ b q hb => absurd hb (ht b)
      held := fun _ => rfl }
  · unfold Context.EndedBy
    simp only [he, ha, Option.isSome_none, if_false, Bool.false_eq_true]
    cases hb : c.request.body with
    | measure b => exact absurd hb (hm b)
    | trim b => exact absurd hb (ht b)
    | _ => cases cause <;> rfl
  · show (s.converters.map (Converter.disown k))[v].mark = none
    rw [hget, Converter.disown, hv]
    simp [hk]
  · show (s.converters.map (Converter.disown k))[v].job = _
    rw [hget, Converter.disown, hj]
    simp [ho]
  · refine (hget v).trans ?_
    generalize s.converters[v] = x at h1 h2
    obtain ⟨st, mark, job, origin⟩ := x
    simp only [Converter.disown]
    congr 1
    · cases mark with
      | none => rfl
      | some m => simpa [Option.filter] using h1 m rfl
    · cases job with
      | none => rfl
      | some j =>
        simp only [Option.map_some]
        rw [if_neg (h2 j rfl).2]

/-- R95: the entries of a MEASURE whose end cause is set. -/
theorem endedBy_measure {c : Context} {b : MeasureBody} (he : c.endCause = none) (ha : c.state = .active)
    (hb : c.request.body = .measure b) (cause : EndCause) :
    let items := c.items.map ItemEntry.endIfNotStarted
    (allEnded items = true ↔ ∀ e ∈ c.items, e.job ≠ .running)
      ∧ (allEnded items = true → c.EndedBy cause { c with
          endCause := some (cause, .active), items := items, state := .posting
          result := some (cause.status, .state .active) })
      ∧ (allEnded items = false → c.EndedBy cause { c with endCause := some (cause, .active), items := items }) := by
  intro items
  have hj : ∀ e : ItemEntry, e.endIfNotStarted.job = .ended ↔ e.job ≠ .running := fun e => by
    unfold ItemEntry.endIfNotStarted
    cases h : e.job <;> simp [h, ItemEntry.endAborted]
  have hall : allEnded items = true ↔ ∀ e ∈ c.items, e.job ≠ .running := by
    rw [allEnded_iff]
    simp only [items, List.mem_map, forall_exists_index, and_imp, forall_apply_eq_imp_iff₂, hj]
  refine ⟨hall, fun h => ?_, fun h => ?_⟩ <;> unfold Context.EndedBy <;>
    simp only [he, ha, hb, Option.isSome_none, if_false, Bool.false_eq_true]
  · refine ⟨fun ⟨e, hm, hr⟩ => absurd hr (hall.1 h e hm), fun _ => ?_⟩
    cases cause <;> rfl
  · refine ⟨fun _ => ?_, fun hn => absurd (hall.2 hn) (by simp [h])⟩
    rw [← ha]
    rfl

/-- R77, R95: an end cause reaches an ACTIVE MEASURE. -/
theorem endActive_measure {k : CtxId} {c : Context} {b : MeasureBody} (hk : s.contexts[k] = some c)
    (he : c.endCause = none) (ha : c.state = .active) (hb : c.request.body = .measure b) (cause : EndCause) :
    EndCauseTaken cause k c s (endActive k c (cause, .active)
      (s.modCtx k fun c => { c with endCause := some (cause, .active) })) := by
  obtain ⟨hall, hposts, hstays⟩ := endedBy_measure he ha hb cause
  have hcut : c.CutsJobs := ⟨ha, by rw [hb]; trivial⟩
  have hbusy : c.Busy ↔ ∃ e ∈ c.items, e.job = .running := by simp only [Context.Busy, hb]
  cases hi : allEnded (c.items.map ItemEntry.endIfNotStarted) with
  | true =>
    have hv : (s.channels.map fun e => if e.holder = some (.context k) then { e with holder := none } else e)
        = (releaseClaims k s).channels := rfl
    have := EndCauseTaken.ofCut (s := s) (k := k) he ha hcut cause (hposts hi) (v := (releaseClaims k s).channels)
      (fun _ _ _ ch => releaseClaims_releasedBy s k ch) fun h => by
        obtain ⟨e, hm, hr⟩ := hbusy.1 h
        exact absurd hr (hall.1 hi e hm)
    simpa [endActive, hb, cutJobs, State.modCtx, hk, measureWorkEnd, hi, completeEarly, completeContext,
      releaseClaims] using this
  | false =>
    have := EndCauseTaken.ofCut (s := s) (k := k) he ha hcut cause (hstays hi) (v := s.channels)
      (fun _ _ h => absurd (hall.2 h) (by simp [hi])) fun _ => rfl
    simpa [endActive, hb, cutJobs, State.modCtx, hk, measureWorkEnd, hi, ha] using this

/-- R115: an end cause of a TRIM whose trial does not run. -/
theorem EndCauseTaken.ofRest {k : CtxId} {c : Context} {b : TrimBody} (he : c.endCause = none) (ha : c.state = .active)
    (hb : c.request.body = .trim b) (hj : ∀ q, c.search = some q → q.job ≠ .running) (cause : EndCause) {d : Context}
    (hd : c.EndedBy cause d) {v : Vector Channel 64}
    (hv : ∀ q, c.search = some q → RestoredAndReleased k b.chan q s { s with channels := v })
    (hn : c.search = none → v = s.channels) :
    EndCauseTaken cause k c s { s with contexts := s.contexts.set k (some d), channels := v } := by
  have hcut : ∀ {P : Prop}, c.CutsJobs → P := fun h => by
    have h := h.2
    rw [hb] at h
    obtain ⟨q, hq, hr⟩ := h
    exact absurd hr (hj q hq)
  have hset : ∀ {P : Prop}, (∃ v a, c.request.body = .converterSet v a) → P := fun ⟨_, _, h⟩ => by
    rw [hb] at h; cases h
  exact
    { context := ⟨d, Vector.getElem_set_self _, hd⟩
      others := fun m hm => Vector.getElem_set_ne k.isLt m.isLt (by simpa [Fin.ext_iff, eq_comm] using hm)
      frame := rfl
      spared := fun h => by rw [he, ha] at h; simp at h
      listRead := fun _ h => by rw [ha] at h; cases h
      otherReads := fun _ => rfl
      cut := fun _ h => hcut h
      cutInFault := fun _ h => hcut h
      mark := fun _ _ h => hset h
      check := fun _ _ h => hset h
      otherConverters := fun _ _ _ => rfl
      otherDischarges := ⟨rfl, fun _ _ h _ => h⟩
      released := fun _ _ ⟨b', h⟩ => by rw [hb] at h; cases h
      restored := fun _ _ b' q hb' hq _ => by cases hb.symm.trans hb'; exact hv q hq
      held := fun h => by
        cases hq : c.search with
        | none => exact hn hq
        | some q =>
          refine h.elim (fun h => absurd ha h) fun h => ?_
          simp only [Context.Busy, hb] at h
          exact absurd (h q hq) (hj q hq) }

/-- R77, R115: an end cause reaches an ACTIVE TRIM. -/
theorem endActive_trim {k : CtxId} {c : Context} {b : TrimBody} (hk : s.contexts[k] = some c)
    (he : c.endCause = none) (ha : c.state = .active) (hb : c.request.body = .trim b) (cause : EndCause) :
    EndCauseTaken cause k c s (endActive k c (cause, .active)
      (s.modCtx k fun c => { c with endCause := some (cause, .active) })) := by
  have hd : ∀ d, (∀ q, c.search = some q → (q.job = .running → d = { c with endCause := some (cause, c.state) })
      ∧ (q.job ≠ .running → d = { c with
        endCause := some (cause, .active), state := .posting, result := some (cause.status, .state .active)
        search := some q.ended })) →
      c.EndedBy cause d := fun d h => by
    unfold Context.EndedBy
    simp only [he, ha, hb, Option.isSome_none, if_false, Bool.false_eq_true]
    intro q hq
    refine ⟨fun hr => by rw [(h q hq).1 hr, ha], fun hr => ?_⟩
    rw [(h q hq).2 hr]
    cases cause <;> rfl
  cases hq : c.search with
  | none =>
    have := EndCauseTaken.ofRest (s := s) (k := k) he ha hb (fun q h => by rw [hq] at h; cases h) cause
      (d := { c with endCause := some (cause, .active) }) (hd _ fun q h => by rw [hq] at h; cases h)
      (v := s.channels) (fun q h => by rw [hq] at h; cases h) fun _ => rfl
    simpa [endActive, hb, hq, State.modCtx, hk] using this
  | some q =>
    by_cases hj : q.job = .running
    · have := EndCauseTaken.ofCut (s := s) (k := k) he ha ⟨ha, by rw [hb]; exact ⟨q, hq, hj⟩⟩ cause
        (d := { c with endCause := some (cause, c.state) }) (hd _ fun q' hq' => by
          cases hq.symm.trans hq'
          exact ⟨fun _ => rfl, fun h => absurd hj h⟩)
        (v := s.channels) (fun b' h => by rw [hb] at h; cases h) fun _ => rfl
      simpa [endActive, hb, hq, hj, cutJobs, State.modCtx, hk, ha] using this
    · have := EndCauseTaken.ofRest (s := s) (k := k) he ha hb (fun q' h => by cases hq.symm.trans h; exact hj) cause
        (hd _ fun q' hq' => by
          cases hq.symm.trans hq'
          exact ⟨fun h => absurd h hj, fun _ => rfl⟩)
        (v := (releaseClaims k (restoreTrim b.chan q s)).channels)
        (fun q' h' => by cases hq.symm.trans h'; exact restore_released s k b.chan q) fun h' => by rw [hq] at h'; cases h'
      simpa [endActive, hb, hq, hj, State.modCtx, hk, trimEarlyEnd, trimParts, completeEarly, completeContext,
        releaseClaims, restoreTrim, State.modChan] using this

/-- R16, R77: all that an end cause does. -/
theorem setEndCause_taken {k : CtxId} {c : Context} (hk : s.contexts[k] = some c) (cause : EndCause) :
    EndCauseTaken cause k c s (setEndCause cause k s) := by
  by_cases hsp : c.endCause.isSome = true ∨ c.state = .writing ∨ c.state = .posting
  · rw [setEndCause_spared hk cause hsp]
    exact .ofSpared hk cause hsp
  simp only [not_or, Bool.not_eq_true, Option.isSome_eq_false_iff, Option.isNone_iff_eq_none] at hsp
  obtain ⟨he, hw, hp⟩ := hsp
  cases hst : c.state with
  | writing => exact absurd hst hw
  | posting => exact absurd hst hp
  | listing =>
    have := EndCauseTaken.ofWaiting (s := s) (k := k) he cause (.inl hst) rfl
    simpa [setEndCause, hk, he, hst, completeEarly, completeContext, discardListReads, State.modCtx] using this
  | claiming =>
    have := EndCauseTaken.ofWaiting (s := s) (k := k) he cause (.inr hst) rfl
    simpa [setEndCause, hk, he, hst, completeEarly, completeContext, State.modCtx] using this
  | active =>
    have hu : setEndCause cause k s
        = endActive k c (cause, .active) (s.modCtx k fun c => { c with endCause := some (cause, .active) }) := by
      simp only [setEndCause, hk, he, hst, Option.isSome_none, if_false, Bool.false_eq_true]
    rw [hu]
    have ho : (∀ b, c.request.body ≠ .measure b) → (∀ b, c.request.body ≠ .trim b) →
        EndCauseTaken cause k c s (endActive k c (cause, .active)
          (s.modCtx k fun c => { c with endCause := some (cause, .active) })) := fun hm ht => by
      have := EndCauseTaken.ofDisown (s := s) (k := k) he hst hm ht cause
      unfold endActive
      split
      · exact absurd ‹_› (hm _)
      · exact absurd ‹_› (ht _)
      · simpa [completeEarly, completeContext, State.modCtx, hk] using this
    cases hb : c.request.body with
    | measure b => exact endActive_measure hk he hst hb cause
    | trim b => exact endActive_trim hk he hst hb cause
    | _ => exact ho (fun b h => by rw [hb] at h; cases h) (fun b h => by rw [hb] at h; cases h)
end Sys2Proof.Machine
end

