-- ==== Sys2Proof/Laws/Faults.lean ====
section
/-! SUPPORT. A converter that faults, or whose check fails, goes OFFLINE, and its pending mark is resolved there; an IDLE
converter becomes HELD. -/

namespace Sys2Proof.Machine

/-- R13, R18: a converter that was online becomes OFFLINE with its notice, and NO_CONVERTER follows when it was the last
one. -/
theorem goesOffline (c : ConvId) (cause : OfflineCause) (mean : Option Nat) (s : State)
    (ho : s.converters[c].state.online = true) :
    let u := changeConvState c .offline (raise (.converterOffline c cause mean) s)
    u.converters = (s.modConv c fun v => { v with state := .offline }).converters ∧ u.contexts = s.contexts
      ∧ u.engine = s.engine ∧ u.watch = s.watch ∧ u.faultDischarges = s.faultDischarges ∧ u.profiles = s.profiles
      ∧ (s.reports.length < 8 → u.reports.take (s.reports.length + 1) = s.reports ++ [.converterOffline c cause mean])
      ∧ (s.reports.length + 2 ≤ 8 → u.reports = s.reports ++ [.converterOffline c cause mean] ++
          (if ∀ d : ConvId, d ≠ c → s.converters[d].state.online = false then [.noConverter] else [])) := by
  intro u
  have hall : ∀ d : ConvId, d ∈ allConverters := by decide
  have hon : 0 < onlineCount (raise (.converterOffline c cause mean) s) := by
    unfold onlineCount
    rw [raise_converters]
    exact List.countP_pos_iff.2 ⟨c, hall c, ho⟩
  have hz : onlineCount ((raise (.converterOffline c cause mean) s).modConv c fun v => { v with state := .offline }) = 0 ↔
      ∀ d : ConvId, d ≠ c → s.converters[d].state.online = false := by
    unfold onlineCount
    rw [List.countP_eq_zero]
    constructor
    · intro h d hd
      have := h d (hall d)
      rw [modConv_get, if_neg hd, raise_converters] at this
      simpa using this
    · intro h d _
      rw [modConv_get]
      split
      · simp [ConvState.online]
      · rename_i hd; rw [raise_converters, h d hd]; simp
  have hu : u = if ∀ d : ConvId, d ≠ c → s.converters[d].state.online = false
      then raise .noConverter ((raise (.converterOffline c cause mean) s).modConv c fun v => { v with state := .offline })
      else (raise (.converterOffline c cause mean) s).modConv c fun v => { v with state := .offline } := by
    simp only [u, changeConvState, raiseIfNoneOnline, hon, hz, true_and]
  rw [hu]
  rcases raise_cases s (.converterOffline c cause mean) with ⟨h1, h⟩ | ⟨h1, h⟩
  · rw [h]
    split
    · rcases raise_cases (State.modConv c (fun v => { v with state := .offline }) { s with
          reports := s.reports ++ [Report.converterOffline c cause mean]
          posting := s.posting ++ [PostRef.report] }) .noConverter with ⟨h2, h'⟩ | ⟨h2, h'⟩ <;> rw [h'] <;>
        refine ⟨rfl, rfl, rfl, rfl, rfl, rfl, ?_, ?_⟩
      · intro _; exact List.take_left' (by simp)
      · intro _; simp [State.modConv]
      · intro _; simp [State.modConv]
      · intro _; simp [State.modConv] at h2; omega
    · refine ⟨rfl, rfl, rfl, rfl, rfl, rfl, ?_, ?_⟩
      · intro _; simp [State.modConv]
      · intro _; simp [State.modConv]
  · rw [h]
    split
    · rcases raise_cases (State.modConv c (fun v => { v with state := .offline })
          { s with lost := min 65535 (s.lost + 1) }) .noConverter with ⟨h2, h'⟩ | ⟨h2, h'⟩ <;> rw [h'] <;>
        refine ⟨rfl, rfl, rfl, rfl, rfl, rfl, ?_, ?_⟩ <;> intro _ <;> omega
    · refine ⟨rfl, rfl, rfl, rfl, rfl, rfl, ?_, ?_⟩ <;> intro _ <;> omega

/-- R18: a hold mark that takes effect on an IDLE converter raises NO_CONVERTER when it was the last one online. -/
theorem becomesHeld (c : ConvId) (s : State) (hi : s.converters[c].state = .idle) (hl : s.reports.length + 1 ≤ 8) :
    (changeConvState c .held s).reports = s.reports ++
      if ∀ d : ConvId, d ≠ c → s.converters[d].state.online = false then [.noConverter] else [] := by
  have hall : ∀ d : ConvId, d ∈ allConverters := by decide
  have hon : 0 < onlineCount s := by
    unfold onlineCount
    exact List.countP_pos_iff.2 ⟨c, hall c, by rw [hi]; rfl⟩
  have hz : onlineCount (s.modConv c fun v => { v with state := .held }) = 0 ↔
      ∀ d : ConvId, d ≠ c → s.converters[d].state.online = false := by
    unfold onlineCount
    rw [List.countP_eq_zero]
    constructor
    · intro h d hd
      have := h d (hall d)
      rw [modConv_get, if_neg hd] at this
      simpa using this
    · intro h d _
      rw [modConv_get]
      split
      · simp [ConvState.online]
      · rename_i hd; rw [h d hd]; simp
  unfold changeConvState raiseIfNoneOnline
  simp only [hon, hz, true_and]
  split
  · rcases raise_cases (s.modConv c fun v => { v with state := .held }) .noConverter with ⟨_, h⟩ | ⟨h, _⟩
    · rw [h]; rfl
    · exact absurd (show 8 ≤ s.reports.length from h) (by omega)
  · exact (List.append_nil _).symm

/-- R10, R13, R151: a pending mark is resolved against OFFLINE. -/
theorem resolveMark_atOffline (c : ConvId) (s : State)
    (hs : s.converters[c] = { state := .offline, mark := s.converters[c].mark, job := none, origin := none }) :
    let u := resolveMark c s
    u.reports = s.reports ∧ u.faultDischarges = s.faultDischarges ∧ u.engine = s.engine ∧ u.watch = s.watch
      ∧ (∀ d, d ≠ c → u.converters[d] = s.converters[d])
      ∧ (s.converters[c].mark = none → u.converters[c] = { state := .offline, mark := none, job := none, origin := none })
      ∧ (∀ m, s.converters[c].mark = some m →
        (m.kind = .hold → u.converters[c] = { state := .held, mark := none, job := none, origin := none }
            ∧ ∀ d : Context, s.contexts[m.owner] = some d → u.contexts[m.owner] = some { d with
              state := .posting, result := some (.success, .converter c .held none none) })
          ∧ (m.kind = .check → s.engine.state ≠ .halted →
            u.converters[c] =
                { state := .checking, mark := none, origin := some .offline
                  job := some
                    { owner := .check (.context m.owner), connection := .reference, n := 4, settle := 6, ceiling := 65535
                      profiles := [s.profiles[(0 : ProfileIx)]], applied := [], samples := [], cut := false } }
              ∧ ∀ d : Context, s.contexts[m.owner] = some d → u.contexts[m.owner] = some { d with
                action := d.action.map fun a => { a with waits := .check } })
          ∧ (m.kind = .check → s.engine.state = .halted → u = s)
          ∧ ∀ k, k ≠ m.owner → u.contexts[k] = s.contexts[k])
      ∧ (s.converters[c].mark = none → u = s) := by
  intro u
  cases hm : s.converters[c].mark with
  | none =>
    have hu : u = s := by simp only [u, resolveMark, hm]
    rw [hu]
    rw [hm] at hs
    exact ⟨rfl, rfl, rfl, rfl, fun _ _ => rfl, fun _ => hs, by simp, fun _ => rfl⟩
  | some m =>
    rw [hm] at hs
    cases hk : m.kind with
    | hold =>
      have hu : u = completeContext m.owner .success (.converter c .held none none)
          ((clearMark c s).modConv c fun v => { v with state := .held }) := by
        simp only [u, resolveMark, hm, hk]
        congr 1
        unfold changeConvState raiseIfNoneOnline
        have : onlineCount ((clearMark c s).modConv c fun v => { v with state := .held }) = onlineCount (clearMark c s) := by
          unfold onlineCount
          congr 1; funext d; simp only [clearMark, modConv_get]
          split
          · subst d; simp [hs, ConvState.online]
          · rfl
        rw [if_neg (by omega)]
      rw [hu]
      refine ⟨rfl, rfl, rfl, rfl, ?_, by simp, ?_, by simp⟩
      · intro d hd
        show ((clearMark c s).modConv c fun v => { v with state := .held }).converters[d] = _
        simp only [clearMark, modConv_get, if_neg hd]
      · intro m' h'; cases h'
        refine ⟨fun _ => ⟨?_, ?_⟩, by simp [hk], by simp [hk], ?_⟩
        · show ((clearMark c s).modConv c fun v => { v with state := .held }).converters[c] = _
          simp only [clearMark, modConv_get, if_pos]; rw [hs]
        · intro d hd; simp only [completeContext, modCtx_get, if_pos]; show Option.map _ s.contexts[m.owner] = _; rw [hd]; rfl
        · intro k hk'; simp only [completeContext, modCtx_get, if_neg hk']; rfl
    | check =>
      by_cases hh : s.engine.state = .halted
      · have hu : u = s := by simp only [u, resolveMark, hm, hk, hh, if_true]
        rw [hu]
        refine ⟨rfl, rfl, rfl, rfl, fun _ _ => rfl, by simp, ?_, by simp⟩
        intro m' h'; cases h'
        exact ⟨by simp [hk], fun _ h => absurd hh h, fun _ _ => rfl, fun _ _ => rfl⟩
      · have hu : u = setWait m.owner .check (startCheck c (.context m.owner) (clearMark c s)) := by
          simp only [u, resolveMark, hm, hk, hh, if_false]
        rw [hu]
        refine ⟨rfl, rfl, rfl, rfl, ?_, by simp, ?_, by simp⟩
        · intro d hd
          show (startCheck c (.context m.owner) (clearMark c s)).converters[d] = _
          simp only [startCheck, clearMark, modConv_get, if_neg hd]
        · intro m' h'; cases h'
          refine ⟨by simp [hk], fun _ _ => ⟨?_, ?_⟩, fun _ h => absurd h hh, ?_⟩
          · show (startCheck c (.context m.owner) (clearMark c s)).converters[c] = _
            simp only [startCheck, clearMark, modConv_get, if_pos]; rw [hs]; rfl
          · intro d hd; simp only [setWait, modCtx_get, if_pos]; show Option.map _ s.contexts[m.owner] = _; rw [hd]; rfl
          · intro k hk'; simp only [setWait, modCtx_get, if_neg hk']; rfl

end Sys2Proof.Machine
end

