-- ==== Sys2Proof/Laws/NoConverter.lean ====
section
/-! SUPPORT. What happens while no converter is online (R19), and what the ends and skips of watch jobs do to the Watch
Unit (R130 to R132): one lemma per shared operation. -/

namespace Sys2Proof.Machine

/-! ### The order of admission (R64) -/

theorem insertBy_perm {α : Type} (key : α → Nat) (x : α) (l : List α) : (insertBy key x l).Perm (x :: l) := by
  induction l with
  | nil => exact .refl _
  | cons y ys ih =>
    unfold insertBy
    split
    · exact .refl _
    · exact (ih.cons y).trans (.swap x y ys)

theorem insertBy_ascends {α : Type} (key : α → Nat) (x : α) (l : List α)
    (h : l.Pairwise fun a b => key a ≤ key b) : (insertBy key x l).Pairwise fun a b => key a ≤ key b := by
  induction l with
  | nil => exact List.pairwise_singleton _ _
  | cons y ys ih =>
    obtain ⟨hy, hs⟩ := List.pairwise_cons.1 h
    unfold insertBy
    split
    · refine List.pairwise_cons.2 ⟨fun a ha => ?_, h⟩
      rcases List.mem_cons.1 ha with rfl | ha
      · assumption
      · exact le_trans ‹_› (hy a ha)
    · refine List.pairwise_cons.2 ⟨fun a ha => ?_, ih hs⟩
      rcases List.mem_cons.1 ((insertBy_perm key x ys).mem_iff.1 ha) with rfl | ha
      · omega
      · exact hy a ha

theorem sortBy_perm {α : Type} (key : α → Nat) (l : List α) : (sortBy key l).Perm l := by
  induction l with
  | nil => exact .refl _
  | cons x xs ih => exact (insertBy_perm key x _).trans (ih.cons x)

theorem sortBy_ascends {α : Type} (key : α → Nat) (l : List α) : (sortBy key l).Pairwise fun a b => key a ≤ key b := by
  induction l with
  | nil => exact .nil
  | cons x xs ih => exact insertBy_ascends key x _ ih

/-- R64: the contexts in use, each once, oldest first. -/
theorem byAdmission_order (s : State) :
    (byAdmission s).Nodup ∧ (∀ k : CtxId, k ∈ byAdmission s ↔ s.contexts[k] ≠ none)
      ∧ (byAdmission s).Pairwise fun k l => ∀ c d : Context, s.contexts[k] = some c → s.contexts[l] = some d →
          c.admission ≤ d.admission := by
  refine ⟨?_, fun k => ?_, ?_⟩
  · exact (sortBy_perm _ _).nodup_iff.2 ((by decide : allContexts.Nodup).filter _)
  · have : k ∈ allContexts := by revert k; decide
    rw [byAdmission, (sortBy_perm _ _).mem_iff, List.mem_filter]
    simp [this, Option.isSome_iff_ne_none]
  · refine (sortBy_ascends (admissionOf s) _).imp fun h c d hc hd => ?_
    simpa only [admissionOf, hc, hd] using h

/-! ### Rounds (R130, R131) -/

/-- R130: a round with a pending job goes on. -/
theorem roundTested_pending (w : WatchUnit) (h : w.pending ≠ []) : w.roundTested = w := by
  rcases w with ⟨entries, period, timer, round, inProgress, pending, promoted, running, overrun⟩
  cases pending with
  | nil => exact absurd rfl h
  | cons a l => simp [WatchUnit.roundTested]

/-- R132, steps 4 and 5, of a running job that holds its claim. -/
theorem endRunning_eq (w : RunningWatch) (s : State) (h : s.channels[w.ch].holder = some .watchUnit) :
    endRunning w s = { s with
      channels := s.channels.set w.ch { s.channels[w.ch] with holder := none }
      watch := WatchUnit.roundTested { s.watch with running := s.watch.running.filter fun r => r.id != w.id } } := by
  unfold endRunning releaseWatchClaim
  simp only [completeRound_eq, State.modWatch, State.modChan, h, if_true]

/-- R131: the skip of one pending job. -/
theorem skipPending_eq (id : WatchId) (s : State) :
    skipPending id s = { s with watch := WatchUnit.roundTested { s.watch with
      pending := s.watch.pending.filter fun x => x != id
      entries := s.watch.entries.map fun e => if e.id = id then e.countedSkip else e } } := by
  simp only [skipPending, modEntry, State.modWatch, completeRound_eq]
  rfl

/-- R19, R131: the skip of every pending job. -/
theorem skipAllPending_eq (s : State) (h : s.watch.pending.Nodup) :
    skipAllPending s = { s with watch := s.watch.allSkipped } := by
  unfold skipAllPending
  generalize hl : s.watch.pending = l at h
  induction l generalizing s with
  | nil => rw [WatchUnit.allSkipped, if_pos hl]; rfl
  | cons id l ih =>
    obtain ⟨hi, hn⟩ := List.nodup_cons.1 h
    have hne : ∀ x ∈ l, (x != id) = true := fun x hx => by
      simpa using fun he : x = id => hi (he ▸ hx)
    have hf : (id :: l).filter (fun x => x != id) = l := by
      rw [List.filter_cons_of_neg (by simp), List.filter_eq_self.2 hne]
    rw [List.foldl_cons, skipPending_eq, hl, hf, WatchUnit.allSkipped, if_neg (by rw [hl]; simp), hl]
    by_cases hnil : l = []
    · subst hnil
      simp only [List.foldl_nil, List.mem_singleton]
    · rw [roundTested_pending _ hnil, ih _ rfl hn, WatchUnit.allSkipped, if_neg hnil]
      dsimp only
      rw [List.map_map]
      congr 3
      refine List.map_congr_left fun e _ => ?_
      dsimp only [Function.comp]
      by_cases hx : e.id = id
      · have hs : e.countedSkip.id = id := hx
        simp only [hx, if_true, hs, hi, if_false, List.mem_cons, true_or]
      · simp only [hx, if_false, List.mem_cons, false_or]

/-- R19: no pending job is left, whatever the list was. -/
theorem skipAllPending_pending (s : State) : (skipAllPending s).watch.pending = [] := by
  have h : ∀ (l : List WatchId) (t : State), (∀ x ∈ t.watch.pending, x ∈ l) →
      (l.foldl (fun t id => skipPending id t) t).watch.pending = [] := by
    intro l
    induction l with
    | nil => exact fun t ht => List.eq_nil_iff_forall_not_mem.2 fun x hx => by simpa using ht x hx
    | cons id l ih =>
      refine fun t ht => ih _ fun x hx => ?_
      rw [show (fun (t : State) id => skipPending id t) t id = skipPending id t from rfl, skipPending_eq] at hx
      obtain ⟨hm, hne⟩ := List.mem_filter.1 (show x ∈ t.watch.pending.filter fun x => x != id from hx)
      rcases List.mem_cons.1 (ht x hm) with rfl | h
      · simp at hne
      · exact h
  exact h _ s fun _ hx => hx

/-! ### What NO_CONVERTER ends and grants change -/

/-- R96, R75: the end of a MEASURE's work touches one context, claims, and result writes. -/
theorem measureWorkEnd_same (k : CtxId) (s : State) :
    measureWorkEnd k s = { s with
        contexts := (measureWorkEnd k s).contexts
        channels := (measureWorkEnd k s).channels
        resultWrites := (measureWorkEnd k s).resultWrites }
      ∧ ∀ l : CtxId, l ≠ k → (measureWorkEnd k s).contexts[l] = s.contexts[l] := by
  unfold measureWorkEnd
  split
  · exact ⟨rfl, fun _ _ => rfl⟩
  · split
    · split
      · split
        · exact ⟨rfl, fun l hl => by
            simp only [completeEarly, completeContext, modCtx_get, if_neg hl]; rfl⟩
        · rcases enterWriting_cases (releaseClaims k s) k (measureStatus ‹Context›.items).1 (measureStatus ‹Context›.items).2
            ‹Context›.request.resultAddr (measureResult ‹Context› ‹MeasureBody›) with ⟨_, h⟩ | ⟨_, h⟩ <;> rw [h] <;>
            exact ⟨rfl, fun l hl => by
              show ((releaseClaims k s).modCtx k _).contexts[l] = _
              rw [modCtx_get, if_neg hl]; rfl⟩
      · exact ⟨rfl, fun _ _ => rfl⟩
    · exact ⟨rfl, fun _ _ => rfl⟩

/-- R113: the end of a search touches one context, its channel and claims, and result writes. -/
theorem endSearch_same (k : CtxId) (c : Context) (b : TrimBody) (q : Search) (st : Status) (mean : Option Nat) (s : State) :
    endSearch k c b q st mean s = { s with
        contexts := (endSearch k c b q st mean s).contexts
        channels := (endSearch k c b q st mean s).channels
        resultWrites := (endSearch k c b q st mean s).resultWrites }
      ∧ (∀ l : CtxId, l ≠ k → (endSearch k c b q st mean s).contexts[l] = s.contexts[l])
      ∧ ∀ d : Context, (endSearch k c b q st mean s).contexts[k] = some d → d.state = .writing := by
  have hs : ∀ t : State, (settleTrim st b.chan q mean t).contexts = t.contexts ∧ settleTrim st b.chan q mean t =
      { t with channels := (settleTrim st b.chan q mean t).channels } := fun t => by
    unfold settleTrim restoreTrim
    split <;> exact ⟨rfl, rfl⟩
  unfold endSearch
  dsimp only
  generalize hx : settleTrim st b.chan q mean (s.modCtx k fun c => { c with search := some q }) = x
  obtain ⟨h1, h2⟩ := hs (s.modCtx k fun c => { c with search := some q })
  rw [hx] at h1 h2
  rcases enterWriting_cases (releaseClaims k x) k st (searchDetail st q mean) c.request.resultAddr
    (trimResult c b q st mean (x.channels[b.chan].trim)) with ⟨_, h⟩ | ⟨_, h⟩ <;> rw [h]
  all_goals
    refine ⟨?_, fun l hl => ?_, fun d hd => ?_⟩
    · rw [h2]; rfl
    · show ((releaseClaims k x).modCtx k _).contexts[l] = _
      rw [modCtx_get, if_neg hl]
      show x.contexts[l] = _
      rw [h1, modCtx_get, if_neg hl]
    · have hd : ((releaseClaims k x).modCtx k fun c =>
        { c with state := .writing, result := some (st, searchDetail st q mean) }).contexts[k] = some d := hd
      rw [modCtx_get, if_pos rfl] at hd
      cases hy : (releaseClaims k x).contexts[k] with
      | none => rw [hy] at hd; cases hd
      | some y => rw [hy] at hd; cases hd; rfl

/-- R19, R94, R111: the ends of one context touch that context, channels, and result writes. -/
theorem contextNoConverter_same (s : State) (k : CtxId) :
    contextNoConverter s k = { s with
        contexts := (contextNoConverter s k).contexts
        channels := (contextNoConverter s k).channels
        resultWrites := (contextNoConverter s k).resultWrites }
      ∧ ∀ l : CtxId, l ≠ k → (contextNoConverter s k).contexts[l] = s.contexts[l] := by
  unfold contextNoConverter
  split
  · exact ⟨rfl, fun _ _ => rfl⟩
  · split
    · unfold measureNoConverter
      generalize hx : s.modCtx k (fun c =>
        { c with items := c.items.map fun e => if itemReady c.items e then e.endNoConverter else e }) = x
      obtain ⟨h1, h2⟩ := measureWorkEnd_same k x
      refine ⟨?_, fun l hl => ?_⟩
      · conv_lhs => rw [h1]
        rw [← hx]; rfl
      · rw [h2 l hl, ← hx, modCtx_get, if_neg hl]
    · unfold trialNoConverter
      split
      · exact ⟨rfl, fun _ _ => rfl⟩
      · split
        · obtain ⟨h1, h2, _⟩ := endSearch_same k ‹Context› ‹TrimBody› (Search.logged ‹Search› .noConverter none none)
            .noConverter none s
          exact ⟨h1, h2⟩
        · exact ⟨rfl, fun _ _ => rfl⟩
    · exact ⟨rfl, fun _ _ => rfl⟩

/-- R19: no ready item and no ready trial of an ACTIVE context. -/
def nothingReady (s : State) (k : CtxId) : Prop :=
  ∀ c : Context, s.contexts[k] = some c → c.state = .active →
    (∀ b, c.request.body = .measure b → ∀ e ∈ c.items, itemReady c.items e = false)
      ∧ ∀ (b : TrimBody) (q : Search), c.request.body = .trim b → c.search = some q → q.job ≠ .notStarted

/-- R94: an item that its context's running items hold back stays held back when the ready ones end. -/
theorem itemReady_ended (l : List ItemEntry) :
    ∀ e ∈ l.map (fun e => if itemReady l e then e.endNoConverter else e),
      itemReady (l.map fun e => if itemReady l e then e.endNoConverter else e) e = false := by
  intro e he
  obtain ⟨x, hx, rfl⟩ := List.mem_map.1 he
  cases hr : itemReady l x with
  | true => simp [itemReady, ItemEntry.endNoConverter]
  | false =>
    simp only [Bool.false_eq_true, if_false]
    by_cases hn : x.job = .notStarted
    · have hany : (l.any fun r => r.job == .running && r.item.overlaps x.item) = true := by
        simpa [itemReady, hn] using hr
      obtain ⟨r, hm, hp⟩ := List.any_eq_true.1 hany
      have hj : r.job = .running := by simp only [Bool.and_eq_true, beq_iff_eq] at hp; exact hp.1
      have hnr : itemReady l r = false := by unfold itemReady; rw [hj]; rfl
      have hmem : r ∈ l.map fun e => if itemReady l e then e.endNoConverter else e :=
        List.mem_map.2 ⟨r, hm, by rw [hnr]; rfl⟩
      unfold itemReady at hmem ⊢
      rw [List.any_eq_true.2 ⟨r, hmem, hp⟩, Bool.not_true, Bool.and_false]
    · have : (x.job == .notStarted) = false := by simpa using hn
      unfold itemReady
      rw [this, Bool.false_and]

/-- R75: a MEASURE that ends its work leaves ACTIVE. -/
theorem measureWorkEnd_ctx (k : CtxId) (s : State) (d : Context) (h : (measureWorkEnd k s).contexts[k] = some d)
    (ha : d.state = .active) : s.contexts[k] = some d := by
  have hw : ∀ (t : State) (f : Context → Context), (∀ c, (f c).state ≠ .active) →
      (t.modCtx k f).contexts[k] ≠ some d := by
    intro t f hf hd
    rw [modCtx_get, if_pos rfl] at hd
    obtain ⟨c, _, rfl⟩ := Option.map_eq_some_iff.1 hd
    exact hf c ha
  unfold measureWorkEnd at h
  split at h
  · exact h
  · split at h
    · split at h
      · split at h
        · exact absurd h (hw _ _ fun _ => by simp)
        · unfold enterWriting at h
          dsimp only at h
          split at h
          · exact absurd h (hw _ _ fun _ => by simp)
          · exact absurd h (hw _ _ fun _ => by simp)
      · exact h
    · exact h

/-- R19, R94, R111: after its ends a context has nothing ready. -/
theorem contextNoConverter_ready (s : State) (k : CtxId) : nothingReady (contextNoConverter s k) k := by
  intro c hc ha
  unfold contextNoConverter at hc
  split at hc
  · rename_i hk; rw [hk] at hc; cases hc
  · rename_i x hk
    split at hc
    · rename_i _ b _ hb
      have h := measureWorkEnd_ctx k _ c hc ha
      rw [modCtx_get, if_pos rfl, hk] at h
      cases h
      exact ⟨fun _ _ => itemReady_ended x.items, fun b' q hb' => by rw [hb] at hb'; cases hb'⟩
    · rename_i _ b _ hb
      unfold trialNoConverter trimParts at hc
      cases hs : x.search with
      | none =>
        simp only [hk, hb, hs] at hc
        cases hc
        exact ⟨fun b' hb' => (by rw [hb] at hb'; cases hb'), fun b' q _ hq => (by rw [hs] at hq; cases hq)⟩
      | some q =>
        simp only [hk, hb, hs] at hc
        split at hc
        · rw [(endSearch_same _ _ _ _ _ _ _).2.2 c hc] at ha; cases ha
        · rw [hk] at hc
          cases hc
          refine ⟨fun b' hb' => (by rw [hb] at hb'; cases hb'), fun b' q' _ hq => ?_⟩
          rw [hs] at hq
          cases hq
          assumption
    · rename_i h1 h2
      rw [hk] at hc
      cases hc
      exact ⟨fun b hb => absurd hb (h1 b ha), fun b q hb => absurd hb (h2 b ha)⟩

/-- R19: what the ends of a list of contexts leave alone, and what they leave not ready. -/
theorem contextsNoConverter_cases (l : List CtxId) (s : State) :
    let t := l.foldl contextNoConverter s
    (∃ x y z, t = { s with contexts := x, channels := y, resultWrites := z })
      ∧ (∀ k : CtxId, k ∉ l → t.contexts[k] = s.contexts[k]) ∧ (l.Nodup → ∀ k ∈ l, nothingReady t k) := by
  induction l generalizing s with
  | nil => exact ⟨⟨s.contexts, s.channels, s.resultWrites, rfl⟩, fun _ _ => rfl, fun _ k hk => by cases hk⟩
  | cons x l ih =>
    obtain ⟨⟨a, b, c, h1⟩, h2, h3⟩ := ih (contextNoConverter s x)
    obtain ⟨g1, g2⟩ := contextNoConverter_same s x
    refine ⟨?_, fun k hk => ?_, fun hn k hk => ?_⟩
    · refine ⟨a, b, c, ?_⟩
      rw [List.foldl_cons, h1, g1]
    · rw [List.foldl_cons, h2 k (fun h => hk (List.mem_cons_of_mem _ h)), g2 k (fun h => hk (h ▸ List.mem_cons_self))]
    · obtain ⟨hx, hn⟩ := List.nodup_cons.1 hn
      rw [List.foldl_cons]
      rcases List.mem_cons.1 hk with rfl | hk
      · intro c hc
        rw [h2 k hx] at hc
        exact contextNoConverter_ready s k c hc
      · exact h3 hn k hk

/-- R19: while no converter is online, everything ready ends and every pending watch job is skipped. -/
theorem noConverterEnds_none (s : State) (h : onlineCount s = 0) :
    (∀ k, nothingReady (noConverterEnds s) k) ∧ (noConverterEnds s).watch.pending = []
      ∧ (noConverterEnds s).converters = s.converters
      ∧ (s.watch.pending.Nodup → noConverterEnds s
          = { (byAdmission s).foldl contextNoConverter s with watch := s.watch.allSkipped }) := by
  have he : noConverterEnds s = skipAllPending ((byAdmission s).foldl contextNoConverter s) := by
    rw [noConverterEnds, if_pos h]
  obtain ⟨⟨a, b, c, h1⟩, h2, h3⟩ := contextsNoConverter_cases (byAdmission s) s
  obtain ⟨o1, o2, _⟩ := byAdmission_order s
  generalize hx : (byAdmission s).foldl contextNoConverter s = x at he h1 h2 h3
  have hsame : ∀ (l : List WatchId) (t : State), ∃ w, l.foldl (fun t id => skipPending id t) t = { t with watch := w } := by
    intro l
    induction l with
    | nil => exact fun t => ⟨t.watch, rfl⟩
    | cons id l ih =>
      intro t
      obtain ⟨w, hw⟩ := ih (skipPending id t)
      exact ⟨w, by rw [List.foldl_cons, hw, skipPending_eq]⟩
  obtain ⟨w, hw⟩ := hsame x.watch.pending x
  have hc : (skipAllPending x).contexts = x.contexts := by rw [skipAllPending, hw]
  have hv : (skipAllPending x).converters = x.converters := by rw [skipAllPending, hw]
  rw [he]
  refine ⟨fun k c hk => ?_, skipAllPending_pending x, ?_, fun hn => ?_⟩
  · rw [hc] at hk
    by_cases hm : k ∈ byAdmission s
    · exact h3 o1 k hm c hk
    · have := mt (o2 k).2 hm
      rw [h2 k hm, not_not.1 this] at hk
      cases hk
  · rw [hv, h1]
  · have hw : x.watch = s.watch := by rw [h1]
    rw [skipAllPending_eq x (by rw [hw]; exact hn), hw]

/-! ### The arbiters while no converter is online -/

theorem grant_same (k : CtxId) (c : Context) (s : State) :
    (grant k c s).watch = s.watch ∧ (grant k c s).converters = s.converters := by
  unfold grant execChannelSet activate
  simp only
  split
  · split <;> exact ⟨rfl, rfl⟩
  · split
    · exact ⟨rfl, rfl⟩
    · split <;> exact ⟨rfl, rfl⟩

theorem grantPass_same (s : State) : (grantPass s).watch = s.watch ∧ (grantPass s).converters = s.converters := by
  have h : ∀ (l : List CtxId) (t : State), (l.foldl tryGrant t).watch = t.watch
      ∧ (l.foldl tryGrant t).converters = t.converters := by
    intro l
    induction l with
    | nil => exact fun _ => ⟨rfl, rfl⟩
    | cons k l ih =>
      intro t
      have ht : (tryGrant t k).watch = t.watch ∧ (tryGrant t k).converters = t.converters := by
        unfold tryGrant
        split
        · split
          · exact grant_same _ _ _
          · exact ⟨rfl, rfl⟩
        · exact ⟨rfl, rfl⟩
      exact ⟨(ih _).1.trans ht.1, (ih _).2.trans ht.2⟩
  unfold grantPass
  split
  · exact h _ _
  · exact ⟨rfl, rfl⟩

theorem allSkipped_done (w : WatchUnit) (h : w.pending = []) : w.allSkipped = w := by
  rw [WatchUnit.allSkipped, if_pos h]

theorem allSkipped_pending (w : WatchUnit) : w.allSkipped.pending = [] := by
  unfold WatchUnit.allSkipped
  split
  · assumption
  · rfl

/-- R19: the grant passes and ends that follow an event, with no converter online. -/
theorem settleClaims_none (n : Nat) (s : State) (h : onlineCount s = 0) :
    (∀ k, nothingReady (settleClaims (n + 1) s) k) ∧ (settleClaims (n + 1) s).watch.pending = []
      ∧ (settleClaims (n + 1) s).converters = s.converters
      ∧ (s.watch.pending.Nodup → (settleClaims (n + 1) s).watch = s.watch.allSkipped) := by
  induction n generalizing s with
  | zero =>
    obtain ⟨g1, g2⟩ := grantPass_same s
    obtain ⟨a, b, c, d⟩ := noConverterEnds_none (grantPass s) (by rw [onlineCount_congr g2, h])
    unfold settleClaims
    simp only [settleClaims, ite_self]
    exact ⟨a, b, c.trans g2, fun hn => by rw [d (by rw [g1]; exact hn)]; exact congrArg WatchUnit.allSkipped g1⟩
  | succ n ih =>
    obtain ⟨g1, g2⟩ := grantPass_same s
    obtain ⟨a, b, c, d⟩ := noConverterEnds_none (grantPass s) (by rw [onlineCount_congr g2, h])
    have hd : s.watch.pending.Nodup → (noConverterEnds (grantPass s)).watch = s.watch.allSkipped :=
      fun hn => by rw [d (by rw [g1]; exact hn)]; exact congrArg WatchUnit.allSkipped g1
    rw [settleClaims]
    split
    · obtain ⟨a', b', c', d'⟩ := ih _ ‹_ ∧ _›.1
      refine ⟨a', b', c'.trans (c.trans g2), fun hn => ?_⟩
      rw [d' (by rw [b]; exact .nil), hd hn, allSkipped_done _ (allSkipped_pending _)]
    · exact ⟨a, b, c.trans g2, hd⟩

/-- R19: an event that ends with no converter online leaves nothing ready and no watch job pending. -/
theorem finish_none (s : State) (h : ∀ v : ConvId, s.converters[v].state.online = false) :
    (∀ k, nothingReady (finish s) k) ∧ (finish s).watch.pending = []
      ∧ (s.watch.pending.Nodup → (finish s).watch = s.watch.allSkipped) := by
  have h0 : onlineCount s = 0 := by
    unfold onlineCount
    exact List.countP_eq_zero.2 fun c _ => by rw [h c]; simp
  obtain ⟨a, b, c, d⟩ := settleClaims_none 16 s h0
  have hfree : firstFree (settleClaims 17 s) = none := by
    unfold firstFree
    refine List.find?_eq_none.2 fun v _ => ?_
    rw [c]
    have := h v
    unfold Converter.free
    cases hst : s.converters[v].state <;> rw [hst] at this <;> simp_all
    cases this
  have hstep : arbiterStep (settleClaims 17 s) = none := by
    unfold arbiterStep
    rw [hfree]
    split <;> rfl
  have hrun : runArbiters s = settleClaims 17 s := by
    rw [runArbiters, arbiterLoop, hstep]
  have h1 : ∀ t : State, (testStop t).watch = t.watch ∧ (testStop t).contexts = t.contexts := fun t => by
    unfold testStop; split <;> exact ⟨rfl, rfl⟩
  have h2 : ∀ t : State, (issueRingWrite t).watch = t.watch ∧ (issueRingWrite t).contexts = t.contexts := fun t => by
    unfold issueRingWrite
    split
    · split
      · exact ⟨rfl, rfl⟩
      · split <;> exact ⟨rfl, rfl⟩
    · exact ⟨rfl, rfl⟩
  have h3 : ∀ t : State, (issueFetch t).watch = t.watch ∧ (issueFetch t).contexts = t.contexts := fun t => by
    unfold issueFetch
    split
    · split <;> exact ⟨rfl, rfl⟩
    · exact ⟨rfl, rfl⟩
  have hw : (finish s).watch = (settleClaims 17 s).watch := by
    rw [finish, (h1 _).1, (h2 _).1, (h3 _).1, hrun]; rfl
  have hc : (finish s).contexts = (settleClaims 17 s).contexts := by
    rw [finish, (h1 _).2, (h2 _).2, (h3 _).2, hrun]; rfl
  refine ⟨fun k x hx => ?_, by rw [hw, b], fun hn => by rw [hw, d hn]⟩
  rw [hc] at hx
  exact a k x hx

end Sys2Proof.Machine
end

