-- ==== Sys2Proof/Laws/PerInstr.lean ====
section
/-! SUPPORT. OperandsAdmitted: for every command, which operands its row of the table admits, in the spec's words
(R155, R161, R72, R174, R192), and that the well-formedness check says exactly that. -/

namespace Sys2Proof.Laws.OperandsAdmitted

/-- A read of one 64-byte structure carries 64 bytes when it carries any. -/
def Block (how : ReadEnd) : Prop := ∀ bytes, how = .data bytes → bytes.length = 64

/-- A list read carries four bytes for each of 1..32 items when it carries any. -/
def ItemList (how : ReadEnd) : Prop :=
  ∀ bytes, how = .data bytes → ∃ items, 1 ≤ items ∧ items ≤ 32 ∧ bytes.length = 4 * items

/-- The operands that a command's row admits. -/
def Admitted : Instr → Prop
  | .deviceReset => True
  | .start => True
  | .stopDrain => True
  | .stopCut => True
  | .clear => True
  | .commandRefused word => word.toNat % 16 ∉ [1, 2, 3, 4]
  | .submitIndex _ => True
  | .releaseIndex _ => True
  | .interruptControl _ => True
  | .registerWrite offset _ => offset ∉ [0x00#32, 0x0C#32, 0x10#32, 0x14#32]
  | .setupReadEnd _ how => Block how
  | .fetchReadEnd how => Block how
  | .listReadEnd _ how => ItemList how
  | .resultWriteEnd _ _ => True
  | .completionRingWriteEnd _ => True
  | .settleEnd _ => True
  | .sampleEnd _ _ => True
  | .dischargeEnd _ => True
  | .faultEvent _ => True
  | .faultDischargeEnd _ => True
  | .clearDischargeEnd _ => True
  | .periodTimerExpiry => True
  | .coalescingTimerExpiry => True

/-- The well-formed commands are those with admitted operands. -/
def Statement (i : Instr) : Prop := i.wellFormed = true ↔ Admitted i

theorem block_iff (how : ReadEnd) : how.wfBlock = true ↔ Block how := by
  cases how <;> simp [ReadEnd.wfBlock, Block]

theorem itemList_iff (how : ReadEnd) : how.wfList = true ↔ ItemList how := by
  cases how with
  | busError => simp [ReadEnd.wfList, ItemList]
  | data bytes =>
    simp only [ReadEnd.wfList, ItemList, Bool.and_eq_true, beq_iff_eq, decide_eq_true_eq, ReadEnd.data.injEq,
      forall_eq']
    constructor
    · intro h; exact ⟨bytes.length / 4, by omega, by omega, by omega⟩
    · rintro ⟨n, h1, h2, h3⟩; omega

theorem deviceReset : Statement .deviceReset := by simp [Statement, Admitted, Instr.wellFormed]
theorem start : Statement .start := by simp [Statement, Admitted, Instr.wellFormed]
theorem stopDrain : Statement .stopDrain := by simp [Statement, Admitted, Instr.wellFormed]
theorem stopCut : Statement .stopCut := by simp [Statement, Admitted, Instr.wellFormed]
theorem clear : Statement .clear := by simp [Statement, Admitted, Instr.wellFormed]

theorem commandRefused (word : Reg) : Statement (.commandRefused word) := by
  simp only [Statement, Admitted, Instr.wellFormed, namesNoCommand, Bool.or_eq_true, beq_iff_eq, decide_eq_true_eq,
    List.mem_cons, List.not_mem_nil, or_false, not_or]
  omega

theorem submitIndex (word : Reg) : Statement (.submitIndex word) := by simp [Statement, Admitted, Instr.wellFormed]
theorem releaseIndex (word : Reg) : Statement (.releaseIndex word) := by simp [Statement, Admitted, Instr.wellFormed]
theorem interruptControl (word : Reg) : Statement (.interruptControl word) := by
  simp [Statement, Admitted, Instr.wellFormed]

theorem registerWrite (offset word : Reg) : Statement (.registerWrite offset word) := by
  simp [Statement, Admitted, Instr.wellFormed, hasOwnRow, and_assoc]

theorem setupReadEnd (k : Nat) (how : ReadEnd) : Statement (.setupReadEnd k how) := block_iff how
theorem fetchReadEnd (how : ReadEnd) : Statement (.fetchReadEnd how) := block_iff how
theorem listReadEnd (k : Nat) (how : ReadEnd) : Statement (.listReadEnd k how) := itemList_iff how

theorem resultWriteEnd (k : Nat) (how : WriteEnd) : Statement (.resultWriteEnd k how) := by
  simp [Statement, Admitted, Instr.wellFormed]
theorem completionRingWriteEnd (how : WriteEnd) : Statement (.completionRingWriteEnd how) := by
  simp [Statement, Admitted, Instr.wellFormed]
theorem settleEnd (conv : ConvId) : Statement (.settleEnd conv) := by simp [Statement, Admitted, Instr.wellFormed]
theorem sampleEnd (conv : ConvId) (outcome : SampleEnd) : Statement (.sampleEnd conv outcome) := by
  simp [Statement, Admitted, Instr.wellFormed]
theorem dischargeEnd (conv : ConvId) : Statement (.dischargeEnd conv) := by
  simp [Statement, Admitted, Instr.wellFormed]
theorem faultEvent (conv : ConvId) : Statement (.faultEvent conv) := by simp [Statement, Admitted, Instr.wellFormed]
theorem faultDischargeEnd (conv : ConvId) : Statement (.faultDischargeEnd conv) := by
  simp [Statement, Admitted, Instr.wellFormed]
theorem clearDischargeEnd (conv : ConvId) : Statement (.clearDischargeEnd conv) := by
  simp [Statement, Admitted, Instr.wellFormed]
theorem periodTimerExpiry : Statement .periodTimerExpiry := by simp [Statement, Admitted, Instr.wellFormed]
theorem coalescingTimerExpiry : Statement .coalescingTimerExpiry := by simp [Statement, Admitted, Instr.wellFormed]

end Sys2Proof.Laws.OperandsAdmitted
end

