-- ==== Sys2Proof/Laws/Work.lean ====
section
/-! SUPPORT. What the work inside an event can do: each shared operation of contexts, converters and the Watch Unit, and
the converter events as wholes, leave alone what `Worked` names; what follows from it for the invariants of Safety.lean;
and when `finish` ends a stop (R182). -/

namespace Sys2Proof.Machine

variable {s t u : State}

/-! ### Worked is a preorder that holds the arbiters -/

theorem Worked.refl (s : State) : Worked s s where
  registers := ⟨rfl, rfl, rfl, rfl, rfl⟩
  engineState := .inl rfl
  interrupt := rfl
  profiles := rfl
  hopSets := rfl
  link := fun _ => ⟨rfl, fun _ h => h⟩
  configuration := fun _ _ => ⟨rfl, rfl, rfl⟩
  clearDischarges := rfl
  contextFree := fun _ h => h
  contextUsed := fun _ c h => ⟨c, h, rfl, rfl, rfl, rfl, fun hs => hs⟩
  nextAdmission := rfl
  queue := fun _ => rfl
  setupReads := rfl
  fetchRead := fun _ => rfl
  resultWrites := List.prefix_rfl
  ring := rfl
  ringWrite := fun _ => rfl
  issued := fun hn w hw => by rw [hn] at hw; cases hw
  reports := fun h => h
  watch := ⟨rfl, rfl⟩
  watchEntries := rfl
  watchPending := .refl _
  pending := rfl

/-- Work brings no CHANNEL_SET into CLAIMING. -/
theorem Worked.noChannelSetWaits (h : Worked s t) (hn : s.NoChannelSetWaits) : t.NoChannelSetWaits := by
  intro k d hd hs
  cases hk : s.contexts[k] with
  | none => rw [h.contextFree k hk] at hd; cases hd
  | some c =>
    obtain ⟨e, he, -, -, -, hr, hc⟩ := h.contextUsed k c hk
    rw [he] at hd
    cases hd
    rw [hr]
    exact hn k c hk (hc hs)

theorem Worked.trans (h : Worked s t) (g : Worked t u) : Worked s u where
  registers := by
    obtain ⟨a, b, c, d, e⟩ := h.registers
    obtain ⟨a', b', c', d', e'⟩ := g.registers
    exact ⟨a'.trans a, b'.trans b, c'.trans c, d'.trans d, e'.trans e⟩
  engineState := by
    have a := h.engineState
    have b := g.engineState
    cases hs : s.engine.state <;> cases ht : t.engine.state <;> cases hu : u.engine.state <;> simp_all
  interrupt := by rw [g.interrupt, h.interrupt]
  profiles := g.profiles.trans h.profiles
  hopSets := g.hopSets.trans h.hopSets
  link := fun ch =>
    have a := h.link ch
    have b := g.link ch
    ⟨b.1.trans a.1, fun hl hr => b.2 (by rw [a.1]; exact hl) (a.2 hl hr)⟩
  configuration := fun hn ch =>
    have a := h.configuration hn ch
    have b := g.configuration (h.noChannelSetWaits hn) ch
    ⟨b.1.trans a.1, b.2.1.trans a.2.1, b.2.2.trans a.2.2⟩
  clearDischarges := g.clearDischarges.trans h.clearDischarges
  contextFree := fun k hk => g.contextFree k (h.contextFree k hk)
  contextUsed := fun k c hk => by
    obtain ⟨d, hd, a1, a2, a3, a4, a5⟩ := h.contextUsed k c hk
    obtain ⟨e, he, b1, b2, b3, b4, b5⟩ := g.contextUsed k d hd
    exact ⟨e, he, b1.trans a1, b2.trans a2, b3.trans a3, b4.trans a4, fun hs => a5 (b5 hs)⟩
  nextAdmission := g.nextAdmission.trans h.nextAdmission
  queue := fun q => by rw [g.queue q, h.queue q]
  setupReads := g.setupReads.trans h.setupReads
  fetchRead := fun hs => by
    have := h.fetchRead hs
    rw [g.fetchRead (by rw [this]; exact hs), this]
  resultWrites := h.resultWrites.trans g.resultWrites
  ring := g.ring.trans h.ring
  ringWrite := fun hs => by
    have := h.ringWrite hs
    rw [g.ringWrite (by rw [this]; exact hs), this]
  issued := fun hn w hw => by
    cases ht : t.ringWrite with
    | none =>
      have := g.issued ht w hw
      rwa [h.ring] at this
    | some v =>
      rw [g.ringWrite (by rw [ht]; rfl), ht] at hw
      cases hw
      exact h.issued hn _ ht
  reports := fun hr => g.reports (h.reports hr)
  watch := ⟨g.watch.1.trans h.watch.1, g.watch.2.trans h.watch.2⟩
  watchEntries := g.watchEntries.trans h.watchEntries
  watchPending := g.watchPending.trans h.watchPending
  pending := g.pending.trans h.pending

/-- What the arbiters leave alone, work leaves alone. -/
theorem Arbitrated.worked (h : Arbitrated s t) : Worked s t where
  registers := by rw [h.engine]; exact ⟨rfl, rfl, rfl, rfl, rfl⟩
  engineState := h.engineState.imp id .inr
  interrupt := h.interrupt
  profiles := h.profiles
  hopSets := h.hopSets
  link := h.link
  configuration := h.configuration
  clearDischarges := h.clearDischarges
  contextFree := h.contextFree
  contextUsed := fun k c hk => by
    obtain ⟨d, hd, hc⟩ := h.contextUsed k c hk
    exact ⟨d, hd, hc.queue, hc.holdsTag, hc.admission, hc.request, hc.claiming⟩
  nextAdmission := h.nextAdmission
  queue := h.queue
  setupReads := h.setupReads
  fetchRead := h.fetchRead
  resultWrites := h.resultWrites
  ring := h.ring
  ringWrite := h.ringWrite
  issued := h.issued
  reports := fun hr => by rw [State.ReportsInRange, h.reports, h.lost]; exact hr
  watch := ⟨h.watch.1, h.watch.2.2⟩
  watchEntries := by
    have := congrArg (List.map fun e : WatchEntry =>
      { e with state := .inside, count := 0, direction := .high, last := none }) h.watchEntries
    simpa [List.map_map, Function.comp_def] using this
  watchPending := h.watchPending
  pending := h.pending

/-! ### One lemma per table update -/

theorem Worked.ofConverters (v : Vector Converter 4) (l : List FaultDischarge) :
    Worked s { s with converters := v, faultDischarges := l } := { Worked.refl s with }

theorem Worked.ofModConv (c : ConvId) (f : Converter → Converter) : Worked s (s.modConv c f) := { Worked.refl s with }

theorem Worked.ofListReads (l : List ListRead) : Worked s { s with listReads := l } := { Worked.refl s with }

theorem Worked.ofModCtx (k : CtxId) (f : Context → Context)
    (h : ∀ c, (f c).queue = c.queue ∧ (f c).holdsTag = c.holdsTag ∧ (f c).admission = c.admission
      ∧ (f c).request = c.request ∧ ((f c).state = .claiming → c.state = .claiming)) : Worked s (s.modCtx k f) := by
  refine { Worked.refl s with contextFree := fun l hl => ?_, contextUsed := fun l c hl => ?_ }
  · rw [modCtx_get]
    split
    · subst l; rw [hl]; rfl
    · exact hl
  · rw [modCtx_get]
    split
    · subst l; rw [hl]; exact ⟨f c, rfl, h c⟩
    · exact ⟨c, hl, rfl, rfl, rfl, rfl, fun hs => hs⟩

theorem Worked.ofModChan (ch : Chan) (f : Channel → Channel)
    (h : ∀ e, (f e).ready = e.ready ∧ (f e).park = e.park ∧ (f e).comp = e.comp ∧ (f e).watchLink = e.watchLink) :
    Worked s (s.modChan ch f) := by
  have hg : ∀ d : Chan, (s.modChan ch f).channels[d] = if d = ch then f s.channels[ch] else s.channels[d] :=
    fun d => modChan_get s ch d f
  refine { Worked.refl s with link := fun d => ?_, configuration := fun _ d => ?_ }
  all_goals
    rw [hg]
    split
  · subst d; exact ⟨(h _).2.2.2, fun _ hr => (h _).1.trans hr⟩
  · exact ⟨rfl, fun _ hr => hr⟩
  · subst d; exact ⟨(h _).1, (h _).2.1, (h _).2.2.1⟩
  · exact ⟨rfl, rfl, rfl⟩

theorem Worked.ofModWatch (f : WatchUnit → WatchUnit)
    (h : (f s.watch).period = s.watch.period ∧ (f s.watch).round = s.watch.round)
    (g : (f s.watch).entries.map (fun e =>
        { e with state := .inside, count := 0, direction := .high, last := none, skipped := 0 })
      = s.watch.entries.map (fun e =>
        { e with state := .inside, count := 0, direction := .high, last := none, skipped := 0 }))
    (p : (f s.watch).pending.Sublist s.watch.pending) : Worked s (s.modWatch f) :=
  { Worked.refl s with watch := h, watchEntries := g, watchPending := p }

theorem raise_worked (r : Report) : Worked s (raise r s) := by
  have h : s.ReportsInRange → (raise r s).ReportsInRange := raise_inRange s r
  rw [raise_same] at h ⊢
  exact { Worked.refl s with reports := h }

/-! ### Converters, checks and marks (chapter 1) -/

theorem raiseIfNoneOnline_worked (before : Nat) : Worked s (raiseIfNoneOnline before s) := by
  rcases raiseIfNoneOnline_cases s before with ⟨_, _, h⟩ | ⟨_, h⟩ <;> rw [h]
  · exact raise_worked _
  · exact .refl s

theorem changeConvState_worked (c : ConvId) (st : ConvState) : Worked s (changeConvState c st s) :=
  (Worked.ofModConv c _).trans (raiseIfNoneOnline_worked _)

theorem completeContext_worked (k : CtxId) (st : Status) (d : Detail) : Worked s (completeContext k st d s) :=
  .ofModCtx k _ fun _ => ⟨rfl, rfl, rfl, rfl, fun h => by cases h⟩

theorem setWait_worked (k : CtxId) (w : ConvWait) : Worked s (setWait k w s) :=
  .ofModCtx k _ fun _ => ⟨rfl, rfl, rfl, rfl, fun h => h⟩

theorem startCheck_worked (c : ConvId) (o : CheckOwner) : Worked s (startCheck c o s) := .ofModConv c _

/-- R8, R12, R13: a pending mark is resolved. -/
theorem resolveMark_worked (c : ConvId) : Worked s (resolveMark c s) := by
  unfold resolveMark
  split
  · exact .refl s
  · split
    · exact (Worked.ofModConv c _).trans ((changeConvState_worked c _).trans (completeContext_worked _ _ _))
    · split
      · exact .refl s
      · exact (Worked.ofModConv c _).trans ((startCheck_worked c _).trans (setWait_worked _ _))

/-- R178: the end of a start-up check. -/
theorem startupCheckEnded_worked (c : ConvId) : Worked s (startupCheckEnded c s) := by
  have h : Worked s (s.modEngine fun e => { e with startupLeft := e.startupLeft.filter fun x => x != c }) :=
    { Worked.refl s with }
  unfold startupCheckEnded
  refine h.trans ?_
  dsimp only
  split
  · rename_i hs
    exact { Worked.refl _ with engineState := .inr (.inl ⟨hs.1, rfl⟩), watch := ⟨rfl, rfl⟩, watchEntries := rfl }
  · exact .refl _

/-- R12: the owner of a check is handed its result. -/
theorem handCheckResult_worked (c : ConvId) (o : CheckOwner) (pass : Bool) (new : ConvState) (mean : Option Nat) :
    Worked s (handCheckResult c o pass new mean s) := by
  unfold handCheckResult
  split
  · exact completeContext_worked _ _ _
  · exact startupCheckEnded_worked c
  · exact .refl s

/-- R12: the end of a check. -/
theorem concludeCheck_worked (c : ConvId) (l : List Sample) : Worked s (concludeCheck c l s) := by
  unfold concludeCheck
  split
  · unfold checkPass
    have h1 : Worked s (clearJob c (s.modConv c fun v => { v with state := .idle })) :=
      (Worked.ofModConv c _).trans (Worked.ofModConv c _)
    refine (h1.trans ?_).trans ((handCheckResult_worked c _ _ _ _).trans (resolveMark_worked c))
    split
    · exact raise_worked _
    · exact raise_worked _
    · exact .refl _
  · exact ((raise_worked _).trans ((changeConvState_worked c _).trans (Worked.ofModConv c _))).trans
      ((handCheckResult_worked c _ _ _ _).trans (resolveMark_worked c))

theorem checkFail_worked (c : ConvId) (cause : OfflineCause) (mean : Option Nat) : Worked s (checkFail c cause mean s) :=
  ((raise_worked _).trans ((changeConvState_worked c _).trans (Worked.ofModConv c _))).trans
    ((handCheckResult_worked c _ _ _ _).trans (resolveMark_worked c))

/-! ### Contexts leaving ACTIVE (chapters 4 to 6) -/

theorem enterWriting_worked (k : CtxId) (st : Status) (d : Detail) (addr : Addr) (data : List Byte) :
    Worked s (enterWriting k st d addr data s) := by
  have h1 : Worked s (s.modCtx k fun c => { c with state := .writing, result := some (st, d) }) :=
    .ofModCtx k _ fun _ => ⟨rfl, rfl, rfl, rfl, fun h => by cases h⟩
  rcases enterWriting_cases s k st d addr data with ⟨_, he⟩ | ⟨_, he⟩ <;> rw [he]
  · exact h1
  · exact h1.trans { Worked.refl _ with resultWrites := List.prefix_append _ _ }

theorem releaseClaims_worked (k : CtxId) : Worked s (releaseClaims k s) := (releaseClaims_arbitrated k s).worked

theorem completeEarly_worked (k : CtxId) (e : EndCause × CtxState) : Worked s (completeEarly k e s) :=
  completeContext_worked _ _ _

/-- R75, R77, R96: the end of a MEASURE's work. -/
theorem measureWorkEnd_worked (k : CtxId) : Worked s (measureWorkEnd k s) := by
  unfold measureWorkEnd
  split
  · exact .refl s
  · split
    · split
      · split
        · exact (releaseClaims_worked k).trans (completeEarly_worked k _)
        · exact (releaseClaims_worked k).trans (enterWriting_worked k _ _ _ _)
      · exact .refl s
    · exact .refl s

theorem modItem_worked (k : CtxId) (i : Nat) (f : ItemEntry → ItemEntry) : Worked s (modItem k i f s) :=
  .ofModCtx k _ fun _ => ⟨rfl, rfl, rfl, rfl, fun h => h⟩

/-- R92. -/
theorem writeBaseline_worked (item : Item) (written : Bool) (l : List Sample) :
    Worked s (writeBaseline item written l s) := by
  unfold writeBaseline
  split
  · split
    · exact .ofModChan _ _ fun _ => ⟨rfl, rfl, rfl, rfl⟩
    · exact .refl s
  · exact .refl s

theorem itemNormalEnd_worked (k : CtxId) (i : Nat) (l : List Sample) : Worked s (itemNormalEnd k i l s) := by
  unfold itemNormalEnd
  split
  · exact .refl s
  · split
    · exact (writeBaseline_worked _ _ _).trans ((modItem_worked k i _).trans (measureWorkEnd_worked k))
    · exact .refl s

theorem itemFaultEnd_worked (k : CtxId) (i : Nat) : Worked s (itemFaultEnd k i s) :=
  (modItem_worked k i _).trans (measureWorkEnd_worked k)

theorem itemCutEnd_worked (k : CtxId) (i : Nat) : Worked s (itemCutEnd k i s) :=
  (modItem_worked k i _).trans (measureWorkEnd_worked k)

theorem settleTrim_worked (st : Status) (ch : Chan) (q : Search) (mean : Option Nat) :
    Worked s (settleTrim st ch q mean s) := (settleTrim_arbitrated st ch q mean s).worked

/-- R113. -/
theorem endSearch_worked (k : CtxId) (c : Context) (b : TrimBody) (q : Search) (st : Status) (mean : Option Nat) :
    Worked s (endSearch k c b q st mean s) := by
  have h1 : Worked s (s.modCtx k fun c => { c with search := some q }) :=
    .ofModCtx k _ fun _ => ⟨rfl, rfl, rfl, rfl, fun h => h⟩
  exact h1.trans ((settleTrim_worked st _ q mean).trans ((releaseClaims_worked k).trans (enterWriting_worked k _ _ _ _)))

theorem beginTrial_worked (k : CtxId) (ch : Chan) (q : Search) : Worked s (beginTrial k ch q s) := by
  have h : Worked s (s.modCtx k fun c => { c with search := some q.readied }) :=
    .ofModCtx k _ fun _ => ⟨rfl, rfl, rfl, rfl, fun h => h⟩
  exact h.trans (.ofModChan ch (fun e => { e with trim := q.readied.trialTrim }) fun _ => ⟨rfl, rfl, rfl, rfl⟩)

/-- R108 to R111. -/
theorem trialNormalEnd_worked (k : CtxId) (l : List Sample) : Worked s (trialNormalEnd k l s) := by
  unfold trialNormalEnd
  split
  · exact .refl s
  · dsimp only
    split
    · exact endSearch_worked _ _ _ _ _ _
    · split
      · exact beginTrial_worked _ _ _
      · split <;> exact endSearch_worked _ _ _ _ _ _

theorem trialFaultEnd_worked (k : CtxId) : Worked s (trialFaultEnd k s) := by
  unfold trialFaultEnd
  split
  · exact .refl s
  · split
    · exact endSearch_worked _ _ _ _ _ _
    · exact .ofModCtx k _ fun _ => ⟨rfl, rfl, rfl, rfl, fun h => h⟩

theorem trimEarlyEnd_worked (k : CtxId) : Worked s (trimEarlyEnd k s) := by
  unfold trimEarlyEnd
  split
  · exact .refl s
  · split
    · rename_i c b q _ _ _ _
      have h : Worked s (s.modCtx k fun c => { c with search := some q.ended }) :=
        .ofModCtx k _ fun _ => ⟨rfl, rfl, rfl, rfl, fun h => h⟩
      have h' := h.trans (.ofModChan b.chan (fun e => { e with trim := q.savedTrim, baseline := q.savedBaseline })
        fun _ => ⟨rfl, rfl, rfl, rfl⟩)
      exact h'.trans ((releaseClaims_worked k).trans (completeEarly_worked k _))
    · exact .refl s

/-! ### The Watch Unit (chapter 7) -/

theorem completeRound_worked (f : WatchUnit → WatchUnit)
    (h : (f s.watch).period = s.watch.period ∧ (f s.watch).round = s.watch.round)
    (g : (f s.watch).entries = s.watch.entries) (p : (f s.watch).pending.Sublist s.watch.pending) :
    Worked s (s.modWatch fun w => WatchUnit.completeRound (f w)) := by
  refine .ofModWatch _ ?_ ?_ ?_
  all_goals
    unfold WatchUnit.completeRound
    split
  · exact h
  · exact h
  · dsimp only; rw [g]
  · rw [g]
  · exact p
  · exact p

theorem endRunning_worked (w : RunningWatch) : Worked s (endRunning w s) := by
  refine Worked.trans (t := releaseWatchClaim w.ch s) (.ofModChan _ _ fun e => ?_)
    (completeRound_worked _ ⟨rfl, rfl⟩ rfl (.refl _))
  split <;> exact ⟨rfl, rfl, rfl, rfl⟩

theorem modEntry_worked (id : WatchId) (f : WatchEntry → WatchEntry)
    (h : ∀ e ∈ s.watch.entries, e.id = id →
      ({ f e with state := .inside, count := 0, direction := .high, last := none, skipped := 0 } : WatchEntry)
        = { e with state := .inside, count := 0, direction := .high, last := none, skipped := 0 }) :
    Worked s (modEntry id f s) := by
  refine .ofModWatch _ ⟨rfl, rfl⟩ ?_ (.refl _)
  rw [List.map_map]
  refine List.map_congr_left fun e he => ?_
  dsimp only [Function.comp]
  split
  · exact h e he ‹_›
  · rfl

/-- The judgment leaves the configuration of an entry alone. -/
theorem watchVerdict_kept (n ceiling : Nat) (l : List Sample) (b : Option Nat) (e : WatchEntry) :
    ({ (watchVerdict n ceiling l b e).entry with
        state := .inside, count := 0, direction := .high, last := none, skipped := 0 } : WatchEntry)
      = { e with state := .inside, count := 0, direction := .high, last := none, skipped := 0 } := by
  unfold watchVerdict judge judgeInside judgeOutside judgeOpen
  split
  · split
    · rfl
    · split
      · split
        · dsimp only; split <;> rfl
        · rfl
      · split
        · rfl
        · split <;> rfl
      · split
        · rfl
        · split <;> rfl
      · rfl
  · rfl

theorem raiseOption_worked (r : Option Report) : Worked s (raiseOption r s) := by
  unfold raiseOption
  split
  · exact raise_worked _
  · exact .refl s

/-- R132, step 3, of an entry that stands alone under its id in the list. -/
theorem applyVerdict_worked (w : RunningWatch) (j : Job) (e : WatchEntry)
    (h : ∀ d ∈ s.watch.entries, d.id = e.id → d = e) : Worked s (applyVerdict w j e s) := by
  have h1 : Worked s (modEntry e.id (fun _ => (watchVerdict j.n j.ceiling j.samples (s.channels[w.ch].baseline) e).entry) s) :=
    modEntry_worked _ _ fun d hd hi => by rw [watchVerdict_kept, h d hd hi]
  exact (h1.trans (.ofModChan w.ch (fun x =>
    { x with baseline := (watchVerdict j.n j.ceiling j.samples (s.channels[w.ch].baseline) e).baseline })
    fun _ => ⟨rfl, rfl, rfl, rfl⟩)).trans (raiseOption_worked _)

/-- Each id stands once in the watch list. -/
def idsDistinct (s : State) : Prop := ∀ d ∈ s.watch.entries, ∀ e ∈ s.watch.entries, d.id = e.id → d = e

theorem watchNormalEnd_worked (id : WatchId) (j : Job) (h : idsDistinct s) : Worked s (watchNormalEnd id j s) := by
  unfold watchNormalEnd
  split
  · exact .refl s
  · split
    · rename_i e _ he
      unfold watchEntry at he
      have hm : e ∈ s.watch.entries := List.mem_of_find?_eq_some he
      exact (applyVerdict_worked _ j e fun d hd hi => h d hd e hm hi).trans (endRunning_worked _)
    · exact endRunning_worked _

theorem watchFaultEnd_worked (id : WatchId) : Worked s (watchFaultEnd id s) := by
  unfold watchFaultEnd
  split
  · exact .refl s
  · refine Worked.trans ?_ (endRunning_worked _)
    split
    · exact .refl s
    · exact modEntry_worked _ _ fun _ _ _ => rfl

/-! ### The converter events -/

/-- R8: the owner of a job is handed its end. -/
theorem handOver_worked (j : Job) (h : idsDistinct s) : Worked s (handOver j s) := by
  unfold handOver
  split
  · exact itemNormalEnd_worked _ _ _
  · exact itemCutEnd_worked _ _
  · exact trialNormalEnd_worked _ _
  · exact trimEarlyEnd_worked _
  · exact watchNormalEnd_worked _ j h
  · exact .refl s

theorem finish_worked : Worked s (finish s) := (finish_arbitrated s).worked

/-- SETTLE_END (R7). -/
theorem settleEnd_worked (c : ConvId) : Worked s (settleEnd c s) := by
  unfold settleEnd
  split
  · exact .ofModConv c _
  · exact .refl s

/-- SAMPLE_END (R7, R12). -/
theorem sampleEnd_worked (c : ConvId) (outcome : SampleEnd) : Worked s (sampleEnd c outcome s) := by
  unfold sampleEnd
  split
  · exact .ofModConv c _
  · unfold sampleInCheck
    split
    · exact (concludeCheck_worked c _).trans finish_worked
    · exact .ofModConv c _
  · exact .refl s

/-- A context other than the one changed and put back. -/
theorem putBack_get (k l : CtxId) (s t : State) :
    (putBack k s t).contexts[l] = if l = k then s.contexts[k] else t.contexts[l] := by
  unfold putBack
  by_cases h : k = l
  · subst h; simp
  · have hv : ¬(k : Nat) = l := fun x => h (Fin.ext x)
    simp only [Fin.getElem_fin, Vector.getElem_set, hv, if_false, if_neg fun x : l = k => h x.symm]

/-- Arbiters that ran with one context changed, which is then put back. -/
theorem Arbitrated.putBack {k : CtxId} {f : Context → Context}
    (hf : ∀ c, (f c).state = c.state ∧ (f c).request = c.request) (a : Arbitrated (s.modCtx k f) t) :
    Arbitrated s (putBack k s t) := by
  have hw : s.NoChannelSetWaits → (s.modCtx k f).NoChannelSetWaits := by
    intro hn l d hd hs
    rw [modCtx_get] at hd
    split at hd
    · subst l
      obtain ⟨c, hc, rfl⟩ := Option.map_eq_some_iff.1 hd
      rw [(hf c).2]
      exact hn k c hc ((hf c).1 ▸ hs)
    · exact hn l d hd hs
  have hc : ∀ l : CtxId, l ≠ k → (s.modCtx k f).contexts[l] = s.contexts[l] := fun l hl => by rw [modCtx_get, if_neg hl]
  exact {
    engine := a.engine, engineState := a.engineState, interrupt := a.interrupt, stopped := a.stopped
    profiles := a.profiles, hopSets := a.hopSets, link := a.link
    configuration := fun hn => a.configuration (hw hn), converter := a.converter, noGrant := a.noGrant
    faultDischarges := a.faultDischarges, clearDischarges := a.clearDischarges
    contextFree := fun l hl => by
      rw [putBack_get]
      split
      · subst l; exact hl
      · exact a.contextFree l (by rw [hc l ‹_›]; exact hl)
    contextUsed := fun l c hl => by
      rw [putBack_get]
      split
      · subst l; exact ⟨c, hl, .refl c⟩
      · exact a.contextUsed l c (by rw [hc l ‹_›]; exact hl)
    nextAdmission := a.nextAdmission, queue := a.queue, setupReads := a.setupReads, fetchRead := a.fetchRead
    notRunning := a.notRunning, listReads := a.listReads, resultWrites := a.resultWrites, ring := a.ring
    ringWrite := a.ringWrite, issued := a.issued, halted := a.halted, reports := a.reports, lost := a.lost
    posting := a.posting, watch := a.watch, watchEntries := a.watchEntries, watchPending := a.watchPending
    pending := a.pending }

/-- R115: what follows an event but for one trial leaves alone what the arbiters leave alone, and that trial's context. -/
theorem finishBeforeTrial_arbitrated (k : CtxId) (s : State) : Arbitrated s (finishBeforeTrial k s) := by
  have a := finish_arbitrated (s.modCtx k fun c => { c with search := c.search.map Search.ended })
  unfold finishBeforeTrial
  generalize finish (s.modCtx k fun c => { c with search := c.search.map Search.ended }) = t at a ⊢
  refine Arbitrated.putBack ?_ a
  exact fun _ => ⟨rfl, rfl⟩

theorem finishBeforeTrial_context (k : CtxId) (s : State) : (finishBeforeTrial k s).contexts[k] = s.contexts[k] := by
  unfold finishBeforeTrial; rw [putBack_get, if_pos rfl]

/-- R8, R115: the two ways an event that ends a job goes on. -/
theorem finishJobEnd_cases (j : Job) (s : State) :
    finishJobEnd j s = finish s ∨ ∃ k, j.owner = .trial k ∧ j.cut = false ∧ trialWaits s k = true
      ∧ endCauseArrives (finishBeforeTrial k s) k = true ∧ finishJobEnd j s = finishBeforeTrial k s := by
  unfold finishJobEnd
  split
  · rename_i k ho hc
    unfold finishTrialEnd
    split
    · rename_i h
      obtain ⟨h1, h2⟩ := (Bool.and_eq_true _ _).mp h
      exact .inr ⟨k, ho, hc, h1, h2, rfl⟩
    · exact .inl rfl
  · exact .inl rfl

theorem finishJobEnd_arbitrated (j : Job) (s : State) : Arbitrated s (finishJobEnd j s) := by
  rcases finishJobEnd_cases j s with h | ⟨k, _, _, _, _, h⟩ <;> rw [h]
  · exact finish_arbitrated s
  · exact finishBeforeTrial_arbitrated k s

/-- DISCHARGE_END (R8). -/
theorem dischargeEnd_worked (c : ConvId) (h : idsDistinct s) : Worked s (dischargeEnd c s) := by
  unfold dischargeEnd
  split
  · exact (handOver_worked _ h).trans
      (((Worked.ofModConv c _).trans (resolveMark_worked c)).trans (finishJobEnd_arbitrated _ _).worked)
  · exact .refl s

/-- FAULT_EVENT (R13). -/
theorem faultEvent_worked (c : ConvId) : Worked s (faultEvent c s) := by
  have hj : ∀ j, Worked s (finish (faultJob c j s)) := fun j => by
    refine Worked.trans ?_ finish_worked
    unfold faultJob
    have h : Worked s (clearJob c (changeConvState c .offline (raise (.converterOffline c .fault none) s))) :=
      (raise_worked _).trans ((changeConvState_worked c _).trans (Worked.ofModConv c _))
    dsimp only
    exact h.trans (Worked.trans (Worked.ofConverters _ _) (resolveMark_worked c))
  unfold faultEvent
  split
  · exact hj _
  · exact hj _
  · exact hj _
  · exact (checkFail_worked c _ _).trans finish_worked
  · exact .refl s

/-- FAULT_DISCHARGE_END (R14, R15, R17). -/
theorem faultDischargeEnd_worked (c : ConvId) : Worked s (faultDischargeEnd c s) := by
  unfold faultDischargeEnd
  split
  · exact .refl s
  · have h : Worked s { s with faultDischarges := s.faultDischarges.eraseP fun d => d.conv == c } :=
      { Worked.refl s with }
    dsimp only
    split
    · refine h.trans (Worked.trans ?_ finish_worked)
      unfold faultEnd
      split
      · exact itemFaultEnd_worked _ _
      · exact itemCutEnd_worked _ _
      · exact trialFaultEnd_worked _
      · exact trimEarlyEnd_worked _
      · exact watchFaultEnd_worked _
      · exact .refl _
    · exact h

/-! ### What follows for the invariants of Safety.lean -/

/-- R165, R166. -/
theorem Worked.ringSound (h : Worked s t) (hs : s.RingSound) : t.RingSound := by
  refine ⟨by rw [h.ring]; exact hs.1, fun w hw hst => ?_⟩
  rw [h.ring]
  cases hr : s.ringWrite with
  | none => exact (h.issued hr w hw).2
  | some v =>
    rw [h.ringWrite (by rw [hr]; rfl), hr] at hw
    cases hw
    exact hs.2 _ hr hst

/-- R25, R27. -/
theorem Worked.profilesLegal (h : Worked s t) (hs : s.ProfilesLegal) : t.ProfilesLegal := by
  obtain ⟨h1, h2, h3, h4⟩ := hs
  refine ⟨by rw [h.profiles]; exact h1, by rw [h.hopSets]; exact h2, by rw [h.hopSets]; exact h3, fun q r b hq => ?_⟩
  rw [h.queue q] at hq
  exact h4 q r b hq

/-- R118: the watch list of a state after work is the one before, entry by entry, in what work leaves alone. -/
theorem Worked.watchListSound (h : Worked s t) (hs : s.WatchListSound) : t.WatchListSound := by
  obtain ⟨h1, h2, h3, h4, h5⟩ := hs
  have hp : t.watch.entries.map (fun e => (e.id, e.ch)) = s.watch.entries.map fun e => (e.id, e.ch) := by
    have := congrArg (List.map fun e : WatchEntry => (e.id, e.ch)) h.watchEntries
    simpa [List.map_map, Function.comp_def] using this
  have hm : ∀ (id : WatchId) (ch : Chan), (∃ e ∈ t.watch.entries, e.id = id ∧ e.ch = ch) ↔
      ∃ e ∈ s.watch.entries, e.id = id ∧ e.ch = ch := fun id ch => by
    have : (id, ch) ∈ t.watch.entries.map (fun e => (e.id, e.ch)) ↔
        (id, ch) ∈ s.watch.entries.map fun e => (e.id, e.ch) := by rw [hp]
    simpa [List.mem_map] using this
  refine ⟨?_, fun ch id => ?_, fun ch hl => ?_, h4.sublist h.watchPending, fun id hi => ?_⟩
  · have hi : t.watch.entries.map WatchEntry.id = s.watch.entries.map WatchEntry.id := by
      have := congrArg (List.map Prod.fst) hp
      simpa [List.map_map, Function.comp_def] using this
    have hl : (t.watch.entries.map WatchEntry.id).Pairwise (· < ·) := by
      rw [hi]
      exact List.pairwise_map.2 h1
    exact List.pairwise_map.1 hl
  · rw [(h.link ch).1, hm]
    exact h2 ch id
  · have := (h.link ch).1
    rw [this] at hl
    exact (h.link ch).2 hl (h3 ch hl)
  · obtain ⟨e, he, hid⟩ := h5 id (h.watchPending.subset hi)
    obtain ⟨x, hx, hxi, _⟩ := (hm id e.ch).2 ⟨e, he, hid, rfl⟩
    exact ⟨x, hx, hxi⟩

/-- The ids of a sound watch list are distinct. -/
theorem State.WatchListSound.idsDistinct (h : s.WatchListSound) : idsDistinct s := by
  intro d hd e he hi
  by_contra hne
  have hp := List.pairwise_iff_getElem.1 h.1
  obtain ⟨i, hil, rfl⟩ := List.mem_iff_getElem.1 hd
  obtain ⟨j, hjl, rfl⟩ := List.mem_iff_getElem.1 he
  rcases Nat.lt_trichotomy i j with hij | hij | hij
  · exact absurd (hp i j hil hjl hij) (by rw [hi]; exact lt_irrefl _)
  · subst hij; exact hne rfl
  · exact absurd (hp j i hjl hil hij) (by rw [hi]; exact lt_irrefl _)

/-- R63: work leaves the number of each queue's contexts alone. -/
theorem Worked.contextsOf_eq (h : Worked s t) (q : QueueId) : contextsOf t q = contextsOf s q := by
  unfold contextsOf
  congr 1
  funext k
  cases hk : s.contexts[k] with
  | none => rw [h.contextFree k hk]
  | some c =>
    obtain ⟨d, hd, hq, _⟩ := h.contextUsed k c hk
    rw [hd]
    simp only [hq]

/-- R63, R64, R66, R80: the Context Table stays sound under work; where the engine goes OFF, that no context is in use is
R182. -/
theorem Worked.contextsSound (h : Worked s t) (hs : s.ContextsSound)
    (hoff : s.engine.state = .stopping → t.engine.state = .off → ∀ k : CtxId, t.contexts[k] = none) :
    t.ContextsSound := by
  obtain ⟨h1, h2, h3, h4⟩ := hs
  have back : ∀ (k : CtxId) (d : Context), t.contexts[k] = some d → ∃ c, s.contexts[k] = some c
      ∧ d.queue = c.queue ∧ d.holdsTag = c.holdsTag ∧ d.admission = c.admission ∧ d.request = c.request := by
    intro k d hd
    cases hk : s.contexts[k] with
    | none => rw [h.contextFree k hk] at hd; cases hd
    | some c =>
      obtain ⟨e, he, a1, a2, a3, a4, _⟩ := h.contextUsed k c hk
      rw [he] at hd
      cases hd
      exact ⟨c, rfl, a1, a2, a3, a4⟩
  refine ⟨fun hst k => ?_, fun q => ?_, fun k d hd => ?_, fun k l d e hd he hne => ?_⟩
  · rcases h.engineState with hh | ⟨hh, hr⟩ | ⟨hh, hr⟩
    · rw [hh] at hst
      exact h.contextFree k (h1 hst k)
    · exact h.contextFree k (h1 (.inr hh) k)
    · exact hoff hh hr k
  · rw [h.contextsOf_eq q, ← h2 q, h.queue q]
  · obtain ⟨c, hc, _, _, ha, _⟩ := back k d hd
    rw [ha, h.nextAdmission]
    exact h3 k c hc
  · obtain ⟨c, hc, a1, a2, a3, a4⟩ := back k d hd
    obtain ⟨c', hc', b1, b2, b3, b4⟩ := back l e he
    rw [a1, a2, a3, a4, b1, b2, b3, b4]
    exact h4 k l c c' hc hc' hne

/-! ### The end of a stop (R182) -/

/-- R182: the test of the model is the four conditions. -/
theorem stopDone_iff (s : State) : stopDone s = true ↔ s.StopConditions := by
  have hc : contextsInUse s = 0 ↔ ∀ k : CtxId, s.contexts[k] = none := by
    unfold contextsInUse
    rw [List.countP_eq_zero]
    constructor
    · intro h k
      have : k ∈ allContexts := by revert k; decide
      simpa using h k this
    · intro h k _
      simp [h k]
  have hv : allConverters.all (fun c => s.converters[c].state != .checking) = true ↔
      ∀ c : ConvId, s.converters[c].state ≠ .checking := by
    rw [List.all_eq_true]
    constructor
    · intro h c
      have : c ∈ allConverters := by revert c; decide
      simpa using h c this
    · intro h c _
      simpa using h c
  unfold stopDone State.StopConditions
  rw [Bool.and_eq_true, Bool.and_eq_true, Bool.and_eq_true, beq_iff_eq, hc, hv, List.isEmpty_iff, List.isEmpty_iff]
  tauto

/-- A fold of operations that leave Engine Control alone leaves it alone. -/
theorem engineKept_foldl {α : Type} (f : State → α → State) (hf : ∀ t x, (f t x).engine = t.engine) (l : List α)
    (s : State) : (l.foldl f s).engine = s.engine := by
  induction l generalizing s with
  | nil => rfl
  | cons x xs ih => rw [List.foldl_cons, ih, hf]

theorem enterWriting_engine (k : CtxId) (st : Status) (d : Detail) (addr : Addr) (data : List Byte) (s : State) :
    (enterWriting k st d addr data s).engine = s.engine := by
  rcases enterWriting_cases s k st d addr data with ⟨_, h⟩ | ⟨_, h⟩ <;> rw [h] <;> rfl

theorem measureWorkEnd_engine (k : CtxId) (s : State) : (measureWorkEnd k s).engine = s.engine := by
  unfold measureWorkEnd
  split
  · rfl
  · split
    · split
      · split
        · rfl
        · rw [enterWriting_engine]; rfl
      · rfl
    · rfl

theorem endSearch_engine (k : CtxId) (c : Context) (b : TrimBody) (q : Search) (st : Status) (mean : Option Nat)
    (s : State) : (endSearch k c b q st mean s).engine = s.engine := by
  unfold endSearch
  dsimp only
  rw [enterWriting_engine]
  unfold settleTrim
  split <;> rfl

theorem noConverterEnds_engine (s : State) : (noConverterEnds s).engine = s.engine := by
  have h1 : ∀ (t : State) (k : CtxId), (contextNoConverter t k).engine = t.engine := by
    intro t k
    unfold contextNoConverter
    split
    · rfl
    · split
      · exact measureWorkEnd_engine _ _
      · unfold trialNoConverter
        split
        · rfl
        · split
          · exact endSearch_engine _ _ _ _ _ _ _
          · rfl
      · rfl
  unfold noConverterEnds
  split
  · unfold skipAllPending
    rw [engineKept_foldl (fun t id => skipPending id t) (fun _ _ => rfl), engineKept_foldl _ h1]
  · rfl

theorem grantPass_engine (s : State) : (grantPass s).engine = s.engine := by
  unfold grantPass
  split
  · exact engineKept_foldl _ tryGrant_engine _ s
  · rfl

theorem settleClaims_engine (n : Nat) (s : State) : (settleClaims n s).engine = s.engine := by
  induction n generalizing s with
  | zero => rfl
  | succ n ih =>
    unfold settleClaims
    dsimp only
    split
    · rw [ih, noConverterEnds_engine, grantPass_engine]
    · rw [noConverterEnds_engine, grantPass_engine]

theorem offerWatch_engine (c : ConvId) (id : WatchId) (s : State) : (offerWatch c id s).engine = s.engine := by
  unfold offerWatch
  split
  · split <;> rfl
  · rfl

theorem dispatchWork_engine (c : ConvId) (w : Work) (s : State) : (dispatchWork c w s).engine = s.engine := by
  unfold dispatchWork
  split
  · split
    · split <;> rfl
    · rfl
  · split <;> rfl

theorem arbiterLoop_engine (n : Nat) (s : State) : (arbiterLoop n s).engine = s.engine := by
  induction n generalizing s with
  | zero => rfl
  | succ n ih =>
    unfold arbiterLoop
    split
    · rename_i t ht
      rw [ih]
      unfold arbiterStep at ht
      split at ht
      · split at ht
        · cases ht
        · split at ht
          · cases ht; exact offerWatch_engine _ _ _
          · split at ht
            · cases ht; exact dispatchWork_engine _ _ _
            · split at ht
              · cases ht; exact offerWatch_engine _ _ _
              · cases ht
      · cases ht
    · rfl

/-- Engine Control before the end-of-stop test of an event is as before the arbiters. -/
theorem beforeTest_engine (s : State) :
    (issueRingWrite (issueFetch (orderPosts (runArbiters s)))).engine = s.engine := by
  have h1 : ∀ t : State, (issueRingWrite t).engine = t.engine := by
    intro t
    unfold issueRingWrite
    split
    · split
      · rfl
      · split <;> rfl
    · rfl
  have h2 : ∀ t : State, (issueFetch t).engine = t.engine := by
    intro t
    unfold issueFetch
    split
    · split <;> rfl
    · rfl
  have h3 : ∀ t : State, (orderPosts t).engine = t.engine := fun _ => rfl
  rw [h1, h2, h3]
  unfold runArbiters
  rw [arbiterLoop_engine, settleClaims_engine]

/-- R182, R188: the end-of-stop test. -/
theorem testStop_stops (x : State) (hx : x.engine.state = .stopping) :
    ((testStop x).engine.state = .off ↔ (testStop x).StopConditions)
      ∧ ((testStop x).engine.state = .off → (testStop x).interrupt.stickyStopped = true)
      ∧ ((testStop x).engine.state = .off ∨ (testStop x).engine.state = .stopping) := by
  unfold testStop
  split
  · rename_i hd
    obtain ⟨a, b, c, d⟩ := (stopDone_iff x).1 hd.2
    exact ⟨⟨fun _ => ⟨a, b, c, d⟩, fun _ => rfl⟩, fun _ => rfl, .inl rfl⟩
  · rename_i hd
    have hn : x.engine.state ≠ .off := by rw [hx]; simp
    exact ⟨⟨fun h => absurd h hn, fun hc => absurd ⟨hx, (stopDone_iff x).2 hc⟩ hd⟩, fun h => absurd h hn, .inr hx⟩

/-- R182, R188: a stop ends in an event exactly when its conditions hold after it. -/
theorem finish_stops (s : State) (h : s.engine.state = .stopping) :
    ((finish s).engine.state = .off ↔ (finish s).StopConditions)
      ∧ ((finish s).engine.state = .off → (finish s).interrupt.stickyStopped = true)
      ∧ ((finish s).engine.state = .off ∨ (finish s).engine.state = .stopping) := by
  have hx := (congrArg Engine.state (beforeTest_engine s)).trans h
  unfold finish
  exact testStop_stops _ hx

/-- R182: a context changed and put back leaves the conditions of a stop as they are. -/
theorem putBack_stopConditions {k : CtxId} {f : Context → Context} (a : Arbitrated (s.modCtx k f) t) :
    (putBack k s t).StopConditions ↔ t.StopConditions := by
  have hn : s.contexts[k] = none ↔ t.contexts[k] = none := by
    have hs : s.contexts[k] = none ↔ (s.modCtx k f).contexts[k] = none := by
      rw [modCtx_get, if_pos rfl, Option.map_eq_none_iff]
    rw [hs]
    refine ⟨a.contextFree k, fun ht => ?_⟩
    cases hc : (s.modCtx k f).contexts[k] with
    | none => rfl
    | some c =>
      obtain ⟨d, hd, _⟩ := a.contextUsed k c hc
      rw [hd] at ht; cases ht
  have hg : ∀ l : CtxId, (putBack k s t).contexts[l] = none
      ↔ t.contexts[l] = none := by
    intro l
    rw [putBack_get]
    split
    · subst l; exact hn
    · exact Iff.rfl
  unfold State.StopConditions
  rw [forall_congr' hg]
  exact Iff.rfl

/-- R182, R188: the same of an event whose arbiters do not see one trial. -/
theorem finishBeforeTrial_stops (k : CtxId) (s : State) (h : s.engine.state = .stopping) :
    ((finishBeforeTrial k s).engine.state = .off ↔ (finishBeforeTrial k s).StopConditions)
      ∧ ((finishBeforeTrial k s).engine.state = .off → (finishBeforeTrial k s).interrupt.stickyStopped = true)
      ∧ ((finishBeforeTrial k s).engine.state = .off ∨ (finishBeforeTrial k s).engine.state = .stopping) := by
  have a := finish_arbitrated (s.modCtx k fun c => { c with search := c.search.map Search.ended })
  have b := finish_stops (s.modCtx k fun c => { c with search := c.search.map Search.ended }) h
  unfold finishBeforeTrial
  generalize finish (s.modCtx k fun c => { c with search := c.search.map Search.ended }) = t at a b ⊢
  rw [putBack_stopConditions a]
  exact b

/-- Outside STOPPING the engine state is as before the arbiters. -/
theorem finish_state (s : State) (h : s.engine.state ≠ .stopping) : (finish s).engine.state = s.engine.state :=
  ((finish_arbitrated s).state_eq h).symm

end Sys2Proof.Machine
end

