-- ==== Sys2Proof/Tests/Slice0.lean ====
section
/-! SUPPORT. Tests of single steps, with expected values from the spec's worked examples and rules; the WellFormed
smoke tests; and, for every obligation with hypotheses, a state and operands that meet them. -/

namespace Sys2Proof.Tests

open Sys2Proof Sys2Proof.Machine

-- One theorem after the other: each kernel evaluation would otherwise wait in a thread of its own.
set_option Elab.async false

/-! ### Builders of small states -/

/-- The state a command leads to. -/
def after (c : Instr) (s : State) : State :=
  match exec c s with
  | .next t => t
  | .fault _ => s
  | .refused _ => s

/-- Whether a command answers a next state. -/
def answersNext (c : Instr) (s : State) : Bool :=
  match exec c s with
  | .next _ => true
  | .fault _ => false
  | .refused _ => false

/-- Queue 0 of section 9.8's kind: 16 slots, quota 4, nothing to fetch. -/
def queue : Queue :=
  { state := .active, base := 0x1000, size := 16, quota := 4, fetchIndex := 7, tail := 7, inFlight := 0, held := none
    readOutstanding := false }

/-- A configured ring of 32 slots with nothing in it. -/
def ring : Ring :=
  { configured := true, base := 0x8000, size := 32, writeIndex := 0, head := 0, phase := true, count := 0 }

/-- Reset, in a given engine state. -/
def inEngine (st : EngineState) : State := { State.reset with engine := { Engine.atReset with state := st } }

/-- RUNNING, with queue 0 ACTIVE and the ring configured. -/
def running : State := { inEngine .running with queues := State.reset.queues.set 0 queue, ring := ring }

/-- Puts a converter in a state with a job. -/
def withConv (v : ConvId) (st : ConvState) (j : Option Job) (s : State) : State :=
  s.modConv v fun x => { x with state := st, job := j }

/-- Leaves a mark on a converter. -/
def withMark (v : ConvId) (kind : MarkKind) (k : CtxId) (s : State) : State :=
  s.modConv v fun x => { x with mark := some { kind := kind, owner := k } }

/-- Puts a context into a place. -/
def withCtx (k : CtxId) (c : Context) (s : State) : State := { s with contexts := s.contexts.set k (some c) }

/-- Makes a channel READY with a baseline and a holder. -/
def withChan (ch : Chan) (baseline : Option Nat) (h : Option Holder) (s : State) : State :=
  s.modChan ch fun e => { e with ready := true, baseline := baseline, holder := h }

/-- A request of a body, with tag 7 and 100 bytes of result buffer. -/
def request (body : Body) (setBaseline : Bool := false) : Request :=
  { kind := 1, flags := { fence := false, keepSamples := false, setBaseline := setBaseline, externalList := false }
    tag := 7, resultAddr := 0x2000, resultLength := 100, body := body }

/-- A context of queue 0. -/
def context (st : CtxState) (body : Body) (setBaseline : Bool := false) : Context :=
  { state := st, queue := 0, holdsTag := true, admission := 0, request := request body setBaseline, claimSet := []
    items := [], search := none, action := none, endCause := none, result := none, bytesWritten := 0 }

/-- Gives a context a tag and an admission number. -/
def numbered (tag n : Nat) (c : Context) : Context := { c with request := { c.request with tag := tag }, admission := n }

/-- The MEASURE of section 5.5, cut to its items on single channels. -/
def measureBody : MeasureBody :=
  { itemCount := 1, n := 4, settle := 3, hop := 0, ceiling := 12000, listAddr := 0, inlineItems := [] }

/-- An item entry on one channel. -/
def entry (ch : Chan) (job : JobState) : ItemEntry :=
  { item := .single ch, job := job, conv := some 0, retryUsed := false, samples := [], status := none, delta := none
    baselineWritten := false }

/-- An ACTIVE MEASURE with one item on channel 6. -/
def measuring (job : JobState) : Context :=
  { context .active (.measure measureBody) true with claimSet := [6], items := [entry 6 job] }

/-- The job of section 5.5, on channel 6. -/
def itemJob (samples : List Sample) : Job :=
  { owner := .item 0 0, connection := .electrodes (.single 6), n := 4, settle := 3, ceiling := 12000
    profiles := [Profile.atReset], applied := [], samples := samples, cut := false }

/-- The job of a check (R11). -/
def checkJob (owner : CheckOwner) (samples : List Sample) : Job :=
  { owner := .check owner, connection := .reference, n := 4, settle := 6, ceiling := 65535
    profiles := [Profile.atReset], applied := [], samples := samples, cut := false }

/-- The TRIM of section 6.5. -/
def trimBody : TrimBody :=
  { channel := 17, n := 4, settle := 2, hop := 0, ceiling := 6000, windowLow := 4900, windowHigh := 5100 }

/-- Its search at trial 7 (section 6.5). -/
def search : Search :=
  { savedTrim := 64, savedBaseline := some 5600, comp := .load, decided := 74, trial := 7, trialTrim := 74
    job := .running, retryUsed := false, log := [] }

/-- The watch entry of section 7.6. -/
def watch4 : WatchEntry :=
  { id := 4, ch := 22, n := 8, settle := 3, hop := 0, ceiling := 12000, upper := some 600, lower := some 400
    hysteresis := 100, persistence := 3, shift := 4, state := .inside, count := 0, direction := .high, last := none
    skipped := 0 }

/-- Writes bytes at an offset of a block. -/
def put (off : Nat) (v bytes : List Byte) : List Byte := bytes.take off ++ v ++ bytes.drop (off + v.length)

/-- Sixty-four zero bytes. -/
def block : List Byte := zeros 64

/-- The setup block of section 10.8, byte by byte from 11.2: two queues, sizes 16 and 32, quotas 4 and 2, a ring of 32
records, a period of 100 ms. -/
def setupBytes : List Byte :=
  put 0 [2] (put 4 [100, 0] (put 8 [0x00, 0x80, 0x00, 0x00] (put 12 [32, 0] (put 16 [0x00, 0x10, 0x00, 0x00, 16, 0, 4]
    (put 28 [0x00, 0x20, 0x00, 0x00, 32, 0, 2] block)))))

/-- A WATCH_TIMING record of period 0 and tag 0x0201 (11.3). -/
def timingRecord : List Byte := put 0 [8, 0, 0x01, 0x02] block

/-- The same record with FENCE. -/
def fencedRecord : List Byte := put 1 [1] timingRecord

/-- A record of kind 0, which names none (R67). -/
def badRecord : List Byte := block

/-! ### WellFormed: an ill-formed term for each check -/

theorem test_wf_commandRefused : (Instr.commandRefused 4).wellFormed = false ∧ (Instr.commandRefused 1).wellFormed = false
    ∧ (Instr.commandRefused 0).wellFormed = true ∧ (Instr.commandRefused 5).wellFormed = true := by decide

theorem test_wf_registerWrite : (Instr.registerWrite 0x14 0).wellFormed = false
    ∧ (Instr.registerWrite 0 0).wellFormed = false ∧ (Instr.registerWrite 8 0).wellFormed = true := by decide

theorem test_wf_setupReadEnd : (Instr.setupReadEnd 0 (.data (zeros 63))).wellFormed = false
    ∧ (Instr.setupReadEnd 0 (.data block)).wellFormed = true := by decide

theorem test_wf_fetchReadEnd : (Instr.fetchReadEnd (.data (zeros 65))).wellFormed = false
    ∧ (Instr.fetchReadEnd .busError).wellFormed = true := by decide

theorem test_wf_listReadEnd : (Instr.listReadEnd 0 (.data [])).wellFormed = false
    ∧ (Instr.listReadEnd 0 (.data (zeros 6))).wellFormed = false
    ∧ (Instr.listReadEnd 0 (.data (zeros 132))).wellFormed = false
    ∧ (Instr.listReadEnd 0 (.data (zeros 128))).wellFormed = true := by decide +kernel

/-- No row of the table gives bits. -/
theorem test_decodeTableWord : decodeTableWord 8 0 = none := by decide

/-! ### One step of each command -/

/-- R173, R36: a device reset turns a channel OFF. -/
theorem test_deviceReset :
    (after .deviceReset (withChan 3 (some 9) none running)).channels[(3 : Chan)] = Channel.atReset := by decide +kernel

/-- 10.8, event 1. -/
theorem test_start : (after .start State.reset).engine.state = .loading
    ∧ (after .start State.reset).setupReads = [{ addr := 0, abandoned := false }] := by decide +kernel

/-- R174: START outside OFF is refused with code 1. -/
theorem test_start_refused : (after .start running).engine.lastError = .commandRefused
    ∧ (after .start running).engine.reasonCode = 1 := by decide +kernel

/-- R182: a drain with nothing in use ends at once, and STOPPED is set. -/
theorem test_stopDrain : (after .stopDrain running).engine.state = .off
    ∧ (after .stopDrain running).interrupt.stickyStopped = true := by decide +kernel

/-- R179: STOP_CUT ends LOADING. -/
theorem test_stopCut : (after .stopCut (after .start State.reset)).engine.state = .off
    ∧ (after .stopCut (after .start State.reset)).setupReads = [{ addr := 0, abandoned := true }] := by decide +kernel

/-- R184: CLEAR frees the contexts and stops the job of one, whose pins discharge (R17). -/
theorem test_clear :
    let t := after .clear (withConv 0 .sampling (some (itemJob [])) (withCtx 0 (measuring .running) running))
    t.contexts[(0 : CtxId)] = none ∧ t.clearDischarges = [{ conv := 0, connection := .electrodes (.single 6) }]
      ∧ t.engine.state = .off := by decide +kernel

/-- R174: another code is refused, with the code. -/
theorem test_commandRefused : (after (.commandRefused 0x39) running).engine.reasonCode = 9 := by decide +kernel

/-- R160, R161: a Submit Index of 9 on queue 0 reads slot 7, at 0x1000 + 64 * 7. -/
theorem test_submitIndex : (after (.submitIndex 9) running).fetchRead
    = some { queue := 0, addr := 0x11C0, current := true } := by decide +kernel

/-- R160: a tail of 16 in a ring of 16 slots faults the queue. -/
theorem test_submitIndex_fault : ((after (.submitIndex 16) running).queues[(0 : QueueId)]).state = .faulted := by
  decide +kernel

/-- 10.8, event 7. -/
theorem test_releaseIndex :
    let s := { running with ring := { ring with writeIndex := 2, count := 2 } }
    (after (.releaseIndex 2) s).ring = { ring with writeIndex := 2, head := 2, count := 0 } := by decide +kernel

/-- 9.9: r = 26 exceeds 25. -/
theorem test_releaseIndex_refused :
    let s := { running with ring := { ring with writeIndex := 11, head := 18, count := 25, phase := false } }
    (after (.releaseIndex 12) s).ring.head = 18
      ∧ (after (.releaseIndex 12) s).engine.lastError = .releaseInvalid := by decide +kernel

/-- R187, 11.6: enables in bits 0..3, threshold 4, timer setting 40. -/
theorem test_interruptControl : readRegister 0x14 (after (.interruptControl 0x0028040F) running) = 0x0028040F := by
  decide +kernel

/-- R185. -/
theorem test_registerWrite : readRegister 0x08 (after (.registerWrite 0x08 0x1234) running) = 0x1234 := by decide +kernel

/-- 10.8, event 2: with converter 2 HELD, checks start on converters 0, 1 and 3. -/
theorem test_setupReadEnd :
    let t := after (.setupReadEnd 0 (.data setupBytes)) (after .start (withConv 2 .held none State.reset))
    t.engine.startupLeft = [0, 1, 3] ∧ (t.queues[(1 : QueueId)]).quota = 2 ∧ t.watch.period = 100
      ∧ t.converters[(3 : ConvId)].origin = some .offline ∧ t.engine.state = .loading := by decide +kernel

/-- R162, R126: a WATCH_TIMING record is admitted, executes and stands in POSTING; its ring write is issued. -/
theorem test_fetchReadEnd :
    let s := { running with fetchRead := some { queue := 0, addr := 0x11C0, current := true } }
    let t := after (.fetchReadEnd (.data timingRecord)) s
    (t.contexts[(0 : CtxId)]).map (fun c => (c.state, c.result, c.request.tag))
        = some (.posting, some (.success, .period 0), 0x0201)
      ∧ (t.queues[(0 : QueueId)]).fetchIndex = 8 ∧ t.ringWrite.isSome = true := by decide +kernel

/-- R72: the items of the list, and their claim set with each channel once (R46). -/
theorem test_listReadEnd :
    let c := context .listing (.measure { measureBody with itemCount := 2 })
    let s := { withChan 6 none none (withCtx 0 c running) with
      listReads := [{ owner := 0, addr := 0x3000, bytes := 8, discarded := false }] }
    ((after (.listReadEnd 0 (.data [1, 6, 0, 0, 2, 0, 0xC0, 0])) s).contexts[(0 : CtxId)]).map (fun c => c.claimSet)
      = some [6, 7] := by decide +kernel

/-- 5.5: the write of 88 bytes completes. -/
theorem test_resultWriteEnd :
    let c := { context .writing (.measure measureBody) with result := some (.partialDone, .count 2) }
    let s := { withCtx 0 c running with
      resultWrites := [{ owner := 0, addr := 0x2000, data := zeros 88, abandoned := false }] }
    ((after (.resultWriteEnd 0 .completes) s).contexts[(0 : CtxId)]).map (fun c => (c.state, c.bytesWritten))
      = some (.posting, 88) := by decide +kernel

/-- 9.9: the write of N1 in slot 31 wraps the write index and toggles the phase. -/
theorem test_completionRingWriteEnd :
    let s := { running with
      ring := { ring with writeIndex := 31, head := 2, count := 29 }
      reports := [.noConverter], posting := []
      ringWrite := some { source := .report, addr := 0x81F0, data := zeros 16, carriedLost := 0, stale := false } }
    let t := after (.completionRingWriteEnd .completes) s
    t.ring = { ring with writeIndex := 0, head := 2, count := 30, phase := false } ∧ t.reports = [] := by decide +kernel

/-- R7. -/
theorem test_settleEnd :
    (after (.settleEnd 1) (withConv 1 .settling (some (itemJob [])) running)).converters[(1 : ConvId)].state
      = .sampling := by decide +kernel

/-- 5.5: sample 1 of I2 ends STALL, and its converter enters DISCHARGING. -/
theorem test_sampleEnd :
    let t := after (.sampleEnd 2 .stall) (withConv 2 .sampling (some (itemJob [.good 4410])) running)
    t.converters[(2 : ConvId)].state = .discharging
      ∧ t.converters[(2 : ConvId)].job.map (fun j => j.samples) = some [.good 4410, .stall] := by decide +kernel

/-- 10.8, event 3: a check with mean 2950 fails. -/
theorem test_sampleEnd_check :
    let s := (withConv 0 .idle none (inEngine .loading)).modConv 3 fun v => { v with
      state := .checking, origin := some .offline
      job := some (checkJob .engineControl [.good 2950, .good 2948, .good 2953]) }
    (after (.sampleEnd 3 (.good 2951)) s).reports = [.converterOffline 3 .checkFailed (some 2950)] := by decide +kernel

/-- 5.5, the end of I0: mean 5022, delta -78, DEGRADED, and the baseline of channel 6 written. -/
theorem test_dischargeEnd :
    let j := itemJob [.good 5020, .good 5036, .ceiling 12000, .good 5011]
    let s := withConv 0 .discharging (some j) (withChan 6 (some 5100) (some (.context 0))
      (withCtx 0 (measuring .running) running))
    let t := after (.dischargeEnd 0) s
    t.channels[(6 : Chan)].baseline = some 5022
      ∧ (t.contexts[(0 : CtxId)]).map (fun c => c.items.map fun e => (e.status, e.delta))
          = some [(some .degraded, some (-78))] := by decide +kernel

/-- R13, R18: the fault of the last online converter raises CONVERTER_OFFLINE and NO_CONVERTER. -/
theorem test_faultEvent :
    (after (.faultEvent 1) (withConv 1 .checking (some (checkJob .nobody [])) running)).reports
      = [.converterOffline 1 .fault none, .noConverter] := by decide +kernel

/-- 5.5, event at 4002.0: the retried item is dispatched on converter 2. -/
theorem test_faultDischargeEnd :
    let s := withConv 2 .idle none (withChan 6 none (some (.context 0)) (withCtx 0 (measuring .running) running))
    let t := after (.faultDischargeEnd 1) { s with
      faultDischarges := [{ conv := 1, connection := .electrodes (.single 6), job := some (itemJob [.good 7010]) }] }
    t.converters[(2 : ConvId)].state = .settling
      ∧ (t.contexts[(0 : CtxId)]).map (fun c => c.items.map fun e => (e.job, e.retryUsed, e.conv))
          = some [(.running, true, some 2)] := by decide +kernel

/-- R17. -/
theorem test_clearDischargeEnd :
    (after (.clearDischargeEnd 0) { State.reset with
      clearDischarges := [{ conv := 0, connection := .electrodes (.single 6) }] }).clearDischarges = [] := by
  decide +kernel

/-- R128: an expiry starts a round; its one job has no converter, so it waits. -/
theorem test_periodTimerExpiry :
    let s := { running with watch := { WatchUnit.atReset with entries := [watch4], period := 50, timer := some 1 } }
    let t := after .periodTimerExpiry (withConv 0 .checking (some (checkJob .nobody [])) s)
    t.watch.round = 1 ∧ t.watch.pending = [4] ∧ t.watch.timer = some 1600000 := by decide +kernel

/-- 10.8, event 6: the late flag holds COMPLETION below the threshold, and INT_N goes low. -/
theorem test_coalescingTimerExpiry :
    let s := { running with
      ring := { ring with writeIndex := 2, count := 2 }
      interrupt := { InterruptUnit.atReset with enCompletion := true, threshold := 4, timerSetting := 40, timer := some 1 } }
    intNLow s = false ∧ intNLow (after .coalescingTimerExpiry s) = true := by decide +kernel

/-! ### Worked examples of single operations -/

/-- 7.6, rounds 101, 103 and 106. -/
theorem test_judge_inside :
    (judge (some 5000) 4984 watch4).baseline = some 4999
      ∧ (judge (some 4999) 4710 watch4).baseline = some 4981
      ∧ (judge (some 4981) 4525 { watch4 with count := 2, direction := .low }).event = some .crossedLow := by decide

/-- 7.6, rounds 107, 108 and 113. -/
theorem test_judge_below :
    (judge (some 4981) 4650 { watch4 with state := .below }).entry.count = 0
      ∧ (judge (some 4981) 4700 { watch4 with state := .below }).entry.count = 1
      ∧ (judge (some 4981) 4975 { watch4 with state := .below, count := 2 }).event = some .returned := by decide

/-- 6.5, trials 0 and 1. -/
theorem test_trim_decision :
    (classify 4900 5100 .good (some 5118)) = some .tooHigh
      ∧ (({ search with decided := 0, trial := 0 } : Search).decide .tooHigh).decided = 64
      ∧ (({ search with decided := 64, trial := 1 } : Search).decide .tooLow).decided = 64 := by decide

/-- 11.3: item and profile bytes of a MEASURE and a PROFILE_SET record. -/
theorem test_request_fields :
    RawItem.ofBytes [2, 1, 0x07, 0] 0 = { kind := 2, sel := 1, mask := 0x07 }
      ∧ (Request.ofBytes (put 2 [0x34, 0x12] block)).tag = 0x1234
      ∧ Profile.ofByte 0x53 = { high := 4, low := 6 } := by decide +kernel

/-! ### Witnesses: states and operands that meet the hypotheses of the obligations -/

/-- Of FrontCommandRuns and SetupAddressRegister. -/
theorem test_witness_FrontCommandRuns :
    { State.reset with pending := [.start, .clear] }.pending = Instr.start :: [.clear] ∧ running.pending = []
      ∧ answersNext .clear running = true ∧ State.reset.engine.state = .off
      ∧ (0x04#32 ∉ [0x00#32, 0x08#32, 0x0C#32, 0x10#32, 0x14#32])
      ∧ (0x18#32 ∉ [0x04#32, 0x08#32, 0x10#32, 0x14#32]) := by decide +kernel

/-- Of CommandTable, StartBeginsLoading and StopDrainStopsIntake: one state for each row, and the codes at the edges of 1..4. -/
theorem test_witness_CommandTable :
    State.reset.engine.state = .off ∧ (inEngine .loading).engine.state = .loading ∧ running.engine.state = .running
      ∧ (inEngine .halted).engine.state = .halted
      ∧ ({ inEngine .stopping with engine := { Engine.atReset with state := .stopping, stopMode := .drain } } : State).engine.stopMode
          = .drain
      ∧ (0 : Nat) ∉ [1, 2, 3, 4] ∧ (5 : Nat) ∉ [1, 2, 3, 4] ∧ (15 : Nat) ∉ [1, 2, 3, 4] := by decide +kernel

/-- Of StopCutEndsWork: a waiting context, an ACTIVE CONVERTER_SET, a writing one, and a running item job. -/
theorem test_witness_StopCutEndsWork :
    let s := withCtx 0 (context .claiming (.measure measureBody)) (withCtx 1 (context .active (.converterSet 0 1))
      (withCtx 2 (context .writing (.measure measureBody)) (withCtx 3 (measuring .running)
        (withConv 0 .sampling (some { itemJob [] with owner := .item 3 0 }) running))))
    s.engine.state = .running ∧ s.contexts[(0 : CtxId)] = some (context .claiming (.measure measureBody))
      ∧ s.contexts[(1 : CtxId)] = some (context .active (.converterSet 0 1))
      ∧ s.contexts[(2 : CtxId)] = some (context .writing (.measure measureBody))
      ∧ s.converters[(0 : ConvId)].job = some { itemJob [] with owner := .item 3 0 }
      ∧ s.contexts[(3 : CtxId)] = some (measuring .running) ∧ (measuring .running).endCause = none
      ∧ s.converters[(0 : ConvId)].state = .sampling := by decide +kernel

/-- Of StopCutEndsWork, its other clauses: a CONVERTER_SET with a mark, a running trial (R16), an idle TRIM (R74, R112), a
MEASURE whose job waits in a fault discharge; RUNNING, and STOPPING by a drain. -/
theorem test_witness_StopCutCuts :
    let trim (b : TrimBody) (job : JobState) : Context := { context .active (.trim b) with
      claimSet := [b.chan]
      search := some
        { savedTrim := 64, savedBaseline := none, comp := .load, decided := 0, trial := 0, trialTrim := 64, job := job
          retryUsed := false, log := [] } }
    let s := withChan 18 (some 9) (some (.context 4)) (withCtx 1 (context .active (.converterSet 0 1)) (withMark 0 .hold 1
      (withCtx 3 (trim trimBody .running) (withCtx 4 (trim { trimBody with channel := 18 } .notStarted)
        (withCtx 5 (measuring .running) (withConv 0 .sampling (some { itemJob [] with owner := .trial 3 })
          { running with faultDischarges := [{ conv := 1, connection := .electrodes (.single 6)
                                               job := some { itemJob [] with owner := .item 5 0 } }] }))))))
    let drained := { s with engine := { s.engine with state := .stopping, stopMode := .drain } }
    let told (t : State) (k : CtxId) : Option CtxState := (t.contexts[k]).map fun c => c.state
    [s, drained].all (fun u =>
      let t := after .stopCut u
      [told t 1, told t 3, told t 4, told t 5] == [some .posting, some .active, some .posting, some .active]
        && t.converters[(0 : ConvId)].mark.isNone && t.converters[(0 : ConvId)].state == .discharging
        && t.converters[(0 : ConvId)].job.any (fun j => j.cut)
        && t.faultDischarges.all (fun d => d.job.any fun j => j.cut)
        && t.channels[(18 : Chan)].baseline.isNone && t.engine.stopMode == .cut) = true := by decide +kernel

/-- A RUNNING TRIM on channel 17, at its verify trial. -/
def trimming : State :=
  withChan 17 (some 5600) (some (.context 0)) (withCtx 0 { context .active (.trim trimBody) with
    claimSet := [17], search := some search } running)

/-- Of ClearEndsSession, VerifyEndsSearch and the trial of DispatchMakesJob, with a mean at each end of the window, one outside it, and none. -/
theorem test_witness_VerifyEndsSearch :
    trimming.contexts[(0 : CtxId)] = some { context .active (.trim trimBody) with
        claimSet := [17], search := some search }
      ∧ search.trial = 7 ∧ trimBody.hop < 8 ∧ 1 ≤ trimBody.n ∧ trimBody.windowLow ≤ trimBody.windowHigh
      ∧ trimming.channels[trimBody.chan].holder = some (.context 0)
      ∧ (summaryOf (List.replicate 4 (.good 4900))).map Summary.mean = some 4900
      ∧ (summaryOf (List.replicate 4 (.good 5100))).map Summary.mean = some 5100
      ∧ (summaryOf (List.replicate 4 (.good 5101))).map Summary.mean = some 5101
      ∧ runStatus 4 [.good 4900, .stall] = .opened ∧ runStatus 4 (List.replicate 4 (.ceiling 6000)) = .ceiling := by
  decide +kernel

/-- A setup block with its first queue, ring, quota of the second queue and period. -/
def setupBlock (count : Nat) (q : SetupQueue) (ringBase ringSize quota2 period : Nat) : SetupBlock :=
  { queueCount := count, watchPeriod := period, ringBase := ringBase, ringSize := ringSize
    queues := [q, { base := 64, size := 1024, quota := quota2 }, { base := 0, size := 0, quota := 0 },
      { base := 0, size := 0, quota := 0 }] }

/-- Of SetupChecksInOrder (R156): every check at the edge of its range, with the code the rule's table gives. -/
theorem test_witness_SetupChecksInOrder :
    (setupBlock 0 ⟨0, 16, 8⟩ 0 32 8 0).check = some (1, 0) ∧ (setupBlock 5 ⟨0, 16, 8⟩ 0 32 8 0).check = some (1, 0)
      ∧ (setupBlock 2 ⟨32, 16, 8⟩ 0 32 8 0).check = some (2, 0) ∧ (setupBlock 2 ⟨0, 8, 8⟩ 0 32 8 0).check = some (3, 0)
      ∧ (setupBlock 2 ⟨0, 2048, 8⟩ 0 32 8 0).check = some (3, 0) ∧ (setupBlock 2 ⟨0, 16, 8⟩ 0 32 0 0).check = some (4, 1)
      ∧ (setupBlock 2 ⟨0, 16, 8⟩ 8 32 8 0).check = some (5, 0) ∧ (setupBlock 2 ⟨0, 16, 8⟩ 0 16 8 0).check = some (6, 0)
      ∧ (setupBlock 2 ⟨0, 16, 8⟩ 0 8192 8 0).check = some (6, 0)
      ∧ (setupBlock 2 ⟨0, 16, 8⟩ 0 32 9 0).check = some (7, 0)
      ∧ (setupBlock 2 ⟨0, 16, 8⟩ 0 4096 8 60001).check = some (8, 0)
      ∧ (setupBlock 2 ⟨0, 16, 8⟩ 0 4096 8 60000).check = none := by decide +kernel

/-- Of SetupReadFails and ValidSetupPreparesSession: LOADING with its setup read in flight, a block that fails and one
that passes. -/
theorem test_witness_SetupReads :
    let s := after .start State.reset
    s.setupReads[0]? = some { addr := 0, abandoned := false } ∧ s.engine.state = .loading
      ∧ (after .clear s).setupReads[0]? = some { addr := 0, abandoned := true }
      ∧ block.length = 64 ∧ (SetupBlock.ofBytes block).check = some (1, 0)
      ∧ setupBytes.length = 64 ∧ (SetupBlock.ofBytes setupBytes).check = none
      ∧ (SetupBlock.ofBytes setupBytes).queues[1]? = some { base := 0x2000, size := 32, quota := 2 }
      ∧ State.reset.converters[(0 : ConvId)].state ≠ .held
      ∧ (∀ c : ConvId, (withConv 0 .held none (withConv 1 .held none (withConv 2 .held none
          (withConv 3 .held none s)))).converters[c].state = .held) := by decide +kernel

/-- Of SubmitIndexWrite: a tail of 15 and of 16 on a queue of 16 slots, a queue that is not ACTIVE, an engine not
RUNNING. -/
theorem test_witness_SubmitIndexWrite :
    running.engine.state = .running ∧ (running.queues[(0 : QueueId)]).state = .active
      ∧ (running.queues[(1 : QueueId)]).state ≠ .active ∧ State.reset.engine.state ≠ .running
      ∧ ((15#32).extractLsb' 0 12).toNat < (running.queues[(0 : QueueId)]).size
      ∧ (running.queues[(0 : QueueId)]).size ≤ ((16#32).extractLsb' 0 12).toNat := by decide +kernel

/-- Of FetchArbiterServes: queue 0 stands first after queue 3 (n = 1) and last after itself (n = 4). -/
theorem test_witness_FetchArbiterServes :
    let s := running.modQueue 0 fun q => { q with tail := 9 }
    s.engine.state = .running ∧ s.fetchRead = none ∧ (s.queues[s.lastServed + Fin.ofNat 4 1]).eligible = true
      ∧ (let u := { s with lastServed := 0 }
         (u.queues[u.lastServed + Fin.ofNat 4 4]).eligible = true
          ∧ ∀ m : Fin 4, 1 ≤ m.val → (u.queues[u.lastServed + m]).eligible = false)
      ∧ (∀ q : QueueId, (running.queues[q]).eligible = false) := by decide +kernel

/-- RUNNING with a fetch read of queue 0 in flight. -/
def fetching : State :=
  { running.modQueue 0 fun q => { q with tail := 9, readOutstanding := true } with
    fetchRead := some { queue := 0, addr := 0x11C0, current := true } }

/-- Of RecordAdmitted, FailedAdmissionPosts, FetchEndsWithoutContext and AdmissionChecks. -/
theorem test_witness_FetchReads :
    fetching.fetchRead = some { queue := 0, addr := 0x11C0, current := true } ∧ fetching.engine.state = .running
      ∧ (fetching.queues[(0 : QueueId)]).state = .active ∧ timingRecord.length = 64
      ∧ (Request.ofBytes timingRecord).flags.fence = false ∧ fetching.contexts[(0 : CtxId)] = none
      ∧ admissionFailure fetching 0 (Request.ofBytes badRecord) = some (.invalidRequest, .field 1 0)
      ∧ admissionFailure fetching 0 (Request.ofBytes timingRecord) = none
      ∧ (Request.ofBytes fencedRecord).flags.fence = true
      ∧ 0 < ((fetching.modQueue 0 fun q => { q with inFlight := 1 }).queues[(0 : QueueId)]).inFlight
      ∧ tagHeld (withCtx 0 (context .posting .watchQuery) running) 0 7 = true := by decide +kernel

/-- Of RequestsTakeTheirPaths: one record of each kind, by the offsets of 11.3, that passes every check; the MEASURE inline
and with EXTERNAL_LIST, the ABORT of scope ONE and of scope ALL. -/
theorem test_witness_RequestsTakeTheirPaths :
    let record (kind flags : Byte) (body : List Byte) : Request :=
      Request.ofBytes (put 12 body (put 0 [kind, flags, 1, 2, 0, 0x10, 0, 0, 0, 3] block))
    let passes (r : Request) : Prop := admissionFailure fetching 0 r = none
    passes (record 1 0 [1, 4, 6, 0, 0xFF, 0xFF, 0, 0, 0, 0, 0, 0, 1, 63])
      ∧ passes (record 1 8 [32, 4, 6, 0, 0xFF, 0xFF, 0, 0, 0, 0x30, 0, 0])
      ∧ passes (record 2 0 [63, 1, 0, 7, 0, 1, 1, 0, 1, 0])
      ∧ passes (record 3 0 [63, 31, 1, 2, 1, 127, 2])
      ∧ passes (record 4 0 ([0, 0x80, 1, 7, 24] ++ List.replicate 17 0x33))
      ∧ passes (record 5 0 [31, 63]) ∧ passes (record 6 0 [31]) ∧ passes (record 7 0 [])
      ∧ passes (record 8 0 [0x60, 0xEA]) ∧ passes (record 9 0 [3, 3])
      ∧ passes (record 10 0 [3, 1, 5, 0]) ∧ passes (record 10 0 [3, 2]) := by decide +kernel

/-- Of AdmissionChecks: bodies that pass the common checks, and the flags and the address that fail them. -/
theorem test_witness_AdmissionChecks :
    let good := request (.measure { measureBody with inlineItems := [{ kind := 1, sel := 6, mask := 0 }] })
    tagHeld running 0 7 = false ∧ good.commonCheck = none ∧ good.bodyCheck = none
      ∧ (request (.trim trimBody)).commonCheck = none ∧ (request (.trim trimBody)).bodyCheck = none
      ∧ (request (.watchTiming 60000)).bodyCheck = none ∧ (request (.watchTiming 60001)).bodyCheck.isSome = true
      ∧ (request .watchQuery true).flags.setBaseline = true
      ∧ ({ request (.trim trimBody) with resultAddr := 0x2002 } : Request).resultAddr.toNat % 4 ≠ 0
      ∧ admissionFailure running 0 { request (.trim trimBody) with resultLength := 47 } = some (.bufferTooSmall, .length 48)
      ∧ admissionFailure running 0 { request (.trim trimBody) with resultLength := 48 } = none := by decide +kernel

/-- Of AdmissionChecks, its body checks: one that fails of each kind, at the edge of its range, with the code of R67. -/
theorem test_witness_BodyChecks :
    let failed (r : Request) : Option (Nat × Nat) := match admissionFailure running 0 r with
      | some (.invalidRequest, .field code index) => some (code, index)
      | _ => none
    let measure (b : MeasureBody) : Request := request (.measure { b with inlineItems := [{ kind := 1, sel := 64, mask := 0 }] })
    [failed (measure { measureBody with itemCount := 0 }), failed (measure { measureBody with n := 17 }),
      failed (measure { measureBody with settle := 12 }), failed (measure { measureBody with hop := 8 }),
      failed (measure { measureBody with ceiling := 255 }), failed (measure measureBody),
      failed (request (.trim { trimBody with channel := 64, n := 0 })),
      failed (request (.trim { trimBody with windowHigh := 4899 })),
      failed (request (.channelSet
        { channel := 0, hasState := true, hasPark := true, hasComp := true, hasTrim := true, hasBaseline := true
          state := 1, park := 3, comp := 2, trim := 0, baselineAction := 0, baselineValue := 0 })),
      failed (request (.profileSet (ProfileSetBody.ofBytes (put 12 [0x02, 0x00, 1, 0, 24] (put 18 [0x00, 0x11] block))))),
      failed (request (.watchAdd
        { id := 32, channel := 0, n := 1, settle := 0, hop := 0, persistence := 1, ceiling := 256, upper := none
          lower := none, hysteresis := 0, shift := 0 })),
      failed (request (.watchRemove 32)), failed (request (.watchTiming 60001)), failed (request (.converterSet 4 1)),
      failed (request (.converterSet 3 4)), failed (request (.abort 4 1 0)), failed (request (.abort 3 3 0))]
      = [(16, 0), (17, 0), (18, 0), (19, 0), (20, 0), (23, 0), (32, 0), (34, 0), (41, 0), (50, 0), (56, 0), (56, 0), (63, 0),
          (64, 0), (65, 0), (72, 0), (73, 0)].map some := by decide +kernel

/-- Of ListReadEnds: a context in LISTING with its list read in flight, a list that passes and one that fails. -/
theorem test_witness_ListReadEnds :
    let c := context .listing (.measure measureBody)
    let s := { withCtx 0 c running with
      listReads := [{ owner := 0, addr := 0x3000, bytes := 4, discarded := false },
        { owner := 0, addr := 0x3000, bytes := 4, discarded := true }] }
    s.listReads[0]? = some { owner := 0, addr := 0x3000, bytes := 4, discarded := false }
      ∧ s.listReads[1]? = some { owner := 0, addr := 0x3000, bytes := 4, discarded := true }
      ∧ s.contexts[(0 : CtxId)] = some c
      ∧ (∃ items, checkItems 0 (rawItems [1, 63, 0, 0] 1) = .ok items ∧ (63 : Chan) ∈ claimSetOf items)
      ∧ checkItems 0 (rawItems [1, 64, 0, 0] 1) = .error (23, 0) := by
  refine ⟨by decide +kernel, by decide +kernel, by decide +kernel, ⟨[.single 63], ?_⟩, ?_⟩
  · exact ⟨rfl, by decide +kernel⟩
  · rfl

/-- Of ResultWriteEnds. -/
theorem test_witness_ResultWriteEnds :
    let c := { context .writing (.measure measureBody) with result := some (Status.success, Detail.zero) }
    let s := { withCtx 0 c running with
      resultWrites := [{ owner := 0, addr := 0x2000, data := zeros 32, abandoned := false },
        { owner := 0, addr := 0x2000, data := zeros 32, abandoned := true }] }
    s.resultWrites[0]? = some { owner := 0, addr := 0x2000, data := zeros 32, abandoned := false }
      ∧ s.resultWrites[1]? = some { owner := 0, addr := 0x2000, data := zeros 32, abandoned := true }
      ∧ s.contexts[(0 : CtxId)] = some c ∧ c.state = .writing := by decide +kernel

/-- RUNNING with the ring write of a source in flight. -/
def posting (source : PostRef) (stale : Bool) : State :=
  { withCtx 0 { context .posting .watchQuery with result := some (.success, .zero) }
      (running.modQueue 0 fun q => { q with inFlight := 1 }) with
    ringWrite := some { source := source, addr := 0x8000, data := zeros 16, carriedLost := 0, stale := stale } }

/-- Of RingWriteCompletes, RingWriteErrorHalts and ContextFreedOnlyByItsRecord: a context's record, with and without a
held record behind it, a report's record, and a stale write. -/
theorem test_witness_RingWrites :
    let s := posting (.context 0) false
    s.ringWrite = some { source := .context 0, addr := 0x8000, data := zeros 16, carriedLost := 0, stale := false }
      ∧ (s.queues[(0 : QueueId)]).held = none ∧ s.contexts[(0 : CtxId)].isSome = true
      ∧ (after (.completionRingWriteEnd .completes) s).contexts[(0 : CtxId)] = none
      ∧ (let u := s.modQueue 0 fun q => { q with held := some (request .watchQuery) }
         (u.queues[(0 : QueueId)]).held = some (request .watchQuery) ∧ (u.queues[(0 : QueueId)]).inFlight = 1
          ∧ u.engine.state = .running)
      ∧ (posting .report false).ringWrite.map (fun w => w.source) = some .report
      ∧ (posting .report true).ringWrite.map (fun w => w.stale) = some true := by decide +kernel

/-- Of RingWriteCompletes: the held record that the write admits enters its path, or stands in POSTING with the check it
fails (R65, R70, R126), in the place the written record's context leaves. -/
theorem test_witness_HeldRecordTaken :
    let taken (r : Request) : Option (CtxState × Option (Status × Detail)) :=
      ((after (.completionRingWriteEnd .completes) ((posting (.context 0) false).modQueue 0 fun q =>
        { q with held := some r })).contexts[(0 : CtxId)]).map fun c => (c.state, c.result)
    [taken (request (.watchTiming 60000)), taken (request (.watchTiming 60001))]
      = [some (.posting, some (.success, .period 60000)), some (.posting, some (.invalidRequest, .field 63 0))] := by decide +kernel

/-- Of RingWriteCompletes, its issue (R166, R167, R170): a report that carries the lost count 3, a context, and two contexts
newly in POSTING, the older first. -/
theorem test_witness_RingIssues :
    let posts (n : Nat) : Context := { numbered 7 n (context .posting .watchQuery) with result := some (.success, .zero) }
    let s := withCtx 1 (posts 5) (withCtx 2 (posts 4) { running with reports := [.noConverter], lost := 3 })
    let write (posting : List PostRef) : Option RingWrite := (issueRingWrite { s with posting := posting }).ringWrite
    (orderPosts { s with posting := [.report] }).posting = [.report, .context 2, .context 1]
      ∧ write [.report, .context 1] = some
        { source := .report, addr := 0x8000, carriedLost := 3, stale := false
          data := [0x83, 3, 0, 0, 0, 0, 0, 0, 0, 0, 0, 0, 3, 0, 0, 0] }
      ∧ write [.context 1] = some
        { source := .context 1, addr := 0x8000, carriedLost := 0, stale := false
          data := [0x81, 0, 7, 0, 0, 1, 7, 0, 0, 0, 0, 0, 0, 0, 0, 0] }
      ∧ write [] = none := by decide +kernel

/-- Of ReleaseIndexWrite: r at the count (accepted) and one past it (refused), a slot at the size, an unconfigured
ring. -/
theorem test_witness_ReleaseIndexWrite :
    let s := { running with ring := { ring with writeIndex := 2, count := 2 } }
    s.ring.Sound ∧ releaseCount s.ring 2 = 2 ∧ releaseCount s.ring 3 = 3 ∧ releaseCount s.ring 0 = 0
      ∧ s.ring.size ≤ 32 ∧ State.reset.ring.configured = false := by
  refine ⟨fun _ => ?_, ?_⟩ <;> decide +kernel

/-- Of CompletionRecordLayout. -/
theorem test_witness_CompletionRecordLayout :
    ({ context .posting .watchQuery with result := some (.success, .zero) } : Context).result
      = some (.success, .zero) := by decide

/-- Of SettleAndSample and CheckEnds: a job in each state, a count below and at the ceiling, a check before and at its
fourth sample, with a mean at each end of 3072..5119. -/
theorem test_witness_Samples :
    let s := withConv 0 .settling (some (itemJob [])) (withConv 1 .sampling (some (itemJob [.good 1])) running)
    let u := (inEngine .loading).modConv 2 fun v => { v with
      state := .checking, origin := some .held, job := some (checkJob .engineControl [.good 3072, .good 3072, .good 3072]) }
    s.converters[(0 : ConvId)].job = some (itemJob []) ∧ s.converters[(0 : ConvId)].state = .settling
      ∧ s.converters[(1 : ConvId)].state = .sampling ∧ (11999#16).toNat < (itemJob []).ceiling
      ∧ ¬(12000#16).toNat < (itemJob []).ceiling ∧ (∀ y ∈ (itemJob [.good 1]).samples, y ≠ .stall)
      ∧ u.converters[(2 : ConvId)].state = .checking ∧ u.converters[(2 : ConvId)].mark = none
      ∧ u.converters[(2 : ConvId)].origin = some .held
      ∧ (∀ y ∈ [Sample.good 3072, .good 3072, .good 3072], y ≠ .stall)
      ∧ checkPasses (List.replicate 4 (.good 3072)) = true ∧ checkPasses (List.replicate 4 (.good 5119)) = true
      ∧ checkPasses (List.replicate 4 (.good 3071)) = false ∧ checkPasses (List.replicate 4 (.good 5120)) = false := by
  decide +kernel

/-- Of CheckEnds with a mark pending: a hold mark, and a check mark in RUNNING and in HALTED, the owner of the check and of
the mark being two contexts (R10, R12). -/
theorem test_witness_CheckMarks :
    let samples : List Sample := [.good 4000, .good 4000, .good 4000]
    let base (s : State) : State := withCtx 0 (context .active (.converterSet 2 3)) (withCtx 1 (context .active (.converterSet 2 1))
      (s.modConv 2 fun v => { v with
        state := .checking, origin := some .offline, job := some (checkJob (.context 0) samples) }))
    let ends (kind : MarkKind) (s : State) : Converter :=
      (after (.sampleEnd 2 (.good 4000)) (withMark 2 kind 1 (base s))).converters[(2 : ConvId)]
    (base running).converters[(2 : ConvId)].origin = some .offline ∧ (∀ y ∈ samples, y ≠ .stall)
      ∧ (ends .hold running).state = .held ∧ (ends .check running).job = some (checkJob (.context 1) [])
      ∧ ends .check (inEngine .halted)
          = { state := .idle, mark := some { kind := .check, owner := 1 }, job := none, origin := none } := by
  decide +kernel

/-- Of DischargeTakesNextState, ItemEndsNormally and FaultTakesConverterOffline: a discharging item job without a mark,
with a hold mark and with a check mark of another context. -/
theorem test_witness_Discharges :
    let c := measuring .running
    let s := withConv 0 .discharging (some (itemJob [.good 1, .good 2, .good 3, .good 4])) (withCtx 0 c running)
    let hold := withMark 0 .hold 1 (withCtx 1 (context .active (.converterSet 0 1)) s)
    s.converters[(0 : ConvId)].state = .discharging ∧ s.converters[(0 : ConvId)].origin = none
      ∧ s.converters[(0 : ConvId)].mark = none ∧ s.contexts[(0 : CtxId)] = some c ∧ c.items[0]? = some (entry 6 .running)
      ∧ ({ s with engine := { s.engine with state := .halted } } : State).engine.state ≠ .running
      ∧ hold.converters[(0 : ConvId)].mark = some { kind := .hold, owner := 1 }
      ∧ hold.contexts[(1 : CtxId)] = some (context .active (.converterSet 0 1))
      ∧ (withMark 0 .check 1 s).converters[(0 : ConvId)].mark = some { kind := .check, owner := 1 } := by decide +kernel

/-- A running watch 4 on channel 22. -/
def watching : WatchUnit :=
  { WatchUnit.atReset with
    entries := [watch4], period := 50, timer := some 1, inProgress := true
    running := [{ id := 4, ch := 22, conv := 1, round := 3, discard := false }] }

/-- Of FaultDischargeEnds and ClearDischargeEnds: an item, and a watch job. -/
theorem test_witness_FaultDischargeEnds :
    let d : FaultDischarge := { conv := 1, connection := .electrodes (.single 6), job := some (itemJob []) }
    let s := { withChan 22 (some 5000) (some .watchUnit) (withCtx 0 (measuring .running) running) with
      watch := watching
      faultDischarges := [d, { d with job := some { itemJob [] with owner := .watch 4 } }]
      clearDischarges := [{ conv := 2, connection := .electrodes (.single 6) }] }
    s.faultDischarges.head? = some d ∧ (itemJob []).cut = false ∧ s.contexts[(0 : CtxId)] = some (measuring .running)
      ∧ s.watch.running.find? (fun r => r.id == 4) = some { id := 4, ch := 22, conv := 1, round := 3, discard := false }
      ∧ s.channels[(22 : Chan)].holder = some .watchUnit ∧ s.watch.pending = []
      ∧ s.clearDischarges = [] ++ { conv := 2, connection := .electrodes (.single 6) } :: [] := by decide +kernel

/-- Converter 1's oldest fault discharge, behind one of converter 2. -/
def faulted (j : Option Job) (s : State) : State :=
  { s with faultDischarges :=
      [{ conv := 2, connection := .electrodes (.single 9), job := none }]
        ++ { conv := 1, connection := .electrodes (.single 6), job := j } :: [] }

/-- RUNNING, with converter 3 online and not free. -/
def busy : State := withConv 3 .checking (some (checkJob .nobody [])) running

/-- A MEASURE whose one item runs, with its retry-used flag and its end cause. -/
def itemRun (used : Bool) (cause : Option (EndCause × CtxState)) : State :=
  withCtx 0 { measuring .running with items := [{ entry 6 .running with retryUsed := used }], endCause := cause } busy

/-- A TRIM at trial 3, with its retry-used flag and its end cause. -/
def trialRun (used : Bool) (cause : Option (EndCause × CtxState)) : State :=
  withChan 17 none (some (.context 0)) (withCtx 0 { context .active (.trim trimBody) with
    claimSet := [17], search := some { search with trial := 3, retryUsed := used }, endCause := cause } busy)

/-- The job of a trial. -/
def trialJob (cut : Bool) (samples : List Sample) : Job :=
  { itemJob samples with owner := .trial 0, connection := .electrodes (.single 17), cut := cut }

/-- State and result of the context in place 0. -/
def told (s : State) : Option (CtxState × Option (Status × Detail)) := (s.contexts[(0 : CtxId)]).map fun c => (c.state, c.result)

/-- The end of converter 1's oldest fault discharge. -/
def faultEnds (j : Option Job) (s : State) : State := after (.faultDischargeEnd 1) (faulted j s)

/-- The end of converter 1's discharge. -/
def dischargeEnds (j : Job) (s : State) : State := after (.dischargeEnd 1) (withConv 1 .discharging (some j) s)

/-- Of FaultDischargeEnds, each clause of an item and a trial, behind another discharge: R93's retry and CONVERTER_FAULT,
which ends the MEASURE (R75); R111's retry and the end of the search with its restore (R112); a cut job; no job. -/
theorem test_witness_FaultRetries :
    let cause : Option (EndCause × CtxState) := some (.aborted, .active)
    let cutItem := { itemJob [] with cut := true }
    let search := faultEnds (some (trialJob false [])) (trialRun true none)
    [told (faultEnds (some (itemJob [])) (itemRun false none)), told (faultEnds (some (itemJob [])) (itemRun true none)),
      told (faultEnds (some cutItem) (itemRun false cause)),
      told (faultEnds (some (trialJob false [])) (trialRun false none)), told search,
      told (faultEnds (some (trialJob true [])) (trialRun false cause))]
        = [some (.active, none), some (.writing, some (.partialDone, .count 1)),
          some (.posting, some (.aborted, .state .active)),
          some (.active, none), some (.writing, some (.converterFault, .trial 3 64)),
          some (.posting, some (.aborted, .state .active))]
      ∧ search.channels[(17 : Chan)].baseline = some 5600
      ∧ (faultEnds none running).faultDischarges = [{ conv := 2, connection := .electrodes (.single 9), job := none }] := by
  decide +kernel

/-- Of DischargeTakesNextState: a cut item and a cut trial (R95, R115), a trial 3 that reads above
the window (LOAD, TOO_HIGH: its bit, 8, is kept, R109), and a watch job. -/
theorem test_witness_DischargeEnds :
    let cause : Option (EndCause × CtxState) := some (.stopped, .active)
    let cutItem := { itemJob [.good 1] with cut := true }
    let decided := dischargeEnds (trialJob false (List.replicate 4 (.good 5118))) (trialRun false none)
    let watched := dischargeEnds { itemJob [.good 5600] with owner := .watch 4, n := 1 }
      { withChan 22 (some 5000) (some .watchUnit) running with watch := watching }
    told (dischargeEnds cutItem (itemRun false cause)) = some (.posting, some (.stopped, .state .active))
      ∧ told (dischargeEnds (trialJob true []) (trialRun false cause)) = some (.posting, some (.stopped, .state .active))
      ∧ (decided.contexts[(0 : CtxId)]).map (fun c => c.search.map fun q => (q.trial, q.decided)) = some (some (4, 82))
      ∧ watched.channels[(22 : Chan)].holder = none := by
  decide +kernel

/-- R62, R106, R115: an early end leaves the trial ENDED, after a cut job and at rest. -/
theorem test_trialEnded :
    let job (s : State) : Option JobState := (s.contexts[(0 : CtxId)]).bind fun c => c.search.map fun q => q.job
    let cause : Option (EndCause × CtxState) := some (.aborted, .active)
    let rest := (trialRun false none).modCtx 0 fun c => { c with search := c.search.map fun q => { q with job := .notStarted } }
    [job (dischargeEnds (trialJob true []) (trialRun false cause)), job (faultEnds (some (trialJob true [])) (trialRun false cause)),
      job (setEndCause .aborted 0 rest), job (setEndCause .aborted 0 (trialRun false none))]
      = [some .ended, some .ended, some .ended, some .running] := by decide +kernel

/-- Of DischargeTakesNextState: the end of trial 3 with a STOP_CUT waiting next finds trial 4 NOT_STARTED, and the STOP_CUT
restores and posts at once; with nothing waiting, and with another command next, trial 4 runs, and its job is cut (R115). -/
theorem test_witness_EndCauseWithTrialEnd :
    let good := trialJob false (List.replicate 4 (.good 5118))
    let ended (waiting : List Instr) : State := dischargeEnds good { trialRun false none with pending := waiting }
    let trial (s : State) : Option (Option (JobState × Nat)) := (s.contexts[(0 : CtxId)]).map fun c =>
      c.search.map fun q => (q.job, q.trial)
    let cut := after .stopCut (ended [.stopCut])
    [trial (ended [.stopCut]), trial (ended [.registerWrite 0x0C 3]), trial (ended []), trial (ended [.settleEnd 1, .stopCut])]
        = [some (some (.notStarted, 4)), some (some (.running, 4)), some (some (.running, 4)), some (some (.running, 4))]
      ∧ told cut = some (.posting, some (.stopped, .state .active)) ∧ cut.channels[(17 : Chan)].trim = 64
      ∧ cut.channels[(17 : Chan)].holder = none ∧ told (after .stopCut (ended [])) = some (.active, none) := by decide +kernel

/-- Of VerifyEndsSearch: trial 3 ends OPEN, which ends the search with its restore (R111, R112, R113). -/
theorem test_witness_TrialOpens :
    let t := dischargeEnds (trialJob false [.good 5118, .stall]) (trialRun false none)
    runStatus trimBody.n [.good 5118, .stall] = .opened ∧ told t = some (.writing, some (.opened, .trial 3 64))
      ∧ t.channels[(17 : Chan)].trim = 64 ∧ t.channels[(17 : Chan)].baseline = some 5600
      ∧ t.channels[(17 : Chan)].holder = none := by decide +kernel

/-- Of FaultTakesConverterOffline: a fault in CHECKING and in SAMPLING, with a hold mark, with a check mark in RUNNING and in
HALTED (R10, R13, R151), and the last start-up check (R178). -/
theorem test_witness_Faults :
    let base (st : ConvState) (j : Job) (s : State) : State := withCtx 0 (context .active (.converterSet 2 3))
      (withCtx 1 (context .active (.converterSet 2 1)) (s.modConv 2 fun v => { v with
        state := st, origin := if st = .checking then some .idle else none, job := some j }))
    let ends (st : ConvState) (j : Job) (kind : MarkKind) (s : State) : Converter :=
      (after (.faultEvent 2) (withMark 2 kind 1 (base st j s))).converters[(2 : ConvId)]
    let check := checkJob (.context 0) []
    let failed := after (.faultEvent 2) (base .checking check running)
    let started := after (.faultEvent 2) (base .checking (checkJob .engineControl [])
      { inEngine .loading with engine := { Engine.atReset with state := .loading, startupLeft := [2] } })
    [(ends .checking check .hold running).state, (ends .sampling (itemJob []) .hold running).state,
        (ends .checking check .check (inEngine .halted)).state, (ends .sampling (itemJob []) .check (inEngine .halted)).state]
        = [.held, .held, .offline, .offline]
      ∧ ends .sampling (itemJob []) .check running = { Converter.atReset with
          state := .checking, origin := some .offline, job := some (checkJob (.context 1) []) }
      ∧ (failed.contexts[(0 : CtxId)]).map (fun c => c.result) = some (some (.checkFailed, .converter 2 .offline none none))
      ∧ failed.reports = [.converterOffline 2 .fault none, .noConverter] ∧ started.engine.state = .running := by
  decide +kernel

/-- Of WatchVerdicts, its end of a watch job: marked for discard, with an event, and without one. -/
theorem test_witness_WatchEnds :
    let s := { withChan 22 (some 5000) (some .watchUnit) running with watch := watching }
    let lost := { s with watch := { watching with
      running := [{ id := 4, ch := 22, conv := 1, round := 3, discard := true }] } }
    let ends (samples : List Sample) (s : State) := watchNormalEnd 4 { itemJob samples with owner := .watch 4, n := 1 } s
    s.watch.running.find? (fun r => r.id == 4) = some { id := 4, ch := 22, conv := 1, round := 3, discard := false }
      ∧ lost.watch.running.find? (fun r => r.id == 4) = some { id := 4, ch := 22, conv := 1, round := 3, discard := true }
      ∧ s.watch.entries.find? (fun x => x.id == 4) = some watch4 ∧ s.channels[(22 : Chan)].holder = some .watchUnit
      ∧ (ends [.stall] s).reports = [.event .watchFault 4 22 .inside 0 (some 5000) 3] ∧ (ends [.stall] lost).reports = []
      ∧ (ends [.good 5016] s).channels[(22 : Chan)].baseline = some 5001 := by decide +kernel

/-- Of WatchVerdicts: an event at eight reports in the buffer is lost, and at seven it takes the eighth place (R170). -/
theorem test_witness_WatchReportLost :
    let ends (held : Nat) : State := watchNormalEnd 4 { itemJob [.stall] with owner := .watch 4 }
      { withChan 22 (some 5000) (some .watchUnit) running with
        watch := watching, reports := List.replicate held .noConverter, lost := 2 }
    ((ends 8).reports.length, (ends 8).lost, (ends 8).posting) = (8, 3, [])
      ∧ ((ends 7).reports.length, (ends 7).lost, (ends 7).posting) = (8, 2, [.report]) := by decide +kernel

/-- Of WatchVerdicts and FaultDischargeEnds: the discarded job of a removed entry ends normally (R122, R123), and a job ends
by a fault, as the last job of the round and with one pending (R130, R132). -/
theorem test_witness_WatchRounds :
    let job : Job := { itemJob [.stall] with owner := .watch 4 }
    let s (pending : List WatchId) : State := { withChan 22 (some 5000) (some .watchUnit) busy with
      watch := { watching with promoted := true, overrun := true, pending := pending } }
    let removed : State := { s [] with watch := { (s []).watch with
      entries := [], running := [{ id := 4, ch := 22, conv := 1, round := 3, discard := true }] } }
    let t := watchNormalEnd 4 job removed
    let ended (pending : List WatchId) := (faultEnds (some job) (s pending)).watch
    (∀ e ∈ removed.watch.entries, e.id ≠ 4)
      ∧ removed.watch.running.find? (fun r => r.id == 4) = some { id := 4, ch := 22, conv := 1, round := 3, discard := true }
      ∧ t.watch = { WatchUnit.atReset with period := 50, timer := some 1 } ∧ t.reports = []
      ∧ t.channels[(22 : Chan)].holder = none ∧ t.channels[(22 : Chan)].baseline = some 5000
      ∧ ended [] = { WatchUnit.atReset with period := 50, timer := some 1, entries := [{ watch4 with skipped := 1 }] }
      ∧ (ended [9]).inProgress = true ∧ (ended [9]).promoted = true ∧ (ended [9]).pending = [9] := by decide +kernel

/-- Of CheckEnds and DischargeTakesNextState, their NO_CONVERTER (R18): a failed check of the last online converter, a hold
mark at the pass of its check, a hold mark at the end of its job, and the same with converter 3 online. -/
theorem test_witness_NoConverterNotice :
    let check (origin : ConvState) (s : State) : State := s.modConv 2 fun v => { v with
      state := .checking, origin := some origin, job := some (checkJob .nobody [.good 4000, .good 4000, .good 4000]) }
    let held (s : State) : State := withMark 2 .hold 1 (withCtx 1 (context .active (.converterSet 2 1)) s)
    let job (s : State) : State := held (withConv 2 .discharging (some (trialJob false [])) s)
    [(after (.sampleEnd 2 (.good 1)) (check .idle running)).reports,
        (after (.sampleEnd 2 (.good 4000)) (held (check .offline running))).reports,
        (after (.dischargeEnd 2) (job running)).reports, (after (.sampleEnd 2 (.good 1)) (check .idle busy)).reports,
        (after (.sampleEnd 2 (.good 4000)) (held (check .idle busy))).reports, (after (.dischargeEnd 2) (job busy)).reports]
      = [[.converterOffline 2 .checkFailed (some 3000), .noConverter],
        [.converterOnline 2 .offline (some 4000), .noConverter],
        [.noConverter], [.converterOffline 2 .checkFailed (some 3000)], [], []] := by decide +kernel

/-- Of TimersExpire: both timers stopped and running, a round in progress and none. -/
theorem test_witness_TimersExpire :
    let s := { running with
      watch := watching, interrupt := { InterruptUnit.atReset with timerSetting := 1, timer := some 1600 } }
    s.interrupt.timer = some 1600 ∧ s.watch.timer = some 1 ∧ s.watch.inProgress = true ∧ running.watch.timer = none
      ∧ running.interrupt.timer = none ∧ ({ watching with inProgress := false } : WatchUnit).timer = some 1 := by
  decide +kernel

/-- Of SummaryAndStatus and TrimDecision: a list that ends at n, and one that a STALL ends. -/
theorem test_witness_SummaryAndStatus :
    (∀ x ∈ ([.good 4410, .stall] : List Sample).dropLast, x ≠ .stall) ∧ Sample.stall ∈ [Sample.good 4410, .stall]
      ∧ ([.good 4410, .stall] : List Sample).length ≤ 4
      ∧ (∀ x ∈ ([.good 5020, .ceiling 12000] : List Sample), x ≠ .stall)
      ∧ runStatus 2 [.good 5020, .ceiling 12000] = .degraded ∧ search.comp = .load
      ∧ ({ search with trial := 6 } : Search).trial < 7
      ∧ ({ search with trial := 0, decided := 0 } : Search).decided = 0 ∧ (List.replicate 7 TrialClass.inWindow).length = 7 := by
  decide +kernel

/-- Of TrimGrantSaves. -/
theorem test_witness_TrimGrantSaves :
    let c := { context .claiming (.trim trimBody) with claimSet := [17] }
    let s := withChan 17 (some 5600) none (withCtx 0 c running)
    s.contexts[(0 : CtxId)] = some c ∧ c.claimSet = [trimBody.chan] ∧ s.channels[trimBody.chan].ready = true := by
  decide +kernel

/-- Of WatchLevels, JudgeEntry and WatchVerdicts: readings at and past each level, the count
one below the persistence, and the shifts 0, 14 and 15. -/
theorem test_witness_Watch :
    crossing 5000 5600 watch4 = some .high ∧ crossing 5000 5599 watch4 = none ∧ crossing 5000 4600 watch4 = some .low
      ∧ crossing 5000 4601 watch4 = none ∧ watch4.state = .inside
      ∧ ({ watch4 with count := 2, direction := .low } : WatchEntry).count + 1 = watch4.persistence
      ∧ highHolding 5000 { watch4 with state := .above } = some 5500
      ∧ lowHolding 5000 { watch4 with state := .below } = some 4700
      ∧ highLevel 65535 watch4 = some 65535 ∧ lowLevel 0 watch4 = some 0
      ∧ ({ watch4 with shift := 14 } : WatchEntry).shift < 15 ∧ runStatus 1 [.stall] = .opened
      ∧ runStatus 1 [.ceiling 12000] = .ceiling ∧ (summaryOf [.good 6120]).isSome = true := by decide +kernel

/-- Of ProfileSetExecutes. -/
theorem test_witness_ProfileSetExecutes :
    let b := ProfileSetBody.ofBytes (put 12 [0x02, 0x00, 1, 7, 24] (put 18 [0x00, 0x11] block))
    b.check = none ∧ b.profiles.length = 16 ∧ b.hopEntries.length = 24 ∧ b.mask.getLsbD 1 = true ∧ b.hopWrite = true
      ∧ (withCtx 0 (context .active (.profileSet b)) running).contexts[(0 : CtxId)]
          = some (context .active (.profileSet b)) := by decide +kernel

/-- A CHANNEL_SET body that uses every field, with a state and a trim. -/
def channelBody (state trim : Nat) : ChannelSetBody :=
  { channel := 63, hasState := true, hasPark := true, hasComp := true, hasTrim := true, hasBaseline := true
    state := state, park := 2, comp := 1, trim := trim, baselineAction := 2, baselineValue := 65535 }

/-- Of ChannelSetExecutes: a refused one and one that writes every field. -/
theorem test_witness_ChannelSetExecutes :
    let s := withChan 63 none (some (.context 0)) (withCtx 0 (context .claiming (.channelSet (channelBody 1 127))) running)
    (channelBody 1 127).check = none ∧ (channelBody 0 0).check = none ∧ (channelBody 1 128).check.isSome = true
      ∧ s.channels[(Fin.ofNat 64 63 : Chan)].holder = some (.context 0) ∧ s.contexts[(0 : CtxId)].isSome = true
      ∧ ((s.modChan 63 fun e => { e with watchLink := some 4 }).channels[(63 : Chan)]).watchLink.isSome = true := by
  decide +kernel

/-- A WATCH_ADD body for watch 31 on channel 22. -/
def addBody : WatchAddBody :=
  { id := 31, channel := 22, n := 16, settle := 11, hop := 7, persistence := 15, ceiling := 65535, upper := some 1
    lower := none, hysteresis := 4095, shift := 15 }

/-- Of WatchAddExecutes: each refusal and a success, with every field at the top of its range; of WatchRequestsExecute
too. -/
theorem test_witness_WatchRequests :
    let s := withChan 22 none none (withCtx 0 (context .active .watchQuery) running)
    let w := { s with watch := watching }
    s.contexts[(0 : CtxId)].isSome = true ∧ addBody.check = none ∧ ({ addBody with upper := none } : WatchAddBody).check = some (59, 0)
      ∧ s.channels[(22 : Chan)].ready = true ∧ s.channels[(22 : Chan)].watchLink = none
      ∧ State.reset.channels[(22 : Chan)].ready = false
      ∧ ((s.modChan 22 fun e => { e with watchLink := some 4 }).channels[(22 : Chan)]).watchLink = some 4
      ∧ w.watch.entries.find? (fun x => x.id == 4) = some watch4 ∧ (∀ e ∈ s.watch.entries, e.id ≠ 31)
      ∧ (context .active .watchQuery).request.resultLength = 100 ∧ 16 + 16 * w.watch.entries.length ≤ 100
      ∧ ({ request .watchQuery with resultLength := 31 } : Request).resultLength < 16 + 16 * w.watch.entries.length := by
  decide +kernel

/-- R122, R130: a WATCH_REMOVE of the last pending job completes the round, but not while a job runs. -/
theorem test_watchRemove :
    let ends (running : List RunningWatch) : Bool :=
      (execWatchRemove 0 4 { withCtx 0 (context .active (.watchRemove 4)) Tests.running with
        watch := { watching with pending := [4], running := running } }).watch.inProgress
    ends [] = false ∧ ends [{ id := 5, ch := 23, conv := 1, round := 3, discard := false }] = true := by decide +kernel

/-- Of WatchRequestsExecute: a WATCH_REMOVE marks the running job of its own id and of no other (R122). -/
theorem test_watchRemoveMarks :
    let job (id : WatchId) : RunningWatch := { id := id, ch := 22, conv := 1, round := 3, discard := false }
    (execWatchRemove 0 4 { withCtx 0 (context .active (.watchRemove 4)) Tests.running with
        watch := { watching with running := [job 4, job 5] } }).watch.running
      = [{ job 4 with discard := true }, job 5] := by decide +kernel

/-- Of ConverterSetExecutes: a converter in every kind of state, and one with a mark. -/
theorem test_witness_ConverterSetExecutes :
    let s := withConv 0 .held none (withConv 1 .idle none (withConv 2 .sampling (some (itemJob []))
      (withCtx 0 (context .active (.converterSet 0 1)) running)))
    s.contexts[(0 : CtxId)] = some (context .active (.converterSet 0 1)) ∧ s.converters[(0 : ConvId)].state = .held
      ∧ s.converters[(1 : ConvId)].state = .idle ∧ s.converters[(2 : ConvId)].state = .sampling
      ∧ s.converters[(3 : ConvId)].state = .offline ∧ s.converters[(2 : ConvId)].mark = none
      ∧ (withMark 2 .hold 1 s).converters[(2 : ConvId)].mark = some { kind := .hold, owner := 1 } := by decide +kernel

/-- Of PinsAndShield, ArbiterLeavesNothingGrantable and DispatchMakesJob: a connected and a discharging channel, a
converter in SAMPLING, a ready item. -/
theorem test_witness_Pins :
    let s := { withConv 1 .sampling (some (itemJob [])) (withCtx 0 (measuring .notStarted) running) with
      faultDischarges := [{ conv := 2, connection := .electrodes (.single 9), job := none }] }
    s.converters[(1 : ConvId)].state = .sampling ∧ s.converters[(1 : ConvId)].job = some (itemJob [])
      ∧ (6 : Chan) ∈ (itemJob []).connection.channels ∧ pin s 9 = .discharging ∧ pin s 6 = .connected 1
      ∧ pin s 10 = .drivenLow ∧ s.engine.state = .running ∧ s.watch.pending.length ≤ 32
      ∧ s.contexts[(0 : CtxId)] = some (measuring .notStarted)
      ∧ (measuring .notStarted).items[0]? = some (entry 6 .notStarted) ∧ measureBody.hop < 8 := by decide +kernel

/-- R22, R85: with I0 on channel 1 running, I1 on channels 1 and 2 and I2 on channel 2, I2 waits for I1; an I2 on channel 9
passes I1. -/
theorem test_listOrder :
    let list (ch : Chan) : List ItemEntry :=
      [entry 1 .running, { entry 1 .notStarted with item := .gang 0 6 }, entry ch .notStarted]
    let first (ch : Chan) : Option Nat := firstReadyItem { measuring .running with items := list ch }
    itemReady (list 2) (entry 2 .notStarted) = true ∧ itemMayStart (list 2) 2 (entry 2 .notStarted) = false
      ∧ first 2 = none ∧ first 9 = some 2 := by decide +kernel

/-- Of ArbiterLeavesNothingGrantable, its claim arbiter: a set that is free, one that an older context in CLAIMING waits
for, one that is held, any set behind an older context in LISTING, and one with a channel that is OFF (R45, R47 to R49). -/
theorem test_witness_ClaimArbiter :
    let waits (n : Nat) (set : List Chan) : Context :=
      { numbered 7 n (context .claiming (.measure measureBody)) with claimSet := set }
    let s := withChan 6 none none (withChan 8 none (some .watchUnit) (withCtx 1 (waits 1 [6]) (withCtx 2 (waits 2 [6])
      (withCtx 3 (waits 3 [8]) (withCtx 4 (waits 4 [9]) running)))))
    let listing := withCtx 0 (context .listing (.measure measureBody)) s
    let told (s : State) (k : CtxId) : Option CtxState := ((tryGrant s k).contexts[k]).map fun c => c.state
    [told s 1, told s 2, told s 3, told s 4, told listing 1]
        = [some .active, some .claiming, some .claiming, some .posting, some .claiming]
      ∧ (tryGrant s 1).channels[(6 : Chan)].holder = some (.context 1)
      ∧ ((grantPass s).contexts[(2 : CtxId)]).map (fun c => c.state) = some .claiming := by decide +kernel

/-- Of ArbiterLeavesNothingGrantable, its converter arbiter: the lowest free converter goes to a promoted watch job, then to
a ready item, then to a watch job; a watch job whose channel is held is skipped; with no converter online the item ends
NO_CONVERTER (R19 to R23). -/
theorem test_witness_ConverterArbiter :
    let s := withChan 22 none none (withConv 1 .idle none (withConv 3 .idle none (withCtx 0 (measuring .notStarted) running)))
    let job (promoted : Bool) (s : State) : Option JobOwner :=
      (arbiterStep { s with watch := { watching with running := [], pending := [4], promoted := promoted } }).bind fun t =>
        t.converters[(1 : ConvId)].job.map fun j => j.owner
    let held := (offerWatch 1 4 { withChan 22 none (some (.context 5)) s with watch := { watching with pending := [4] } }).watch
    [job true s, job false s, job false { s with contexts := State.reset.contexts }]
        = [some (.watch 4), some (.item 0 0), some (.watch 4)]
      ∧ held.pending = [] ∧ held.entries = [{ watch4 with skipped := 1 }]
      ∧ told (noConverterEnds (withCtx 0 (measuring .notStarted) running)) = some (.writing, some (.partialDone, .count 1)) := by
  decide +kernel

/-- Of ArbiterLeavesNothingGrantable, its skips: the last pending job skipped with none running completes the round (R130);
with no converter online two pending jobs are skipped, one with its count at 65535 (R19, R131). -/
theorem test_witness_Skips :
    let watch (pending : List WatchId) : WatchUnit := { watching with
      entries := [watch4, { watch4 with id := 9, ch := 23, skipped := 65535 }], running := [], pending := pending
      promoted := true, overrun := true }
    let offered := (offerWatch 1 4 { withChan 22 none (some (.context 5)) busy with watch := watch [4] }).watch
    let skipped := (finish { running with watch := watch [4, 9] }).watch
    (watch [4, 9]).pending.Nodup ∧ (∀ v : ConvId, running.converters[v].state.online = false)
      ∧ offered = { WatchUnit.atReset with
          entries := [{ watch4 with skipped := 1 }, { watch4 with id := 9, ch := 23, skipped := 65535 }]
          period := 50, timer := some 1 }
      ∧ skipped = offered := by decide +kernel

/-- Of DispatchMakesJob: a ready item, dispatched by the arbiter's name for it. -/
theorem test_witness_DispatchWork :
    let s := withCtx 0 (measuring .notStarted) running
    s.contexts[(0 : CtxId)] = some (measuring .notStarted) ∧ (measuring .notStarted).items[0]? = some (entry 6 .notStarted)
      ∧ measureBody.hop < 8 ∧ (dispatchWork 1 (.item 0 0) s).converters[(1 : ConvId)].job.map (fun j => (j.n, j.settle, j.ceiling))
        = some (4, 3, 12000) := by decide +kernel

/-- Of ItemEndsNormally, its result layout: the 88 bytes of 5.5, by the tables of 11.5. -/
theorem test_measureResult :
    let item (x : Item) (conv : ConvId) (samples : List Sample) (status : ItemStatus) : ItemEntry :=
      { item := x, job := .ended, conv := some conv, retryUsed := false, samples := samples, status := some status
        delta := none, baselineWritten := false }
    let asked := request (.measure { measureBody with itemCount := 3 }) true
    let c : Context := { context .writing (.measure { measureBody with itemCount := 3 }) true with
      request := { asked with flags := { asked.flags with keepSamples := true } }
      items :=
        [{ item (.single 6) 0 [.good 5020, .good 5036, .ceiling 12000, .good 5011] .degraded with
             delta := some (-78), baselineWritten := true },
         { item (.gang 1 7) 2 [.good 7004, .good 6998, .good 7010, .good 7002] .good with retryUsed := true },
         item (.single 14) 2 [.good 4410, .stall] .opened] }
    measureResult c { measureBody with itemCount := 3 }
      = [0, 6, 7, 0, 3, 4, 3, 0, 0xE0, 0x2E, 8, 2, 1, 0, 0, 0]
        ++ [1, 28, 0, 4, 3, 1, 0x9E, 0x13, 0x93, 0x13, 0xAC, 0x13, 0xB2, 0xFF, 0, 0,
            0x9C, 0x13, 0xAC, 0x13, 0xE0, 0x2E, 0x93, 0x13]
        ++ [0, 6, 2, 4, 4, 0, 0x5B, 0x1B, 0x56, 0x1B, 0x62, 0x1B, 0, 0, 0, 0,
            0x5C, 0x1B, 0x56, 0x1B, 0x62, 0x1B, 0x5A, 0x1B]
        ++ [3, 1, 2, 2, 1, 0, 0, 0, 0, 0, 0, 0, 0, 0, 0, 0, 0x3A, 0x11, 0, 0, 0, 0, 0, 0] := by decide +kernel

/-- Of VerifyEndsSearch, its result layout: the header and the verify of 6.5, by the tables of 11.5. -/
theorem test_trimResult :
    let q := { search with log := [{ trim := 74, status := .good, cls := some .inWindow, retryUsed := false, mean := some 4923 }] }
    trimResult (context .writing (.trim trimBody)) trimBody q .success (some 4923) 74
      = [0, 17, 7, 0, 0, 2, 1, 74, 64, 74, 0x3B, 0x13, 0x24, 0x13, 0xEC, 0x13, 0xCA, 0x20, 0x3B, 0x13] ++ zeros 28 := by
  decide +kernel

/-- Of WatchRequestsExecute, its result layout: watch 4 of 7.6 with a baseline of 5000, by the tables of 11.5. -/
theorem test_watchQueryResult :
    watchQueryResult 0 7 { withChan 22 (some 5000) none running with watch := { watching with round := 3 } }
      = [0, 1, 7, 0, 3, 0, 1, 0, 50, 0, 0, 0, 0, 0, 0, 0]
        ++ [4, 22, 0x58, 0x30, 0, 0, 0x88, 0x13, 0, 0, 0x58, 0x02, 0x90, 0x01, 100, 0] := by decide +kernel

/-- Of StopEndsExactly and HaltedStartsNothing: a STOPPING engine whose last report is posted goes OFF; a HALTED one
takes another event. -/
theorem test_witness_Stops :
    let s := { posting .report false with
      engine := { Engine.atReset with state := .stopping }, contexts := State.reset.contexts, reports := [.noConverter] }
    Instr.wellFormed (.completionRingWriteEnd .completes) = true ∧ s.engine.state = .stopping
      ∧ (after (.completionRingWriteEnd .completes) s).engine.state = .off
      ∧ (inEngine .halted).engine.state = .halted
      ∧ answersNext .periodTimerExpiry (inEngine .halted) = true := by
  decide +kernel

/-- RUNNING, with an ABORT of queue 0 in place 0 and nothing else in use. -/
def abortAlone : State :=
  withCtx 0 (numbered 1 0 (context .active (.abort 0 0 7)))
    { running.modQueue 0 fun q => { q with inFlight := 1 } with nextAdmission := 5 }

/-- Beside it a MEASURE in CLAIMING that holds tag 7, one in WRITING, one in POSTING, and an ACTIVE one whose job runs. -/
def aborting : State :=
  withCtx 1 (numbered 7 1 (context .claiming (.measure measureBody)))
    (withCtx 2 (numbered 9 2 (context .writing (.measure measureBody)))
      (withCtx 3 (numbered 10 3 (context .posting (.measure measureBody)))
        (withCtx 4 (numbered 11 4 (measuring .running))
          (withConv 0 .sampling (some { itemJob [] with owner := .item 4 0 })
            (abortAlone.modQueue 0 fun q => { q with inFlight := 5 })))))

/-- ContextsSound, from checks over the sixteen places. -/
theorem contextsSound_of {s : State} (hr : s.engine.state = .running)
    (hq : ∀ q : QueueId, (s.queues[q]).inFlight = contextsOf s q)
    (hn : ∀ k : CtxId, (s.contexts[k]).all (fun c => decide (c.admission < s.nextAdmission)) = true)
    (hd : ∀ k l : CtxId, k ≠ l → (s.contexts[k]).all (fun c => (s.contexts[l]).all fun d =>
      decide (c.admission ≠ d.admission
        ∧ ¬(c.queue = d.queue ∧ c.holdsTag = true ∧ d.holdsTag = true ∧ c.request.tag = d.request.tag))) = true) :
    s.ContextsSound := by
  refine ⟨fun h => ?_, hq, fun k c h => ?_, fun k l c d hk hl hne => ?_⟩
  · rw [hr] at h; rcases h with h | h <;> cases h
  · have := hn k; rw [h] at this; exact of_decide_eq_true this
  · have := hd k l hne; rw [hk, hl] at this; exact of_decide_eq_true this

/-- Of AbortExecutes and ContextsStaySound: sound Context Tables with nothing to end, and with a target in every state;
scope ONE on one that waits, one in WRITING and one in POSTING, and on no holder. -/
theorem test_witness_AbortExecutes : abortAlone.ContextsSound ∧ aborting.ContextsSound
    ∧ tagHeld aborting 0 7 = true ∧ tagHeld aborting 0 8 = false
    ∧ inState aborting .claiming 1 = true ∧ inState aborting .writing 2 = true ∧ inState aborting .posting 3 = true := by
  refine ⟨contextsSound_of ?_ ?_ ?_ ?_, contextsSound_of ?_ ?_ ?_ ?_, ?_⟩ <;> decide +kernel

/-- R144: scope ALL ends the two that wait or work, leaves WRITING and POSTING as they are, and counts 2; alone it finds
none. -/
theorem test_abortAll :
    let t := execAbortAll 0 0 aborting
    let told (k : CtxId) := (t.contexts[k]).map fun c => (c.state, c.endCause)
    (t.contexts[(0 : CtxId)]).map (fun c => c.result) = some (some (.success, .count 2))
      ∧ told 1 = some (.posting, some (.aborted, .claiming)) ∧ told 4 = some (.active, some (.aborted, .active))
      ∧ t.contexts[(2 : CtxId)] = aborting.contexts[(2 : CtxId)] ∧ t.contexts[(3 : CtxId)] = aborting.contexts[(3 : CtxId)]
      ∧ t.converters[(0 : ConvId)].state = .discharging
      ∧ ((execAbortAll 0 0 abortAlone).contexts[(0 : CtxId)]).map (fun c => c.result) = some (some (.notFound, .count 0)) := by
  decide +kernel

/-- RUNNING, watch 4 on channel 22 with its job running on converter 1, eight reports, and a command waiting. -/
def watched : State :=
  { withConv 1 .sampling (some { itemJob [] with owner := .watch 4 })
      ((withChan 22 (some 5000) (some .watchUnit) running).modChan 22 fun e => { e with watchLink := some 4 }) with
    watch := watching, reports := List.replicate 8 .noConverter, lost := 65535, pending := [.faultEvent 1] }

/-- Of ReportsStayInRange and ConvertersStaySound, at a full buffer and a saturated count. -/
theorem test_witness_ReportsStayInRange : watched.ReportsInRange ∧ watched.ConvertersSound
    ∧ (match step watched with
      | .next t => t.lost == 65535 && t.reports.length == 8
      | .fault _ => false
      | .refused _ => false) = true := by
  refine ⟨⟨by decide +kernel, by decide +kernel⟩, ?_, by decide +kernel⟩
  intro c
  have h : ∀ d : ConvId, watched.converters[d] = (if d = 1 then
      { Converter.atReset with state := .sampling, job := some { itemJob [] with owner := .watch 4 } }
      else Converter.atReset) := by decide +kernel
  rw [h c]
  split
  · exact ⟨⟨_, rfl, rfl⟩, rfl⟩
  · exact ⟨rfl, rfl⟩

/-- Of WatchListStaysSound. -/
theorem test_witness_WatchListStaysSound : watched.WatchListSound := by
  refine ⟨by decide +kernel, ?_, by decide +kernel⟩
  have h : ∀ (ch : Chan) (id : WatchId),
      watched.channels[ch].watchLink = some id ↔ id = 4 ∧ ch = 22 := by decide +kernel
  intro ch id
  rw [h]
  constructor
  · rintro ⟨rfl, rfl⟩
    exact ⟨watch4, by decide +kernel, rfl, rfl⟩
  · rintro ⟨e, he, rfl, rfl⟩
    have : e = watch4 := by simpa [watched, watching] using he
    subst this
    exact ⟨rfl, rfl⟩

/-- Of RingStaysSound: a ring write of the present session into the last free slot. -/
theorem test_witness_RingStaysSound :
    ({ posting .report false with ring := { ring with writeIndex := 31, count := 31 } } : State).RingSound := by
  refine ⟨fun _ => by decide +kernel, ?_⟩
  intro w _ _
  decide +kernel

/-- Of ProfileTableStaysLegal, and of its second part: HALTED is not RUNNING. -/
theorem test_witness_ProfileTableStaysLegal : (inEngine .halted).ProfilesLegal
    ∧ (inEngine .halted).engine.state ≠ .running := by
  refine ⟨⟨?_, by decide +kernel, by decide +kernel, ?_⟩, by decide +kernel⟩
  · intro p
    have h : ∀ q : ProfileIx, (inEngine .halted).profiles[q] = Profile.atReset := by decide +kernel
    rw [h p]
    exact ⟨by decide, by decide, by decide, by decide⟩
  · intro q r b h
    have hn : ∀ q : QueueId, ((inEngine .halted).queues[q]).held = none := by decide +kernel
    rw [hn q] at h
    cases h

/-- Of StopEndsExactly, first part. -/
theorem test_witness_StopOpen :
    ({ inEngine .stopping with reports := [.noConverter] } : State).StopOpen := by
  intro _ h
  exact absurd h.2.2.2 (by decide)

end Sys2Proof.Tests
end

section
/-! SUPPORT. SettleAndSample, ClearDischargeEnds and DispatchMakesJob, with the equations of the three operations. -/

namespace Sys2Proof.Machine

variable {s t : State}

/-! ### SETTLE_END and SAMPLE_END (R7) -/

theorem exec_settleEnd (c : ConvId) (s : State) : exec (.settleEnd c) s = .next (settleEnd c s) := rfl
theorem exec_sampleEnd (c : ConvId) (o : SampleEnd) (s : State) :
    exec (.sampleEnd c o) s = .next (sampleEnd c o s) := rfl
theorem exec_clearDischargeEnd (c : ConvId) (s : State) :
    exec (.clearDischargeEnd c) s = .next (clearDischargeEnd c s) := rfl

/-- R7, R12: a run whose earlier samples took no STALL is over at a STALL or with its n-th entry. -/
theorem runOver_sampled (j : Job) (x : Sample) (h : ∀ y ∈ j.samples, y ≠ .stall) :
    (j.sampled x).runOver = true ↔ x = .stall ∨ j.n ≤ j.samples.length + 1 := by
  have hearlier : ¬∃ y ∈ j.samples, y.isStall = true := by
    rintro ⟨y, hy, hs⟩
    cases y with
    | stall => exact h _ hy rfl
    | good r => cases hs
    | ceiling r => cases hs
  have hlast : x.isStall = true ↔ x = .stall := by cases x <;> simp [Sample.isStall]
  simp [Job.runOver, Job.sampled, stallTaken, hearlier, hlast]

/-- R1: the sample recorded of a measurement event. -/
theorem recordSample_spec (ceiling : Nat) (outcome : SampleEnd) (x : Sample)
    (h : match outcome with
      | .good count => if count.toNat < ceiling then x = .good count.toNat else x = .ceiling ceiling
      | .ceiling => x = .ceiling ceiling
      | .stall => x = .stall) : x = recordSample ceiling outcome := by
  cases outcome with
  | good count =>
    unfold recordSample
    dsimp only at h ⊢
    split at h <;> simp_all
  | ceiling => exact h
  | stall => exact h

theorem sampleEnd_sampling {c : ConvId} {j : Job} (hs : s.converters[c].state = .sampling)
    (hj : s.converters[c].job = some j) (o : SampleEnd) :
    sampleEnd c o s = sampleInRun c (j.sampled (recordSample j.ceiling o)) s := by
  simp only [sampleEnd, hs, hj]

theorem sampleEnd_checking {c : ConvId} {j : Job} (hs : s.converters[c].state = .checking)
    (hj : s.converters[c].job = some j) (o : SampleEnd) :
    sampleEnd c o s = sampleInCheck c (j.sampled (recordSample j.ceiling o)) s := by
  simp only [sampleEnd, hs, hj]

/-- Settles O27. -/
theorem settleAndSample : Obligations.SettleAndSample := by
  intro s c j hj
  refine ⟨fun hs => ?_, fun hs outcome x hx hclean => ?_⟩
  · rw [exec_settleEnd, settleEnd, if_pos hs]
  · rw [exec_sampleEnd, sampleEnd_sampling hs hj, ← recordSample_spec j.ceiling outcome x hx, sampleInRun]
    simp only [runOver_sampled j x hclean]
    rfl

/-! ### CLEAR_DISCHARGE_END (R17) -/

/-- The first element of a list that meets a test goes. -/
theorem eraseP_first {α : Type} (p : α → Bool) (before rest : List α) (d : α) (hb : ∀ x ∈ before, p x = false)
    (hd : p d = true) : (before ++ d :: rest).eraseP p = before ++ rest := by
  rw [List.eraseP_append_right _ fun x hx => by simp [hb x hx], List.eraseP_cons_of_pos hd]

/-- Settles O33. -/
theorem clearDischargeEnds : Obligations.ClearDischargeEnds := by
  intro s before rest d hs hb
  rw [exec_clearDischargeEnd, clearDischargeEnd, hs,
    eraseP_first _ before rest d (fun x hx => by simpa using hb x hx) (by simp)]

/-! ### Dispatch (R6, R86, R107) -/

/-- The update of the entry that stands at `i`. -/
theorem modify_eq_set {α : Type} (l : List α) (i : Nat) (f : α → α) {e : α} (h : l[i]? = some e) :
    l.modify i f = l.set i (f e) := by
  rw [List.modify_eq_set_getElem?, h]
  rfl

/-- A change of a context in use writes its place. -/
theorem modCtx_eq {k : CtxId} {c : Context} (hk : s.contexts[k] = some c) (f : Context → Context) :
    s.modCtx k f = { s with contexts := s.contexts.set k (some (f c)) } := by
  rw [State.modCtx, hk, Option.map_some]

theorem modItem_eq {k : CtxId} {c : Context} {i : Nat} {e : ItemEntry} (hk : s.contexts[k] = some c)
    (he : c.items[i]? = some e) (f : ItemEntry → ItemEntry) :
    modItem k i f s = { s with contexts := s.contexts.set k (some { c with items := c.items.set i (f e) }) } := by
  rw [modItem, modCtx_eq hk, modify_eq_set _ _ _ he]

/-- Settles O50. -/
theorem dispatchMakesJob : Obligations.DispatchMakesJob := by
  refine ⟨fun s v k c b i e hk hb he _ => ?_, fun s v k c b q hk hb hq _ => ?_⟩
  · have hw : dispatchWork v (.item k i) s = dispatchItem v k i b e s := by
      simp only [dispatchWork, hk, hb, he]
    rw [hw, dispatchItem, modItem_eq (s := connect v _ s) hk he]
    rfl
  · have hw : dispatchWork v (.trial k) s = dispatchTrial v k b q s := by
      simp only [dispatchWork, trimParts, hk, hb, hq]
    rw [hw, dispatchTrial, modCtx_eq (s := connect v _ s) hk]
    rfl

end Sys2Proof.Machine
end

section
/-! SUPPORT. The state that each command leads to, and what the work for one context, a watch job's end and an end cause
can touch. -/

namespace Sys2Proof.Machine

variable {s t u : State}

/-! ### The effect of a command -/

/-- The state that a command leads to. -/
def commandEffect (i : Instr) (s : State) : State :=
  match i with
  | .deviceReset => deviceReset s
  | .start => startCommand s
  | .stopDrain => stopDrainCommand s
  | .stopCut => stopCutCommand s
  | .clear => clearCommand s
  | .commandRefused word => engineCommandWrite word s
  | .submitIndex word => submitWrite word s
  | .releaseIndex word => releaseWrite word s
  | .interruptControl word => interruptWrite word s
  | .registerWrite offset word => windowWrite offset word s
  | .setupReadEnd k how => setupReadEnd k how s
  | .fetchReadEnd how => fetchReadEnd how s
  | .listReadEnd k how => listReadEnd k how s
  | .resultWriteEnd k how => resultWriteEnd k how s
  | .completionRingWriteEnd how => ringWriteEnd how s
  | .settleEnd c => settleEnd c s
  | .sampleEnd c outcome => sampleEnd c outcome s
  | .dischargeEnd c => dischargeEnd c s
  | .faultEvent c => faultEvent c s
  | .faultDischargeEnd c => faultDischargeEnd c s
  | .clearDischargeEnd c => clearDischargeEnd c s
  | .periodTimerExpiry => periodExpiry s
  | .coalescingTimerExpiry => coalescingExpiry s

/-- Every command answers a next state. -/
theorem exec_eq (i : Instr) (s : State) : exec i s = .next (commandEffect i s) := by
  cases i <;> rfl

/-- A step idles, or takes the command at the front of the queue. -/
theorem step_cases (h : step s = .next t) :
    t = s ∨ ∃ i rest, s.pending = i :: rest ∧ t = commandEffect i { s with pending := rest } := by
  unfold step at h
  split at h
  · exact .inl (Host.Outcome.next.inj h).symm
  · rename_i i rest hp
    rw [exec_eq] at h
    exact .inr ⟨i, rest, hp, (Host.Outcome.next.inj h).symm⟩

/-! ### Work for one context -/

/-- `t` is `s` after work for the context `k`: it has touched that context, channel entries, and result writes. -/
structure WorkedFor (k : CtxId) (s t : State) : Prop where
  frame : t = { s with contexts := t.contexts, channels := t.channels, resultWrites := t.resultWrites }
  others : ∀ l : CtxId, l ≠ k → t.contexts[l] = s.contexts[l]

namespace WorkedFor

variable {k : CtxId}

theorem refl (k : CtxId) (s : State) : WorkedFor k s s := ⟨rfl, fun _ _ => rfl⟩

theorem trans (h : WorkedFor k s t) (g : WorkedFor k t u) : WorkedFor k s u :=
  ⟨by rw [g.frame, h.frame], fun l hl => (g.others l hl).trans (h.others l hl)⟩

theorem ofModCtx (k : CtxId) (f : Context → Context) (s : State) : WorkedFor k s (s.modCtx k f) :=
  ⟨rfl, fun _ hl => modCtx_other hl f⟩

theorem ofModChan (k : CtxId) (ch : Chan) (f : Channel → Channel) (s : State) : WorkedFor k s (s.modChan ch f) :=
  ⟨rfl, fun _ _ => rfl⟩

theorem ofReleaseClaims (k : CtxId) (s : State) : WorkedFor k s (releaseClaims k s) := ⟨rfl, fun _ _ => rfl⟩

theorem engine (h : WorkedFor k s t) : t.engine = s.engine := by rw [h.frame]
theorem profiles (h : WorkedFor k s t) : t.profiles = s.profiles := by rw [h.frame]
theorem converters (h : WorkedFor k s t) : t.converters = s.converters := by rw [h.frame]
theorem reports (h : WorkedFor k s t) : t.reports = s.reports := by rw [h.frame]
theorem pending (h : WorkedFor k s t) : t.pending = s.pending := by rw [h.frame]
theorem faultDischarges (h : WorkedFor k s t) : t.faultDischarges = s.faultDischarges := by rw [h.frame]

end WorkedFor

theorem enterWriting_workedFor (k : CtxId) (st : Status) (d : Detail) (addr : Addr) (data : List Byte) (s : State) :
    WorkedFor k s (enterWriting k st d addr data s) := by
  rcases enterWriting_cases s k st d addr data with ⟨_, h⟩ | ⟨_, h⟩ <;> rw [h] <;>
    exact ⟨rfl, fun _ hl => modCtx_other hl _⟩

theorem measureWorkEnd_workedFor (k : CtxId) (s : State) : WorkedFor k s (measureWorkEnd k s) :=
  ⟨(measureWorkEnd_same k s).1, (measureWorkEnd_same k s).2⟩

theorem modItem_workedFor (k : CtxId) (i : Nat) (f : ItemEntry → ItemEntry) (s : State) :
    WorkedFor k s (modItem k i f s) := .ofModCtx k _ s

theorem writeBaseline_workedFor (k : CtxId) (item : Item) (written : Bool) (l : List Sample) (s : State) :
    WorkedFor k s (writeBaseline item written l s) := by
  unfold writeBaseline
  split
  · split
    · exact .ofModChan k _ _ s
    · exact .refl k s
  · exact .refl k s

theorem itemNormalEnd_workedFor (k : CtxId) (i : Nat) (l : List Sample) (s : State) :
    WorkedFor k s (itemNormalEnd k i l s) := by
  unfold itemNormalEnd
  split
  · exact .refl k s
  · split
    · exact (writeBaseline_workedFor k _ _ _ s).trans
        ((modItem_workedFor k i _ _).trans (measureWorkEnd_workedFor k _))
    · exact .refl k s

theorem itemFaultEnd_workedFor (k : CtxId) (i : Nat) (s : State) : WorkedFor k s (itemFaultEnd k i s) :=
  (modItem_workedFor k i _ s).trans (measureWorkEnd_workedFor k _)

theorem itemCutEnd_workedFor (k : CtxId) (i : Nat) (s : State) : WorkedFor k s (itemCutEnd k i s) :=
  (modItem_workedFor k i _ s).trans (measureWorkEnd_workedFor k _)

theorem endSearch_workedFor (k : CtxId) (c : Context) (b : TrimBody) (q : Search) (st : Status) (mean : Option Nat)
    (s : State) : WorkedFor k s (endSearch k c b q st mean s) :=
  ⟨(endSearch_same k c b q st mean s).1, (endSearch_same k c b q st mean s).2.1⟩

theorem beginTrial_workedFor (k : CtxId) (ch : Chan) (q : Search) (s : State) : WorkedFor k s (beginTrial k ch q s) :=
  (WorkedFor.ofModCtx k _ s).trans (.ofModChan k ch _ _)

theorem trialNormalEnd_workedFor (k : CtxId) (l : List Sample) (s : State) : WorkedFor k s (trialNormalEnd k l s) := by
  unfold trialNormalEnd
  split
  · exact .refl k s
  · dsimp only
    split
    · exact endSearch_workedFor k _ _ _ _ _ s
    · split
      · exact beginTrial_workedFor k _ _ s
      · split <;> exact endSearch_workedFor k _ _ _ _ _ s

theorem trialFaultEnd_workedFor (k : CtxId) (s : State) : WorkedFor k s (trialFaultEnd k s) := by
  unfold trialFaultEnd
  split
  · exact .refl k s
  · split
    · exact endSearch_workedFor k _ _ _ _ _ s
    · exact .ofModCtx k _ s

theorem trimEarlyEnd_workedFor (k : CtxId) (s : State) : WorkedFor k s (trimEarlyEnd k s) := by
  unfold trimEarlyEnd
  split
  · exact .refl k s
  · split
    · exact (WorkedFor.ofModCtx k _ s).trans ((WorkedFor.ofModChan k _ _ _).trans
        ((WorkedFor.ofReleaseClaims k _).trans (.ofModCtx k _ _)))
    · exact .refl k s

/-! ### The end of a watch job -/

/-- `t` is `s` after the end of a watch job: it has touched the Watch Unit, channel entries, and reports. -/
def WatchJobEnded (s t : State) : Prop :=
  t = { s with channels := t.channels, watch := t.watch, reports := t.reports, posting := t.posting, lost := t.lost }

namespace WatchJobEnded

theorem trans (h : WatchJobEnded s t) (g : WatchJobEnded t u) : WatchJobEnded s u := by
  unfold WatchJobEnded at *
  rw [g, h]

theorem engine (h : WatchJobEnded s t) : t.engine = s.engine := by rw [h]
theorem profiles (h : WatchJobEnded s t) : t.profiles = s.profiles := by rw [h]
theorem converters (h : WatchJobEnded s t) : t.converters = s.converters := by rw [h]
theorem contexts (h : WatchJobEnded s t) : t.contexts = s.contexts := by rw [h]
theorem pending (h : WatchJobEnded s t) : t.pending = s.pending := by rw [h]
theorem faultDischarges (h : WatchJobEnded s t) : t.faultDischarges = s.faultDischarges := by rw [h]

end WatchJobEnded

theorem endRunning_watchJobEnded (w : RunningWatch) (s : State) : WatchJobEnded s (endRunning w s) := rfl

theorem applyVerdict_watchJobEnded (w : RunningWatch) (j : Job) (e : WatchEntry) (s : State) :
    WatchJobEnded s (applyVerdict w j e s) := by
  unfold applyVerdict raiseOption
  dsimp only
  split
  · unfold WatchJobEnded
    rw [raise_same]
    rfl
  · rfl

theorem watchNormalEnd_watchJobEnded (id : WatchId) (j : Job) (s : State) :
    WatchJobEnded s (watchNormalEnd id j s) := by
  unfold watchNormalEnd
  split
  · rfl
  · split
    · exact (applyVerdict_watchJobEnded _ j _ s).trans (endRunning_watchJobEnded _ _)
    · exact endRunning_watchJobEnded _ s

theorem watchFaultEnd_watchJobEnded (id : WatchId) (s : State) : WatchJobEnded s (watchFaultEnd id s) := by
  unfold watchFaultEnd
  split
  · rfl
  · refine WatchJobEnded.trans ?_ (endRunning_watchJobEnded _ _)
    split <;> rfl

/-! ### The end of a job, normally or by a fault (R8, R14, R15) -/

/-- `t` is `s` after the owner of a job has been handed its end. -/
def OwnerTold (s t : State) : Prop := (∃ k, WorkedFor k s t) ∨ WatchJobEnded s t

namespace OwnerTold

theorem engine (h : OwnerTold s t) : t.engine = s.engine := h.elim (fun ⟨_, h⟩ => h.engine) (·.engine)
theorem profiles (h : OwnerTold s t) : t.profiles = s.profiles := h.elim (fun ⟨_, h⟩ => h.profiles) (·.profiles)
theorem converters (h : OwnerTold s t) : t.converters = s.converters :=
  h.elim (fun ⟨_, h⟩ => h.converters) (·.converters)
theorem pending (h : OwnerTold s t) : t.pending = s.pending := h.elim (fun ⟨_, h⟩ => h.pending) (·.pending)
theorem faultDischarges (h : OwnerTold s t) : t.faultDischarges = s.faultDischarges :=
  h.elim (fun ⟨_, h⟩ => h.faultDischarges) (·.faultDischarges)

end OwnerTold

theorem handOver_ownerTold (j : Job) (s : State) : OwnerTold s (handOver j s) := by
  unfold handOver
  split
  · exact .inl ⟨_, itemNormalEnd_workedFor _ _ _ s⟩
  · exact .inl ⟨_, itemCutEnd_workedFor _ _ s⟩
  · exact .inl ⟨_, trialNormalEnd_workedFor _ _ s⟩
  · exact .inl ⟨_, trimEarlyEnd_workedFor _ s⟩
  · exact .inr (watchNormalEnd_watchJobEnded _ j s)
  · exact .inr rfl

theorem faultEnd_ownerTold (j : Job) (s : State) : OwnerTold s (faultEnd j s) := by
  unfold faultEnd
  split
  · exact .inl ⟨_, itemFaultEnd_workedFor _ _ s⟩
  · exact .inl ⟨_, itemCutEnd_workedFor _ _ s⟩
  · exact .inl ⟨_, trialFaultEnd_workedFor _ s⟩
  · exact .inl ⟨_, trimEarlyEnd_workedFor _ s⟩
  · exact .inr (watchFaultEnd_watchJobEnded _ s)
  · exact .inr rfl

/-! ### The converters of operations that leave them alone -/

/-- A converter's new state is the one change of its record. -/
@[simp] theorem changeConvState_converters (c : ConvId) (st : ConvState) (s : State) :
    (changeConvState c st s).converters = (s.modConv c fun v => { v with state := st }).converters := by
  rcases changeConvState_cases s c st with h | h <;> rw [h]
  rw [raise_converters]

@[simp] theorem startupCheckEnded_converters (c : ConvId) (s : State) :
    (startupCheckEnded c s).converters = s.converters := by
  unfold startupCheckEnded
  dsimp only
  split <;> rfl

@[simp] theorem handCheckResult_converters (c : ConvId) (o : CheckOwner) (pass : Bool) (new : ConvState)
    (mean : Option Nat) (s : State) : (handCheckResult c o pass new mean s).converters = s.converters := by
  unfold handCheckResult
  split
  · rfl
  · exact startupCheckEnded_converters c s
  · rfl

@[simp] theorem noConverterEnds_converters (s : State) : (noConverterEnds s).converters = s.converters := by
  by_cases h : onlineCount s = 0
  · exact (noConverterEnds_none s h).2.2.1
  · rw [noConverterEnds, if_neg h]

@[simp] theorem settleClaims_converters (n : Nat) (s : State) : (settleClaims n s).converters = s.converters := by
  induction n generalizing s with
  | zero => rfl
  | succ n ih =>
    have h : (noConverterEnds (grantPass s)).converters = s.converters :=
      (noConverterEnds_converters _).trans (grantPass_same s).2
    unfold settleClaims
    dsimp only
    split
    · rw [ih, h]
    · exact h

/-- What follows the two arbiters of an event leaves converters, contexts, channels and the Watch Unit alone. -/
theorem finish_afterArbiters (s : State) :
    (finish s).converters = (runArbiters s).converters ∧ (finish s).contexts = (runArbiters s).contexts
      ∧ (finish s).channels = (runArbiters s).channels ∧ (finish s).watch = (runArbiters s).watch := by
  have hfetch : ∀ x : State, (issueFetch x).converters = x.converters ∧ (issueFetch x).contexts = x.contexts
      ∧ (issueFetch x).channels = x.channels ∧ (issueFetch x).watch = x.watch := fun x => by
    unfold issueFetch
    split
    · split <;> exact ⟨rfl, rfl, rfl, rfl⟩
    · exact ⟨rfl, rfl, rfl, rfl⟩
  have hwrite : ∀ x : State, (issueRingWrite x).converters = x.converters ∧ (issueRingWrite x).contexts = x.contexts
      ∧ (issueRingWrite x).channels = x.channels ∧ (issueRingWrite x).watch = x.watch := fun x => by
    unfold issueRingWrite
    split
    · split
      · exact ⟨rfl, rfl, rfl, rfl⟩
      · split <;> exact ⟨rfl, rfl, rfl, rfl⟩
    · exact ⟨rfl, rfl, rfl, rfl⟩
  have hstop : ∀ x : State, (testStop x).converters = x.converters ∧ (testStop x).contexts = x.contexts
      ∧ (testStop x).channels = x.channels ∧ (testStop x).watch = x.watch := fun x => by
    unfold testStop
    split <;> exact ⟨rfl, rfl, rfl, rfl⟩
  unfold finish
  generalize runArbiters s = r
  obtain ⟨a1, a2, a3, a4⟩ := hfetch (orderPosts r)
  obtain ⟨b1, b2, b3, b4⟩ := hwrite (issueFetch (orderPosts r))
  obtain ⟨c1, c2, c3, c4⟩ := hstop (issueRingWrite (issueFetch (orderPosts r)))
  exact ⟨c1.trans (b1.trans a1), c2.trans (b2.trans a2), c3.trans (b3.trans a3), c4.trans (b4.trans a4)⟩

/-! ### One grant of the converter arbiter (R20) -/

theorem firstFree_free {c : ConvId} (h : firstFree s = some c) : s.converters[c].free = true := by
  simpa using List.find?_some h

/-- R20, R23: a grant offers the lowest free converter to the first watch job, or to the first ready work. -/
theorem arbiterStep_cases (h : arbiterStep s = some t) : ∃ c, arbitersRun s = true ∧ firstFree s = some c ∧
    ((∃ id rest, s.watch.pending = id :: rest ∧ t = offerWatch c id s)
      ∨ ∃ w, firstWork s = some w ∧ t = dispatchWork c w s) := by
  unfold arbiterStep at h
  split at h
  · split at h
    · cases h
    · rename_i hruns _ c hc
      refine ⟨c, hruns, hc, ?_⟩
      split at h
      · cases h
        exact .inl ⟨_, _, ‹_›, rfl⟩
      · split at h
        · cases h
          exact .inr ⟨_, ‹_›, rfl⟩
        · split at h
          · cases h
            exact .inl ⟨_, _, ‹_›, rfl⟩
          · cases h
  · cases h

end Sys2Proof.Machine
end

section
/-! SUPPORT. ConvertersStaySound: each operation on a converter's record leads from a sound record to a sound one (R5, R9),
and every command is made of them. -/

namespace Sys2Proof.Machine

variable {s t : State}

/-! ### One record at a time -/

/-- R5 for the four converters, as a structure: a goal about it is not evaluated down to the records. -/
structure SoundRecords (s : State) : Prop where
  record : ∀ c : ConvId, s.converters[c].Sound

theorem soundRecords_iff (s : State) : SoundRecords s ↔ s.ConvertersSound := ⟨fun h => h.record, fun h => ⟨h⟩⟩

/-- The soundness of the converters depends on their records alone. -/
theorem SoundRecords.congr (hs : SoundRecords s) (h : t.converters = s.converters) :
    SoundRecords t := by
  refine ⟨fun d => ?_⟩
  rw [h]
  exact hs.record d

/-- One record has changed into a sound one. -/
theorem SoundRecords.ofModConv (hs : SoundRecords s) (c : ConvId) (f : Converter → Converter)
    (hf : (f s.converters[c]).Sound) : SoundRecords (s.modConv c f) := by
  refine ⟨fun d => ?_⟩
  rw [modConv_get]
  split
  · exact hf
  · exact hs.record d

/-- All records have changed into sound ones. -/
theorem SoundRecords.ofMap (hs : SoundRecords s) (f : Converter → Converter)
    (hf : ∀ v : Converter, v.Sound → (f v).Sound) (h : t.converters = s.converters.map f) : SoundRecords t := by
  refine ⟨fun d => ?_⟩
  have hd : t.converters[d] = f s.converters[d] := by rw [h]; simp
  rw [hd]
  exact hf _ (hs.record d)

/-- A state with no job: OFFLINE and IDLE. -/
def ConvState.atRest (st : ConvState) : Prop := st = .offline ∨ st = .idle

/-- A state with an electrode job. -/
def ConvState.connected (st : ConvState) : Prop := st = .settling ∨ st = .sampling ∨ st = .discharging

theorem Converter.sound_atRest {v : Converter} (hs : v.state.atRest) :
    v.Sound ↔ v.job = none ∧ v.origin = none := by
  rcases hs with h | h <;> simp [Converter.Sound, h]

theorem Converter.sound_connected {v : Converter} (hs : v.state.connected) :
    v.Sound ↔ (∃ j, v.job = some j ∧ j.isCheck = false) ∧ v.origin = none := by
  rcases hs with h | h | h <;> simp [Converter.Sound, h]

theorem Converter.sound_held {v : Converter} (hs : v.state = .held) :
    v.Sound ↔ v.job = none ∧ v.origin = none ∧ v.mark = none := by
  simp [Converter.Sound, hs]

theorem Converter.sound_checking {v : Converter} (hs : v.state = .checking) :
    v.Sound ↔ (∃ j, v.job = some j ∧ j.isCheck = true) ∧ v.origin.isSome = true := by
  simp [Converter.Sound, hs]

/-- A free converter is IDLE. -/
theorem Converter.idle_of_free {v : Converter} (h : v.free = true) : v.state = .idle := by
  simp only [Converter.free, Bool.and_eq_true, beq_iff_eq] at h
  exact h.1

/-! ### Dispatch (R6) -/

/-- R6: a free converter connects for an electrode job. -/
theorem connect_sound (hs : SoundRecords s) {c : ConvId} (hf : s.converters[c].free = true) {j : Job}
    (hj : j.isCheck = false) : SoundRecords (connect c j s) := by
  refine hs.ofModConv c _ ((Converter.sound_connected ?_).2 ⟨⟨j, rfl, hj⟩, ?_⟩)
  · dsimp only
    split
    · exact .inr (.inl rfl)
    · exact .inl rfl
  · exact ((Converter.sound_atRest (.inr (Converter.idle_of_free hf))).1 (hs.record c)).2

theorem offerWatch_sound (hs : SoundRecords s) {c : ConvId} (hf : s.converters[c].free = true) (id : WatchId) :
    SoundRecords (offerWatch c id s) := by
  unfold offerWatch
  split
  · split
    · exact (connect_sound hs hf rfl).congr rfl
    · exact hs.congr rfl
  · exact hs.congr rfl

theorem dispatchWork_sound (hs : SoundRecords s) {c : ConvId} (hf : s.converters[c].free = true) (w : Work) :
    SoundRecords (dispatchWork c w s) := by
  unfold dispatchWork
  split
  · split
    · split
      · exact (connect_sound hs hf rfl).congr rfl
      · exact hs
    · exact hs
  · split
    · exact (connect_sound hs hf rfl).congr rfl
    · exact hs

theorem arbiterStep_sound (hs : SoundRecords s) (h : arbiterStep s = some t) : SoundRecords t := by
  obtain ⟨c, -, hc, ⟨id, -, -, rfl⟩ | ⟨w, -, rfl⟩⟩ := arbiterStep_cases h
  · exact offerWatch_sound hs (firstFree_free hc) id
  · exact dispatchWork_sound hs (firstFree_free hc) w

theorem arbiterLoop_sound (n : Nat) (hs : SoundRecords s) : SoundRecords (arbiterLoop n s) := by
  induction n generalizing s with
  | zero => exact hs
  | succ n ih =>
    unfold arbiterLoop
    split
    · exact ih (arbiterStep_sound hs ‹_›)
    · exact hs

theorem finish_sound (hs : SoundRecords s) : SoundRecords (finish s) := by
  have hr : SoundRecords (runArbiters s) := arbiterLoop_sound 36 (hs.congr (settleClaims_converters 17 s))
  exact hr.congr (finish_afterArbiters s).1

theorem finishJobEnd_sound (j : Job) (hs : SoundRecords s) : SoundRecords (finishJobEnd j s) := by
  rcases finishJobEnd_cases j s with h | ⟨k, _, _, _, _, h⟩ <;> rw [h]
  · exact finish_sound hs
  · have hf : SoundRecords (finish (s.modCtx k fun c => { c with search := c.search.map Search.ended })) :=
      finish_sound (hs.congr rfl)
    unfold finishBeforeTrial
    generalize finish (s.modCtx k fun c => { c with search := c.search.map Search.ended }) = x at hf ⊢
    exact hf.congr rfl

/-! ### Checks and marks (R8, R10 to R13) -/

/-- R11: a check starts with its origin. -/
theorem startCheck_sound (hs : SoundRecords s) (c : ConvId) (o : CheckOwner) :
    SoundRecords (startCheck c o s) :=
  hs.ofModConv c _ ((Converter.sound_checking rfl).2 ⟨⟨_, rfl, rfl⟩, rfl⟩)

/-- R10, R151: a converter at rest without a mark becomes HELD. -/
theorem changeConvState_held_sound (hs : SoundRecords s) {c : ConvId} (hr : s.converters[c].state.atRest)
    (hm : s.converters[c].mark = none) : SoundRecords (changeConvState c .held s) := by
  obtain ⟨hj, ho⟩ := (Converter.sound_atRest hr).1 (hs.record c)
  exact (hs.ofModConv c _ ((Converter.sound_held rfl).2 ⟨hj, ho, hm⟩)).congr (changeConvState_converters c .held s)

theorem clearMark_sound (hs : SoundRecords s) {c : ConvId} (hr : s.converters[c].state.atRest) :
    SoundRecords (clearMark c s) :=
  hs.ofModConv c _ ((Converter.sound_atRest (v := { s.converters[c] with mark := none }) hr).2
    ((Converter.sound_atRest hr).1 (hs.record c)))

/-- R8, R12, R13: a mark is resolved against IDLE or OFFLINE. -/
theorem resolveMark_sound (hs : SoundRecords s) {c : ConvId} (hr : s.converters[c].state.atRest) :
    SoundRecords (resolveMark c s) := by
  have hget : (clearMark c s).converters[c] = { s.converters[c] with mark := none } := by
    rw [clearMark, modConv_get, if_pos rfl]
  unfold resolveMark
  split
  · exact hs
  · split
    · refine (changeConvState_held_sound (clearMark_sound hs hr) (c := c) ?_ ?_).congr rfl
      · rw [hget]; exact hr
      · rw [hget]
    · split
      · exact hs
      · exact (startCheck_sound (clearMark_sound hs hr) c _).congr rfl

/-- The converter `c` has come to rest: its state is `st` and its job and origin are gone. -/
structure CameToRest (c : ConvId) (st : ConvState) (s t : State) : Prop where
  here : t.converters[c] = { state := st, mark := s.converters[c].mark, job := none, origin := none }
  others : ∀ d : ConvId, d ≠ c → t.converters[d] = s.converters[d]

namespace CameToRest

variable {c : ConvId} {st : ConvState}

theorem state (h : CameToRest c st s t) : t.converters[c].state = st := by rw [h.here]

theorem sound (h : CameToRest c st s t) (hs : SoundRecords s) (hr : st.atRest) : SoundRecords t := by
  refine ⟨fun d => ?_⟩
  by_cases hd : d = c
  · subst hd
    rw [h.here]
    exact (Converter.sound_atRest hr).2 ⟨rfl, rfl⟩
  · rw [h.others d hd]
    exact hs.record d

/-- What comes to rest and then has its mark resolved. -/
theorem resolved_sound (h : CameToRest c st s t) (hs : SoundRecords s) (hr : st.atRest) :
    SoundRecords (resolveMark c t) :=
  resolveMark_sound (h.sound hs hr) (by rw [h.state]; exact hr)

theorem congr {u : State} (h : CameToRest c st s t) (hu : u.converters = t.converters) : CameToRest c st s u :=
  ⟨by rw [hu]; exact h.here, fun d hd => by rw [hu]; exact h.others d hd⟩

end CameToRest

theorem clearJob_cameToRest (c : ConvId) (st : ConvState) (s : State) :
    CameToRest c st s (clearJob c (s.modConv c fun v => { v with state := st })) where
  here := by simp only [clearJob, modConv_get, if_pos]
  others d hd := by simp only [clearJob, modConv_get, if_neg hd]

/-- R12, R13: a converter goes OFFLINE with its notice, and its job record is cleared. -/
theorem offline_cameToRest (c : ConvId) (r : Report) (s : State) :
    CameToRest c .offline s (clearJob c (changeConvState c .offline (raise r s))) := by
  have h := clearJob_cameToRest c .offline s
  refine h.congr ?_
  simp only [clearJob, modConv_converters, changeConvState_converters, raise_converters]

theorem checkPass_sound (hs : SoundRecords s) (c : ConvId) (mean : Option Nat) :
    SoundRecords (checkPass c mean s) := by
  unfold checkPass
  refine ((clearJob_cameToRest c .idle s).congr ?_).resolved_sound hs (.inr rfl)
  rw [handCheckResult_converters]
  split
  · rw [raise_converters]
  · rw [raise_converters]
  · rfl

theorem checkFail_sound (hs : SoundRecords s) (c : ConvId) (cause : OfflineCause) (mean : Option Nat) :
    SoundRecords (checkFail c cause mean s) := by
  unfold checkFail
  exact ((offline_cameToRest c _ s).congr (handCheckResult_converters _ _ _ _ _ _)).resolved_sound hs (.inl rfl)

theorem concludeCheck_sound (hs : SoundRecords s) (c : ConvId) (l : List Sample) :
    SoundRecords (concludeCheck c l s) := by
  unfold concludeCheck
  split
  · exact checkPass_sound hs c _
  · exact checkFail_sound hs c _ _

theorem faultJob_sound (hs : SoundRecords s) (c : ConvId) (j : Job) : SoundRecords (faultJob c j s) := by
  unfold faultJob
  refine CameToRest.resolved_sound ?_ hs (.inl rfl)
  exact (offline_cameToRest c (.converterOffline c .fault none) s).congr rfl

/-! ### The converter events (R7, R8, R13) -/

theorem settleEnd_sound (hs : SoundRecords s) (c : ConvId) : SoundRecords (settleEnd c s) := by
  unfold settleEnd
  split
  · have h := (Converter.sound_connected (.inl ‹_›)).1 (hs.record c)
    exact hs.ofModConv c _ ((Converter.sound_connected (.inr (.inl rfl))).2 h)
  · exact hs

theorem sampleEnd_sound (hs : SoundRecords s) (c : ConvId) (o : SampleEnd) :
    SoundRecords (sampleEnd c o s) := by
  unfold sampleEnd
  split
  · rename_i j hst hj
    obtain ⟨⟨i, hi, hc⟩, ho⟩ := (Converter.sound_connected (.inr (.inl hst))).1 (hs.record c)
    cases hj.symm.trans hi
    refine hs.ofModConv c _ ((Converter.sound_connected ?_).2 ⟨⟨_, rfl, hc⟩, ho⟩)
    dsimp only
    split
    · exact .inr (.inr rfl)
    · exact .inr (.inl rfl)
  · rename_i j hst hj
    unfold sampleInCheck
    split
    · exact finish_sound (concludeCheck_sound hs c _)
    · obtain ⟨⟨i, hi, hc⟩, ho⟩ := (Converter.sound_checking hst).1 (hs.record c)
      cases hj.symm.trans hi
      refine hs.ofModConv c _ ((Converter.sound_checking ?_).2 ⟨⟨_, rfl, hc⟩, ho⟩)
      exact hst
  · exact hs

theorem dischargeEnd_sound (hs : SoundRecords s) (c : ConvId) : SoundRecords (dischargeEnd c s) := by
  unfold dischargeEnd
  split
  · rename_i j hst _
    have hv := (handOver_ownerTold j s).converters
    have ho := ((Converter.sound_connected (.inr (.inr hst))).1 (hs.record c)).2
    have hu := hs.congr hv
    refine finishJobEnd_sound j (resolveMark_sound (hu.ofModConv c _ ?_) ?_)
    · rw [hv]
      exact (Converter.sound_atRest (.inr rfl)).2 ⟨rfl, ho⟩
    · rw [modConv_get, if_pos rfl]
      exact .inr rfl
  · exact hs

theorem faultEvent_sound (hs : SoundRecords s) (c : ConvId) : SoundRecords (faultEvent c s) := by
  unfold faultEvent
  split
  · exact finish_sound (faultJob_sound hs c _)
  · exact finish_sound (faultJob_sound hs c _)
  · exact finish_sound (faultJob_sound hs c _)
  · exact finish_sound (checkFail_sound hs c _ _)
  · exact hs

theorem faultDischargeEnd_sound (hs : SoundRecords s) (c : ConvId) : SoundRecords (faultDischargeEnd c s) := by
  unfold faultDischargeEnd
  split
  · exact hs
  · dsimp only
    split
    · exact finish_sound (hs.congr (faultEnd_ownerTold _ _).converters)
    · exact hs.congr rfl

/-! ### End causes (R16, R77, R152) -/

/-- R16: a cut sends a connected job to its discharge. -/
theorem Converter.cutFor_sound (k : CtxId) {v : Converter} (hv : v.Sound) : (v.cutFor k).Sound := by
  unfold Converter.cutFor
  split
  · rename_i j hj
    split
    · rename_i hown
      have hnc : j.isCheck = false := by
        unfold Job.ownedBy at hown
        unfold Job.isCheck
        cases ho : j.owner <;> simp_all
      by_cases hc : v.state.connected
      · obtain ⟨_, ho⟩ := (Converter.sound_connected hc).1 hv
        refine (Converter.sound_connected ?_).2 ⟨⟨_, rfl, hnc⟩, ho⟩
        rcases hc with h | h | h <;> simp [h, ConvState.connected]
      · -- any other state holds no job, or a check
        exfalso
        unfold Converter.Sound at hv
        unfold ConvState.connected at hc
        cases hst : v.state <;> simp_all
    · exact hv
  · exact hv

/-- R152: a context's marks and its check are disowned. -/
theorem Converter.disown_sound (k : CtxId) {v : Converter} (hv : v.Sound) : (v.disown k).Sound := by
  have hjob : ∀ j : Job, (if j.owner = .check (.context k) then { j with owner := .check .nobody } else j).isCheck
      = j.isCheck := fun j => by
    split
    · rename_i h; simp [Job.isCheck, h]
    · rfl
  unfold Converter.Sound Converter.disown at *
  dsimp only
  cases hst : v.state <;> simp only [hst] at hv ⊢
  case offline | idle => exact ⟨by rw [hv.1]; rfl, hv.2⟩
  case held => exact ⟨by rw [hv.1]; rfl, hv.2.1, by rw [hv.2.2]; rfl⟩
  all_goals
    obtain ⟨⟨j, hj, hc⟩, ho⟩ := hv
    exact ⟨⟨_, by rw [hj]; rfl, (hjob j).trans hc⟩, ho⟩

theorem endActive_sound (hs : SoundRecords s) (k : CtxId) (c : Context) (e : EndCause × CtxState) :
    SoundRecords (endActive k c e s) := by
  unfold endActive
  split
  · exact (hs.ofMap (Converter.cutFor k) (fun _ => Converter.cutFor_sound k) rfl : SoundRecords (cutJobs k _)).congr
      (measureWorkEnd_workedFor k _).converters
  · split
    · split
      · exact hs.ofMap (Converter.cutFor k) (fun _ => Converter.cutFor_sound k) rfl
      · exact hs.congr (trimEarlyEnd_workedFor k s).converters
    · exact hs
  · exact hs.ofMap (Converter.disown k) (fun _ => Converter.disown_sound k) rfl

theorem setEndCause_sound (hs : SoundRecords s) (cause : EndCause) (k : CtxId) :
    SoundRecords (setEndCause cause k s) := by
  unfold setEndCause
  split
  · exact hs
  · split
    · exact hs
    · dsimp only
      split
      · exact hs.congr rfl
      · exact hs.congr rfl
      · refine endActive_sound ?_ k _ _
        exact hs.congr rfl
      · exact hs
      · exact hs

theorem setEndCauses_sound (cause : EndCause) (l : List CtxId) (hs : SoundRecords s) :
    SoundRecords (l.foldl (fun t k => setEndCause cause k t) s) := by
  induction l generalizing s with
  | nil => exact hs
  | cons k l ih => exact ih (setEndCause_sound hs cause k)

/-! ### The Engine Command writes (R175 to R184) -/

/-- R179: an abandoned start-up check leaves its converter OFFLINE. -/
theorem Converter.abandonCheck_sound {v : Converter} (hv : v.Sound) : v.abandonCheck.Sound := by
  unfold Converter.abandonCheck
  split
  · exact (Converter.sound_atRest (.inl rfl)).2 ⟨rfl, rfl⟩
  · exact hv

/-- R17: at a CLEAR every converter is HELD or OFFLINE. -/
theorem Converter.atClear_sound (v : Converter) : v.atClear.Sound := by
  unfold Converter.atClear
  split
  · exact (Converter.sound_held rfl).2 ⟨rfl, rfl, rfl⟩
  · exact (Converter.sound_atRest (.inl rfl)).2 ⟨rfl, rfl⟩

theorem startCommand_sound (hs : SoundRecords s) : SoundRecords (startCommand s) := by
  unfold startCommand
  split <;> exact hs.congr rfl

theorem stopDrainCommand_sound (hs : SoundRecords s) : SoundRecords (stopDrainCommand s) := by
  unfold stopDrainCommand
  split
  · exact finish_sound (hs.congr rfl)
  all_goals exact hs.congr rfl

theorem stopCutCommand_sound (hs : SoundRecords s) : SoundRecords (stopCutCommand s) := by
  unfold stopCutCommand
  split
  · exact finish_sound (setEndCauses_sound .stopped _ (hs.congr rfl))
  · split
    · exact hs
    · exact finish_sound (setEndCauses_sound .stopped _ (hs.congr rfl))
  · exact finish_sound (hs.ofMap Converter.abandonCheck (fun _ => Converter.abandonCheck_sound) rfl)
  all_goals exact hs.congr rfl

theorem clearCommand_sound (hs : SoundRecords s) : SoundRecords (clearCommand s) :=
  hs.ofMap Converter.atClear (fun v _ => v.atClear_sound) rfl

theorem engineCommandWrite_sound (hs : SoundRecords s) (word : Reg) :
    SoundRecords (engineCommandWrite word s) := by
  unfold engineCommandWrite
  split
  · exact startCommand_sound hs
  · exact stopDrainCommand_sound hs
  · exact stopCutCommand_sound hs
  · exact clearCommand_sound hs
  · exact hs.congr rfl

/-- R5: the converters after a device reset. -/
theorem deviceReset_sound (s : State) : SoundRecords (deviceReset s) := by
  refine ⟨fun c => ?_⟩
  have h : (deviceReset s).converters[c] = Converter.atReset := by simp [deviceReset, State.reset]
  rw [h]
  exact ⟨rfl, rfl⟩

/-! ### The register writes and the timers -/

theorem submitWrite_sound (hs : SoundRecords s) (word : Reg) : SoundRecords (submitWrite word s) := by
  unfold submitWrite
  dsimp only
  split
  · exact hs.congr rfl
  · split
    · exact finish_sound (hs.congr (raise_converters _ _))
    · exact finish_sound (hs.congr rfl)

theorem releaseWrite_sound (hs : SoundRecords s) (word : Reg) : SoundRecords (releaseWrite word s) := by
  unfold releaseWrite
  dsimp only
  split
  · exact hs.congr rfl
  · exact finish_sound (hs.congr rfl)

theorem windowWrite_sound (hs : SoundRecords s) (offset word : Reg) :
    SoundRecords (windowWrite offset word s) := by
  unfold windowWrite
  split
  · exact hs.congr rfl
  · split
    · exact engineCommandWrite_sound hs word
    · split
      · exact submitWrite_sound hs word
      · split
        · exact releaseWrite_sound hs word
        · split
          · exact hs.congr rfl
          · exact hs

theorem periodExpiry_sound (hs : SoundRecords s) : SoundRecords (periodExpiry s) := by
  unfold periodExpiry
  split
  · exact hs
  · dsimp only
    split
    · unfold overrunRound
      dsimp only
      split
      · exact finish_sound (hs.congr rfl)
      · exact finish_sound (hs.congr (raise_converters _ _))
    · exact finish_sound (hs.congr rfl)

theorem coalescingExpiry_sound (hs : SoundRecords s) : SoundRecords (coalescingExpiry s) := by
  unfold coalescingExpiry
  split <;> exact hs.congr rfl

/-! ### The requests that execute at their admission (R147 to R150) -/

/-- The soundness of a record but a HELD one does not depend on its mark. -/
theorem Converter.sound_marked {v : Converter} (hv : v.Sound) (hn : v.state ≠ .held) (m : Option Mark) :
    ({ v with mark := m } : Converter).Sound := by
  unfold Converter.Sound at *
  cases hst : v.state <;> simp_all

theorem leaveMark_sound (hs : SoundRecords s) (c : ConvId) (kind : MarkKind) (k : CtxId)
    (hn : s.converters[c].state ≠ .held) : SoundRecords (leaveMark c kind k s) :=
  (hs.ofModConv c (fun v => { v with mark := some { kind := kind, owner := k } })
    (Converter.sound_marked (hs.record c) hn _)).congr rfl

theorem execHold_sound (hs : SoundRecords s) (c : ConvId) (k : CtxId) (hm : s.converters[c].mark = none) :
    SoundRecords (execHold c k s) := by
  unfold execHold
  split
  · exact (changeConvState_held_sound hs (.inr ‹_›) hm).congr rfl
  · exact (changeConvState_held_sound hs (.inl ‹_›) hm).congr rfl
  · exact hs.congr rfl
  all_goals
    rename_i hst
    exact leaveMark_sound hs c _ k (by rw [hst]; decide)

theorem ownCheck_sound (hs : SoundRecords s) (c : ConvId) (k : CtxId) : SoundRecords (ownCheck c k s) :=
  (startCheck_sound hs c (.context k)).congr rfl

theorem execRelease_sound (hs : SoundRecords s) (c : ConvId) (k : CtxId) : SoundRecords (execRelease c k s) := by
  unfold execRelease
  split
  · exact ownCheck_sound hs c k
  · exact hs.congr rfl

theorem execCheck_sound (hs : SoundRecords s) (c : ConvId) (k : CtxId) : SoundRecords (execCheck c k s) := by
  unfold execCheck
  split
  · exact ownCheck_sound hs c k
  · exact ownCheck_sound hs c k
  · exact hs.congr rfl
  all_goals
    rename_i hst
    exact leaveMark_sound hs c _ k (by rw [hst]; decide)

theorem execConverterSet_sound (hs : SoundRecords s) (k : CtxId) (c : ConvId) (action : ConvAction) :
    SoundRecords (execConverterSet k c action s) := by
  have h1 : SoundRecords (s.modCtx k fun x =>
      { x with action := some { conv := c, action := action, waits := .nothing } }) := hs.congr rfl
  unfold execConverterSet
  dsimp only
  split
  · exact hs.congr rfl
  · rename_i hm
    split
    · exact execHold_sound h1 c k hm
    · exact execRelease_sound h1 c k
    · exact execCheck_sound h1 c k

theorem execAbort_sound (hs : SoundRecords s) (k : CtxId) (queue : QueueId) (scope tag : Nat) :
    SoundRecords (execAbort k queue scope tag s) := by
  unfold execAbort
  split
  · unfold execAbortOne
    split
    · exact hs.congr rfl
    · split
      · exact hs.congr rfl
      · split
        · exact hs.congr rfl
        · exact (setEndCause_sound hs .aborted _).congr rfl
  · unfold execAbortAll
    dsimp only
    split
    · exact hs.congr rfl
    · exact (setEndCauses_sound .aborted _ hs).congr rfl

/-! ### Admission (R59, R64) and the bus ends -/

theorem execProfileSet_converters (k : CtxId) (b : ProfileSetBody) (s : State) :
    (execProfileSet k b s).converters = s.converters := by
  unfold execProfileSet
  dsimp only
  split <;> rfl

theorem execWatchAdd_converters (k : CtxId) (b : WatchAddBody) (s : State) :
    (execWatchAdd k b s).converters = s.converters := by
  unfold execWatchAdd
  dsimp only
  split
  · rfl
  · split
    · rfl
    · split
      · rfl
      · split <;> rfl

theorem execWatchRemove_converters (k : CtxId) (id : WatchId) (s : State) :
    (execWatchRemove k id s).converters = s.converters := by
  unfold execWatchRemove
  split <;> rfl

theorem execWatchQuery_converters (k : CtxId) (c : Context) (s : State) :
    (execWatchQuery k c s).converters = s.converters := by
  unfold execWatchQuery
  dsimp only
  split
  · rfl
  · exact (enterWriting_workedFor k _ _ _ _ s).converters

theorem beginMeasure_converters (k : CtxId) (b : MeasureBody) (external : Bool) (s : State) :
    (beginMeasure k b external s).converters = s.converters := by
  unfold beginMeasure
  split
  · rfl
  · split <;> rfl

theorem beginPath_sound (hs : SoundRecords s) (k : CtxId) (c : Context) : SoundRecords (beginPath k c s) := by
  unfold beginPath
  split
  · exact hs.congr (beginMeasure_converters _ _ _ _)
  · exact hs.congr rfl
  · exact hs.congr rfl
  · exact hs.congr (execProfileSet_converters _ _ _)
  · exact hs.congr (execWatchAdd_converters _ _ _)
  · exact hs.congr (execWatchRemove_converters _ _ _)
  · exact hs.congr (execWatchQuery_converters _ _ _)
  · exact hs.congr rfl
  · exact execConverterSet_sound hs _ _ _
  · exact execAbort_sound hs _ _ _ _
  · exact hs.congr rfl

theorem admitRecord_sound (hs : SoundRecords s) (queue : QueueId) (r : Request) :
    SoundRecords (admitRecord queue r s) := by
  unfold admitRecord
  split
  · exact hs
  · dsimp only
    split
    · exact hs.congr rfl
    · refine beginPath_sound ?_ _ _
      exact hs.congr rfl

theorem arrive_sound (hs : SoundRecords s) (queue : QueueId) (r : Request) : SoundRecords (arrive queue r s) := by
  unfold arrive
  split
  · exact hs.congr rfl
  · exact admitRecord_sound hs queue r

theorem admitHeld_sound (hs : SoundRecords s) (queue : QueueId) : SoundRecords (admitHeld queue s) := by
  unfold admitHeld
  split
  · split
    · refine admitRecord_sound ?_ queue _
      exact hs.congr rfl
    · exact hs
  · exact hs

theorem sourceDone_sound (hs : SoundRecords s) (w : RingWrite) : SoundRecords (sourceDone w s) := by
  unfold sourceDone
  split
  · unfold freeContext
    split
    · exact hs.congr rfl
    · refine admitHeld_sound ?_ _
      exact hs.congr rfl
  · exact hs.congr rfl

theorem ringWriteEnd_sound (hs : SoundRecords s) (how : WriteEnd) : SoundRecords (ringWriteEnd how s) := by
  unfold ringWriteEnd
  split
  · exact hs
  · split
    · exact finish_sound (hs.congr rfl)
    · split
      · refine finish_sound (sourceDone_sound ?_ _)
        exact hs.congr rfl
      · exact hs.congr rfl

theorem resultWriteEnd_sound (hs : SoundRecords s) (k : Nat) (how : WriteEnd) :
    SoundRecords (resultWriteEnd k how s) := by
  unfold resultWriteEnd
  split
  · exact hs
  · dsimp only
    split
    · exact hs.congr rfl
    · exact finish_sound (hs.congr rfl)

theorem endListing_converters (k : CtxId) (b : MeasureBody) (how : ReadEnd) (s : State) :
    (endListing k b how s).converters = s.converters := by
  unfold endListing
  split
  · rfl
  · split <;> rfl

theorem listReadEnd_sound (hs : SoundRecords s) (k : Nat) (how : ReadEnd) : SoundRecords (listReadEnd k how s) := by
  unfold listReadEnd
  split
  · exact hs
  · split
    · dsimp only
      split
      · exact hs.congr rfl
      · split
        · exact hs.congr rfl
        · split
          · exact finish_sound (hs.congr (endListing_converters _ _ _ _))
          · exact hs.congr rfl
    · exact hs

theorem fetchReadEnd_sound (hs : SoundRecords s) (how : ReadEnd) : SoundRecords (fetchReadEnd how s) := by
  have hover : ∀ r : FetchRead, SoundRecords (fetchOver r s) := fun r => by
    unfold fetchOver
    dsimp only
    split <;> exact hs.congr rfl
  unfold fetchReadEnd
  split
  · exact hs
  · split
    · dsimp only
      split
      · refine finish_sound ?_
        unfold takeRecord
        split
        · refine arrive_sound ?_ _ _
          exact (hover _).congr rfl
        · exact (hover _).congr (raise_converters _ _)
      · exact finish_sound (hover _)
    · exact hs

theorem startChecks_sound (l : List ConvId) (o : CheckOwner) (hs : SoundRecords s) :
    SoundRecords (l.foldl (fun t c => startCheck c o t) s) := by
  induction l generalizing s with
  | nil => exact hs
  | cons c l ih => exact ih (startCheck_sound hs c o)

theorem startupChecks_sound (hs : SoundRecords s) : SoundRecords (startupChecks s) := by
  have h := startChecks_sound (startupConverters s) .engineControl hs
  unfold startupChecks
  dsimp only
  split
  · exact h.congr (raise_converters _ _)
  · exact h.congr rfl

theorem endSetup_sound (hs : SoundRecords s) (how : ReadEnd) : SoundRecords (endSetup how s) := by
  unfold endSetup
  split
  · exact hs.congr rfl
  · split
    · exact hs.congr rfl
    · exact startupChecks_sound (hs.congr rfl)

theorem setupReadEnd_sound (hs : SoundRecords s) (k : Nat) (how : ReadEnd) :
    SoundRecords (setupReadEnd k how s) := by
  unfold setupReadEnd
  split
  · exact hs
  · split
    · dsimp only
      split
      · exact hs.congr rfl
      · refine finish_sound (endSetup_sound ?_ how)
        exact hs.congr rfl
    · exact hs

/-! ### Every command -/

/-- R5, R9: every command keeps the converters sound. -/
theorem commandEffect_sound (i : Instr) (hs : SoundRecords s) : SoundRecords (commandEffect i s) := by
  cases i with
  | deviceReset => exact deviceReset_sound s
  | start => exact startCommand_sound hs
  | stopDrain => exact stopDrainCommand_sound hs
  | stopCut => exact stopCutCommand_sound hs
  | clear => exact clearCommand_sound hs
  | commandRefused word => exact engineCommandWrite_sound hs word
  | submitIndex word => exact submitWrite_sound hs word
  | releaseIndex word => exact releaseWrite_sound hs word
  | interruptControl word => exact hs.congr rfl
  | registerWrite offset word => exact windowWrite_sound hs offset word
  | setupReadEnd k how => exact setupReadEnd_sound hs k how
  | fetchReadEnd how => exact fetchReadEnd_sound hs how
  | listReadEnd k how => exact listReadEnd_sound hs k how
  | resultWriteEnd k how => exact resultWriteEnd_sound hs k how
  | completionRingWriteEnd how => exact ringWriteEnd_sound hs how
  | settleEnd c => exact settleEnd_sound hs c
  | sampleEnd c outcome => exact sampleEnd_sound hs c outcome
  | dischargeEnd c => exact dischargeEnd_sound hs c
  | faultEvent c => exact faultEvent_sound hs c
  | faultDischargeEnd c => exact faultDischargeEnd_sound hs c
  | clearDischargeEnd c => exact hs.congr rfl
  | periodTimerExpiry => exact periodExpiry_sound hs
  | coalescingTimerExpiry => exact coalescingExpiry_sound hs

/-- Settles O55. -/
theorem convertersStaySound : Obligations.ConvertersStaySound := by
  intro s t hs hstep
  rcases step_cases hstep with rfl | ⟨i, rest, _, rfl⟩
  · exact hs
  · exact (soundRecords_iff _).1 (commandEffect_sound i ⟨hs⟩)

end Sys2Proof.Machine
end

section
/-! SUPPORT. What a converter that comes to rest does next: its pending mark is resolved (R8, R10, R151), and the owner of a
check is handed its result (R12, R178). One structure per step says all that the later proofs read of it. -/

namespace Sys2Proof.Machine

variable {s t u v : State}

/-! ### What the arbiters keep -/

/-- A context that waits for its list, its write or its post is as it was. -/
theorem Arbitrated.waitingContext (h : Arbitrated s t) {k : CtxId} {c : Context} (hk : s.contexts[k] = some c)
    (hs : c.state = .listing ∨ c.state = .writing ∨ c.state = .posting) : t.contexts[k] = some c := by
  obtain ⟨d, hd, hkept⟩ := h.contextUsed k c hk
  rw [hd, hkept.waiting hs]

/-- A converter whose record is known and not free is as it was. -/
theorem Arbitrated.keptConverter (h : Arbitrated s t) {c : ConvId} {x : Converter} (hx : s.converters[c] = x)
    (hf : x.free = false) : t.converters[c] = x := by
  rw [(h.converter c).2.2 (by rw [hx]; exact hf), hx]

theorem Arbitrated.startupLeft (h : Arbitrated s t) : t.engine.startupLeft = s.engine.startupLeft := by rw [h.engine]

/-! ### Reports in order of arrival -/

theorem raise_reports_grow (r : Report) (s : State) : s.reports <+: (raise r s).reports := by
  rcases raise_cases s r with ⟨_, h⟩ | ⟨_, h⟩ <;> rw [h]
  exact List.prefix_append _ _

/-- The reports of a list that has grown, up to one past a shorter list that begins it. -/
theorem take_of_grown {α : Type} {l m : List α} {x : α} (h : l ++ [x] <+: m) : m.take (l.length + 1) = l ++ [x] := by
  obtain ⟨r, rfl⟩ := h
  exact List.take_left' (by simp)

/-- R18: the reports of a converter's leaving the online ones: NO_CONVERTER when no other one is online. -/
def noneLeftOnline (c : ConvId) (s : State) : List Report :=
  if ∀ d : ConvId, d ≠ c → s.converters[d].state.online = false then [.noConverter] else []

theorem noneLeftOnline_congr {c : ConvId} (h : ∀ d : ConvId, d ≠ c → t.converters[d] = s.converters[d]) :
    noneLeftOnline c t = noneLeftOnline c s := by
  have hiff : (∀ d : ConvId, d ≠ c → t.converters[d].state.online = false)
      ↔ ∀ d : ConvId, d ≠ c → s.converters[d].state.online = false :=
    forall₂_congr fun d hd => by rw [h d hd]
  simp only [noneLeftOnline, hiff]

/-! ### A change of one converter's state -/

/-- A converter's new state touches its record and, by R18, the reports. -/
theorem changeConvState_same (c : ConvId) (st : ConvState) (s : State) :
    changeConvState c st s = { s with
      converters := (changeConvState c st s).converters, reports := (changeConvState c st s).reports
      posting := (changeConvState c st s).posting, lost := (changeConvState c st s).lost } := by
  rcases changeConvState_cases s c st with h | h <;> rw [h]
  · rfl
  · rw [raise_same]
    rfl

theorem changeConvState_reports_grow (c : ConvId) (st : ConvState) (s : State) :
    s.reports <+: (changeConvState c st s).reports := by
  rcases changeConvState_cases s c st with h | h <;> rw [h]
  · exact List.prefix_rfl
  · exact raise_reports_grow _ (s.modConv c fun v => { v with state := st })

/-- A change that starts and ends outside the online states raises nothing (R18). -/
theorem changeConvState_offline_held (c : ConvId) (s : State) (ho : s.converters[c].state = .offline) :
    changeConvState c .held s = s.modConv c fun v => { v with state := .held } := by
  have hcount : onlineCount (s.modConv c fun v => { v with state := .held }) = onlineCount s := by
    unfold onlineCount
    congr 1
    funext d
    rw [modConv_get]
    split
    · subst d
      rw [ho]
      rfl
    · rfl
  unfold changeConvState raiseIfNoneOnline
  rw [hcount, if_neg (by omega)]

/-! ### A pending mark is resolved (R8, R10, R12, R13, R151) -/

/-- The record of a check that belongs to a context and starts now, with its origin (R11). -/
def Converter.checkingFor (k : CtxId) (origin : ConvState) (profile : Profile) : Converter :=
  { state := .checking, mark := none, origin := some origin
    job := some
      { owner := .check (.context k), connection := .reference, n := 4, settle := 6, ceiling := 65535
        profiles := [profile], applied := [], samples := [], cut := false } }

/-- The record of a HELD converter (R9, R10). -/
def Converter.heldNow : Converter := { state := .held, mark := none, job := none, origin := none }

/-- The record of a converter at rest. -/
def Converter.resting (st : ConvState) (m : Option Mark) : Converter :=
  { state := st, mark := m, job := none, origin := none }

/-- A context whose CONVERTER_SET has completed by a hold mark (R151). -/
def Context.holdDone (c : ConvId) (d : Context) : Context :=
  { d with state := .posting, result := some (.success, .converter c .held none none) }

/-- A context whose CONVERTER_SET now waits for its check (R151). -/
def Context.waitsForCheck (d : Context) : Context :=
  { d with action := d.action.map fun a => { a with waits := .check } }

/-- `t` is `s` after the pending mark of the converter `c`, at rest in `st`, has been resolved. -/
structure MarkResolved (c : ConvId) (st : ConvState) (s t : State) : Prop where
  frame : t = { s with
    converters := t.converters, contexts := t.contexts, reports := t.reports, posting := t.posting, lost := t.lost }
  others : ∀ d : ConvId, d ≠ c → t.converters[d] = s.converters[d]
  unmarked : s.converters[c].mark = none → t = s
  halted : ∀ m, s.converters[c].mark = some m → m.kind = .check → s.engine.state = .halted → t = s
  hold : ∀ m, s.converters[c].mark = some m → m.kind = .hold →
    t.converters[c] = Converter.heldNow ∧ t.contexts[m.owner] = s.contexts[m.owner].map (Context.holdDone c)
  check : ∀ m, s.converters[c].mark = some m → m.kind = .check → s.engine.state ≠ .halted →
    t.converters[c] = Converter.checkingFor m.owner st s.profiles[(0 : ProfileIx)]
      ∧ t.contexts[m.owner] = s.contexts[m.owner].map Context.waitsForCheck
  otherContexts : ∀ k : CtxId, (∀ m, s.converters[c].mark = some m → m.owner ≠ k) → t.contexts[k] = s.contexts[k]
  reportsKept : (∀ m, s.converters[c].mark = some m → m.kind = .check) ∨ st = .offline → t.reports = s.reports
  reportsGrow : s.reports <+: t.reports
  heldReports : ∀ m, s.converters[c].mark = some m → m.kind = .hold → st = .idle → s.reports.length + 1 ≤ 8 →
    t.reports = s.reports ++ noneLeftOnline c s

/-- A mark that changes nothing: none, or a check mark in HALTED. -/
theorem MarkResolved.refl {c : ConvId} {st : ConvState} (h : ∀ m, s.converters[c].mark = some m →
    m.kind = .check ∧ s.engine.state = .halted) : MarkResolved c st s s where
  frame := rfl
  others _ _ := rfl
  unmarked _ := rfl
  halted _ _ _ _ := rfl
  hold m hm hk := by rw [(h m hm).1] at hk; cases hk
  check m hm _ hn := absurd (h m hm).2 hn
  otherContexts _ _ := rfl
  reportsKept _ := rfl
  reportsGrow := List.prefix_rfl
  heldReports m hm hk := by rw [(h m hm).1] at hk; cases hk

/-- R10, R151: a hold mark takes effect. -/
theorem MarkResolved.ofHold {c : ConvId} {st : ConvState} {m : Mark}
    (hs : s.converters[c] = Converter.resting st (some m)) (hk : m.kind = .hold) :
    MarkResolved c st s
      (completeContext m.owner .success (.converter c .held none none) (changeConvState c .held (clearMark c s))) := by
  have hm : ∀ n, s.converters[c].mark = some n → n = m := fun n hn => by rw [hs] at hn; cases hn; rfl
  have hrest : (clearMark c s).converters[c] = Converter.resting st none := by
    rw [clearMark, modConv_get, if_pos rfl, hs]
    rfl
  have hothers : ∀ d : ConvId, d ≠ c → (clearMark c s).converters[d] = s.converters[d] := fun d hd => by
    rw [clearMark, modConv_get, if_neg hd]
  have hframe := changeConvState_same c .held (clearMark c s)
  have hconv := changeConvState_converters c .held (clearMark c s)
  have hgrow : s.reports <+: (changeConvState c .held (clearMark c s)).reports :=
    changeConvState_reports_grow c .held (clearMark c s)
  have hoffline : st = .offline → (changeConvState c .held (clearMark c s)).reports = s.reports := fun h => by
    rw [changeConvState_offline_held c _ (by rw [hrest, h]; rfl)]
    rfl
  have hidle : st = .idle → s.reports.length + 1 ≤ 8 →
      (changeConvState c .held (clearMark c s)).reports = s.reports ++ noneLeftOnline c s := fun h hl => by
    rw [← noneLeftOnline_congr hothers]
    exact becomesHeld c (clearMark c s) (by rw [hrest, h]; rfl) hl
  generalize changeConvState c .held (clearMark c s) = x at hframe hconv hgrow hoffline hidle
  have hctx : ∀ k : CtxId, x.contexts[k] = s.contexts[k] := fun k => by rw [hframe]; rfl
  refine
    { frame := by unfold completeContext; rw [hframe]; rfl
      others := fun d hd => ?_
      unmarked := fun h => by rw [hs] at h; cases h
      halted := fun n hn h => by rw [hm n hn, hk] at h; cases h
      hold := fun n hn _ => ?_
      check := fun n hn h => by rw [hm n hn, hk] at h; cases h
      otherContexts := fun k h => ?_
      reportsKept := fun h => ?_
      reportsGrow := hgrow
      heldReports := fun _ _ _ => hidle }
  · show x.converters[d] = _
    rw [hconv, modConv_get, if_neg hd, hothers d hd]
  · obtain rfl := hm n hn
    refine ⟨?_, ?_⟩
    · show x.converters[c] = _
      rw [hconv, modConv_get, if_pos rfl, hrest]
      rfl
    · rw [completeContext, modCtx_get, if_pos rfl, hctx]
      rfl
  · have hne : k ≠ m.owner := fun he => h m (by rw [hs]; rfl) he.symm
    rw [completeContext, modCtx_get, if_neg hne, hctx]
  · rcases h with h | h
    · have := h m (by rw [hs]; rfl)
      rw [hk] at this
      cases this
    · exact hoffline h

/-- R10, R11, R151: a check mark takes effect. -/
theorem MarkResolved.ofCheck {c : ConvId} {st : ConvState} {m : Mark}
    (hs : s.converters[c] = Converter.resting st (some m)) (hk : m.kind = .check) (hn : s.engine.state ≠ .halted) :
    MarkResolved c st s (setWait m.owner .check (startCheck c (.context m.owner) (clearMark c s))) := by
  have hm : ∀ n, s.converters[c].mark = some n → n = m := fun n hn => by rw [hs] at hn; cases hn; rfl
  refine
    { frame := rfl
      others := fun d hd => ?_
      unmarked := fun h => by rw [hs] at h; cases h
      halted := fun _ _ _ h => absurd h hn
      hold := fun n hn h => by rw [hm n hn, hk] at h; cases h
      check := fun n hn _ _ => ?_
      otherContexts := fun k h => ?_
      reportsKept := fun _ => rfl
      reportsGrow := List.prefix_rfl
      heldReports := fun n hn h => by rw [hm n hn, hk] at h; cases h }
  · show (startCheck c (.context m.owner) (clearMark c s)).converters[d] = _
    rw [startCheck, modConv_get, if_neg hd, clearMark, modConv_get, if_neg hd]
  · obtain rfl := hm n hn
    refine ⟨?_, ?_⟩
    · show (startCheck c (.context n.owner) (clearMark c s)).converters[c] = _
      rw [startCheck, modConv_get, if_pos rfl, clearMark, modConv_get, if_pos rfl, hs]
      rfl
    · rw [setWait, modCtx_get, if_pos rfl]
      rfl
  · have hne : k ≠ m.owner := fun he => h m (by rw [hs]; rfl) he.symm
    rw [setWait, modCtx_get, if_neg hne]
    rfl

/-- R8, R10, R12, R13, R151: the pending mark of a converter at rest is resolved. -/
theorem resolveMark_resolved {c : ConvId} {st : ConvState}
    (hs : s.converters[c] = Converter.resting st s.converters[c].mark) : MarkResolved c st s (resolveMark c s) := by
  unfold resolveMark
  split
  · rename_i hm
    exact .refl fun m h => by rw [hm] at h; cases h
  · rename_i m hm
    rw [hm] at hs
    split
    · exact .ofHold hs ‹_›
    · rename_i hk
      split
      · refine .refl fun n h => ?_
        rw [hm] at h
        cases h
        exact ⟨hk, ‹_›⟩
      · exact .ofCheck hs hk ‹_›

/-! ### The owner of a check is handed its result (R12, R178) -/

/-- A context whose CONVERTER_SET has completed with the result of its check (R12, R151). -/
def Context.checkDone (c : ConvId) (pass : Bool) (new : ConvState) (mean : Option Nat) (d : Context) : Context :=
  { d with
    state := .posting, result := some (if pass then .success else .checkFailed, .converter c new mean none) }

/-- R178: `t` is `s` after the start-up check of `c` has ended. -/
structure StartupCheckOver (c : ConvId) (s t : State) : Prop where
  left : c ∉ t.engine.startupLeft
  last : s.engine.state = .loading → (∀ d ∈ s.engine.startupLeft, d = c) → t.engine.state = .running
    ∧ t.watch.timer = if s.watch.period = 0 then none else some (s.watch.period * 32000)

/-- R12: `t` is `s` after the owner of the check on `c` has been handed its result. -/
structure CheckHanded (c : ConvId) (o : CheckOwner) (pass : Bool) (new : ConvState) (mean : Option Nat)
    (s t : State) : Prop where
  frame : t = { s with engine := t.engine, watch := t.watch, contexts := t.contexts }
  engineKept : o ≠ .engineControl → t.engine = s.engine
  engineState : t.engine.state = s.engine.state ∨ (s.engine.state = .loading ∧ t.engine.state = .running)
  startup : o = .engineControl → StartupCheckOver c s t
  told : ∀ k, o = .context k → t.contexts[k] = s.contexts[k].map (Context.checkDone c pass new mean)
  otherContexts : ∀ k : CtxId, o ≠ .context k → t.contexts[k] = s.contexts[k]

theorem startupCheckEnded_handed (c : ConvId) (pass : Bool) (new : ConvState) (mean : Option Nat) (s : State) :
    CheckHanded c .engineControl pass new mean s (startupCheckEnded c s) := by
  have hleft : c ∉ s.engine.startupLeft.filter fun x => x != c := by simp
  unfold startupCheckEnded
  dsimp only
  split
  · rename_i h
    exact
      { frame := rfl
        engineKept := fun h => absurd rfl h
        engineState := .inr ⟨h.1, rfl⟩
        startup := fun _ => ⟨hleft, fun _ _ => ⟨rfl, rfl⟩⟩
        told := fun _ h => by cases h
        otherContexts := fun _ _ => rfl }
  · rename_i h
    refine
      { frame := rfl
        engineKept := fun h => absurd rfl h
        engineState := .inl rfl
        startup := fun _ => ⟨hleft, fun hl ha => absurd ⟨hl, ?_⟩ h⟩
        told := fun _ h => by cases h
        otherContexts := fun _ _ => rfl }
    exact List.filter_eq_nil_iff.2 fun d hd => by simp [ha d hd]

theorem handCheckResult_handed (c : ConvId) (o : CheckOwner) (pass : Bool) (new : ConvState) (mean : Option Nat)
    (s : State) : CheckHanded c o pass new mean s (handCheckResult c o pass new mean s) := by
  unfold handCheckResult
  split
  · rename_i k
    refine
      { frame := rfl
        engineKept := fun _ => rfl
        engineState := .inl rfl
        startup := fun h => by cases h
        told := fun l hl => ?_
        otherContexts := fun l hl => modCtx_other (fun h : l = k => hl (by rw [h])) _ }
    cases hl
    rw [completeContext, modCtx_get, if_pos rfl]
    rfl
  · exact startupCheckEnded_handed c pass new mean s
  · exact
      { frame := rfl
        engineKept := fun _ => rfl
        engineState := .inl rfl
        startup := fun h => by cases h
        told := fun _ h => by cases h
        otherContexts := fun _ _ => rfl }

/-! ### A converter comes to rest with its notice (R12, R13) -/

/-- `t` is `s` after the converter `c` has come to rest in `st`: besides its record, only reports have been touched. -/
structure Rested (c : ConvId) (st : ConvState) (s t : State) : Prop extends CameToRest c st s t where
  frame : t = { s with converters := t.converters, reports := t.reports, posting := t.posting, lost := t.lost }
  reportsGrow : s.reports <+: t.reports

theorem Rested.marked {c : ConvId} {st : ConvState} (h : Rested c st s t) :
    t.converters[c].mark = s.converters[c].mark := by rw [h.here]

/-- R13, R18: the reports of a converter that goes OFFLINE. -/
structure OfflineNoticed (c : ConvId) (cause : OfflineCause) (mean : Option Nat) (s t : State) : Prop where
  first : s.reports.length < 8 → s.reports ++ [.converterOffline c cause mean] <+: t.reports
  all : s.reports.length + 2 ≤ 8 →
    t.reports = s.reports ++ [.converterOffline c cause mean] ++ noneLeftOnline c s

/-- R12, R13, R18: an online converter goes OFFLINE with its notice, and its job record is cleared. -/
theorem goneOffline (c : ConvId) (cause : OfflineCause) (mean : Option Nat) (s : State)
    (ho : s.converters[c].state.online = true) :
    let t := clearJob c (changeConvState c .offline (raise (.converterOffline c cause mean) s))
    Rested c .offline s t ∧ OfflineNoticed c cause mean s t := by
  intro t
  obtain ⟨-, -, -, -, -, -, htake, hall⟩ := goesOffline c cause mean s ho
  have hframe : t = { s with
      converters := t.converters, reports := t.reports, posting := t.posting, lost := t.lost } := by
    unfold t clearJob
    rw [changeConvState_same, raise_same]
    rfl
  refine ⟨⟨offline_cameToRest c _ s, hframe, ?_⟩, ?_, hall⟩
  · exact (raise_reports_grow _ s).trans (changeConvState_reports_grow c .offline _)
  · intro hl
    rw [← htake hl]
    exact List.take_prefix _ _

/-! ### The end of a converter's work, whole (R8, R12, R13) -/

/-- `u` is `s` after the work of `c` has ended with the converter at rest in `st`, and its mark has been resolved; a check
that ended was owned by `o`, and `nobody` stands for work that is no check. -/
structure WorkOver (c : ConvId) (st : ConvState) (o : CheckOwner) (pass : Bool) (mean : Option Nat) (s u : State) :
    Prop where
  others : ∀ d : ConvId, d ≠ c → u.converters[d] = s.converters[d]
  engineKept : o ≠ .engineControl → u.engine = s.engine
  engineState : u.engine.state = s.engine.state ∨ (s.engine.state = .loading ∧ u.engine.state = .running)
  startup : o = .engineControl → StartupCheckOver c s u
  told : ∀ k, o = .context k → (∀ m, s.converters[c].mark = some m → m.owner ≠ k) →
    u.contexts[k] = s.contexts[k].map (Context.checkDone c pass st mean)
  unmarked : s.converters[c].mark = none → u.converters[c] = Converter.resting st none
  halted : ∀ m, s.converters[c].mark = some m → m.kind = .check → s.engine.state = .halted →
    u.converters[c] = Converter.resting st (some m)
  hold : ∀ m, s.converters[c].mark = some m → m.kind = .hold → u.converters[c] = Converter.heldNow
    ∧ (o ≠ .context m.owner → u.contexts[m.owner] = s.contexts[m.owner].map (Context.holdDone c))
  check : ∀ m, s.converters[c].mark = some m → m.kind = .check → s.engine.state ≠ .halted →
    u.converters[c] = Converter.checkingFor m.owner st s.profiles[(0 : ProfileIx)]
      ∧ (o ≠ .context m.owner → u.contexts[m.owner] = s.contexts[m.owner].map Context.waitsForCheck)

/-- R12: the owner is handed the result of its check, then the mark is resolved. -/
theorem Rested.workOver {c : ConvId} {st : ConvState} (h : Rested c st s v) (o : CheckOwner)
    (pass : Bool) (mean : Option Nat) :
    let u := resolveMark c (handCheckResult c o pass st mean v)
    WorkOver c st o pass mean s u ∧ u.faultDischarges = v.faultDischarges
      ∧ ((∀ m, s.converters[c].mark = some m → m.kind = .check) ∨ st = .offline → u.reports = v.reports)
      ∧ v.reports <+: u.reports
      ∧ ∀ m, s.converters[c].mark = some m → m.kind = .hold → st = .idle → v.reports.length + 1 ≤ 8 →
          u.reports = v.reports ++ noneLeftOnline c s := by
  have hand := handCheckResult_handed c o pass st mean v
  have hconv := handCheckResult_converters c o pass st mean v
  generalize handCheckResult c o pass st mean v = w at hand hconv
  have hwc : w.converters[c] = Converter.resting st s.converters[c].mark := by rw [hconv]; exact h.here
  have hmark : w.converters[c].mark = s.converters[c].mark := by rw [hwc]; rfl
  have hothers : ∀ d : ConvId, d ≠ c → w.converters[d] = s.converters[d] := fun d hd => by
    rw [hconv]; exact h.others d hd
  have hres := resolveMark_resolved (st := st) (s := w) (c := c) (by rw [hmark]; exact hwc)
  have hmarkOf : ∀ m, s.converters[c].mark = some m → w.converters[c].mark = some m := fun m hm => by
    rw [hmark, hm]
  have hctx : ∀ k : CtxId, o ≠ .context k → w.contexts[k] = s.contexts[k] := fun k hk => by
    rw [hand.otherContexts k hk, h.frame]
  have hprof : w.profiles = s.profiles := by rw [hand.frame, h.frame]
  have hrep : w.reports = v.reports := by rw [hand.frame]
  have hstate : w.engine.state = s.engine.state ∨ (s.engine.state = .loading ∧ w.engine.state = .running) := by
    have := hand.engineState
    rwa [h.frame] at this
  have hhalted : w.engine.state = .halted ↔ s.engine.state = .halted := by
    rcases hstate with he | ⟨he, hw⟩
    · rw [he]
    · rw [he, hw]; simp
  generalize resolveMark c w = u at hres
  have hueng : u.engine = w.engine := by rw [hres.frame]
  refine ⟨?_, by rw [hres.frame, hand.frame], fun hk => ?_, ?_, fun m hm hk hst hl => ?_⟩
  · exact
      { others := fun d hd => (hres.others d hd).trans (hothers d hd)
        engineKept := fun ho => by rw [hueng, hand.engineKept ho, h.frame]
        engineState := by rw [hueng]; exact hstate
        startup := fun ho => by
          obtain ⟨hleft, hlast⟩ := hand.startup ho
          refine ⟨by rw [hueng]; exact hleft, fun hl ha => ?_⟩
          rw [h.frame] at hlast
          rw [hres.frame]
          exact hlast hl ha
        told := fun k hk hn => by
          rw [hres.otherContexts k (by rw [hmark]; exact hn), hand.told k hk, h.frame]
        unmarked := fun hn => by
          rw [hres.unmarked (hmark.trans hn), hwc, hn]
        halted := fun m hm hk hh => by
          rw [hres.halted m (hmarkOf m hm) hk (hhalted.2 hh), hwc, hm]
        hold := fun m hm hk => by
          obtain ⟨hc, hx⟩ := hres.hold m (hmarkOf m hm) hk
          exact ⟨hc, fun ho => by rw [hx, hctx _ ho]⟩
        check := fun m hm hk hn => by
          obtain ⟨hc, hx⟩ := hres.check m (hmarkOf m hm) hk (mt hhalted.1 hn)
          exact ⟨by rw [hc, hprof], fun ho => by rw [hx, hctx _ ho]⟩ }
  · rw [hres.reportsKept (by rw [hmark]; exact hk), hrep]
  · rw [← hrep]
    exact hres.reportsGrow
  · rw [hres.heldReports m (hmarkOf m hm) hk hst (by rw [hrep]; exact hl), hrep, noneLeftOnline_congr hothers]

end Sys2Proof.Machine
end

section
/-! SUPPORT. FaultTakesConverterOffline and CheckEnds: the two ways a converter's work is over with no discharge of its own
(R12, R13), put together from the steps of coming to rest. -/

namespace Sys2Proof.Machine

variable {s t u v : State} {c : ConvId} {st : ConvState} {o : CheckOwner} {pass : Bool} {mean : Option Nat}

/-! ### After the arbiters of the event -/

theorem resting_notFree (st : ConvState) (m : Mark) : (Converter.resting st (some m)).free = false := by
  simp [Converter.resting, Converter.free]

/-- R10, R151: the record of a converter whose mark took effect, or still waits in HALTED. -/
theorem WorkOver.markedAfter (h : WorkOver c st o pass mean s u) (a : Arbitrated u t) {m : Mark}
    (hm : s.converters[c].mark = some m) :
    (m.kind = .hold → t.converters[c] = Converter.heldNow)
      ∧ (m.kind = .check → s.engine.state ≠ .halted →
          t.converters[c] = Converter.checkingFor m.owner st s.profiles[(0 : ProfileIx)])
      ∧ (m.kind = .check → s.engine.state = .halted → t.converters[c] = Converter.resting st (some m)) :=
  ⟨fun hk => a.keptConverter (h.hold m hm hk).1 rfl, fun hk hn => a.keptConverter (h.check m hm hk hn).1 rfl,
    fun hk hh => a.keptConverter (h.halted m hm hk hh) (resting_notFree st m)⟩

/-- R151: the CONVERTER_SET of a hold mark that took effect is posted. -/
theorem WorkOver.holdDoneAfter (h : WorkOver c st o pass mean s u) (a : Arbitrated u t) {m : Mark} {d : Context}
    (hm : s.converters[c].mark = some m) (hk : m.kind = .hold) (ho : o ≠ .context m.owner)
    (hd : s.contexts[m.owner] = some d) : t.contexts[m.owner] = some (d.holdDone c) := by
  refine a.waitingContext ?_ (.inr (.inr rfl))
  rw [(h.hold m hm hk).2 ho, hd]
  rfl

/-- R151: the CONVERTER_SET of a check mark that took effect waits for the check. -/
theorem WorkOver.waitsForCheck (h : WorkOver c st o pass mean s u) {m : Mark} {d : Context}
    (hm : s.converters[c].mark = some m) (hk : m.kind = .check) (hn : s.engine.state ≠ .halted)
    (ho : o ≠ .context m.owner) (hd : s.contexts[m.owner] = some d) :
    u.contexts[m.owner] = some d.waitsForCheck := by
  rw [(h.check m hm hk hn).2 ho, hd]
  rfl

/-- R12: the owner of the check is posted with its result. -/
theorem WorkOver.toldAfter (h : WorkOver c st o pass mean s u) (a : Arbitrated u t) {k : CtxId} {d : Context}
    (ho : o = .context k) (hn : ∀ m, s.converters[c].mark = some m → m.owner ≠ k) (hd : s.contexts[k] = some d) :
    t.contexts[k] = some (d.checkDone c pass st mean) := by
  refine a.waitingContext ?_ (.inr (.inr rfl))
  rw [h.told k ho hn, hd]
  rfl

/-- R178: the arbiters leave the end of a start-up check as it is. -/
theorem StartupCheckOver.after (h : StartupCheckOver c s u) (a : Arbitrated u t) : StartupCheckOver c s t where
  left := by rw [a.startupLeft]; exact h.left
  last hl hall := by
    obtain ⟨hr, ht⟩ := h.last hl hall
    refine ⟨?_, by rw [a.watch.2.1]; exact ht⟩
    rw [← a.state_eq (by rw [hr]; decide)]
    exact hr

/-- Converters of another number that are not free are as before the event. -/
theorem WorkOver.othersAfter (h : WorkOver c st o pass mean s u) (a : Arbitrated u t) {d : ConvId} (hd : d ≠ c)
    (hf : s.converters[d].free = false) : t.converters[d] = s.converters[d] :=
  a.keptConverter (h.others d hd) hf

theorem OfflineNoticed.congr {cause : OfflineCause} (h : OfflineNoticed c cause mean s t)
    (hr : u.reports = t.reports) : OfflineNoticed c cause mean s u :=
  ⟨by rw [hr]; exact h.first, by rw [hr]; exact h.all⟩

/-! ### FAULT_EVENT (R13) -/

/-- R13: a fault of a connected converter sends the job's pins to their own discharge. -/
theorem faultJob_over (j : Job) (hon : s.converters[c].state.online = true) :
    let discharging : State := { s with
      faultDischarges := s.faultDischarges ++ [{ conv := c, connection := j.connection, job := some j }] }
    WorkOver c .offline .nobody false none s (faultJob c j s)
      ∧ (faultJob c j s).faultDischarges = discharging.faultDischarges
      ∧ OfflineNoticed c .fault none s (faultJob c j s) := by
  intro discharging
  obtain ⟨hrest, hnoticed⟩ := goneOffline c .fault none s hon
  have hfd := hrest.frame
  unfold faultJob
  dsimp only
  generalize clearJob c (changeConvState c .offline (raise (.converterOffline c .fault none) s)) = v at *
  have hrested : Rested c .offline discharging { v with
      faultDischarges := v.faultDischarges ++ [{ conv := c, connection := j.connection, job := some j }] } :=
    { here := hrest.here
      others := hrest.others
      frame := by rw [hfd]
      reportsGrow := hrest.reportsGrow }
  obtain ⟨hover, hfaults, hkept, -, -⟩ := hrested.workOver .nobody false none
  exact ⟨{ hover with startup := fun h => by cases h }, hfaults.trans (by rw [hfd]), hnoticed.congr (hkept (.inr rfl))⟩

/-- R12, R13: a failed check takes its converter OFFLINE and its owner is told. -/
theorem checkFail_over (cause : OfflineCause) (mean : Option Nat) (hst : s.converters[c].state = .checking) :
    WorkOver c .offline (checkOwner s.converters[c]) false mean s (checkFail c cause mean s)
      ∧ (checkFail c cause mean s).faultDischarges = s.faultDischarges
      ∧ OfflineNoticed c cause mean s (checkFail c cause mean s) := by
  obtain ⟨hrest, hnoticed⟩ := goneOffline c cause mean s (by rw [hst]; rfl)
  obtain ⟨hover, hfaults, hkept, -, -⟩ := hrest.workOver (checkOwner s.converters[c]) false mean
  exact ⟨hover, hfaults.trans (by rw [hrest.frame]), hnoticed.congr (hkept (.inr rfl))⟩

/-- The owner of the check that a converter's job record is. -/
theorem checkOwner_eq {j : Job} (hj : s.converters[c].job = some j) (ho : j.owner = .check o) :
    checkOwner s.converters[c] = o := by
  simp only [checkOwner, hj, ho]

theorem faultEvent_connected {j : Job}
    (hst : s.converters[c].state = .settling ∨ s.converters[c].state = .sampling ∨ s.converters[c].state = .discharging)
    (hj : s.converters[c].job = some j) : faultEvent c s = finish (faultJob c j s) := by
  rcases hst with h | h | h <;> simp only [faultEvent, h, hj]

theorem faultEvent_checking (hst : s.converters[c].state = .checking) :
    faultEvent c s = finish (checkFail c .fault none s) := by
  simp only [faultEvent, hst]

/-- Settles O31. -/
theorem faultTakesConverterOffline : Obligations.FaultTakesConverterOffline := by
  unfold Obligations.FaultTakesConverterOffline
  intro noticed markResolved marked
  -- what the notices and the mark come to, for both kinds of fault
  have hnotices : ∀ {s t : State} {c : ConvId}, OfflineNoticed c .fault none s t → noticed s t c := fun h =>
    ⟨fun hl => take_of_grown (h.first hl), h.all⟩
  have hmarks : ∀ {s u t : State} {c : ConvId} {o : CheckOwner}, WorkOver c .offline o false none s u →
      Arbitrated u t → markResolved s t c := fun h a =>
    ⟨fun hn => a.keptConverter (h.unmarked hn) rfl, fun _ hm => h.markedAfter a hm⟩
  have hmarked : ∀ {s u t : State} {c : ConvId} {o : CheckOwner}, WorkOver c .offline o false none s u →
      Arbitrated u t → ∀ m : Mark, s.converters[c].mark = some m → o ≠ .context m.owner → marked s u t m c :=
    fun h a _ hm ho _ hd => ⟨fun hk => h.holdDoneAfter a hm hk ho hd, fun hk hn => h.waitsForCheck hm hk hn ho hd⟩
  refine ⟨fun s c j hst hj => ?_, fun s c j owner hst hj howner => ?_⟩
  · have hon : s.converters[c].state.online = true := by rcases hst with h | h | h <;> rw [h] <;> rfl
    obtain ⟨hover, hfaults, hnote⟩ := faultJob_over j hon
    have a := finish_arbitrated (faultJob c j s)
    have hw := faultEvent_worked (s := s) c
    rw [faultEvent_connected hst hj] at hw
    refine ⟨finish (faultJob c j s), ?_, ?_, hnotices (hnote.congr a.reports), hmarks hover a, rfl,
      fun m hm => hmarked hover a m hm (by simp), fun d hd hf => hover.othersAfter a hd hf, hw⟩
    · rw [exec_eq]
      exact congrArg _ (faultEvent_connected hst hj)
    · rw [a.faultDischarges]
      exact hfaults
  · have hown := checkOwner_eq hj howner
    obtain ⟨hover, hfaults, hnote⟩ := checkFail_over .fault none hst
    rw [hown] at hover
    have a := finish_arbitrated (checkFail c .fault none s)
    have hw := faultEvent_worked (s := s) c
    rw [faultEvent_checking hst] at hw
    refine ⟨finish (checkFail c .fault none s), ?_, ?_, hnotices (hnote.congr a.reports), hmarks hover a, rfl,
      fun m hm ho => hmarked hover a m hm ho, fun k d ho hd hn => hover.toldAfter a ho hn hd, fun ho => ?_,
      fun d hd hf => hover.othersAfter a hd hf, hw⟩
    · rw [exec_eq]
      exact congrArg _ (faultEvent_checking hst)
    · rw [a.faultDischarges]
      exact hfaults
    · obtain ⟨hleft, hlast⟩ := (hover.startup ho).after a
      exact ⟨hleft, hlast⟩

/-! ### The end of a check (R12) -/

/-- R12: the mean of a check, written out. -/
theorem meanOf_eq (l : List Nat) : meanOf l = if l = [] then none else some (l.sum / l.length) := by
  cases l <;> rfl

/-- R12: a check passes with four GOOD samples and a mean in 3072..5119. -/
theorem checkPasses_iff (l : List Sample) : checkPasses l = true ↔
    (goodReadings l).length = 4 ∧ 3072 ≤ (goodReadings l).sum / 4 ∧ (goodReadings l).sum / 4 ≤ 5119 := by
  unfold checkPasses goodCount
  rw [meanOf_eq]
  by_cases h4 : (goodReadings l).length = 4
  · have hne : goodReadings l ≠ [] := fun h => by rw [h] at h4; cases h4
    simp [h4, hne]
  · simp [h4]

/-- R12, R153: the notice of a check that passes, by its origin. -/
def onlineNotice (c : ConvId) (origin : ConvState) (mean : Option Nat) : List Report :=
  if origin = .offline ∨ origin = .held then [.converterOnline c origin mean] else []

/-- R12, R153: the reports of a check that passes, before its mark is resolved. -/
def onlineNoticed (c : ConvId) (origin : ConvState) (mean : Option Nat) (s : State) : List Report :=
  if s.reports.length < 8 then s.reports ++ onlineNotice c origin mean else s.reports

theorem onlineNotice_length (c : ConvId) (origin : ConvState) (mean : Option Nat) :
    (onlineNotice c origin mean).length ≤ 1 := by
  unfold onlineNotice
  split <;> simp

/-- R12: a passed check brings its converter to IDLE, with CONVERTER_ONLINE when the origin was OFFLINE or HELD. -/
theorem checkPass_rested {origin : ConvState} (mean : Option Nat) (ho : s.converters[c].origin = some origin) :
    ∃ v, Rested c .idle s v ∧ v.reports = onlineNoticed c origin mean s
      ∧ checkPass c mean s = resolveMark c (handCheckResult c (checkOwner s.converters[c]) true .idle mean v) := by
  have hrest := clearJob_cameToRest c .idle s
  have hraised : ∀ x : Report, onlineNotice c origin mean = [x] →
      let rest := clearJob c (s.modConv c fun v => { v with state := .idle })
      Rested c .idle s (raise x rest) ∧ (raise x rest).reports = onlineNoticed c origin mean s := by
    intro x hx rest
    refine ⟨⟨hrest.congr (raise_converters rest x), by rw [raise_same]; rfl, raise_reports_grow x rest⟩, ?_⟩
    unfold onlineNoticed
    rw [hx]
    rcases raise_cases rest x with ⟨hl, h⟩ | ⟨hl, h⟩ <;> rw [h]
    · rw [if_pos (show s.reports.length < 8 from hl)]
      rfl
    · rw [if_neg (Nat.not_lt.2 (show 8 ≤ s.reports.length from hl))]
      rfl
  have hquiet : onlineNotice c origin mean = [] →
      let rest := clearJob c (s.modConv c fun v => { v with state := .idle })
      Rested c .idle s rest ∧ rest.reports = onlineNoticed c origin mean s := by
    intro hx rest
    refine ⟨⟨hrest, rfl, List.prefix_rfl⟩, ?_⟩
    unfold onlineNoticed
    rw [hx, List.append_nil, ite_self]
    rfl
  unfold checkPass
  dsimp only
  rw [ho]
  cases origin with
  | offline => exact ⟨_, (hraised _ rfl).1, (hraised _ rfl).2, rfl⟩
  | held => exact ⟨_, (hraised _ rfl).1, (hraised _ rfl).2, rfl⟩
  | _ => exact ⟨_, (hquiet rfl).1, (hquiet rfl).2, rfl⟩

/-- What the notices of a check that has ended with the converter at rest in `st` are, before and after the mark. -/
structure CheckNoticed (c : ConvId) (st origin : ConvState) (mean : Option Nat) (s u : State) : Prop where
  idleKept : st = .idle → (∀ m, s.converters[c].mark = some m → m.kind = .check) →
    u.reports = onlineNoticed c origin mean s
  idleFirst : st = .idle → onlineNoticed c origin mean s <+: u.reports
  idleHeld : st = .idle → ∀ m, s.converters[c].mark = some m → m.kind = .hold → s.reports.length + 2 ≤ 8 →
    u.reports = s.reports ++ onlineNotice c origin mean ++ noneLeftOnline c s
  offline : st = .offline → OfflineNoticed c .checkFailed mean s u

/-- R12: a check that passes. -/
theorem checkPass_over {origin : ConvState} (mean : Option Nat) (ho : s.converters[c].origin = some origin) :
    WorkOver c .idle (checkOwner s.converters[c]) true mean s (checkPass c mean s)
      ∧ CheckNoticed c .idle origin mean s (checkPass c mean s) := by
  obtain ⟨v, hrest, hreports, heq⟩ := checkPass_rested mean ho
  rw [heq]
  obtain ⟨hover, -, hkept, hgrow, hheld⟩ := hrest.workOver (checkOwner s.converters[c]) true mean
  refine ⟨hover, ⟨fun _ hm => (hkept (.inl hm)).trans hreports, fun _ => hreports ▸ hgrow, fun _ m hm hk hl => ?_,
    fun h => by cases h⟩⟩
  have hnoticed : onlineNoticed c origin mean s = s.reports ++ onlineNotice c origin mean := if_pos (by omega)
  have hlen : (onlineNoticed c origin mean s).length + 1 ≤ 8 := by
    have := onlineNotice_length c origin mean
    rw [hnoticed, List.length_append]
    omega
  rw [hheld m hm hk rfl (by rw [hreports]; exact hlen), hreports, hnoticed]

/-- R12: the end of a check, by its result. -/
theorem concludeCheck_over {origin : ConvState} (samples : List Sample) (hst : s.converters[c].state = .checking)
    (ho : s.converters[c].origin = some origin) :
    ∃ (st : ConvState) (pass : Bool), (checkPasses samples = true → st = .idle ∧ pass = true)
      ∧ (¬checkPasses samples = true → st = .offline ∧ pass = false)
      ∧ WorkOver c st (checkOwner s.converters[c]) pass (meanOf (goodReadings samples)) s (concludeCheck c samples s)
      ∧ CheckNoticed c st origin (meanOf (goodReadings samples)) s (concludeCheck c samples s) := by
  unfold concludeCheck
  split
  · rename_i hp
    exact ⟨.idle, true, fun _ => ⟨rfl, rfl⟩, fun h => absurd hp h, checkPass_over _ ho⟩
  · rename_i hp
    obtain ⟨hover, -, hnoticed⟩ := checkFail_over .checkFailed (meanOf (goodReadings samples)) hst
    exact ⟨.offline, false, fun h => absurd h hp, fun _ => ⟨rfl, rfl⟩, hover,
      ⟨fun h => by (cases h), fun h => by (cases h), fun h => by (cases h), fun _ => hnoticed⟩⟩

/-- Settles O28. -/
theorem checkEnds : Obligations.CheckEnds := by
  intro s c j outcome x origin hst hj horigin hn hceil hclean hx samples readings mean passes noneLeft u
  have hsampled : sampleEnd c outcome s = sampleInCheck c (j.sampled x) s := by
    rw [sampleEnd_checking hst hj, hceil, ← hx]
  have hrun : (j.sampled x).runOver = true ↔ x = .stall ∨ 4 ≤ samples.length := by
    rw [runOver_sampled j x hclean, hn]
    simp [samples]
  refine ⟨fun hns hlt => ?_, fun hend => ?_⟩
  · rw [exec_sampleEnd, hsampled, sampleInCheck, if_neg fun h => (hrun.1 h).elim hns (Nat.not_le.2 hlt)]
    rfl
  have hconcluded : sampleEnd c outcome s = finish u := by
    rw [hsampled, sampleInCheck, if_pos (hrun.2 (hend.imp_right fun h => h.ge))]
    rfl
  have hpasses : checkPasses samples = true ↔ passes := checkPasses_iff samples
  have hmean : meanOf (goodReadings samples) = mean := meanOf_eq readings
  have hcontext : ∀ k, checkOwner s.converters[c] = .context k ↔ j.owner = .check (.context k) := fun k => by
    simp only [checkOwner, hj]
    cases ho : j.owner <;> simp
  obtain ⟨st, pass, hidle, hoffline, hover, hnoticed⟩ := concludeCheck_over samples hst horigin
  rw [hpasses] at hidle hoffline
  rw [hmean] at hover hnoticed
  have a := finish_arbitrated u
  have hother : ∀ m : Mark, j.owner ≠ .check (.context m.owner) → checkOwner s.converters[c] ≠ .context m.owner :=
    fun m h => mt (hcontext m.owner).1 h
  refine ⟨finish u, (exec_sampleEnd c outcome s).trans (congrArg _ hconcluded),
    (concludeCheck_worked c samples).trans finish_worked, rfl, hover.others, ?_, ?_, ?_, ?_⟩
  · intro hl online
    rw [a.reports]
    refine ⟨fun hp => (hnoticed.offline (hoffline hp).1).all hl, fun hp _ m hm =>
      ⟨fun hk => hnoticed.idleHeld (hidle hp).1 m hm hk hl, fun hk => ?_⟩⟩
    rw [hnoticed.idleKept (hidle hp).1 fun n hn => by rw [hm] at hn; cases hn; exact hk]
    exact if_pos (by omega)
  · intro ho
    obtain ⟨hleft, hlast⟩ := (hover.startup (checkOwner_eq hj ho)).after a
    exact ⟨hleft, hlast⟩
  · intro hm
    have hunmarked : ∀ m : Mark, s.converters[c].mark = some m → m.kind = .check := fun m h => by
      rw [hm] at h; cases h
    have htold : ∀ (k : CtxId) (d : Context), j.owner = .check (.context k) → s.contexts[k] = some d →
        (finish u).contexts[k] = some (d.checkDone c pass st mean) := fun k d ho hd =>
      hover.toldAfter a ((hcontext k).2 ho) (fun m h => by rw [hm] at h; cases h) hd
    refine ⟨fun hp _ => ?_, fun hp => ?_⟩
    · obtain ⟨rfl, rfl⟩ := hidle hp
      have hreports := hnoticed.idleKept rfl hunmarked
      rw [a.reports, hreports]
      refine ⟨fun ho => ?_, fun ho => ?_, htold, hover.unmarked hm, fun he => ?_⟩
      · simp [onlineNoticed, onlineNotice, ho]
      · rw [onlineNoticed, onlineNotice, if_pos ho]
      · have hrun : arbitersRun u = false := by
          rcases hover.engineState with h | ⟨h, _⟩
          · unfold arbitersRun
            rcases he with he | he <;> rw [h, he] <;> rfl
          · rcases he with he | he <;> rw [h] at he <;> cases he
        rw [(a.noGrant hrun).1]
        exact hover.unmarked hm
    · obtain ⟨rfl, rfl⟩ := hoffline hp
      refine ⟨a.keptConverter (hover.unmarked hm) rfl, fun hl => ?_, htold⟩
      rw [a.reports]
      exact take_of_grown ((hnoticed.offline rfl).first hl)
  · intro m hm
    obtain ⟨hheld, hchecking, hhalted⟩ := hover.markedAfter a hm
    refine ⟨fun hk => ⟨hheld hk, fun d hd ho => hover.holdDoneAfter a hm hk (hother m ho) hd⟩, fun hk hn => ?_,
      fun hk hh => ?_, fun k d ho hne hd => ?_, fun hl => ?_⟩
    · have hrecord := hchecking hk hn
      refine ⟨by rw [hrecord]; exact ⟨rfl, rfl, rfl⟩, fun hp => ?_, fun hp => ?_, fun d hd ho =>
        hover.waitsForCheck hm hk hn (hother m ho) hd⟩
      · rw [hrecord, (hidle hp).1]
        rfl
      · rw [hrecord, (hoffline hp).1]
        rfl
    · have hrecord := hhalted hk hh
      refine ⟨fun hp => ?_, fun hp => ?_⟩
      · rw [hrecord, (hidle hp).1]
        rfl
      · rw [hrecord, (hoffline hp).1]
        rfl
    · have htold := hover.toldAfter a ((hcontext k).2 ho) (fun n hn => by
        rw [hm] at hn; cases hn; exact hne.symm) hd
      refine ⟨fun hp => ?_, fun hp => ?_⟩
      · obtain ⟨rfl, rfl⟩ := hidle hp
        exact htold
      · obtain ⟨rfl, rfl⟩ := hoffline hp
        exact htold
    · rw [a.reports]
      refine ⟨fun hp ho => take_of_grown ?_, fun hp => take_of_grown ((hnoticed.offline (hoffline hp).1).first hl)⟩
      have hfirst := hnoticed.idleFirst (hidle hp).1
      rwa [onlineNoticed, if_pos hl, onlineNotice, if_pos ho] at hfirst

end Sys2Proof.Machine
end

section
/-! SUPPORT. DischargeTakesNextState: the end of a job's discharge interval at its converter (R8), with the end of a job that
was cut (R95, R115) and of a search that fails (R113). -/

namespace Sys2Proof.Machine

variable {s t u : State}

/-! ### Items and searches that end -/

/-- R95, R93: an item's entry changes, and with the last entry the work of its MEASURE ends. -/
theorem itemEnd_itemsBecome {k : CtxId} {c : Context} {b : MeasureBody} {i : Nat} {e : ItemEntry}
    (hk : s.contexts[k] = some c) (hb : c.request.body = .measure b) (he : c.items[i]? = some e)
    (f : ItemEntry → ItemEntry) : ItemsBecome k c b (c.items.set i (f e)) s (measureWorkEnd k (modItem k i f s)) := by
  have h := measureWorkEnd_itemsBecome hk hb fun x => x.items.modify i f
  rwa [modify_eq_set _ _ _ he] at h

/-- R113: a status that ends a search without its verify. -/
def Status.failsSearch (st : Status) : Prop := st ≠ .success ∧ st ≠ .outOfRange

theorem searchDetail_fails {st : Status} (h : st.failsSearch) (q : Search) (mean : Option Nat) :
    searchDetail st q mean = .trial q.trial q.savedTrim := by
  unfold searchDetail
  split
  · exact absurd rfl h.1
  · exact absurd rfl h.2
  · rfl

/-- R112, R113: a search that ends without its verify. -/
theorem endSearch_searchFails {k : CtxId} {c : Context} {b : TrimBody} {q : Search} {st : Status}
    (hk : s.contexts[k] = some c) (hst : st.failsSearch) :
    SearchFails k c b q st s (endSearch k c b q st none s) := by
  have hsettle : settleTrim st b.chan q none (s.modCtx k fun c => { c with search := some q })
      = restoreTrim b.chan q (s.modCtx k fun c => { c with search := some q }) := by
    rw [settleTrim, if_neg hst.1]
  have htrim : (restoreTrim b.chan q (s.modCtx k fun c => { c with search := some q })).channels[b.chan].trim
      = q.savedTrim := by
    rw [restoreTrim, modChan_get, if_pos rfl]
  have heq : endSearch k c b q st none s = enterWriting k st (.trial q.trial q.savedTrim) c.request.resultAddr
      (trimResult c b q st none q.savedTrim)
      (releaseClaims k (restoreTrim b.chan q (s.modCtx k fun c => { c with search := some q }))) := by
    unfold endSearch
    dsimp only
    rw [hsettle, htrim, searchDetail_fails hst]
  have hctx : (releaseClaims k (restoreTrim b.chan q (s.modCtx k fun c => { c with search := some q }))).contexts[k]
      = some { c with search := some q } := modCtx_self hk _
  have hsame := endSearch_same k c b q st none s
  rw [heq] at hsame ⊢
  have hrestored := restore_released (s.modCtx k fun c => { c with search := some q }) k b.chan q
  rcases enterWriting_cases (releaseClaims k (restoreTrim b.chan q (s.modCtx k fun c => { c with search := some q }))) k st
    (.trial q.trial q.savedTrim) c.request.resultAddr (trimResult c b q st none q.savedTrim)
    with ⟨hh, h⟩ | ⟨hh, h⟩ <;> rw [h] at hsame ⊢
  · refine ⟨modCtx_self hctx _, hrestored, ?_, hsame.2.1, hsame.1⟩
    rw [if_pos (show s.engine.state = .halted from hh), List.append_nil]
    rfl
  · refine ⟨modCtx_self hctx _, hrestored, ?_, hsame.2.1, hsame.1⟩
    rw [if_neg (show ¬s.engine.state = .halted from hh)]
    rfl

theorem trimParts_eq {k : CtxId} {c : Context} {b : TrimBody} {q : Search} (hk : s.contexts[k] = some c)
    (hb : c.request.body = .trim b) (hq : c.search = some q) : trimParts s k = some (c, b, q) := by
  simp only [trimParts, hk, hb, hq]

/-! ### DISCHARGE_END (R8) -/

/-- R8: a converter that is released becomes IDLE, and its mark is resolved. -/
theorem releaseConverter_over {c : ConvId} (h : s.converters[c].origin = none) :
    WorkOver c .idle .nobody true none s (releaseConverter c s)
      ∧ ((∀ m, s.converters[c].mark = some m → m.kind = .check) → (releaseConverter c s).reports = s.reports)
      ∧ ∀ m, s.converters[c].mark = some m → m.kind = .hold → s.reports.length + 1 ≤ 8 →
          (releaseConverter c s).reports = s.reports ++ noneLeftOnline c s := by
  have hrested : Rested c .idle s (s.modConv c fun v => { v with state := .idle, job := none }) :=
    { here := by rw [modConv_get, if_pos rfl, h]
      others := fun d hd => by rw [modConv_get, if_neg hd]
      frame := rfl
      reportsGrow := List.prefix_rfl }
  obtain ⟨hover, -, hkept, -, hheld⟩ := hrested.workOver .nobody true none
  exact ⟨hover, fun hm => hkept (.inl hm), fun m hm hk hl => hheld m hm hk rfl hl⟩

theorem dischargeEnd_eq {c : ConvId} {j : Job} (hst : s.converters[c].state = .discharging)
    (hj : s.converters[c].job = some j) :
    dischargeEnd c s = finishJobEnd j (releaseConverter c (handOver j s)) := by
  simp only [dischargeEnd, hst, hj]

/-- A job but a trial that ends normally is followed by the arbiters. -/
theorem finishJobEnd_finish {j : Job} (h : ∀ k, j.owner = .trial k → j.cut = true) (s : State) :
    finishJobEnd j s = finish s := by
  unfold finishJobEnd
  split
  · rename_i k ho hc
    rw [h k ho] at hc
    cases hc
  · rfl

/-- The contexts that the end of a job leaves alone. -/
theorem handOver_otherContexts (j : Job) (s : State) {l : CtxId} (hi : ∀ i, j.owner ≠ .item l i)
    (ht : j.owner ≠ .trial l) : (handOver j s).contexts[l] = s.contexts[l] := by
  unfold handOver
  split
  · rename_i k i ho _
    exact (itemNormalEnd_workedFor k i _ s).others l fun h => hi i (h ▸ ho)
  · rename_i k i ho _
    exact (itemCutEnd_workedFor k i s).others l fun h => hi i (h ▸ ho)
  · rename_i k ho _
    exact (trialNormalEnd_workedFor k _ s).others l fun h => ht (h ▸ ho)
  · rename_i k ho _
    exact (trimEarlyEnd_workedFor k s).others l fun h => ht (h ▸ ho)
  · rw [(watchNormalEnd_watchJobEnded _ j s).contexts]
  · rfl

theorem handOver_watch {j : Job} {id : WatchId} (h : j.owner = .watch id) (s : State) :
    handOver j s = watchNormalEnd id j s := by
  simp only [handOver, h]

/-- Only the end of a watch job raises a report. -/
theorem handOver_reports {j : Job} (h : ∀ id, j.owner ≠ .watch id) (s : State) :
    (handOver j s).reports = s.reports := by
  unfold handOver
  split
  · exact (itemNormalEnd_workedFor _ _ _ s).reports
  · exact (itemCutEnd_workedFor _ _ s).reports
  · exact (trialNormalEnd_workedFor _ _ s).reports
  · exact (trimEarlyEnd_workedFor _ s).reports
  · exact absurd ‹_› (h _)
  · rfl

/-! ### An end cause that arrives together with the end of a trial (R115) -/

/-- The commands that can set an end cause (R77). -/
def Instr.BringsEndCause (i : Instr) : Prop :=
  i = .stopCut ∨ (∃ w, i = .commandRefused w) ∨ (∃ o w, i = .registerWrite o w) ∨ (∃ how, i = .fetchReadEnd how)
    ∨ ∃ how, i = .completionRingWriteEnd how

/-- A command that can set an end cause is taken whole; any other one is not looked at. -/
theorem endCauseCommand_cases (i : Instr) (s : State) :
    (Instr.BringsEndCause i ∧ endCauseCommand i s = commandEffect i s)
      ∨ (¬Instr.BringsEndCause i ∧ endCauseCommand i s = s) := by
  cases i with
  | stopCut => exact .inl ⟨.inl rfl, rfl⟩
  | commandRefused w => exact .inl ⟨.inr (.inl ⟨w, rfl⟩), rfl⟩
  | registerWrite o w => exact .inl ⟨.inr (.inr (.inl ⟨o, w, rfl⟩)), rfl⟩
  | fetchReadEnd how => exact .inl ⟨.inr (.inr (.inr (.inl ⟨how, rfl⟩))), rfl⟩
  | completionRingWriteEnd how => exact .inl ⟨.inr (.inr (.inr (.inr ⟨how, rfl⟩))), rfl⟩
  | _ => exact .inr ⟨by simp [Instr.BringsEndCause], rfl⟩

/-- The waiting command that sets the end cause of a context that has none. -/
theorem endCauseArrives_iff {k : CtxId} (h : endCauseSet s k = false) : endCauseArrives s k = true ↔
    ∃ (i : Instr) (rest : List Instr) (x : State) (e : Context), s.pending = i :: rest ∧ Instr.BringsEndCause i
      ∧ exec i s = .next x ∧ x.contexts[k] = some e ∧ e.endCause ≠ none := by
  have hset : ∀ x : State, endCauseSet x k = true ↔ ∃ e : Context, x.contexts[k] = some e ∧ e.endCause ≠ none :=
    fun x => by simp [endCauseSet, Option.any_eq_true, Option.isSome_iff_ne_none]
  unfold endCauseArrives
  split
  · rename_i hp
    simp [hp]
  · rename_i i rest hp
    rcases endCauseCommand_cases i s with ⟨hb, he⟩ | ⟨hb, he⟩ <;> rw [he]
    · rw [hset]
      refine ⟨fun ⟨e, hx, hc⟩ => ⟨i, rest, _, e, hp, hb, exec_eq i s, hx, hc⟩, ?_⟩
      rintro ⟨i', rest', x, e, hp', -, hx, hrest⟩
      cases hp.symm.trans hp'
      rw [exec_eq] at hx
      cases Host.Outcome.next.inj hx
      exact ⟨e, hrest⟩
    · rw [h]
      refine ⟨fun hf => (by cases hf), ?_⟩
      rintro ⟨i', rest', x, e, hp', hb', -⟩
      cases hp.symm.trans hp'
      exact absurd hb' hb

theorem onlineCount_ne_zero : onlineCount s ≠ 0 ↔ ∃ v : ConvId, s.converters[v].state.online = true := by
  have hall : ∀ v : ConvId, v ∈ allConverters := by decide
  unfold onlineCount
  rw [← Nat.pos_iff_ne_zero, List.countP_pos_iff]
  exact ⟨fun ⟨v, _, h⟩ => ⟨v, h⟩, fun ⟨v, h⟩ => ⟨v, hall v, h⟩⟩

/-- R106, R107, R19: a trial that waits for a converter while one is online. -/
theorem trialWaits_iff {k : CtxId} : trialWaits s k = true ↔
    (∃ (d : Context) (b : TrimBody) (q : Search), s.contexts[k] = some d ∧ d.state = .active ∧ d.endCause = none
      ∧ d.request.body = .trim b ∧ d.search = some q ∧ q.job = .notStarted)
      ∧ ∃ v : ConvId, s.converters[v].state.online = true := by
  unfold trialWaits
  split
  · rename_i c b q hp
    obtain ⟨hk, hb, hq⟩ := trimParts_some hp
    simp only [Bool.and_eq_true, beq_iff_eq, bne_iff_ne, Option.isNone_iff_eq_none, onlineCount_ne_zero]
    constructor
    · rintro ⟨⟨⟨ha, he⟩, hj⟩, hv⟩
      exact ⟨⟨c, b, q, hk, ha, he, hb, hq, hj⟩, hv⟩
    · rintro ⟨⟨d, b', q', hk', ha, he, -, hq', hj⟩, hv⟩
      cases hk.symm.trans hk'
      cases hq.symm.trans hq'
      exact ⟨⟨⟨ha, he⟩, hj⟩, hv⟩
  · rename_i hp
    refine ⟨fun h => (by cases h), ?_⟩
    rintro ⟨⟨d, b, q, hk, -, -, hb, hq, -⟩, -⟩
    rw [trimParts_eq hk hb hq] at hp
    cases hp

/-- A trial that waits has no end cause set. -/
theorem endCauseSet_of_trialWaits {k : CtxId} (h : trialWaits s k = true) (hk : t.contexts[k] = s.contexts[k]) :
    endCauseSet t k = false := by
  obtain ⟨⟨d, -, -, hd, -, he, -⟩, -⟩ := trialWaits_iff.1 h
  rw [endCauseSet, hk, hd]
  simp [he]

/-- Settles O29. -/
theorem dischargeTakesNextState : Obligations.DischargeTakesNextState := by
  intro s c j hst hj horigin freed moveOn
  have htold := handOver_ownerTold j s
  -- the converter's next state, whatever the owner's end did
  have hmove : ∀ x : State, x.converters = s.converters → moveOn x = releaseConverter c x := by
    intro x hx
    have hmark : (freed x).converters[c].mark = s.converters[c].mark := by
      show (x.modConv c _).converters[c].mark = _
      rw [modConv_get, if_pos rfl, hx]
    show (if s.converters[c].mark = none then freed x else resolveMark c (freed x)) = resolveMark c (freed x)
    split
    · rename_i hm
      simp only [resolveMark, hmark, hm]
    · rfl
  have heq := dischargeEnd_eq hst hj
  have hworked : s.WatchListSound → Worked s (finishJobEnd j (releaseConverter c (handOver j s))) := fun hl => by
    rw [← heq]
    exact dischargeEnd_worked c hl.idsDistinct
  have hcontext : ∀ k : CtxId, (∀ i, j.owner ≠ .item k i) → j.owner ≠ .trial k →
      (handOver j s).contexts[k] = s.contexts[k] := fun k hi ht => handOver_otherContexts j s hi ht
  have htrial : ∀ k, j.owner = .trial k → j.cut = false → handOver j s = trialNormalEnd k j.samples s :=
    fun k ho hcut => by simp only [handOver, ho, hcut]
  have hitemCut : ∀ k i, j.owner = .item k i → j.cut = true → handOver j s = itemCutEnd k i s :=
    fun k i ho hcut => by simp only [handOver, ho, hcut]
  have htrialCut : ∀ k, j.owner = .trial k → j.cut = true → handOver j s = trimEarlyEnd k s :=
    fun k ho hcut => by simp only [handOver, ho, hcut]
  have hwatch : ∀ id, j.owner = .watch id → handOver j s = watchNormalEnd id j s := fun id ho => handOver_watch ho s
  have hquiet : (∀ id, j.owner ≠ .watch id) → (handOver j s).reports = s.reports := fun h => handOver_reports h s
  obtain ⟨hover, hkept, hheld⟩ := releaseConverter_over (s := handOver j s) (c := c) (by rw [htold.converters, horigin])
  have a := finishJobEnd_arbitrated j (releaseConverter c (handOver j s))
  have hexec : exec (.dischargeEnd c) s = .next (finishJobEnd j (releaseConverter c (handOver j s))) :=
    (exec_eq _ s).trans (congrArg _ heq)
  have hconv := htold.converters
  have hengine := htold.engine
  have hprofiles := htold.profiles
  have hpending := htold.pending
  generalize handOver j s = w at *
  have hmark : w.converters[c].mark = s.converters[c].mark := by rw [hconv]
  have hothers : ∀ d : ConvId, d ≠ c → (releaseConverter c w).converters[d] = s.converters[d] := fun d hd => by
    rw [hover.others d hd, hconv]
  rw [hmark] at hkept hheld
  refine ⟨finishJobEnd j (releaseConverter c w), hexec, fun hm hr hs => ?_, fun m hm hk => ⟨?_, fun d hd _ hi ht => ?_⟩,
    ?_, fun m hm hk hn => ?_, fun m hm hk hh => ?_, fun d hd hf => a.keptConverter (hothers d hd) hf, hworked,
    fun k i d b e ho hcut hk hb he => ?_, fun k d b q cause cst ho hcut hk hb hq he => ?_, fun k ho hcut => ?_,
    fun id ho => ?_⟩
  · have hrun : arbitersRun (releaseConverter c w) = false := by
      rw [arbitersRun, hover.engineKept (by simp), hengine]
      simp [hr, hs]
    rw [(a.noGrant hrun).1]
    exact hover.unmarked (hmark.trans hm)
  · exact (hover.markedAfter a (hmark.trans hm)).1 hk
  · exact hover.holdDoneAfter a (hmark.trans hm) hk (by simp) ((hcontext _ hi ht).trans hd)
  · intro handed
    have hhanded : w.reports = handed := by
      unfold handed
      split
      · rw [hwatch _ ‹_›]
      · rename_i hn
        exact hquiet fun id h => hn id h
    rw [a.reports, ← hhanded]
    refine ⟨hkept, fun m hm hk hl => (hheld m hm hk hl).trans ?_⟩
    rw [noneLeftOnline_congr (s := s) fun d _ => by rw [hconv]]
    rfl
  · rw [(hover.markedAfter a (hmark.trans hm)).2.1 hk (by rw [hengine]; exact hn), hprofiles]
    rfl
  · exact (hover.markedAfter a (hmark.trans hm)).2.2 hk (by rw [hengine]; exact hh)
  · refine ⟨w, ?_, by rw [hmove w hconv, finishJobEnd_finish fun _ _ => hcut]⟩
    rw [hitemCut k i ho hcut]
    exact itemEnd_itemsBecome hk hb he ItemEntry.endAborted
  · refine ⟨w, ?_, by rw [hmove w hconv, finishJobEnd_finish fun _ _ => hcut]⟩
    rw [htrialCut k ho hcut]
    exact trimEarlyEnd_ends hk hb hq he
  · intro u unseen bringsEndCause together
    have hu : u = releaseConverter c w := by
      rw [← hmove w hconv, htrial k ho hcut]
    have harb : Arbitrated u unseen := finishBeforeTrial_arbitrated k u
    have hctx : unseen.contexts[k] = u.contexts[k] := finishBeforeTrial_context k u
    have hpend : unseen.pending = s.pending := by
      rw [harb.pending, hu, ← hpending]
      exact ((Worked.ofModConv c _).trans (resolveMark_worked c)).pending
    have hiff : (trialWaits u k && endCauseArrives unseen k) = true ↔ together := by
      rw [Bool.and_eq_true, trialWaits_iff, and_assoc]
      refine and_congr_right fun htrialWaits => and_congr_right fun honline => ?_
      have hnotSet := endCauseSet_of_trialWaits (trialWaits_iff.2 ⟨htrialWaits, honline⟩) hctx
      rw [endCauseArrives_iff hnotSet, hpend]
      rfl
    rw [← hu]
    have hend : finishJobEnd j u = if trialWaits u k && endCauseArrives unseen k then unseen else finish u := by
      simp only [finishJobEnd, ho, hcut]
      rfl
    refine ⟨fun hn => ?_, fun hy => ?_⟩
    · rw [hend, if_neg fun h => hn (hiff.1 h)]
    · rw [hend, if_pos (hiff.2 hy)]
      exact ⟨rfl, hctx, harb⟩
  · rw [← hwatch id ho, hmove w hconv, finishJobEnd_finish fun k h => by rw [ho] at h; cases h]

end Sys2Proof.Machine
end

section
/-! SUPPORT. FaultDischargeEnds: the end of a fault discharge (R14, R15), and what an event with no pending watch job leaves
of the Watch Unit and its claims. -/

namespace Sys2Proof.Machine

variable {s t u : State}

/-! ### An event with no pending watch job -/

/-- `t` is `s` after work that grants the Watch Unit no claim and leaves its tables alone. -/
structure WatchUnitKept (s t : State) : Prop where
  watch : t.watch = s.watch
  claims : ∀ ch : Chan, t.channels[ch].holder = some .watchUnit → s.channels[ch].holder = some .watchUnit

namespace WatchUnitKept

theorem refl (s : State) : WatchUnitKept s s := ⟨rfl, fun _ h => h⟩

theorem trans (h : WatchUnitKept s t) (g : WatchUnitKept t u) : WatchUnitKept s u :=
  ⟨g.watch.trans h.watch, fun ch hc => h.claims ch (g.claims ch hc)⟩

theorem ofEq (hw : t.watch = s.watch) (hc : t.channels = s.channels) : WatchUnitKept s t :=
  ⟨hw, fun ch h => by rwa [hc] at h⟩

theorem ofModChan (ch : Chan) (f : Channel → Channel) (hf : ∀ e, (f e).holder = e.holder) (s : State) :
    WatchUnitKept s (s.modChan ch f) := by
  refine ⟨rfl, fun d h => ?_⟩
  rw [modChan_get] at h
  split at h
  · subst d
    rwa [hf] at h
  · exact h

theorem ofHoldClaims (k : CtxId) (set : List Chan) (s : State) : WatchUnitKept s (holdClaims k set s) := by
  refine ⟨rfl, fun d h => ?_⟩
  rw [holdClaims_get] at h
  split at h
  · cases h
  · exact h

theorem ofReleaseClaims (k : CtxId) (s : State) : WatchUnitKept s (releaseClaims k s) := by
  refine ⟨rfl, fun d h => ?_⟩
  rw [releaseClaims_get] at h
  split at h
  · cases h
  · exact h

theorem foldl {α : Type} (f : State → α → State) (hf : ∀ t x, WatchUnitKept t (f t x)) (l : List α) (s : State) :
    WatchUnitKept s (l.foldl f s) := by
  induction l generalizing s with
  | nil => exact .refl s
  | cons x l ih => exact (hf s x).trans (ih (f s x))

theorem ofEnterWriting (k : CtxId) (st : Status) (d : Detail) (addr : Addr) (data : List Byte) (s : State) :
    WatchUnitKept s (enterWriting k st d addr data s) := by
  rcases enterWriting_cases s k st d addr data with ⟨_, h⟩ | ⟨_, h⟩ <;> rw [h] <;> exact .ofEq rfl rfl

theorem ofMeasureWorkEnd (k : CtxId) (s : State) : WatchUnitKept s (measureWorkEnd k s) := by
  unfold measureWorkEnd
  split
  · exact .refl s
  · split
    · split
      · split
        · exact (ofReleaseClaims k s).trans (.ofEq rfl rfl)
        · exact (ofReleaseClaims k s).trans (ofEnterWriting k _ _ _ _ _)
      · exact .refl s
    · exact .refl s

theorem ofSettleTrim (st : Status) (ch : Chan) (q : Search) (mean : Option Nat) (s : State) :
    WatchUnitKept s (settleTrim st ch q mean s) := by
  unfold settleTrim restoreTrim
  split
  · exact ofModChan ch (fun e => { e with trim := q.decided, baseline := mean }) (fun _ => rfl) s
  · exact ofModChan ch (fun e => { e with trim := q.savedTrim, baseline := q.savedBaseline }) (fun _ => rfl) s

theorem ofEndSearch (k : CtxId) (c : Context) (b : TrimBody) (q : Search) (st : Status) (mean : Option Nat) (s : State) :
    WatchUnitKept s (endSearch k c b q st mean s) := by
  have h : WatchUnitKept s (s.modCtx k fun c => { c with search := some q }) := .ofEq rfl rfl
  exact h.trans ((ofSettleTrim st _ q mean _).trans ((ofReleaseClaims k _).trans (ofEnterWriting k _ _ _ _ _)))

theorem ofContextNoConverter (s : State) (k : CtxId) : WatchUnitKept s (contextNoConverter s k) := by
  unfold contextNoConverter
  split
  · exact .refl s
  · split
    · unfold measureNoConverter
      refine WatchUnitKept.trans ?_ (ofMeasureWorkEnd k _)
      exact .ofEq rfl rfl
    · unfold trialNoConverter
      split
      · exact .refl s
      · split
        · exact ofEndSearch k _ _ _ _ _ s
        · exact .refl s
    · exact .refl s

theorem ofGrant (k : CtxId) (c : Context) (s : State) : WatchUnitKept s (grant k c s) := by
  have hhold := ofHoldClaims k c.claimSet s
  unfold grant
  split
  · rename_i b _
    refine hhold.trans ?_
    unfold execChannelSet
    dsimp only
    split
    · exact (ofReleaseClaims k _).trans (.ofEq rfl rfl)
    · exact (ofModChan _ b.apply (fun _ => rfl) _).trans ((ofReleaseClaims k _).trans (.ofEq rfl rfl))
  · split
    · exact hhold.trans ((ofReleaseClaims k _).trans (.ofEq rfl rfl))
    · refine hhold.trans ?_
      unfold activate
      dsimp only
      split
      · unfold beginTrial
        refine WatchUnitKept.trans ?_ (ofModChan _ _ ?_ _)
        · exact .ofEq rfl rfl
        · exact fun _ => rfl
      · exact .ofEq rfl rfl

theorem ofGrantPass (s : State) : WatchUnitKept s (grantPass s) := by
  have htry : ∀ (x : State) (k : CtxId), WatchUnitKept x (tryGrant x k) := fun x k => by
    unfold tryGrant
    split
    · split
      · exact ofGrant k _ x
      · exact .refl x
    · exact .refl x
  unfold grantPass
  split
  · exact foldl _ htry _ s
  · exact .refl s

/-- R19: with no pending watch job there is none to skip. -/
theorem ofNoConverterEnds (hp : s.watch.pending = []) : WatchUnitKept s (noConverterEnds s) := by
  unfold noConverterEnds
  split
  · have hends := foldl _ ofContextNoConverter (byAdmission s) s
    generalize (byAdmission s).foldl contextNoConverter s = x at hends
    have hx : x.watch.pending = [] := by rw [hends.watch, hp]
    rw [skipAllPending, hx]
    exact hends
  · exact .refl s

theorem ofSettleClaims (n : Nat) (hp : s.watch.pending = []) : WatchUnitKept s (settleClaims n s) := by
  induction n generalizing s with
  | zero => exact .refl s
  | succ n ih =>
    have hgrant := ofGrantPass s
    have hround := hgrant.trans (ofNoConverterEnds (by rw [hgrant.watch, hp]))
    unfold settleClaims
    dsimp only
    split
    · exact hround.trans (ih (by rw [hround.watch, hp]))
    · exact hround

theorem ofDispatchWork (c : ConvId) (w : Work) (s : State) : WatchUnitKept s (dispatchWork c w s) := by
  unfold dispatchWork
  split
  · split
    · split <;> exact .ofEq rfl rfl
    · exact .refl s
  · split <;> exact .ofEq rfl rfl

theorem ofArbiterStep (hp : s.watch.pending = []) (h : arbiterStep s = some t) : WatchUnitKept s t := by
  obtain ⟨c, -, -, ⟨id, rest, hpend, -⟩ | ⟨w, -, rfl⟩⟩ := arbiterStep_cases h
  · rw [hp] at hpend
    cases hpend
  · exact ofDispatchWork c w s

theorem ofArbiterLoop (n : Nat) (hp : s.watch.pending = []) : WatchUnitKept s (arbiterLoop n s) := by
  induction n generalizing s with
  | zero => exact .refl s
  | succ n ih =>
    unfold arbiterLoop
    split
    · have hstep := ofArbiterStep hp ‹_›
      exact hstep.trans (ih (by rw [hstep.watch, hp]))
    · exact .refl s

/-- An event with no pending watch job keeps the Watch Unit and grants it no claim. -/
theorem ofFinish (hp : s.watch.pending = []) : WatchUnitKept s (finish s) := by
  have hclaims := ofSettleClaims 17 hp
  have hr : WatchUnitKept s (runArbiters s) :=
    hclaims.trans (ofArbiterLoop 36 (by rw [hclaims.watch, hp]))
  obtain ⟨-, -, hc, hw⟩ := finish_afterArbiters s
  exact hr.trans (.ofEq hw hc)

end WatchUnitKept

/-! ### FAULT_DISCHARGE_END (R14, R15, R17) -/

/-- The state after the first fault discharge of a converter, whose record is in the list, is over. -/
theorem faultDischargeEnd_first {v : ConvId} {before rest : List FaultDischarge} {x : Connection} {job : Option Job}
    (hs : s.faultDischarges = before ++ { conv := v, connection := x, job := job } :: rest)
    (hb : ∀ d ∈ before, d.conv ≠ v) :
    (∀ j, job = some j → faultDischargeEnd v s = finish (faultEnd j { s with faultDischarges := before ++ rest }))
      ∧ (job = none → faultDischargeEnd v s = { s with faultDischarges := before ++ rest }) := by
  have hfind : s.faultDischarges.find? (fun d => d.conv == v) = some { conv := v, connection := x, job := job } := by
    rw [hs, List.find?_append, List.find?_eq_none.2 fun d hd => by simp [hb d hd]]
    simp
  have herase : s.faultDischarges.eraseP (fun d => d.conv == v) = before ++ rest := by
    rw [hs, eraseP_first _ before rest _ (fun d hd => by simp [hb d hd]) (by simp)]
  refine ⟨fun j hj => ?_, fun hj => ?_⟩ <;> subst hj <;> simp only [faultDischargeEnd, hfind, herase]

/-- R93: the entry of an item that gets its retry. -/
theorem itemFaultEnd_retry {k : CtxId} {i : Nat} {c : Context} {e : ItemEntry} (hk : s.contexts[k] = some c)
    (he : c.items[i]? = some e) (hr : e.retryUsed = false) :
    itemFaultEnd k i s = { s with contexts := s.contexts.set k (some { c with
      items := c.items.set i { e with job := .notStarted, samples := [], retryUsed := true } }) } := by
  have hmod := modItem_eq hk he ItemEntry.endByFault
  have hentry : e.endByFault = { e with job := .notStarted, samples := [], retryUsed := true } := by
    rw [ItemEntry.endByFault, hr]
    rfl
  rw [hentry] at hmod
  rw [itemFaultEnd, hmod]
  refine measureWorkEnd_goesOn (Vector.getElem_set_self _) (Bool.eq_false_iff.2 fun hall => ?_)
  have hlt := (List.getElem?_eq_some_iff.1 he).1
  have := (allEnded_iff _).1 hall _ (List.mem_set hlt _)
  cases this

/-- R93: the entry of an item whose retry is used. -/
theorem endByFault_retryUsed {e : ItemEntry} (hr : e.retryUsed = true) :
    e.endByFault = { e with job := .ended, samples := [], status := some .converterFault } := by
  rw [ItemEntry.endByFault, if_pos hr]

/-- The item table of a MEASURE outlasts the end of its work. -/
theorem measureWorkEnd_items {k : CtxId} {c : Context} (hk : s.contexts[k] = some c) :
    ∃ d, (measureWorkEnd k s).contexts[k] = some d ∧ d.items = c.items := by
  unfold measureWorkEnd
  rw [hk]
  dsimp only
  split
  · split
    · split
      · exact ⟨_, modCtx_self hk _, rfl⟩
      · rcases enterWriting_cases (releaseClaims k s) k (measureStatus c.items).1 (measureStatus c.items).2
          c.request.resultAddr (measureResult c ‹MeasureBody›) with ⟨_, h⟩ | ⟨_, h⟩ <;> rw [h] <;>
          exact ⟨_, modCtx_self hk _, rfl⟩
    · exact ⟨c, hk, rfl⟩
  · exact ⟨c, hk, rfl⟩

/-- R14, R93: after the fault end of an item its retry is used, and a second one has ended it. -/
theorem itemFaultEnd_entry {k : CtxId} {i : Nat} {c : Context} {e : ItemEntry} (hk : s.contexts[k] = some c)
    (he : c.items[i]? = some e) : ∃ d, (itemFaultEnd k i s).contexts[k] = some d ∧ d.items[i]? = some e.endByFault := by
  have hk' : (modItem k i ItemEntry.endByFault s).contexts[k]
      = some { c with items := c.items.set i e.endByFault } := by
    rw [modItem_eq hk he]
    exact Vector.getElem_set_self _
  obtain ⟨d, hd, hitems⟩ := measureWorkEnd_items hk'
  refine ⟨d, hd, ?_⟩
  rw [hitems, List.getElem?_set_self (List.getElem?_eq_some_iff.1 he).1]

theorem endByFault_retries (e : ItemEntry) : e.endByFault.retryUsed = true := by
  unfold ItemEntry.endByFault
  split
  · assumption
  · rfl

/-- R15, R131, R132: the fault end of a watch job that holds its claim. -/
theorem watchFaultEnd_eq {id : WatchId} {w : RunningWatch} (hw : s.watch.running.find? (fun r => r.id == id) = some w)
    (hc : s.channels[w.ch].holder = some .watchUnit) : watchFaultEnd id s = { s with
      channels := s.channels.set w.ch { s.channels[w.ch] with holder := none }
      watch := WatchUnit.roundTested { s.watch with
        running := s.watch.running.filter fun r => r.id != id
        entries := if w.discard then s.watch.entries else s.watch.entries.map fun e =>
          if e.id = id then e.countedSkip else e } } := by
  have hid : w.id = id := by simpa using List.find?_some hw
  have hrun : runningWatch s id = some w := hw
  simp only [watchFaultEnd, hrun]
  cases hd : w.discard with
  | true => rw [if_pos rfl, endRunning_eq w s hc, hid]; rfl
  | false =>
    rw [if_neg (by simp), endRunning_eq w (modEntry id WatchEntry.skip s) hc, hid]
    rfl

/-- Settles O32. -/
theorem faultDischargeEnds : Obligations.FaultDischargeEnds := by
  refine ⟨fun s v j before rest x hs hb => ?_, fun s v before rest x hs hb => ?_⟩
  · intro ended becomes
    have heq := (faultDischargeEnd_first hs hb).1 j rfl
    have a := finish_arbitrated (faultEnd j ended)
    have hworked := faultDischargeEnd_worked (s := s) v
    rw [heq] at hworked
    have hitem : ∀ k i, j.owner = .item k i → j.cut = false → faultEnd j ended = itemFaultEnd k i ended :=
      fun k i ho hc => by simp only [faultEnd, ho, hc]
    have hitemCut : ∀ k i, j.owner = .item k i → j.cut = true → faultEnd j ended = itemCutEnd k i ended :=
      fun k i ho hc => by simp only [faultEnd, ho, hc]
    have htrial : ∀ k, j.owner = .trial k → j.cut = false → faultEnd j ended = trialFaultEnd k ended :=
      fun k ho hc => by simp only [faultEnd, ho, hc]
    have htrialCut : ∀ k, j.owner = .trial k → j.cut = true → faultEnd j ended = trimEarlyEnd k ended :=
      fun k ho hc => by simp only [faultEnd, ho, hc]
    refine ⟨finish (faultEnd j ended), (exec_eq _ s).trans (congrArg _ heq), ?_, hworked,
      fun k i c b e ho hc hk _ hb he => ?_, fun k i c b e ho hk hb he => ⟨fun hc hr => ?_, fun hc hr => ?_, fun hc => ?_⟩,
      fun k c b q ho hk hb hq => ⟨fun hc hr => ?_, fun hc hr => ?_, fun cause st hc hcause => ?_⟩,
      fun id w ho hw hch => ?_⟩
    · rw [a.faultDischarges, (faultEnd_ownerTold j ended).faultDischarges]
    · obtain ⟨d, hd, hitems⟩ := itemFaultEnd_entry (s := ended) hk he
      rw [← hitem k i ho hc] at hd
      obtain ⟨d', hd', hkept⟩ := a.contextUsed k d hd
      obtain ⟨f, hf, hef⟩ := hkept.items.2 i _ hitems
      refine ⟨d', f, hd', hf, by rw [hef.same.2, endByFault_retries], fun hr => ?_⟩
      rw [endByFault_retryUsed hr] at hef
      exact hef.eq_of_started (by simp)
    · have hretry := itemFaultEnd_retry (s := ended) hk he hr
      rw [← hitem k i ho hc] at hretry
      exact ⟨congrArg finish hretry, hretry ▸ a⟩
    · refine ⟨_, rfl, ?_⟩
      rw [hitem k i ho hc, ← endByFault_retryUsed hr]
      exact itemEnd_itemsBecome (s := ended) hk hb he ItemEntry.endByFault
    · refine ⟨_, rfl, ?_⟩
      rw [hitemCut k i ho hc]
      exact itemEnd_itemsBecome (s := ended) hk hb he ItemEntry.endAborted
    · have hretry : faultEnd j ended = becomes k { c with search := some { q with job := .notStarted, retryUsed := true } } := by
        rw [htrial k ho hc, trialFaultEnd, trimParts_eq (s := ended) hk hb hq]
        dsimp only
        rw [hr, if_neg (by simp), modCtx_eq (s := ended) hk]
      exact ⟨congrArg finish hretry, hretry ▸ a⟩
    · refine ⟨_, rfl, ?_⟩
      rw [htrial k ho hc, trialFaultEnd, trimParts_eq (s := ended) hk hb hq]
      dsimp only
      rw [if_pos hr]
      have hfails := endSearch_searchFails (s := ended) (b := b) (q := q.logged .converterFault none none)
        (st := .converterFault) hk (by simp [Status.failsSearch])
      rwa [Search.logged, hr] at hfails ⊢
    · refine ⟨_, rfl, ?_⟩
      rw [htrialCut k ho hc]
      exact trimEarlyEnd_ends (s := ended) hk hb hq hcause
    · intro skipped
      have hskip : faultEnd j ended = skipped := by
        simp only [faultEnd, ho]
        exact watchFaultEnd_eq (s := ended) hw hch
      rw [hskip] at a ⊢
      refine ⟨rfl, a, fun hp => ?_⟩
      have hkept := WatchUnitKept.ofFinish (s := skipped) hp
      refine ⟨hkept.watch, fun hh => ?_⟩
      have hclaim := hkept.claims w.ch hh
      rw [show skipped.channels[w.ch] = { s.channels[w.ch] with holder := none } from Vector.getElem_set_self _] at hclaim
      cases hclaim
  · rw [exec_eq]
    exact congrArg _ ((faultDischargeEnd_first hs hb).2 rfl)

end Sys2Proof.Machine
end

section
/-! SUPPORT. The claim arbiter and the converter arbiter: when an item is ready, who is granted, which work is first
(R19 to R23, R47 to R49, R52). -/

namespace Sys2Proof.Machine

variable {s t : State}

/-! ### Readiness (R20, R22, R85) -/

theorem itemReady_iff (items : List ItemEntry) (e : ItemEntry) : itemReady items e = true ↔ e.job = .notStarted
    ∧ ∀ r ∈ items, r.job = .running → ∀ ch ∈ r.item.channels, ch ∉ e.item.channels := by
  simp [itemReady, Item.overlaps]

theorem itemMayStart_iff (items : List ItemEntry) (i : Nat) (e : ItemEntry) :
    itemMayStart items i e = true ↔ itemReady items e = true
      ∧ ∀ (j : Nat) (r : ItemEntry), j < i → items[j]? = some r → r.job = .notStarted →
          ∀ ch ∈ r.item.channels, ch ∉ e.item.channels := by
  have hearlier : (∀ r ∈ items.take i, r.job = .notStarted → ∀ ch ∈ r.item.channels, ch ∉ e.item.channels)
      ↔ ∀ (j : Nat) (r : ItemEntry), j < i → items[j]? = some r → r.job = .notStarted →
          ∀ ch ∈ r.item.channels, ch ∉ e.item.channels := by
    constructor
    · intro h j r hj hr
      exact h r (List.mem_iff_getElem?.2 ⟨j, by rw [List.getElem?_take_of_lt hj, hr]⟩)
    · intro h r hr
      obtain ⟨j, hj⟩ := List.mem_iff_getElem?.1 hr
      rw [List.getElem?_take] at hj
      split at hj
      · exact h j r ‹_› hj
      · cases hj
  rw [← hearlier]
  simp [itemMayStart, Item.overlaps]

theorem Converter.free_iff (v : Converter) : v.free = true ↔ v.state = .idle ∧ v.mark = none := by
  simp [Converter.free]

theorem arbitersRun_iff : arbitersRun s = true ↔ s.engine.state = .running ∨ s.engine.state = .stopping := by
  simp [arbitersRun]

/-- The first element of an ascending list that meets a test. -/
theorem find?_ascending {α : Type} [Preorder α] {p : α → Bool} {l : List α} {a : α} (hl : l.Pairwise (· < ·))
    (ha : a ∈ l) (hp : p a = true) (hfirst : ∀ b ∈ l, b < a → p b = false) : l.find? p = some a := by
  obtain ⟨before, rest, rfl⟩ := List.append_of_mem ha
  refine List.find?_eq_some_iff_append.2 ⟨hp, before, rest, rfl, fun b hb => ?_⟩
  rw [hfirst b (List.mem_append_left _ hb) ((List.pairwise_append.1 hl).2.2 b hb a List.mem_cons_self)]
  rfl

/-- R20: the lowest-numbered free converter. -/
theorem firstFree_eq {v : ConvId} (hv : s.converters[v].free = true)
    (hlow : ∀ d : ConvId, d < v → s.converters[d].free = false) : firstFree s = some v :=
  find?_ascending (by decide) ((by decide : ∀ v : ConvId, v ∈ allConverters) v) hv fun d _ => hlow d

theorem firstFree_none : firstFree s = none ↔ ∀ v : ConvId, s.converters[v].free = false := by
  have hall : ∀ v : ConvId, v ∈ allConverters := by decide
  simp only [firstFree, List.find?_eq_none, Bool.not_eq_true]
  exact ⟨fun h v => h v (hall v), fun h v _ => h v⟩

theorem firstReadyItem_some {c : Context} {i : Nat} : firstReadyItem c = some i ↔
    ∃ e, c.items[i]? = some e ∧ itemMayStart c.items i e = true
      ∧ ∀ (j : Nat) (f : ItemEntry), j < i → c.items[j]? = some f → itemMayStart c.items j f = false := by
  rw [firstReadyItem, List.findIdx?_eq_some_iff_getElem]
  simp only [List.length_zipIdx, List.getElem_zipIdx, Nat.zero_add, Bool.not_eq_true]
  constructor
  · rintro ⟨hlt, hmay, hbefore⟩
    refine ⟨_, List.getElem?_eq_getElem hlt, hmay, fun j f hj hf => ?_⟩
    obtain ⟨_, rfl⟩ := List.getElem?_eq_some_iff.1 hf
    exact hbefore j hj
  · rintro ⟨e, he, hmay, hbefore⟩
    obtain ⟨hlt, rfl⟩ := List.getElem?_eq_some_iff.1 he
    exact ⟨hlt, hmay, fun j hj => hbefore j _ hj (List.getElem?_eq_getElem (hj.trans hlt))⟩

theorem itemMayStart_of_firstReadyItem_none {c : Context} (h : firstReadyItem c = none) {i : Nat} {e : ItemEntry}
    (he : c.items[i]? = some e) : itemMayStart c.items i e = false :=
  List.findIdx?_eq_none_iff.1 h (e, i) (List.mem_zipIdx_iff_getElem?.2 he)

/-- R21, R22: the work `w` is the first ready item, or the ready trial, of the ACTIVE context in `k`. -/
def Work.ReadyAt (s : State) (k : CtxId) (w : Work) : Prop := ∃ c, s.contexts[k] = some c ∧ c.state = .active
  ∧ ((∃ b i e, c.request.body = .measure b ∧ w = .item k i ∧ c.items[i]? = some e ∧ itemMayStart c.items i e = true
        ∧ ∀ (j : Nat) (f : ItemEntry), j < i → c.items[j]? = some f → itemMayStart c.items j f = false)
    ∨ (∃ b q, c.request.body = .trim b ∧ w = .trial k ∧ c.search = some q ∧ q.job = .notStarted))

theorem readyWork_iff {k : CtxId} {w : Work} : readyWork s k = some w ↔ w.ReadyAt s k := by
  unfold readyWork Work.ReadyAt
  split
  · rename_i hk
    simp [hk]
  · rename_i c hk
    rw [hk]
    split
    · rename_i b ha hb
      simp only [Option.map_eq_some_iff, firstReadyItem_some]
      constructor
      · rintro ⟨i, ⟨e, he, hmay, hfirst⟩, rfl⟩
        exact ⟨c, rfl, ha, .inl ⟨b, i, e, hb, rfl, he, hmay, hfirst⟩⟩
      · rintro ⟨d, hd, -, ⟨_, i, e, -, rfl, he, hmay, hfirst⟩ | ⟨_, _, hb', -⟩⟩ <;> cases hd
        · exact ⟨i, ⟨e, he, hmay, hfirst⟩, rfl⟩
        · rw [hb] at hb'
          cases hb'
    · rename_i b q ha hb hq
      constructor
      · intro h
        split at h
        · cases h
          exact ⟨c, rfl, ha, .inr ⟨b, q, hb, rfl, hq, ‹_›⟩⟩
        · cases h
      · rintro ⟨d, hd, -, ⟨_, _, _, hb', -⟩ | ⟨_, q', -, rfl, hq', hj⟩⟩ <;> cases hd
        · rw [hb] at hb'
          cases hb'
        · rw [hq] at hq'
          cases hq'
          rw [if_pos hj]
    · rename_i hitem htrial
      refine ⟨nofun, ?_⟩
      rintro ⟨d, hd, ha, ⟨b, _, _, hb, -⟩ | ⟨b, q, hb, -, hq, -⟩⟩ <;> cases hd
      · exact absurd hb (hitem b ha)
      · exact absurd hq (htrial b q ha hb)

theorem firstWork_none : firstWork s = none ↔ ∀ k w, ¬Work.ReadyAt s k w := by
  obtain ⟨-, hmem, -⟩ := byAdmission_order s
  rw [firstWork, List.findSome?_eq_none_iff]
  constructor
  · rintro h k w hw
    obtain ⟨c, hk, -⟩ := id hw
    rw [← readyWork_iff, h k ((hmem k).2 (by rw [hk]; simp))] at hw
    cases hw
  · intro h k _
    refine Option.eq_none_iff_forall_ne_some.2 fun w hw => h k w (readyWork_iff.1 hw)

/-- R21: the first work is that of the oldest context that has any. -/
theorem firstWork_eq {k : CtxId} {w : Work} (hw : w.ReadyAt s k)
    (holdest : ∀ (c d : Context) (l : CtxId) (v : Work), s.contexts[k] = some c → s.contexts[l] = some d → l ≠ k →
      v.ReadyAt s l → c.admission < d.admission) : firstWork s = some w := by
  obtain ⟨hnodup, hmem, hascends⟩ := byAdmission_order s
  obtain ⟨c, hk, -⟩ := id hw
  obtain ⟨before, rest, horder⟩ := List.append_of_mem ((hmem k).2 (by rw [hk]; simp))
  refine List.findSome?_eq_some_iff.2 ⟨before, k, rest, horder, readyWork_iff.2 hw, fun l hl => ?_⟩
  rw [horder] at hnodup hascends
  have hle := (List.pairwise_append.1 hascends).2.2 l hl k List.mem_cons_self
  have hne : l ≠ k := fun h => (List.nodup_append.1 hnodup).2.2 l hl k List.mem_cons_self h
  refine Option.eq_none_iff_forall_ne_some.2 fun v hv => ?_
  have hready := readyWork_iff.1 hv
  obtain ⟨d, hd, -⟩ := id hready
  exact absurd (holdest c d l v hk hd hne hready) (Nat.not_lt.2 (hle d c hd hk))

/-! ### The claim arbiter (R47 to R49) -/

theorem olderWaits_iff (s : State) (c : Context) : olderWaits s c = true ↔
    ∃ (l : CtxId) (o : Context), s.contexts[l] = some o ∧ o.admission < c.admission
      ∧ ((o.state = .listing ∧ c.claimSet ≠ []) ∨ (o.state = .claiming ∧ ∃ ch ∈ o.claimSet, ch ∈ c.claimSet)) := by
  have hall : ∀ l : CtxId, l ∈ allContexts := by decide
  have hwaits : ∀ o : Context, o.waitsFor c.claimSet = true ↔ (o.state = .listing ∧ c.claimSet ≠ [])
      ∨ (o.state = .claiming ∧ ∃ ch ∈ o.claimSet, ch ∈ c.claimSet) := fun o => by
    unfold Context.waitsFor
    cases o.state <;> simp
  rw [olderWaits, List.any_eq_true]
  constructor
  · rintro ⟨l, -, h⟩
    split at h
    · rename_i o hl
      obtain ⟨hadm, hw⟩ := (Bool.and_eq_true _ _).mp h
      exact ⟨l, o, hl, of_decide_eq_true hadm, (hwaits o).1 hw⟩
    · cases h
  · rintro ⟨l, o, hl, hadm, hw⟩
    refine ⟨l, hall l, ?_⟩
    rw [hl]
    simp [hadm, (hwaits o).2 hw]

theorem grantable_iff (s : State) (c : Context) : grantable s c = true ↔
    c.state = .claiming ∧ (∀ ch ∈ c.claimSet, s.channels[ch].holder = none) ∧ olderWaits s c = false := by
  simp [grantable, and_assoc]

theorem tryGrant_eq {k : CtxId} {c : Context} (hk : s.contexts[k] = some c) :
    tryGrant s k = if grantable s c then grant k c s else s := by
  rw [tryGrant, hk]

theorem firstOff_none {set : List Chan} : firstOff s set = none ↔ ∀ ch ∈ set, s.channels[ch].ready = true := by
  simp [firstOff]

/-- R49: the lowest-numbered OFF channel of a claim set. -/
theorem firstOff_eq {set : List Chan} {ch : Chan} (hset : set.Pairwise (· < ·)) (hch : ch ∈ set)
    (hoff : s.channels[ch].ready = false) (hlow : ∀ d ∈ set, d < ch → s.channels[d].ready = true) :
    firstOff s set = some ch :=
  find?_ascending hset hch (by rw [hoff]; rfl) fun d hd hlt => by rw [hlow d hd hlt]; rfl

theorem grant_channelSet {k : CtxId} {c : Context} {b : ChannelSetBody} (hb : c.request.body = .channelSet b) :
    grant k c s = execChannelSet k b (holdClaims k c.claimSet s) := by
  simp only [grant, hb]

/-- R49: the grant of a claim set with a channel that is OFF. -/
theorem grant_off {k : CtxId} {c : Context} {ch : Chan} (hk : s.contexts[k] = some c)
    (hb : ∀ b, c.request.body ≠ .channelSet b) (hoff : firstOff s c.claimSet = some ch) :
    grant k c s = { s with
      channels := (releaseClaims k (holdClaims k c.claimSet s)).channels
      contexts := s.contexts.set k (some { c with state := .posting, result := some (.channelOff, .channel ch) }) } := by
  unfold grant
  dsimp only
  split
  · exact absurd ‹_› (hb _)
  · rw [hoff]
    exact modCtx_eq (s := releaseClaims k (holdClaims k c.claimSet s)) hk _

/-- R49: the grant of a MEASURE whose channels are READY. -/
theorem grant_measure {k : CtxId} {c : Context} {b : MeasureBody} (hk : s.contexts[k] = some c)
    (hb : c.request.body = .measure b) (hready : firstOff s c.claimSet = none) :
    grant k c s = { s with
      channels := (holdClaims k c.claimSet s).channels
      contexts := s.contexts.set k (some { c with state := .active }) } := by
  simp only [grant, hb, hready, activate]
  exact modCtx_eq (s := holdClaims k c.claimSet s) hk _

/-- R47: the contexts of a grant pass. -/
theorem grantOrder (s : State) : ((byAdmission s).filter (inState s .claiming)).Nodup
    ∧ (∀ k : CtxId, k ∈ (byAdmission s).filter (inState s .claiming) ↔
        ∃ c, s.contexts[k] = some c ∧ c.state = .claiming)
    ∧ ((byAdmission s).filter (inState s .claiming)).Pairwise fun k l => ∀ c d : Context,
        s.contexts[k] = some c → s.contexts[l] = some d → c.admission ≤ d.admission := by
  obtain ⟨hnodup, hmem, hascends⟩ := byAdmission_order s
  refine ⟨hnodup.filter _, fun k => ?_, hascends.filter _⟩
  rw [List.mem_filter, hmem, inState]
  cases s.contexts[k] with
  | none => simp
  | some c => simp

/-! ### NO_CONVERTER ends (R19) -/

theorem noConverterEnds_online (h : ∃ v : ConvId, s.converters[v].state.online = true) : noConverterEnds s = s :=
  if_neg (onlineCount_ne_zero.2 h)

theorem onlineCount_zero (h : ∀ v : ConvId, s.converters[v].state.online = false) : onlineCount s = 0 :=
  not_not.1 fun hne => by
    obtain ⟨v, hv⟩ := onlineCount_ne_zero.1 hne
    rw [h v] at hv
    cases hv

/-- With a converter online the grants of an event are one pass. -/
theorem settleClaims_online (h : ∃ v : ConvId, s.converters[v].state.online = true) (n : Nat) :
    settleClaims (n + 1) s = grantPass s := by
  have hpass : ∃ v : ConvId, (grantPass s).converters[v].state.online = true := by rwa [(grantPass_same s).2]
  unfold settleClaims
  rw [noConverterEnds_online hpass]
  exact if_neg fun hnone => onlineCount_ne_zero.2 hpass hnone.1

/-- R94: the ready items of a MEASURE end. -/
theorem contextNoConverter_measure {k : CtxId} {c : Context} {b : MeasureBody} (hk : s.contexts[k] = some c)
    (ha : c.state = .active) (hb : c.request.body = .measure b) : ItemsBecome k c b
      (c.items.map fun e => if itemReady c.items e then e.endNoConverter else e) s (contextNoConverter s k) := by
  have heq : contextNoConverter s k = measureNoConverter k s := by
    simp only [contextNoConverter, hk, ha, hb]
  rw [heq]
  exact measureWorkEnd_itemsBecome hk hb fun x => x.items.map fun e => if itemReady x.items e then e.endNoConverter else e

/-- R111: the ready trial of a TRIM ends, and with it the search. -/
theorem contextNoConverter_trim {k : CtxId} {c : Context} {b : TrimBody} {q : Search} (hk : s.contexts[k] = some c)
    (ha : c.state = .active) (hb : c.request.body = .trim b) (hq : c.search = some q) (hj : q.job = .notStarted) :
    SearchFails k c b (q.logged .noConverter none none) .noConverter s (contextNoConverter s k) := by
  have heq : contextNoConverter s k = endSearch k c b (q.logged .noConverter none none) .noConverter none s := by
    simp only [contextNoConverter, hk, ha, hb, trialNoConverter, trimParts_eq hk hb hq, hj, if_true]
  rw [heq]
  exact endSearch_searchFails hk (by simp [Status.failsSearch])

/-! ### A watch job is offered a converter (R52, R131) -/

theorem watchClaimGranted_iff (s : State) (ch : Chan) : watchClaimGranted s ch = true ↔
    ¬(s.channels[ch].holder ≠ none
      ∨ ∃ (k : CtxId) (c : Context), s.contexts[k] = some c ∧ c.state = .claiming ∧ ch ∈ c.claimSet) := by
  have hall : ∀ k : CtxId, k ∈ allContexts := by decide
  rw [watchClaimGranted, Bool.and_eq_true, Bool.not_eq_true', not_or, not_not, Option.isNone_iff_eq_none,
    ← Bool.not_eq_true, List.any_eq_true]
  refine and_congr_right fun _ => not_congr ⟨?_, ?_⟩
  · rintro ⟨k, -, h⟩
    split at h
    · exact ⟨k, _, ‹_›, by simpa using h⟩
    · cases h
  · rintro ⟨k, c, hk, hc⟩
    refine ⟨k, hall k, ?_⟩
    rw [hk]
    simpa using hc

theorem offerWatch_eq {e : WatchEntry} (he : s.watch.entries.find? (fun x => x.id == e.id) = some e) (v : ConvId) :
    offerWatch v e.id s = if watchClaimGranted s e.ch then dispatchWatch v e s else skipPending e.id s := by
  have hentry : watchEntry s e.id = some e := he
  rw [offerWatch, hentry]

/-- R52, R6: what the dispatch of a watch job writes. -/
theorem dispatchWatch_writes (v : ConvId) (e : WatchEntry) (s : State) :
    (dispatchWatch v e s).channels[e.ch] = { s.channels[e.ch] with holder := some .watchUnit }
      ∧ (dispatchWatch v e s).watch = { s.watch with
          pending := s.watch.pending.filter fun x => x != e.id
          running := s.watch.running ++ [{ id := e.id, ch := e.ch, conv := v, round := s.watch.round, discard := false }] }
      ∧ (dispatchWatch v e s).converters[v].job
          = some (newJob s (.watch e.id) (.single e.ch) e.n e.settle e.ceiling e.hop) := by
  refine ⟨?_, rfl, ?_⟩
  · exact Vector.getElem_set_self _
  · exact congrArg Converter.job (Vector.getElem_set_self _)

end Sys2Proof.Machine
end

section
/-! SUPPORT. ArbiterLeavesNothingGrantable: the converter arbiter comes to an end inside an event, because each grant uses a
free converter or removes a pending watch job (R20, R118). -/

namespace Sys2Proof.Machine

variable {s t : State}

/-! ### The converter arbiter comes to an end (R20) -/

/-- R20: the converters that are free. -/
def freeConverters (s : State) : Finset ConvId := Finset.univ.filter fun v => s.converters[v].free = true

theorem mem_freeConverters {v : ConvId} : v ∈ freeConverters s ↔ s.converters[v].free = true := by
  simp [freeConverters]

/-- The grants that an event can still make: each uses up a free converter or a pending watch job. -/
def grantsLeft (s : State) : Nat := (freeConverters s).card + s.watch.pending.length

/-- A converter that takes a job is no longer free. -/
theorem freeConverters_connect {v : ConvId} (hv : s.converters[v].free = true) (j : Job)
    (h : t.converters = (connect v j s).converters) : (freeConverters t).card < (freeConverters s).card := by
  refine Finset.card_lt_card (Finset.ssubset_iff_subset_ne.2 ⟨fun d hd => ?_, fun heq => ?_⟩)
  · rw [mem_freeConverters, h, connect, modConv_get] at hd
    split at hd
    · subst d
      exact mem_freeConverters.2 hv
    · exact mem_freeConverters.2 hd
  · have hmem := heq ▸ mem_freeConverters.2 hv
    rw [mem_freeConverters, h, connect, modConv_get, if_pos rfl, Converter.free_iff] at hmem
    obtain ⟨hidle, -⟩ := hmem
    dsimp only at hidle
    split at hidle <;> cases hidle

/-- A pending job that leaves the list makes it shorter. -/
theorem length_filter_ne_lt {id : WatchId} {rest pending : List WatchId} (h : pending = id :: rest) :
    (pending.filter fun x => x != id).length < pending.length := by
  subst h
  rw [List.filter_cons_of_neg (by simp), List.length_cons]
  exact Nat.lt_succ_of_le (List.length_filter_le _ _)

/-- R6: the first ready work is dispatched: its converter takes a job, and no watch job is touched. -/
theorem dispatchWork_connects (v : ConvId) {w : Work} (h : firstWork s = some w) :
    ∃ j, (dispatchWork v w s).converters = (connect v j s).converters ∧ (dispatchWork v w s).watch = s.watch := by
  obtain ⟨k, -, hk⟩ := List.exists_of_findSome?_eq_some h
  obtain ⟨c, hc, -, ⟨b, i, e, hb, rfl, he, -⟩ | ⟨b, q, hb, rfl, hq, -⟩⟩ := readyWork_iff.1 hk
  · simp only [dispatchWork, hc, hb, he]
    exact ⟨_, rfl, rfl⟩
  · simp only [dispatchWork, trimParts_eq hc hb hq]
    exact ⟨_, rfl, rfl⟩

theorem grantsLeft_skipPending {id : WatchId} {rest : List WatchId} (h : s.watch.pending = id :: rest) :
    grantsLeft (skipPending id s) < grantsLeft s := by
  rw [skipPending_eq]
  exact Nat.add_lt_add_left (length_filter_ne_lt h) _

theorem grantsLeft_offerWatch {v : ConvId} {id : WatchId} {rest : List WatchId} (hv : s.converters[v].free = true)
    (h : s.watch.pending = id :: rest) : grantsLeft (offerWatch v id s) < grantsLeft s := by
  unfold offerWatch
  split
  · rename_i e he
    have hid : e.id = id := by simpa using List.find?_some he
    split
    · exact Nat.add_lt_add (freeConverters_connect hv _ rfl) (length_filter_ne_lt (hid ▸ h))
    · exact grantsLeft_skipPending h
  · exact grantsLeft_skipPending h

/-- R20: one grant leaves fewer to make. -/
theorem grantsLeft_arbiterStep (h : arbiterStep s = some t) : grantsLeft t < grantsLeft s := by
  obtain ⟨v, -, hv, ⟨id, rest, hp, rfl⟩ | ⟨w, hw, rfl⟩⟩ := arbiterStep_cases h
  · exact grantsLeft_offerWatch (firstFree_free hv) hp
  · obtain ⟨j, hconv, hwatch⟩ := dispatchWork_connects v hw
    rw [grantsLeft, grantsLeft, hwatch]
    exact Nat.add_lt_add_right (freeConverters_connect (firstFree_free hv) j hconv) _

theorem arbiterLoop_ends (n : Nat) (h : grantsLeft s ≤ n) : arbiterStep (arbiterLoop n s) = none := by
  induction n generalizing s with
  | zero =>
    refine Option.eq_none_iff_forall_ne_some.2 fun t ht => ?_
    have : grantsLeft t < grantsLeft s := grantsLeft_arbiterStep ht
    omega
  | succ n ih =>
    unfold arbiterLoop
    split
    · have := grantsLeft_arbiterStep ‹_›
      exact ih (by omega)
    · assumption

theorem grantsLeft_le (h : s.watch.pending.length ≤ 32) : grantsLeft s ≤ 36 := by
  have hcard : (freeConverters s).card ≤ 4 := Finset.card_le_univ _
  unfold grantsLeft
  omega

/-- R20: where the converter arbiter has nothing to grant, no converter is free or nothing waits for one. -/
theorem arbiterStep_none (hr : arbitersRun s = true) (h : arbiterStep s = none) :
    firstFree s = none ∨ s.watch.pending = [] ∧ firstWork s = none := by
  unfold arbiterStep at h
  rw [if_pos hr] at h
  split at h
  · exact .inl ‹_›
  · split at h
    · cases h
    · split at h
      · cases h
      · split at h
        · cases h
        · exact .inr ⟨‹_›, ‹_›⟩

/-- R22: no work is ready where no context has an item that may start or a trial that waits. -/
theorem nothingWaits_of_firstWork_none (h : firstWork s = none) {k : CtxId} {c : Context} (hk : s.contexts[k] = some c)
    (ha : c.state = .active) :
    (∀ b, c.request.body = .measure b → ∀ (i : Nat) (e : ItemEntry), c.items[i]? = some e →
        itemMayStart c.items i e = false)
      ∧ ∀ (b : TrimBody) (q : Search), c.request.body = .trim b → c.search = some q → q.job ≠ .notStarted := by
  have hnone := firstWork_none.1 h k
  refine ⟨fun b hb i e he => itemMayStart_of_firstReadyItem_none ?_ he, fun b q hb hq hj => ?_⟩
  · refine Option.eq_none_iff_forall_ne_some.2 fun j hj => ?_
    obtain ⟨f, hf⟩ := firstReadyItem_some.1 hj
    exact hnone (.item k j) ⟨c, hk, ha, .inl ⟨b, j, f, hb, rfl, hf⟩⟩
  · exact hnone (.trial k) ⟨c, hk, ha, .inr ⟨b, q, hb, rfl, hq, hj⟩⟩

/-- R20, R118: after the arbiters of an event the converter arbiter has nothing left to grant. -/
theorem runArbiters_done (h : s.watch.pending.length ≤ 32) : arbiterStep (runArbiters s) = none :=
  arbiterLoop_ends 36 (grantsLeft_le ((settleClaims_arbitrated 17 s).watchPending.length_le.trans h))

theorem arbitersRun_runArbiters (s : State) : arbitersRun (runArbiters s) = arbitersRun s := by
  unfold arbitersRun runArbiters
  rw [arbiterLoop_engine, settleClaims_engine]

/-! ### The obligation, rule by rule -/

/-- R20 to R22: what an event leaves without a converter. -/
theorem finish_nothingWaits (hr : s.engine.state = .running ∨ s.engine.state = .stopping)
    (hp : s.watch.pending.length ≤ 32) :
    (∀ v : ConvId, (finish s).converters[v].free = false)
      ∨ ((finish s).watch.pending = [] ∧ ∀ (k : CtxId) (c : Context), (finish s).contexts[k] = some c →
          c.state = .active →
          (∀ b, c.request.body = .measure b → ∀ (i : Nat) (e : ItemEntry), c.items[i]? = some e →
              itemMayStart c.items i e = false)
            ∧ ∀ (b : TrimBody) (q : Search), c.request.body = .trim b → c.search = some q → q.job ≠ .notStarted) := by
  obtain ⟨hconv, hctx, -, hwatch⟩ := finish_afterArbiters s
  rw [hconv, hctx, hwatch]
  have hruns : arbitersRun (runArbiters s) = true := by rw [arbitersRun_runArbiters, arbitersRun_iff.2 hr]
  refine (arbiterStep_none hruns (runArbiters_done hp)).imp firstFree_none.1 ?_
  exact fun ⟨hpend, hwork⟩ => ⟨hpend, fun k c hk ha => nothingWaits_of_firstWork_none hwork hk ha⟩

/-- R47: what a grant pass does. -/
theorem grantPass_order (hr : arbitersRun s = true) : ∃ order : List CtxId, grantPass s = order.foldl tryGrant s
    ∧ order.Nodup ∧ (∀ k : CtxId, k ∈ order ↔ ∃ c, s.contexts[k] = some c ∧ c.state = .claiming)
    ∧ order.Pairwise (fun k l => ∀ c d : Context, s.contexts[k] = some c → s.contexts[l] = some d →
        c.admission ≤ d.admission) :=
  ⟨_, if_pos hr, grantOrder s⟩

/-- R21: the grants of the converter arbiter in order of preference. -/
theorem arbiterStep_grants {v : ConvId} (hr : arbitersRun s = true) (hv : firstFree s = some v) :
    (∀ id rest, s.watch.promoted = true → s.watch.pending = id :: rest → arbiterStep s = some (offerWatch v id s))
      ∧ (∀ w, (s.watch.promoted = false ∨ s.watch.pending = []) → firstWork s = some w →
          arbiterStep s = some (dispatchWork v w s))
      ∧ (∀ id rest, s.watch.promoted = false → s.watch.pending = id :: rest → firstWork s = none →
          arbiterStep s = some (offerWatch v id s))
      ∧ (s.watch.pending = [] → firstWork s = none → arbiterStep s = none) := by
  unfold arbiterStep
  rw [if_pos hr, hv]
  refine ⟨fun id rest hpro hpend => ?_, fun w hpro hw => ?_, fun id rest hpro hpend hw => ?_, fun hpend hw => ?_⟩
  · simp only [hpro, hpend]
  · rcases hpro with hpro | hpend
    · simp only [hpro, hw]
    · cases s.watch.promoted <;> simp only [hpend, hw]
  · simp only [hpro, hpend, hw]
  · cases s.watch.promoted <;> simp only [hpend, hw]

theorem arbiterStep_idle (h : arbitersRun s = false ∨ firstFree s = none) : arbiterStep s = none := by
  unfold arbiterStep
  rcases h with hr | hv
  · rw [hr]
    rfl
  · rw [hv]
    exact ite_self none

/-- R47 to R49: the grant of one context. -/
theorem tryGrant_grants {k : CtxId} {c : Context} (hk : s.contexts[k] = some c) (hg : grantable s c = true) :
    tryGrant s k = grant k c s
      ∧ (∀ b, c.request.body = .measure b → (∀ ch ∈ c.claimSet, s.channels[ch].ready = true) →
          tryGrant s k = { s with
            channels := (holdClaims k c.claimSet s).channels
            contexts := s.contexts.set k (some { c with state := .active }) })
      ∧ (∀ ch : Chan, (∀ b, c.request.body ≠ .channelSet b) → firstOff s c.claimSet = some ch →
          tryGrant s k = { s with
            channels := (releaseClaims k (holdClaims k c.claimSet s)).channels
            contexts := s.contexts.set k (some { c with
              state := .posting, result := some (.channelOff, .channel ch) }) })
      ∧ ∀ b, c.request.body = .channelSet b → tryGrant s k = execChannelSet k b (holdClaims k c.claimSet s) := by
  have heq : tryGrant s k = grant k c s := by rw [tryGrant_eq hk, if_pos hg]
  rw [heq]
  exact ⟨rfl, fun b hb hready => grant_measure hk hb (firstOff_none.2 hready), fun ch hb hoff => grant_off hk hb hoff,
    fun b hb => grant_channelSet hb⟩

/-- Settles O49. -/
theorem arbiterLeavesNothingGrantable : Obligations.ArbiterLeavesNothingGrantable := by
  unfold Obligations.ArbiterLeavesNothingGrantable
  intro runs
  refine ⟨itemReady_iff, itemMayStart_iff, Converter.free_iff, fun s hr hp => finish_nothingWaits hr hp,
    fun s => ⟨fun hr => ?_, fun hr => grantPass_order (arbitersRun_iff.2 hr), fun _ honline => ?_⟩,
    fun s k c hk => ?_, fun s v hr hv hlow => ?_, fun s hidle => ?_, fun s k c hk ha => ?_, fun s => ?_,
    fun s v e he => ?_⟩
  · exact if_neg fun h => hr (arbitersRun_iff.1 h)
  · rw [finish, runArbiters, settleClaims_online honline]
  · intro older held
    refine ⟨fun hnot => ?_, fun ha hfree hold => ?_⟩
    · have hg : ¬grantable s c = true := by
        rw [grantable_iff, ← Bool.not_eq_true, olderWaits_iff]
        rintro ⟨ha, hfree, hold⟩
        rcases hnot with h | ⟨ch, hch, h⟩ | h
        · exact h ha
        · exact h (hfree ch hch)
        · exact hold h
      rw [tryGrant_eq hk, if_neg hg]
    · have hg : grantable s c = true := (grantable_iff s c).2
        ⟨ha, hfree, Bool.eq_false_iff.2 fun h => hold ((olderWaits_iff s c).1 h)⟩
      obtain ⟨hgrant, hmeasure, hoff, hset⟩ := tryGrant_grants hk hg
      refine ⟨hgrant, fun b hb hready => ?_, fun ch hb hch hchOff hsorted hlow => ?_, fun b hb =>
        ⟨hset b hb, holdClaims_get s k c.claimSet⟩⟩
      · rw [hmeasure b hb hready]
        exact ⟨rfl, holdClaims_get s k c.claimSet⟩
      · have hbody : ∀ b, c.request.body ≠ .channelSet b := fun b hset => by
          rcases hb with ⟨_, hb⟩ | ⟨_, hb⟩ <;> rw [hset] at hb <;> cases hb
        rw [hoff ch hbody (firstOff_eq hsorted hch hchOff hlow)]
        refine ⟨rfl, fun d => ?_⟩
        exact (releaseClaims_releasedBy _ k d).trans (congrArg _ (holdClaims_get s k c.claimSet d))
  · intro ready oldest
    obtain ⟨hpromoted, hwork, hpending, hnone⟩ := arbiterStep_grants (arbitersRun_iff.2 hr) (firstFree_eq hv hlow)
    exact ⟨hpromoted, fun k w hpro hw hold => hwork w hpro (firstWork_eq hw hold),
      fun id rest hpro hpend hw => hpending id rest hpro hpend (firstWork_none.2 hw),
      fun hpend hw => hnone hpend (firstWork_none.2 hw)⟩
  · refine arbiterStep_idle (hidle.imp (fun hr => ?_) firstFree_none.2)
    exact Bool.eq_false_iff.2 fun h => hr (arbitersRun_iff.1 h)
  · exact ⟨fun b hb => contextNoConverter_measure hk ha hb, fun b q hb hq hj => contextNoConverter_trim hk ha hb hq hj⟩
  · refine ⟨noConverterEnds_online, fun hoff => ?_⟩
    obtain ⟨-, -, -, hends⟩ := noConverterEnds_none s (onlineCount_zero hoff)
    obtain ⟨hready, hpend, hwatch⟩ := finish_none s hoff
    exact ⟨fun hn => ⟨byAdmission s, hends hn, byAdmission_order s⟩, hwatch, hpend, hready⟩
  · intro claimed
    have hclaim : watchClaimGranted s e.ch = true ↔ ¬claimed := watchClaimGranted_iff s e.ch
    refine ⟨fun hc => ?_, fun hc => ?_⟩
    · rw [offerWatch_eq he, if_neg fun h => hclaim.1 h hc, skipPending_eq]
    · have heq : offerWatch v e.id s = dispatchWatch v e s := by rw [offerWatch_eq he, if_pos (hclaim.2 hc)]
      rw [heq]
      obtain ⟨hchan, hwatch, hjob⟩ := dispatchWatch_writes v e s
      exact ⟨rfl, hchan, hwatch, _, hjob, rfl, rfl, rfl, rfl, rfl, rfl⟩

end Sys2Proof.Machine
end

section
/-! SUPPORT. ProfileSetExecutes: what the checks of R32 accept, and what the writes of R33 leave in each entry. -/

namespace Sys2Proof.Machine

variable {s : State}

/-! ### The checks (R32) -/

/-- R67: an order of checks answers nothing exactly when none of them fails. -/
theorem firstFailure_none {checks : List (Bool × Nat × Nat)} :
    firstFailure checks = none ↔ ∀ x ∈ checks, x.1 = false := by
  simp [firstFailure]

theorem countInRange_iff (n : Nat) : countInRange n = true ↔ 2 ≤ n ∧ n ≤ 16 := by simp [countInRange]

theorem mem_profileChecks {b : ProfileSetBody} {i : Nat} {p : Profile} (hi : i < 16) (hp : b.profiles[i]? = some p) :
    (b.mask.getLsbD i && !countInRange p.high, 48, i) ∈ profileChecks b
      ∧ (b.mask.getLsbD i && !countInRange p.low, 49, i) ∈ profileChecks b := by
  have hmem : (i, p) ∈ (List.range 16).zip b.profiles :=
    List.mem_of_getElem? (i := i) (by simp [List.getElem?_zip_eq_some, hi, hp])
  constructor <;> exact List.mem_flatten.2 ⟨_, List.mem_map_of_mem hmem, by simp⟩

theorem mem_hopEntryChecks {b : ProfileSetBody} {i x : Nat} (hi : i < 24)
    (hx : (b.hopEntries.take b.hopLength)[i]? = some x) :
    (b.hopWrite && !decide (x < 16), 52, i) ∈ hopEntryChecks b := by
  have hmem : (i, x) ∈ (List.range 24).zip (b.hopEntries.take b.hopLength) :=
    List.mem_of_getElem? (i := i) (by simp [List.getElem?_zip_eq_some, hi, hx])
  exact List.mem_map_of_mem hmem

/-- R32: what a PROFILE_SET body that passes its checks holds. -/
structure ProfileSetBody.Accepted (b : ProfileSetBody) : Prop where
  profile : ∀ (i : Nat) (p : Profile), i < 16 → b.mask.getLsbD i = true → b.profiles[i]? = some p → p.Legal
  hopSet : b.hopWrite = true → 1 ≤ b.hopSet ∧ b.hopSet ≤ 7
  hopLength : b.hopWrite = true → 1 ≤ b.hopLength ∧ b.hopLength ≤ 24
  hopEntry : b.hopWrite = true → ∀ x ∈ b.hopEntries.take b.hopLength, x < 16

theorem ProfileSetBody.accepted_of_check {b : ProfileSetBody} (h : b.check = none) : b.Accepted := by
  have hpass : ∀ x ∈ profileChecks b ++ [(b.hopWrite && !(1 ≤ b.hopSet && b.hopSet ≤ 7), 50, 0),
      (b.hopWrite && !(1 ≤ b.hopLength && b.hopLength ≤ 24), 51, 0)] ++ hopEntryChecks b, x.1 = false :=
    firstFailure_none.1 h
  simp only [List.forall_mem_append, List.forall_mem_cons] at hpass
  obtain ⟨⟨hprofiles, hset, hlength, -⟩, hentries⟩ := hpass
  have hlen : b.hopWrite = true → 1 ≤ b.hopLength ∧ b.hopLength ≤ 24 := fun hw => by simpa [hw] using hlength
  refine ⟨fun i p hi hm hp => ?_, fun hw => by simpa [hw] using hset, hlen, fun hw x hx => ?_⟩
  · obtain ⟨hhigh, hlow⟩ := mem_profileChecks hi hp
    have hh : countInRange p.high = true := by simpa [hm] using hprofiles _ hhigh
    have hl : countInRange p.low = true := by simpa [hm] using hprofiles _ hlow
    obtain ⟨hh1, hh2⟩ := (countInRange_iff _).1 hh
    exact ⟨hh1, hh2, (countInRange_iff _).1 hl⟩
  · obtain ⟨i, hi⟩ := List.mem_iff_getElem?.1 hx
    have hi24 : i < 24 := by
      have hlt := (List.getElem?_eq_some_iff.1 hi).1
      rw [List.length_take] at hlt
      have := (hlen hw).2
      omega
    simpa [hw] using hentries _ (mem_hopEntryChecks hi24 hi)

/-! ### The writes (R33) -/

/-- R33: a PROFILE_SET touches the two tables and its own context. -/
theorem execProfileSet_eq (k : CtxId) (b : ProfileSetBody) (s : State) :
    execProfileSet k b s = { s with
      profiles := s.profiles.mapIdx b.newProfile
      hopSets := if b.hopWrite then s.hopSets.set (Fin.ofNat 8 b.hopSet) b.newHopSet else s.hopSets
      contexts := (completeContext k .success (.profiles b.mask (if b.hopWrite then b.hopSet else 0)) s).contexts } := by
  unfold execProfileSet
  cases b.hopWrite <;> rfl

theorem execProfileSet_profile (k : CtxId) (b : ProfileSetBody) (s : State) (p : ProfileIx) :
    (execProfileSet k b s).profiles[p] = b.newProfile p.val s.profiles[p] := by
  rw [execProfileSet_eq]
  exact Vector.getElem_mapIdx _

theorem execProfileSet_hopSet {b : ProfileSetBody} (hb : b.Accepted) (k : CtxId) (s : State) (h : HopIx) :
    (execProfileSet k b s).hopSets[h] =
      if b.hopWrite = true ∧ h.val = b.hopSet then b.newHopSet else s.hopSets[h] := by
  rw [execProfileSet_eq]
  cases hw : b.hopWrite with
  | false => simp
  | true =>
    have hval : (Fin.ofNat 8 b.hopSet).val = b.hopSet := Nat.mod_eq_of_lt (by have := (hb.hopSet hw).2; omega)
    simp only [if_true, true_and, Fin.getElem_fin, Vector.getElem_set, hval, eq_comm]

theorem ProfileSetBody.newProfile_eq {b : ProfileSetBody} (hl : b.profiles.length = 16) (p : ProfileIx) (old : Profile) :
    some (b.newProfile p.val old) = if b.mask.getLsbD p.val then b.profiles[p.val]? else some old := by
  unfold ProfileSetBody.newProfile
  split
  · simp [List.getD_eq_getElem?_getD, hl]
  · rfl

theorem ProfileSetBody.newHopSet_val {b : ProfileSetBody} (hb : b.Accepted) (hw : b.hopWrite = true) :
    b.newHopSet.map Fin.val = b.hopEntries.take b.hopLength := by
  rw [ProfileSetBody.newHopSet, List.map_map]
  exact (List.map_congr_left fun x hx => Nat.mod_eq_of_lt (hb.hopEntry hw x hx)).trans (List.map_id _)

/-- Settles O42. -/
theorem profileSetExecutes : Obligations.ProfileSetExecutes := by
  intro s k c b hk hcheck hprofiles _
  have hb := ProfileSetBody.accepted_of_check hcheck
  refine ⟨fun p => ?_, fun h => ⟨fun hset => ?_, fun hother => ?_⟩, ?_, fun l hl => ?_, ?_⟩
  · rw [execProfileSet_profile, b.newProfile_eq hprofiles]
  · rw [execProfileSet_hopSet hb, if_pos hset, b.newHopSet_val hb hset.1]
  · rw [execProfileSet_hopSet hb, if_neg]
    rintro ⟨hw, hh⟩
    exact hother.elim (Bool.eq_false_iff.1 · hw) (· hh)
  · rw [execProfileSet_eq]
    exact modCtx_self hk _
  · rw [execProfileSet_eq]
    exact modCtx_other hl _
  · rw [execProfileSet_eq]

end Sys2Proof.Machine
end

section
/-! SUPPORT. ProfileTableStaysLegal: every operation but the admission of a record leaves the Profile Table alone and brings
no record into a queue's held place; a record is admitted in RUNNING alone, and its checks keep the table legal. -/

namespace Sys2Proof.Machine

variable {o s t : State}

/-! ### What leaves the Profile Table alone -/

/-- `s` has the Profile Table of `o` and no held record that `o` has not. -/
structure ProfileTableKept (o s : State) : Prop where
  profiles : s.profiles = o.profiles
  hopSets : s.hopSets = o.hopSets
  held : ∀ (q : QueueId) (r : Request), (s.queues[q]).held = some r → (o.queues[q]).held = some r

namespace ProfileTableKept

theorem refl (s : State) : ProfileTableKept s s := ⟨rfl, rfl, fun _ _ h => h⟩

/-- An operation that writes none of the three tables. -/
theorem congr (h : ProfileTableKept o s) (ht : (t.profiles, t.hopSets, t.queues) = (s.profiles, s.hopSets, s.queues)) :
    ProfileTableKept o t := by
  simp only [Prod.mk.injEq] at ht
  obtain ⟨hprofiles, hhop, hqueues⟩ := ht
  exact ⟨hprofiles.trans h.profiles, hhop.trans h.hopSets, fun q r hr => h.held q r (by rwa [hqueues] at hr)⟩

/-- An operation that empties every held place. -/
theorem noneHeld (h : ProfileTableKept o s) (ht : (t.profiles, t.hopSets) = (s.profiles, s.hopSets))
    (hn : ∀ q : QueueId, (t.queues[q]).held = none) : ProfileTableKept o t := by
  simp only [Prod.mk.injEq] at ht
  obtain ⟨hprofiles, hhop⟩ := ht
  exact ⟨hprofiles.trans h.profiles, hhop.trans h.hopSets, fun q r hr => by rw [hn] at hr; cases hr⟩

theorem modQueue (h : ProfileTableKept o s) (q : QueueId) (f : Queue → Queue)
    (hf : ∀ d, (f d).held = none ∨ (f d).held = d.held) : ProfileTableKept o (s.modQueue q f) := by
  refine ⟨h.profiles, h.hopSets, fun d r hr => h.held d r ?_⟩
  rw [modQueue_get] at hr
  split at hr
  · subst d
    rcases hf s.queues[q] with hq | hq <;> rw [hq] at hr
    · cases hr
    · exact hr
  · exact hr

theorem foldl {α : Type} {f : State → α → State}
    (hf : ∀ t x, ProfileTableKept o t → ProfileTableKept o (f t x)) (l : List α) (h : ProfileTableKept o s) :
    ProfileTableKept o (l.foldl f s) := by
  induction l generalizing s with
  | nil => exact h
  | cons x l ih => exact ih (hf s x h)

theorem worked (h : ProfileTableKept o s) (w : Worked s t) : ProfileTableKept o t :=
  ⟨w.profiles.trans h.profiles, w.hopSets.trans h.hopSets, fun q r hr => h.held q r (by rwa [w.queue q] at hr)⟩

theorem finish (h : ProfileTableKept o s) : ProfileTableKept o (finish s) := h.worked finish_worked

theorem raise (r : Report) (h : ProfileTableKept o s) : ProfileTableKept o (raise r s) := h.worked (raise_worked r)

theorem ownerTold (h : ProfileTableKept o s) (w : OwnerTold s t) : ProfileTableKept o t := by
  rcases w with ⟨k, w⟩ | w
  · exact h.congr (by rw [w.frame])
  · exact h.congr (by rw [w])

/-- R25, R27: legality reads nothing else. -/
theorem legal (h : ProfileTableKept o s) (ho : o.ProfilesLegal) : s.ProfilesLegal := by
  obtain ⟨hprofile, hlength, hzero, hheld⟩ := ho
  exact ⟨by rw [h.profiles]; exact hprofile, by rw [h.hopSets]; exact hlength, by rw [h.hopSets]; exact hzero,
    fun q r b hq => hheld q r b (h.held q r hq)⟩

end ProfileTableKept

/-! ### The Engine Command writes (R173 to R184) -/

theorem setEndCause_tableKept (cause : EndCause) (k : CtxId) (h : ProfileTableKept o s) :
    ProfileTableKept o (setEndCause cause k s) := by
  cases hk : s.contexts[k] with
  | none =>
    rw [setEndCause, hk]
    exact h
  | some c => exact h.congr (by rw [(setEndCause_taken hk cause).frame])

theorem setEndCauses_tableKept (cause : EndCause) (l : List CtxId) (h : ProfileTableKept o s) :
    ProfileTableKept o (l.foldl (fun t k => setEndCause cause k t) s) :=
  .foldl (fun _ k => setEndCause_tableKept cause k) l h

theorem unconfigureRings_tableKept (h : ProfileTableKept o s) : ProfileTableKept o (unconfigureRings s) :=
  h.noneHeld rfl fun q => by simp [unconfigureRings, Queue.unconfigured]

theorem startCommand_tableKept (h : ProfileTableKept o s) : ProfileTableKept o (startCommand s) := by
  unfold startCommand
  split
  · exact (unconfigureRings_tableKept h).congr rfl
  · exact h.congr rfl

theorem beginStop_tableKept (mode : StopMode) (h : ProfileTableKept o s) : ProfileTableKept o (beginStop mode s) :=
  h.noneHeld rfl fun q => by simp [beginStop]

theorem stopDrainCommand_tableKept (h : ProfileTableKept o s) : ProfileTableKept o (stopDrainCommand s) := by
  unfold stopDrainCommand
  split
  · exact .finish (beginStop_tableKept .drain h)
  all_goals exact h.congr rfl

theorem stopCutCommand_tableKept (h : ProfileTableKept o s) : ProfileTableKept o (stopCutCommand s) := by
  unfold stopCutCommand
  split
  · exact .finish (setEndCauses_tableKept .stopped _ (beginStop_tableKept .cut h))
  · split
    · exact h
    · exact .finish (setEndCauses_tableKept .stopped _ (h.congr rfl))
  · exact .finish (h.congr rfl)
  all_goals exact h.congr rfl

theorem restoreForClear_tableKept (k : CtxId) (h : ProfileTableKept o s) : ProfileTableKept o (restoreForClear s k) := by
  unfold restoreForClear
  split
  · split
    · exact h.congr rfl
    · exact h
  · exact h

theorem clearCommand_tableKept (h : ProfileTableKept o s) : ProfileTableKept o (clearCommand s) := by
  have hrestored : ProfileTableKept o (allContexts.foldl restoreForClear s) :=
    .foldl (fun _ k => restoreForClear_tableKept k) allContexts h
  unfold clearCommand
  generalize allContexts.foldl restoreForClear s = r at hrestored
  exact (unconfigureRings_tableKept hrestored).congr rfl

theorem engineCommandWrite_tableKept (word : Reg) (h : ProfileTableKept o s) :
    ProfileTableKept o (engineCommandWrite word s) := by
  unfold engineCommandWrite
  split
  · exact startCommand_tableKept h
  · exact stopDrainCommand_tableKept h
  · exact stopCutCommand_tableKept h
  · exact clearCommand_tableKept h
  · exact h.congr rfl

/-! ### The register writes and the timers -/

theorem faultQueue_tableKept (q : QueueId) (reason : QueueFaultReason) (tail : Nat) (h : ProfileTableKept o s) :
    ProfileTableKept o (faultQueue q reason tail s) :=
  .raise _ (h.modQueue q _ fun _ => .inr rfl)

theorem submitWrite_tableKept (word : Reg) (h : ProfileTableKept o s) : ProfileTableKept o (submitWrite word s) := by
  unfold submitWrite
  dsimp only
  split
  · exact h.congr rfl
  · split
    · exact .finish (faultQueue_tableKept _ _ _ h)
    · exact .finish (h.modQueue _ _ fun _ => .inr rfl)

theorem releaseWrite_tableKept (word : Reg) (h : ProfileTableKept o s) : ProfileTableKept o (releaseWrite word s) := by
  unfold releaseWrite
  dsimp only
  split
  · exact h.congr rfl
  · exact .finish (h.congr rfl)

theorem windowWrite_tableKept (offset word : Reg) (h : ProfileTableKept o s) :
    ProfileTableKept o (windowWrite offset word s) := by
  unfold windowWrite
  split
  · exact h.congr rfl
  · split
    · exact engineCommandWrite_tableKept word h
    · split
      · exact submitWrite_tableKept word h
      · split
        · exact releaseWrite_tableKept word h
        · split
          · exact h.congr rfl
          · exact h

theorem overrunRound_tableKept (h : ProfileTableKept o s) : ProfileTableKept o (overrunRound s) := by
  unfold overrunRound
  dsimp only
  split
  · exact h.congr rfl
  · exact .raise _ (h.congr rfl)

theorem periodExpiry_tableKept (h : ProfileTableKept o s) : ProfileTableKept o (periodExpiry s) := by
  unfold periodExpiry
  split
  · exact h
  · dsimp only
    split
    · exact .finish ((overrunRound_tableKept h).congr rfl)
    · exact .finish (h.congr rfl)

theorem coalescingExpiry_tableKept (h : ProfileTableKept o s) : ProfileTableKept o (coalescingExpiry s) := by
  unfold coalescingExpiry
  split
  · exact h
  · exact h.congr rfl

/-! ### The ends that take no record -/

theorem startupChecks_tableKept (h : ProfileTableKept o s) : ProfileTableKept o (startupChecks s) := by
  have hchecks : ProfileTableKept o ((startupConverters s).foldl (fun t c => startCheck c .engineControl t) s) :=
    .foldl (fun _ c ht => ht.worked (startCheck_worked c _)) _ h
  have hleft := hchecks.congr (t := State.modEngine (fun e => { e with startupLeft := startupConverters s }) _) rfl
  unfold startupChecks
  dsimp only
  split
  · exact (hleft.raise .noConverter).congr rfl
  · exact hleft

theorem takeUp_tableKept (b : SetupBlock) (h : ProfileTableKept o s) : ProfileTableKept o (takeUp b s) := by
  refine h.noneHeld rfl fun q => ?_
  have hq : (takeUp b s).queues[q] = b.descriptor q.val := Vector.getElem_mapIdx _
  rw [hq, SetupBlock.descriptor]
  split <;> rfl

theorem endSetup_tableKept (how : ReadEnd) (h : ProfileTableKept o s) : ProfileTableKept o (endSetup how s) := by
  unfold endSetup
  split
  · exact h.congr rfl
  · split
    · exact h.congr rfl
    · exact startupChecks_tableKept ((takeUp_tableKept _ h).congr rfl)

theorem setupReadEnd_tableKept (k : Nat) (how : ReadEnd) (h : ProfileTableKept o s) :
    ProfileTableKept o (setupReadEnd k how s) := by
  unfold setupReadEnd
  split
  · exact h
  · split
    · dsimp only
      split
      · exact h.congr rfl
      · exact .finish (endSetup_tableKept how (h.congr rfl))
    · exact h

theorem endListing_tableKept (k : CtxId) (b : MeasureBody) (how : ReadEnd) (h : ProfileTableKept o s) :
    ProfileTableKept o (endListing k b how s) := by
  unfold endListing
  split
  · exact h.congr rfl
  · split <;> exact h.congr rfl

theorem listReadEnd_tableKept (k : Nat) (how : ReadEnd) (h : ProfileTableKept o s) :
    ProfileTableKept o (listReadEnd k how s) := by
  unfold listReadEnd
  split
  · exact h
  · split
    · dsimp only
      split
      · exact h.congr rfl
      · split
        · exact h.congr rfl
        · split
          · exact .finish (endListing_tableKept _ _ how (h.congr rfl))
          · exact h.congr rfl
    · exact h

theorem resultWriteEnd_tableKept (k : Nat) (how : WriteEnd) (h : ProfileTableKept o s) :
    ProfileTableKept o (resultWriteEnd k how s) := by
  unfold resultWriteEnd
  split
  · exact h
  · dsimp only
    split
    · exact h.congr rfl
    · exact .finish (h.congr rfl)

theorem dischargeEnd_tableKept (c : ConvId) (h : ProfileTableKept o s) : ProfileTableKept o (dischargeEnd c s) := by
  unfold dischargeEnd
  split
  · rename_i j _ _
    have hrelease : Worked (handOver j s) (releaseConverter c (handOver j s)) :=
      (Worked.ofModConv c _).trans (resolveMark_worked c)
    exact (h.ownerTold (handOver_ownerTold j s)).worked (hrelease.trans (finishJobEnd_arbitrated j _).worked)
  · exact h

/-! ### The requests that leave the Profile Table alone (R59) -/

theorem beginMeasure_tableKept (k : CtxId) (b : MeasureBody) (external : Bool) (h : ProfileTableKept o s) :
    ProfileTableKept o (beginMeasure k b external s) := by
  unfold beginMeasure
  split
  · exact h.congr rfl
  · split <;> exact h.congr rfl

theorem execWatchAdd_tableKept (k : CtxId) (b : WatchAddBody) (h : ProfileTableKept o s) :
    ProfileTableKept o (execWatchAdd k b s) := by
  unfold execWatchAdd
  dsimp only
  split
  · exact h.congr rfl
  · split
    · exact h.congr rfl
    · split
      · exact h.congr rfl
      · split <;> exact h.congr rfl

theorem execWatchRemove_tableKept (k : CtxId) (id : WatchId) (h : ProfileTableKept o s) :
    ProfileTableKept o (execWatchRemove k id s) := by
  unfold execWatchRemove
  split <;> exact h.congr rfl

theorem execWatchQuery_tableKept (k : CtxId) (c : Context) (h : ProfileTableKept o s) :
    ProfileTableKept o (execWatchQuery k c s) := by
  unfold execWatchQuery
  dsimp only
  split
  · exact h.congr rfl
  · exact h.worked (enterWriting_worked k _ _ _ _)

theorem execHold_tableKept (c : ConvId) (k : CtxId) (h : ProfileTableKept o s) :
    ProfileTableKept o (execHold c k s) := by
  unfold execHold
  split
  · exact (h.worked (changeConvState_worked c .held)).congr rfl
  · exact (h.worked (changeConvState_worked c .held)).congr rfl
  all_goals exact h.congr rfl

theorem execRelease_tableKept (c : ConvId) (k : CtxId) (h : ProfileTableKept o s) :
    ProfileTableKept o (execRelease c k s) := by
  unfold execRelease
  split <;> exact h.congr rfl

theorem execCheck_tableKept (c : ConvId) (k : CtxId) (h : ProfileTableKept o s) :
    ProfileTableKept o (execCheck c k s) := by
  unfold execCheck
  split <;> exact h.congr rfl

theorem execConverterSet_tableKept (k : CtxId) (c : ConvId) (action : ConvAction) (h : ProfileTableKept o s) :
    ProfileTableKept o (execConverterSet k c action s) := by
  unfold execConverterSet
  dsimp only
  split
  · exact h.congr rfl
  · split
    · exact execHold_tableKept c k (h.congr rfl)
    · exact execRelease_tableKept c k (h.congr rfl)
    · exact execCheck_tableKept c k (h.congr rfl)

theorem execAbort_tableKept (k : CtxId) (queue : QueueId) (scope tag : Nat) (h : ProfileTableKept o s) :
    ProfileTableKept o (execAbort k queue scope tag s) := by
  unfold execAbort
  split
  · unfold execAbortOne
    split
    · exact h.congr rfl
    · split
      · exact h.congr rfl
      · split
        · exact h.congr rfl
        · exact (setEndCause_tableKept .aborted _ h).congr rfl
  · unfold execAbortAll
    dsimp only
    split
    · exact h.congr rfl
    · exact (setEndCauses_tableKept .aborted _ h).congr rfl

/-- R35: PROFILE_SET is the only request that writes the Profile Table. -/
theorem beginPath_tableKept (k : CtxId) {c : Context} (hc : ∀ b, c.request.body ≠ .profileSet b)
    (h : ProfileTableKept o s) : ProfileTableKept o (beginPath k c s) := by
  unfold beginPath
  split
  · exact beginMeasure_tableKept _ _ _ h
  · exact h.congr rfl
  · exact h.congr rfl
  · exact absurd ‹_› (hc _)
  · exact execWatchAdd_tableKept _ _ h
  · exact execWatchRemove_tableKept _ _ h
  · exact execWatchQuery_tableKept _ _ h
  · exact h.congr rfl
  · exact execConverterSet_tableKept _ _ _ h
  · exact execAbort_tableKept _ _ _ _ h
  · exact h.congr rfl

/-! ### The admission of a record (R32, R64) -/

/-- R32: a PROFILE_SET record has its 24 hop positions. -/
def Request.HopPositions (r : Request) : Prop := ∀ b, r.body = .profileSet b → b.hopEntries.length = 24

theorem Request.ofBytes_hopPositions (bs : List Byte) : (Request.ofBytes bs).HopPositions := by
  intro b hb
  have hbody : Body.ofBytes bs = .profileSet b := hb
  unfold Body.ofBytes at hbody
  split at hbody <;> cases hbody
  simp [ProfileSetBody.ofBytes]

theorem ProfileSetBody.newHopSet_length {b : ProfileSetBody} (hb : b.Accepted) (hw : b.hopWrite = true)
    (hl : b.hopEntries.length = 24) : b.newHopSet.length = b.hopLength := by
  have := (hb.hopLength hw).2
  rw [ProfileSetBody.newHopSet, List.length_map, List.length_take]
  omega

theorem ProfileSetBody.newProfile_legal {b : ProfileSetBody} (hb : b.Accepted) (p : ProfileIx) {old : Profile}
    (ho : old.Legal) : (b.newProfile p.val old).Legal := by
  unfold ProfileSetBody.newProfile
  split
  · rw [List.getD_eq_getElem?_getD]
    cases hp : b.profiles[p.val]? with
    | none => exact ho
    | some new => exact hb.profile _ new p.isLt ‹_› hp
  · exact ho

/-- R25, R27: the checks of a PROFILE_SET keep the table legal. -/
theorem execProfileSet_legal {b : ProfileSetBody} (hb : b.Accepted) (hl : b.hopEntries.length = 24) (k : CtxId)
    (hs : s.ProfilesLegal) : (execProfileSet k b s).ProfilesLegal := by
  obtain ⟨hprofile, hlength, hzero, hheld⟩ := hs
  refine ⟨fun p => ?_, fun h => ?_, ?_, ?_⟩
  · rw [execProfileSet_profile]
    exact b.newProfile_legal hb p (hprofile p)
  · rw [execProfileSet_hopSet hb]
    split
    · rename_i hset
      rw [b.newHopSet_length hb hset.1 hl]
      exact hb.hopLength hset.1
    · exact hlength h
  · rw [execProfileSet_hopSet hb, if_neg]
    · exact hzero
    · rintro ⟨hw, h0⟩
      have hpos := (hb.hopSet hw).1
      rw [← h0] at hpos
      exact absurd hpos (by decide)
  · rw [execProfileSet_eq]
    exact hheld

/-- R65, R67: an admission that fails no check fails no body check. -/
theorem bodyCheck_of_admitted {queue : QueueId} {r : Request} (h : admissionFailure s queue r = none) :
    r.bodyCheck = none := by
  unfold admissionFailure at h
  cases hc : r.bodyCheck with
  | none => rfl
  | some e =>
    rw [hc] at h
    split at h
    · cases h
    · split at h <;> cases h

theorem beginPath_legal {c : Context} (hcheck : c.request.bodyCheck = none) (hr : c.request.HopPositions) (k : CtxId)
    (hs : s.ProfilesLegal) : (beginPath k c s).ProfilesLegal := by
  by_cases hc : ∃ b, c.request.body = .profileSet b
  · obtain ⟨b, hb⟩ := hc
    have hpath : beginPath k c s = execProfileSet k b s := by rw [beginPath, hb]
    rw [Request.bodyCheck, hb] at hcheck
    rw [hpath]
    exact execProfileSet_legal (b.accepted_of_check hcheck) (hr b hb) k hs
  · exact (beginPath_tableKept k (fun b hb => hc ⟨b, hb⟩) (.refl s)).legal hs

theorem takeContext_tableKept (k : CtxId) (c : Context) (h : ProfileTableKept o s) :
    ProfileTableKept o (takeContext k c s) :=
  (h.modQueue c.queue (fun q => { q with inFlight := q.inFlight + 1 }) fun _ => .inr rfl).congr rfl

theorem admitRecord_legal {r : Request} (hr : r.HopPositions) (queue : QueueId) (hs : s.ProfilesLegal) :
    (admitRecord queue r s).ProfilesLegal := by
  unfold admitRecord
  split
  · exact hs
  · rename_i k _
    dsimp only
    split
    · exact ((takeContext_tableKept k _ (.refl s)).congr rfl).legal hs
    · exact beginPath_legal (bodyCheck_of_admitted ‹_›) hr k ((takeContext_tableKept k _ (.refl s)).legal hs)

/-- R70: a record that arrives becomes the held record, or is admitted. -/
theorem arrive_legal {r : Request} (hr : r.HopPositions) (queue : QueueId) (hs : s.ProfilesLegal) :
    (arrive queue r s).ProfilesLegal := by
  unfold arrive
  split
  · obtain ⟨hprofile, hlength, hzero, hheld⟩ := hs
    refine ⟨hprofile, hlength, hzero, fun q x b hx hb => ?_⟩
    rw [modQueue_get] at hx
    split at hx
    · cases hx
      exact hr b hb
    · exact hheld q x b hx hb
  · exact admitRecord_legal hr queue hs

/-! ### What a command does to the Profile Table -/

/-- R25, R27, R35: `s` has a legal Profile Table where `o` has one, and the table of `o` unless `o` is in RUNNING. -/
structure ProfileTableTaken (o s : State) : Prop where
  legal : o.ProfilesLegal → s.ProfilesLegal
  kept : o.engine.state ≠ .running → s.profiles = o.profiles ∧ s.hopSets = o.hopSets

namespace ProfileTableTaken

theorem ofKept (h : ProfileTableKept o s) : ProfileTableTaken o s := ⟨h.legal, fun _ => ⟨h.profiles, h.hopSets⟩⟩

theorem ofRunning (hr : o.engine.state = .running) (h : o.ProfilesLegal → s.ProfilesLegal) : ProfileTableTaken o s :=
  ⟨h, fun hn => absurd hr hn⟩

theorem finish (h : ProfileTableTaken o s) : ProfileTableTaken o (finish s) := by
  have hfinish := (ProfileTableKept.refl s).finish
  refine ⟨fun ho => hfinish.legal (h.legal ho), fun hn => ?_⟩
  rw [hfinish.profiles, hfinish.hopSets]
  exact h.kept hn

end ProfileTableTaken

theorem fetchOver_tableKept (r : FetchRead) (h : ProfileTableKept o s) : ProfileTableKept o (fetchOver r s) := by
  unfold fetchOver
  dsimp only
  split
  · exact (h.modQueue r.queue (fun q => { q with readOutstanding := false }) fun _ => .inr rfl).congr rfl
  · exact h.congr rfl

theorem takeRecord_legal (q : QueueId) (how : ReadEnd) (hs : s.ProfilesLegal) :
    (takeRecord q how s).ProfilesLegal := by
  unfold takeRecord
  split
  · exact arrive_legal (Request.ofBytes_hopPositions _) q
      (((ProfileTableKept.refl s).modQueue q Queue.advance fun _ => .inr rfl).legal hs)
  · exact (faultQueue_tableKept _ _ _ (.refl s)).legal hs

/-- R162, R163: a record is taken from a fetch read in RUNNING alone. -/
theorem fetchReadEnd_tableTaken (how : ReadEnd) (s : State) : ProfileTableTaken s (fetchReadEnd how s) := by
  unfold fetchReadEnd
  split
  · exact .ofKept (.refl s)
  · rename_i r _
    have hover := fetchOver_tableKept r (.refl s)
    split
    · dsimp only
      split
      · rename_i htaken
        obtain ⟨-, hrun, -⟩ := htaken
        exact .finish (.ofRunning hrun fun hs => takeRecord_legal _ how (hover.legal hs))
      · exact .ofKept hover.finish
    · exact .ofKept (.refl s)

/-- R70: a held record is admitted in RUNNING alone. -/
theorem admitHeld_tableTaken (queue : QueueId) (h : ProfileTableKept o s) (he : s.engine.state = o.engine.state) :
    ProfileTableTaken o (admitHeld queue s) := by
  unfold admitHeld
  split
  · rename_i r hheld
    split
    · rename_i hrun
      refine .ofRunning (he.symm.trans hrun.1) fun ho => ?_
      obtain ⟨-, -, -, hpositions⟩ := h.legal ho
      have hr : r.HopPositions := fun b => hpositions queue r b hheld
      exact admitRecord_legal hr queue ((h.modQueue queue _ fun _ => .inl rfl).legal ho)
    · exact .ofKept h
  · exact .ofKept h

theorem sourceDone_tableTaken (w : RingWrite) (h : ProfileTableKept o s) (he : s.engine.state = o.engine.state) :
    ProfileTableTaken o (sourceDone w s) := by
  unfold sourceDone
  split
  · unfold freeContext
    split
    · exact .ofKept (h.congr rfl)
    · rename_i k _ _ c _
      have hposted : ProfileTableKept o
          { s with posting := s.posting.erase (.context k), contexts := s.contexts.set k none } := h.congr rfl
      exact admitHeld_tableTaken c.queue (hposted.modQueue c.queue _ fun _ => .inr rfl) he
  · exact .ofKept (h.congr rfl)

theorem ringWriteEnd_tableTaken (how : WriteEnd) (s : State) : ProfileTableTaken s (ringWriteEnd how s) := by
  have hs := ProfileTableKept.refl s
  unfold ringWriteEnd
  split
  · exact .ofKept hs
  · split
    · exact .ofKept (.finish (hs.congr rfl))
    · split
      · exact .finish (sourceDone_tableTaken _ (hs.congr rfl) rfl)
      · exact .ofKept (hs.congr rfl)

/-- R35: every command but a device reset. -/
theorem commandEffect_tableTaken {i : Instr} (hi : i ≠ .deviceReset) (s : State) :
    ProfileTableTaken s (commandEffect i s) := by
  have hs := ProfileTableKept.refl s
  cases i with
  | deviceReset => exact absurd rfl hi
  | start => exact .ofKept (startCommand_tableKept hs)
  | stopDrain => exact .ofKept (stopDrainCommand_tableKept hs)
  | stopCut => exact .ofKept (stopCutCommand_tableKept hs)
  | clear => exact .ofKept (clearCommand_tableKept hs)
  | commandRefused word => exact .ofKept (engineCommandWrite_tableKept word hs)
  | submitIndex word => exact .ofKept (submitWrite_tableKept word hs)
  | releaseIndex word => exact .ofKept (releaseWrite_tableKept word hs)
  | interruptControl word => exact .ofKept (hs.congr rfl)
  | registerWrite offset word => exact .ofKept (windowWrite_tableKept offset word hs)
  | setupReadEnd k how => exact .ofKept (setupReadEnd_tableKept k how hs)
  | fetchReadEnd how => exact fetchReadEnd_tableTaken how s
  | listReadEnd k how => exact .ofKept (listReadEnd_tableKept k how hs)
  | resultWriteEnd k how => exact .ofKept (resultWriteEnd_tableKept k how hs)
  | completionRingWriteEnd how => exact ringWriteEnd_tableTaken how s
  | settleEnd c => exact .ofKept (hs.worked (settleEnd_worked c))
  | sampleEnd c outcome => exact .ofKept (hs.worked (sampleEnd_worked c outcome))
  | dischargeEnd c => exact .ofKept (dischargeEnd_tableKept c hs)
  | faultEvent c => exact .ofKept (hs.worked (faultEvent_worked c))
  | faultDischargeEnd c => exact .ofKept (hs.worked (faultDischargeEnd_worked c))
  | clearDischargeEnd c => exact .ofKept (hs.congr rfl)
  | periodTimerExpiry => exact .ofKept (periodExpiry_tableKept hs)
  | coalescingTimerExpiry => exact .ofKept (coalescingExpiry_tableKept hs)

/-- R173: the Profile Table after a device reset. -/
theorem deviceReset_legal (s : State) : (deviceReset s).ProfilesLegal := by
  have hprofile : ∀ p : ProfileIx, (deviceReset s).profiles[p] = Profile.atReset := fun p => by
    simp [deviceReset, State.reset]
  have hhop : ∀ h : HopIx, (deviceReset s).hopSets[h] = [0] := fun h => by simp [deviceReset, State.reset]
  have hheld : ∀ q : QueueId, ((deviceReset s).queues[q]).held = none := fun q => by
    simp [deviceReset, State.reset, Queue.unconfigured]
  refine ⟨fun p => ?_, fun h => ?_, hhop 0, fun q r b hq => ?_⟩
  · rw [hprofile p]
    exact ⟨by decide, by decide, by decide, by decide⟩
  · rw [hhop h]
    exact ⟨by decide, by decide⟩
  · rw [hheld q] at hq
    cases hq

/-- Settles O54. -/
theorem profileTableStaysLegal : Obligations.ProfileTableStaysLegal := by
  refine ⟨fun s t hs hstep => ?_, fun i s t hexec hi hn => ?_⟩
  · rcases step_cases hstep with rfl | ⟨i, rest, _, rfl⟩
    · exact hs
    · by_cases hi : i = .deviceReset
      · subst hi
        exact deviceReset_legal _
      · exact (commandEffect_tableTaken hi _).legal hs
  · rw [exec_eq] at hexec
    cases hexec
    exact (commandEffect_tableTaken hi s).kept hn

end Sys2Proof.Machine
end

section
/-! SUPPORT. ChannelSetExecutes: what a granted CHANNEL_SET leaves in its channel's entry, refused or not, and what its
completion reports (R54, R55, R57). -/

namespace Sys2Proof.Machine

variable {s : State} {k : CtxId} {b : ChannelSetBody} {e : Channel}

/-! ### The body against the entry (R54, R55) -/

/-- R54: a state code that is used and has passed its check is 0 or 1. -/
theorem ChannelSetBody.state_le_one (h : b.check = none) (hs : b.hasState = true) : b.state ≤ 1 := by
  have hcheck := firstFailure_none.1 h (b.hasState && !decide (b.state ≤ 1), 40, 0) (by simp)
  simpa [hs] using hcheck

/-- R55, step 1, with the state code of a checked body. -/
theorem ChannelSetBody.refusedBy_iff (h : b.check = none) :
    b.refusedBy e = true ↔ b.hasState = true ∧ b.state = 0 ∧ e.watchLink.isSome = true := by
  simp only [refusedBy, Bool.and_eq_true, bne_iff_ne, and_assoc]
  refine and_congr_right fun hs => and_congr_left' ?_
  have := state_le_one h hs
  omega

theorem parkOfCode_eq (n : Nat) : parkOfCode n = if n = 0 then .ground else if n = 1 then .float else .shield := by
  rcases n with _ | _ | n <;> simp [parkOfCode]

theorem compOfCode_eq (n : Nat) : compOfCode n = if n = 0 then .load else .gain := by
  cases n <;> simp [compOfCode]

theorem applyBaselineAction_eq (n value : Nat) (old : Option Nat) :
    applyBaselineAction n value old = if n = 0 then old else if n = 1 then none else some value := by
  rcases n with _ | _ | n <;> simp [applyBaselineAction]

/-- R55, R57: the status of a granted CHANNEL_SET, and its channel's entry before the claim is released. -/
def ChannelSetBody.outcome (b : ChannelSetBody) (e : Channel) : Status × Channel :=
  if b.refusedBy e then (.channelWatched, e) else (.success, b.apply e)

/-- R55: a CHANNEL_SET writes no claim holder. -/
theorem ChannelSetBody.outcome_holder : (b.outcome e).2.holder = e.holder := by
  unfold outcome
  split <;> rfl

/-! ### The execution (R55, R57) -/

theorem modChan_const_self (s : State) (ch : Chan) : (s.modChan ch fun _ => s.channels[ch]) = s := by
  simp [State.modChan]

/-- R55, R57: refused or not, the entry is settled, the claims are released and the entry is reported. -/
theorem execChannelSet_eq (k : CtxId) (b : ChannelSetBody) (s : State) :
    execChannelSet k b s =
      let ch : Chan := Fin.ofNat 64 b.channel
      let out := b.outcome s.channels[ch]
      completeContext k out.1 out.2.detail (releaseClaims k (s.modChan ch fun _ => out.2)) := by
  unfold execChannelSet ChannelSetBody.outcome
  dsimp only
  split
  · rw [modChan_const_self]
  · rfl

/-- R50, R55: the entries after a CHANNEL_SET. -/
theorem execChannelSet_channels (k : CtxId) (b : ChannelSetBody) (s : State) (d : Chan) :
    (execChannelSet k b s).channels[d] =
      (if d = Fin.ofNat 64 b.channel then (b.outcome s.channels[(Fin.ofNat 64 b.channel : Chan)]).2
        else s.channels[d]).releasedBy k := by
  rw [execChannelSet_eq]
  exact (releaseClaims_releasedBy _ k d).trans (congrArg _ (modChan_get s _ d _))

theorem Channel.releasedBy_of_holder (h : e.holder = some (.context k)) :
    e.releasedBy k = { e with holder := none } := if_pos h

theorem Channel.releasedBy_of_ne (h : e.holder ≠ some (.context k)) : e.releasedBy k = e := if_neg h

/-- R55: the channel's own entry after a CHANNEL_SET that holds its claim. -/
theorem execChannelSet_channel (hh : s.channels[(Fin.ofNat 64 b.channel : Chan)].holder = some (.context k)) :
    (execChannelSet k b s).channels[(Fin.ofNat 64 b.channel : Chan)]
      = { (b.outcome s.channels[(Fin.ofNat 64 b.channel : Chan)]).2 with holder := none } := by
  rw [execChannelSet_channels, if_pos rfl, Channel.releasedBy_of_holder (ChannelSetBody.outcome_holder.trans hh)]

/-- R57: the context's completion. -/
theorem execChannelSet_context {c : Context} (hk : s.contexts[k] = some c) :
    (execChannelSet k b s).contexts[k] =
      let out := b.outcome s.channels[(Fin.ofNat 64 b.channel : Chan)]
      some { c with state := .posting, result := some (out.1, out.2.detail) } := by
  rw [execChannelSet_eq]
  exact modCtx_self hk _

/-- R55: a CHANNEL_SET touches the Channel Table and its own context. -/
theorem execChannelSet_frame (k : CtxId) (b : ChannelSetBody) (s : State) :
    execChannelSet k b s = { s with
      channels := (execChannelSet k b s).channels, contexts := (execChannelSet k b s).contexts } := by
  unfold execChannelSet
  dsimp only
  split <;> rfl

/-- Settles O43. -/
theorem channelSetExecutes : Obligations.ChannelSetExecutes := by
  intro s k c b hk hcheck hh ch old t refused
  have hchannel := execChannelSet_channel hh
  have hcontext := execChannelSet_context (b := b) hk
  refine ⟨fun hr => ?_, fun hr => ?_, fun d hd hfree => ?_, fun l hl => ?_, ?_⟩
  · rw [ChannelSetBody.outcome, if_pos ((ChannelSetBody.refusedBy_iff hcheck).2 hr)] at hchannel hcontext
    exact ⟨hchannel, hcontext⟩
  · rw [ChannelSetBody.outcome, if_neg (mt (ChannelSetBody.refusedBy_iff hcheck).1 hr)] at hchannel hcontext
    dsimp only
    rw [hchannel, hcontext, ← parkOfCode_eq, ← compOfCode_eq, ← applyBaselineAction_eq]
    exact ⟨rfl, rfl, rfl, rfl, rfl, rfl, rfl, rfl⟩
  · exact (execChannelSet_channels k b s d).trans (by rw [if_neg hd, Channel.releasedBy_of_ne hfree])
  · exact (congrArg (fun t : State => t.contexts[l]) (execChannelSet_eq k b s)).trans (modCtx_other hl _)
  · exact execChannelSet_frame k b s

end Sys2Proof.Machine
end

section
/-! SUPPORT. PinsAndShield: which converters hold a channel or drive the shield, and the lowest-numbered one of them
(R38 to R40). -/

namespace Sys2Proof.Machine

variable {s : State} {ch : Chan}

/-! ### The lowest-numbered converter of a kind -/

theorem find_allConverters_eq {p : ConvId → Bool} {c : ConvId} (hc : p c = true)
    (hlow : ∀ d : ConvId, d < c → ¬p d = true) : allConverters.find? p = some c :=
  find?_ascending (by decide) ((by decide : ∀ v : ConvId, v ∈ allConverters) c) hc
    fun d _ hd => Bool.eq_false_iff.2 (hlow d hd)

theorem find_allConverters_none {p : ConvId → Bool} (h : ∀ c : ConvId, ¬p c = true) : allConverters.find? p = none :=
  List.find?_eq_none.2 fun c _ => h c

/-! ### Connection, discharge and parking (R38, R39) -/

/-- R6, R8: a connection is closed in SETTLING, SAMPLING and DISCHARGING. -/
theorem Converter.holdsChannel_iff (v : Converter) (ch : Chan) :
    v.holdsChannel ch = true ↔ v.state.connected ∧ ∃ j, v.job = some j ∧ ch ∈ j.connection.channels := by
  obtain ⟨st, mark, job, origin⟩ := v
  cases job with
  | none => cases st <;> simp [Converter.holdsChannel]
  | some j => cases st <;> simp [Converter.holdsChannel, ConvState.connected]

/-- R13, R17: a channel is discharged by its own switch, after a fault or a CLEAR. -/
def State.InDischarge (s : State) (ch : Chan) : Prop :=
  (∃ d ∈ s.faultDischarges, ch ∈ d.connection.channels) ∨ ∃ d ∈ s.clearDischarges, ch ∈ d.connection.channels

/-- R39: the pin of a parked channel, by its entry's park mode. -/
def Channel.parkedPin (e : Channel) (shield : Option Profile) : Pin :=
  match e.park with
  | .ground => .drivenLow
  | .float => .highImpedance
  | .shield => .shield shield

/-- R38: the pin of a channel that a converter holds. -/
theorem pin_connected {c : ConvId} (hc : s.converters[c].holdsChannel ch = true)
    (hlow : ∀ d : ConvId, d < c → ¬s.converters[d].holdsChannel ch = true) : pin s ch = .connected c := by
  rw [pin, find_allConverters_eq hc hlow]

/-- R13, R17, R39: the pin of a channel that no converter holds. -/
theorem pin_unconnected (h : ∀ c : ConvId, ¬s.converters[c].holdsChannel ch = true) :
    (s.InDischarge ch → pin s ch = .discharging)
      ∧ (¬s.InDischarge ch → pin s ch = s.channels[ch].parkedPin (shieldWaveform s)) := by
  have hiff : (s.faultDischarges.any (fun d => d.connection.channels.contains ch)
      || s.clearDischarges.any (fun d => d.connection.channels.contains ch)) = true ↔ s.InDischarge ch := by
    simp [State.InDischarge]
  rw [pin, find_allConverters_none h]
  exact ⟨fun hd => if_pos (hiff.2 hd), fun hd => if_neg (mt hiff.1 hd)⟩

/-! ### The shield (R40) -/

/-- R40: the shield carries the waveform of the lowest-numbered converter in SAMPLING. -/
theorem shieldWaveform_eq {c : ConvId} (hc : s.converters[c].state = .sampling)
    (hlow : ∀ d : ConvId, d < c → s.converters[d].state ≠ .sampling) :
    shieldWaveform s = s.converters[c].waveform := by
  have hfind : (allConverters.find? fun v => s.converters[v].state == .sampling) = some c :=
    find_allConverters_eq (beq_iff_eq.2 hc) fun d hd => mt beq_iff_eq.1 (hlow d hd)
  rw [shieldWaveform, hfind]

/-- R40: with no converter in SAMPLING the shield is a steady low level. -/
theorem shieldWaveform_none (h : ∀ c : ConvId, s.converters[c].state ≠ .sampling) : shieldWaveform s = none := by
  have hfind : (allConverters.find? fun v => s.converters[v].state == .sampling) = none :=
    find_allConverters_none fun c => mt beq_iff_eq.1 (h c)
  rw [shieldWaveform, hfind]

/-- R2, R30: in SAMPLING a converter drives the profile of the sample in progress. -/
theorem Converter.waveform_sampling {v : Converter} {j : Job} (hs : v.state = .sampling) (hj : v.job = some j) :
    v.waveform = j.currentProfile := by
  rw [Converter.waveform, hs, hj]

/-- Settles O48. -/
theorem pinsAndShield : Obligations.PinsAndShield := by
  intro s ch holds discharging
  have hholds (c : ConvId) : s.converters[c].holdsChannel ch = true ↔ holds c := Converter.holdsChannel_iff _ ch
  have hfree (h : ∀ c, ¬holds c) : ∀ c : ConvId, ¬s.converters[c].holdsChannel ch = true :=
    fun c => mt (hholds c).1 (h c)
  refine ⟨fun c hc hlow => ?_, fun hn => ?_, fun hn => ?_, shieldWaveform_none, fun c j hs hj hlow => ?_⟩
  · exact pin_connected ((hholds c).2 hc) fun d hd => mt (hholds d).1 (hlow d hd)
  · exact (pin_unconnected (hfree hn)).1
  · exact (pin_unconnected (hfree hn)).2
  · rw [shieldWaveform_eq hs hlow, Converter.waveform_sampling hs hj, Job.currentProfile]

end Sys2Proof.Machine
end

section
/-! SUPPORT. ContextsStaySound and ContextFreedOnlyByItsRecord: all work of an event but an admission and the release of a
posted context keeps every context in its place, and what the two do to the Context Table and the in-flight counts. -/

namespace Sys2Proof.Machine

variable {o s t : State}

/-! ### What leaves every context in its place -/

/-- Two values of one context that stand for the same admitted record (R61, R64). -/
structure Context.SameRecord (c d : Context) : Prop where
  queue : d.queue = c.queue
  holdsTag : d.holdsTag = c.holdsTag
  admission : d.admission = c.admission
  request : d.request = c.request

theorem Context.SameRecord.refl (c : Context) : c.SameRecord c := ⟨rfl, rfl, rfl, rfl⟩

theorem Context.SameRecord.trans {c d e : Context} (h : c.SameRecord d) (g : d.SameRecord e) : c.SameRecord e :=
  ⟨g.queue.trans h.queue, g.holdsTag.trans h.holdsTag, g.admission.trans h.admission, g.request.trans h.request⟩

/-- The states in which no context is in use (R173). -/
def EngineState.outOfSession (e : EngineState) : Prop := e = .off ∨ e = .loading

/-- `s` has the contexts of `o`, each with its record, and the counts that go with them; the engine has not left a session
while one is in use. -/
structure ContextsKept (o s : State) : Prop where
  free : ∀ k : CtxId, o.contexts[k] = none → s.contexts[k] = none
  used : ∀ (k : CtxId) (c : Context), o.contexts[k] = some c → ∃ d, s.contexts[k] = some d ∧ c.SameRecord d
  nextAdmission : s.nextAdmission = o.nextAdmission
  inFlight : ∀ q : QueueId, (s.queues[q]).inFlight = (o.queues[q]).inFlight
  session : s.engine.state.outOfSession → o.engine.state.outOfSession ∨ ∀ k : CtxId, s.contexts[k] = none

namespace ContextsKept

theorem refl (s : State) : ContextsKept s s :=
  ⟨fun _ h => h, fun _ c h => ⟨c, h, .refl c⟩, rfl, fun _ => rfl, .inl⟩

theorem trans (h : ContextsKept o s) (g : ContextsKept s t) : ContextsKept o t where
  free k hk := g.free k (h.free k hk)
  used k c hk := by
    obtain ⟨d, hd, hcd⟩ := h.used k c hk
    obtain ⟨e, he, hde⟩ := g.used k d hd
    exact ⟨e, he, hcd.trans hde⟩
  nextAdmission := g.nextAdmission.trans h.nextAdmission
  inFlight q := (g.inFlight q).trans (h.inFlight q)
  session ht := by
    rcases g.session ht with hs | hn
    · exact (h.session hs).imp_right fun hn k => g.free k (hn k)
    · exact .inr hn

/-- A context in `s` is one of `o`. -/
theorem used_of_used (h : ContextsKept o s) {k : CtxId} {d : Context} (hd : s.contexts[k] = some d) :
    ∃ c, o.contexts[k] = some c ∧ c.SameRecord d := by
  cases hk : o.contexts[k] with
  | none => rw [h.free k hk] at hd; cases hd
  | some c =>
    obtain ⟨e, he, hce⟩ := h.used k c hk
    cases he.symm.trans hd
    exact ⟨c, rfl, hce⟩

/-- An operation on the engine, the queues and what no context needs. -/
theorem sameContexts (h : ContextsKept o s) (ht : (t.contexts, t.nextAdmission) = (s.contexts, s.nextAdmission))
    (hq : ∀ q : QueueId, (t.queues[q]).inFlight = (s.queues[q]).inFlight)
    (he : t.engine.state.outOfSession → s.engine.state.outOfSession) : ContextsKept o t := by
  simp only [Prod.mk.injEq] at ht
  obtain ⟨hc, hn⟩ := ht
  refine h.trans ⟨fun k hk => ?_, fun k c hk => ⟨c, ?_, .refl c⟩, hn, hq, fun x => .inl (he x)⟩
  · rw [hc]; exact hk
  · rw [hc]; exact hk

/-- An operation that writes none of the tables named. -/
theorem congr (h : ContextsKept o s)
    (ht : (t.contexts, t.nextAdmission, t.queues, t.engine) = (s.contexts, s.nextAdmission, s.queues, s.engine)) :
    ContextsKept o t := by
  simp only [Prod.mk.injEq] at ht
  obtain ⟨hc, hn, hq, he⟩ := ht
  refine h.sameContexts (by rw [hc, hn]) (fun q => ?_) ?_
  · rw [hq]
  · rw [he]; exact id

/-- An operation of Engine Control that leaves no session. -/
theorem modEngine (h : ContextsKept o s) {f : Engine → Engine}
    (hf : (f s.engine).state.outOfSession → s.engine.state.outOfSession) : ContextsKept o (s.modEngine f) :=
  h.sameContexts rfl (fun _ => rfl) hf

theorem modCtx (h : ContextsKept o s) (k : CtxId) {f : Context → Context} (hf : ∀ c : Context, c.SameRecord (f c)) :
    ContextsKept o (s.modCtx k f) := by
  refine h.trans ⟨fun l hl => ?_, fun l c hl => ?_, rfl, fun _ => rfl, .inl⟩
  · rw [modCtx_get]
    split
    · subst l; rw [hl]; rfl
    · exact hl
  · by_cases hlk : l = k
    · subst l
      exact ⟨f c, modCtx_self hl f, hf c⟩
    · exact ⟨c, (modCtx_other hlk f).trans hl, .refl c⟩

theorem modQueue (h : ContextsKept o s) (q : QueueId) {f : Queue → Queue} (hf : ∀ d, (f d).inFlight = d.inFlight) :
    ContextsKept o (s.modQueue q f) := by
  refine h.sameContexts rfl (fun d => ?_) id
  rw [modQueue_get]
  split
  · subst d; exact hf _
  · rfl

theorem foldl {α : Type} {f : State → α → State} (hf : ∀ t x, ContextsKept o t → ContextsKept o (f t x))
    (l : List α) (h : ContextsKept o s) : ContextsKept o (l.foldl f s) := by
  induction l generalizing s with
  | nil => exact h
  | cons x l ih => exact ih (hf s x h)

/-- Work that leaves Engine Control alone. -/
theorem worked (h : ContextsKept o s) (w : Worked s t) (he : t.engine = s.engine) : ContextsKept o t := by
  refine h.trans ⟨w.contextFree, fun k c hk => ?_, w.nextAdmission, fun q => ?_, ?_⟩
  · obtain ⟨d, hd, hq, ht, ha, hr, -⟩ := w.contextUsed k c hk
    exact ⟨d, hd, hq, ht, ha, hr⟩
  · rw [w.queue q]
  · rw [he]; exact .inl

/-- R182: the arbiters end a session only when no context is in use. -/
theorem arbitrated (h : ContextsKept o s) (a : Arbitrated s t)
    (hstop : s.engine.state = .stopping → t.engine.state = .off → t.StopConditions) : ContextsKept o t := by
  have w := a.worked
  refine h.trans ⟨w.contextFree, fun k c hk => ?_, w.nextAdmission, fun q => ?_, fun ht => ?_⟩
  · obtain ⟨d, hd, hq, ht, ha, hr, -⟩ := w.contextUsed k c hk
    exact ⟨d, hd, hq, ht, ha, hr⟩
  · rw [w.queue q]
  · rcases a.engineState with he | ⟨hs, hoff⟩
    · exact .inl (he ▸ ht)
    · obtain ⟨hnone, -⟩ := hstop hs hoff
      exact .inr hnone

theorem finish (h : ContextsKept o s) : ContextsKept o (finish s) :=
  h.arbitrated (finish_arbitrated s) fun hs hoff => (finish_stops s hs).1.1 hoff

theorem finishJobEnd (j : Job) (h : ContextsKept o s) : ContextsKept o (finishJobEnd j s) := by
  rcases finishJobEnd_cases j s with hf | ⟨k, _, _, _, _, hf⟩ <;> rw [hf]
  · exact h.finish
  · exact h.arbitrated (finishBeforeTrial_arbitrated k s) fun hs hoff => (finishBeforeTrial_stops k s hs).1.1 hoff

theorem raise (r : Report) (h : ContextsKept o s) : ContextsKept o (raise r s) :=
  h.worked (raise_worked r) (raise_engine s r)

theorem completeContext (k : CtxId) (st : Status) (d : Detail) (h : ContextsKept o s) :
    ContextsKept o (completeContext k st d s) := h.modCtx k fun _ => ⟨rfl, rfl, rfl, rfl⟩

theorem setWait (k : CtxId) (w : ConvWait) (h : ContextsKept o s) : ContextsKept o (setWait k w s) :=
  h.modCtx k fun _ => ⟨rfl, rfl, rfl, rfl⟩

theorem changeConvState (c : ConvId) (st : ConvState) (h : ContextsKept o s) :
    ContextsKept o (changeConvState c st s) := by
  rcases changeConvState_cases s c st with hc | hc <;> rw [hc]
  · exact h.congr rfl
  · exact .raise _ (h.congr rfl)

end ContextsKept

/-! ### Converters, checks and jobs (chapters 1, 5 to 7) -/

theorem resolveMark_contextsKept (c : ConvId) (h : ContextsKept o s) : ContextsKept o (resolveMark c s) := by
  unfold resolveMark
  split
  · exact h
  · split
    · exact .completeContext _ _ _ (.changeConvState _ _ (h.congr rfl))
    · split
      · exact h
      · exact .setWait _ _ (h.congr rfl)

theorem enterRunning_contextsKept (h : ContextsKept o s) : ContextsKept o (enterRunning s) := by
  refine (h.modEngine (f := fun e => { e with state := .running }) ?_).congr rfl
  rintro (hx | hx) <;> cases hx

theorem startupCheckEnded_contextsKept (c : ConvId) (h : ContextsKept o s) :
    ContextsKept o (startupCheckEnded c s) := by
  have hleft := h.modEngine (f := fun e => { e with startupLeft := e.startupLeft.filter fun x => x != c }) id
  unfold startupCheckEnded
  dsimp only
  split
  · exact enterRunning_contextsKept hleft
  · exact hleft

theorem handCheckResult_contextsKept (c : ConvId) (w : CheckOwner) (pass : Bool) (new : ConvState) (mean : Option Nat)
    (h : ContextsKept o s) : ContextsKept o (handCheckResult c w pass new mean s) := by
  unfold handCheckResult
  split
  · exact .completeContext _ _ _ h
  · exact startupCheckEnded_contextsKept c h
  · exact h

theorem checkFail_contextsKept (c : ConvId) (cause : OfflineCause) (mean : Option Nat) (h : ContextsKept o s) :
    ContextsKept o (checkFail c cause mean s) := by
  have hoffline := (h.raise (.converterOffline c cause mean)).changeConvState c .offline
  exact resolveMark_contextsKept c (handCheckResult_contextsKept c _ _ _ _ (hoffline.congr rfl))

theorem concludeCheck_contextsKept (c : ConvId) (l : List Sample) (h : ContextsKept o s) :
    ContextsKept o (concludeCheck c l s) := by
  unfold concludeCheck
  dsimp only
  split
  · unfold checkPass
    refine resolveMark_contextsKept c (handCheckResult_contextsKept c _ _ _ _ ?_)
    split
    · exact .raise _ (h.congr rfl)
    · exact .raise _ (h.congr rfl)
    · exact h.congr rfl
  · exact checkFail_contextsKept c _ _ h

theorem faultJob_contextsKept (c : ConvId) (j : Job) (h : ContextsKept o s) : ContextsKept o (faultJob c j s) := by
  have hoffline := (h.raise (.converterOffline c .fault none)).changeConvState c .offline
  exact resolveMark_contextsKept c (hoffline.congr rfl)

/-- The end of a watch job touches no context. -/
theorem WatchJobEnded.contextsKept (w : WatchJobEnded s t) (h : ContextsKept o s) : ContextsKept o t :=
  h.congr (by rw [w])

theorem handOver_contextsKept (j : Job) (h : ContextsKept o s) : ContextsKept o (handOver j s) := by
  have he := (handOver_ownerTold j s).engine
  unfold handOver at he ⊢
  split at he
  · exact h.worked (itemNormalEnd_worked _ _ _) he
  · exact h.worked (itemCutEnd_worked _ _) he
  · exact h.worked (trialNormalEnd_worked _ _) he
  · exact h.worked (trimEarlyEnd_worked _) he
  · exact (watchNormalEnd_watchJobEnded _ j s).contextsKept h
  · exact h

theorem faultEnd_contextsKept (j : Job) (h : ContextsKept o s) : ContextsKept o (faultEnd j s) := by
  have he := (faultEnd_ownerTold j s).engine
  unfold faultEnd at he ⊢
  split at he
  · exact h.worked (itemFaultEnd_worked _ _) he
  · exact h.worked (itemCutEnd_worked _ _) he
  · exact h.worked (trialFaultEnd_worked _) he
  · exact h.worked (trimEarlyEnd_worked _) he
  · exact (watchFaultEnd_watchJobEnded _ s).contextsKept h
  · exact h

/-! ### The converter events -/

theorem settleEnd_contextsKept (c : ConvId) (h : ContextsKept o s) : ContextsKept o (settleEnd c s) := by
  unfold settleEnd
  split
  · exact h.congr rfl
  · exact h

theorem sampleEnd_contextsKept (c : ConvId) (outcome : SampleEnd) (h : ContextsKept o s) :
    ContextsKept o (sampleEnd c outcome s) := by
  unfold sampleEnd
  split
  · exact h.congr rfl
  · unfold sampleInCheck
    split
    · exact .finish (concludeCheck_contextsKept c _ h)
    · exact h.congr rfl
  · exact h

theorem dischargeEnd_contextsKept (c : ConvId) (h : ContextsKept o s) : ContextsKept o (dischargeEnd c s) := by
  unfold dischargeEnd
  split
  · refine .finishJobEnd _ (resolveMark_contextsKept c ?_)
    exact (handOver_contextsKept _ h).congr rfl
  · exact h

theorem faultEvent_contextsKept (c : ConvId) (h : ContextsKept o s) : ContextsKept o (faultEvent c s) := by
  unfold faultEvent
  split
  · exact .finish (faultJob_contextsKept c _ h)
  · exact .finish (faultJob_contextsKept c _ h)
  · exact .finish (faultJob_contextsKept c _ h)
  · exact .finish (checkFail_contextsKept c _ _ h)
  · exact h

theorem faultDischargeEnd_contextsKept (c : ConvId) (h : ContextsKept o s) :
    ContextsKept o (faultDischargeEnd c s) := by
  unfold faultDischargeEnd
  split
  · exact h
  · dsimp only
    split
    · exact .finish (faultEnd_contextsKept _ (h.congr rfl))
    · exact h.congr rfl

/-! ### End causes and the Engine Command writes (R77, R174 to R184) -/

theorem endActive_contextsKept (k : CtxId) (c : Context) (e : EndCause × CtxState) (h : ContextsKept o s) :
    ContextsKept o (endActive k c e s) := by
  unfold endActive
  split
  · refine ContextsKept.worked ?_ (measureWorkEnd_worked k) (measureWorkEnd_engine k _)
    exact (h.modCtx k (f := fun c => { c with items := c.items.map ItemEntry.endIfNotStarted })
      fun _ => ⟨rfl, rfl, rfl, rfl⟩).congr rfl
  · split
    · split
      · exact h.congr rfl
      · exact h.worked (trimEarlyEnd_worked k) (trimEarlyEnd_workedFor k s).engine
    · exact h
  · exact .completeContext _ _ _ (h.congr rfl)

theorem setEndCause_contextsKept (cause : EndCause) (k : CtxId) (h : ContextsKept o s) :
    ContextsKept o (setEndCause cause k s) := by
  unfold setEndCause
  split
  · exact h
  · split
    · exact h
    · rename_i c _ _
      have hcause := h.modCtx k (f := fun x => { x with endCause := some (cause, c.state) })
        fun _ => ⟨rfl, rfl, rfl, rfl⟩
      dsimp only
      split
      · exact .completeContext _ _ _ (hcause.congr rfl)
      · exact .completeContext _ _ _ hcause
      · exact endActive_contextsKept k c _ hcause
      · exact h
      · exact h

theorem setEndCauses_contextsKept (cause : EndCause) (l : List CtxId) (h : ContextsKept o s) :
    ContextsKept o (l.foldl (fun t k => setEndCause cause k t) s) :=
  .foldl (fun _ k => setEndCause_contextsKept cause k) l h

theorem beginStop_contextsKept (mode : StopMode) (h : ContextsKept o s) : ContextsKept o (beginStop mode s) := by
  refine h.sameContexts rfl (fun q => ?_) ?_
  · simp [beginStop]
  · rintro (hx | hx) <;> cases hx

theorem stopDrainCommand_contextsKept (h : ContextsKept o s) : ContextsKept o (stopDrainCommand s) := by
  unfold stopDrainCommand
  split
  · exact .finish (beginStop_contextsKept .drain h)
  · exact h
  all_goals exact h.modEngine id

/-- R179: a STOP_CUT in LOADING goes OFF, where no context is in use either. -/
theorem cutLoading_contextsKept (hl : s.engine.state = .loading) (h : ContextsKept o s) :
    ContextsKept o (cutLoading s) :=
  h.sameContexts rfl (fun _ => rfl) fun _ => .inr hl

theorem stopCutCommand_contextsKept (h : ContextsKept o s) : ContextsKept o (stopCutCommand s) := by
  unfold stopCutCommand
  split
  · exact .finish (setEndCauses_contextsKept .stopped _ (beginStop_contextsKept .cut h))
  · split
    · exact h
    · exact .finish (setEndCauses_contextsKept .stopped _ (h.modEngine id))
  · exact .finish (cutLoading_contextsKept ‹_› h)
  all_goals exact h.modEngine id

/-! ### The register writes and the timers -/

theorem faultQueue_contextsKept (q : QueueId) (reason : QueueFaultReason) (tail : Nat) (h : ContextsKept o s) :
    ContextsKept o (faultQueue q reason tail s) :=
  .raise _ (h.modQueue q fun _ => rfl)

theorem submitWrite_contextsKept (word : Reg) (h : ContextsKept o s) : ContextsKept o (submitWrite word s) := by
  unfold submitWrite
  dsimp only
  split
  · exact h.modEngine id
  · split
    · exact .finish (faultQueue_contextsKept _ _ _ h)
    · exact .finish (h.modQueue _ fun _ => rfl)

theorem releaseWrite_contextsKept (word : Reg) (h : ContextsKept o s) : ContextsKept o (releaseWrite word s) := by
  unfold releaseWrite
  dsimp only
  split
  · exact h.modEngine id
  · exact .finish (h.congr rfl)

theorem overrunRound_contextsKept (h : ContextsKept o s) : ContextsKept o (overrunRound s) := by
  unfold overrunRound
  dsimp only
  split
  · exact h.congr rfl
  · exact .raise _ (h.congr rfl)

theorem periodExpiry_contextsKept (h : ContextsKept o s) : ContextsKept o (periodExpiry s) := by
  unfold periodExpiry
  split
  · exact h
  · dsimp only
    split
    · exact .finish ((overrunRound_contextsKept h).congr rfl)
    · exact .finish (h.congr rfl)

theorem coalescingExpiry_contextsKept (h : ContextsKept o s) : ContextsKept o (coalescingExpiry s) := by
  unfold coalescingExpiry
  split
  · exact h
  · exact h.congr rfl

/-! ### List reads and result writes (R72, R78) -/

theorem formItems_contextsKept (k : CtxId) (items : List Item) (h : ContextsKept o s) :
    ContextsKept o (formItems k items s) := h.modCtx k fun _ => ⟨rfl, rfl, rfl, rfl⟩

theorem endListing_contextsKept (k : CtxId) (b : MeasureBody) (how : ReadEnd) (h : ContextsKept o s) :
    ContextsKept o (endListing k b how s) := by
  unfold endListing
  split
  · exact .completeContext _ _ _ h
  · split
    · exact .completeContext _ _ _ h
    · exact formItems_contextsKept _ _ h

theorem listReadEnd_contextsKept (i : Nat) (how : ReadEnd) (h : ContextsKept o s) :
    ContextsKept o (listReadEnd i how s) := by
  unfold listReadEnd
  split
  · exact h
  · split
    · dsimp only
      split
      · exact h.congr rfl
      · split
        · exact h.congr rfl
        · split
          · exact .finish (endListing_contextsKept _ _ how (h.congr rfl))
          · exact h.congr rfl
    · exact h

theorem endWriting_contextsKept (w : ResultWrite) (how : WriteEnd) (h : ContextsKept o s) :
    ContextsKept o (endWriting w how s) := by
  refine h.modCtx w.owner fun c => ?_
  cases how <;> exact ⟨rfl, rfl, rfl, rfl⟩

theorem resultWriteEnd_contextsKept (i : Nat) (how : WriteEnd) (h : ContextsKept o s) :
    ContextsKept o (resultWriteEnd i how s) := by
  unfold resultWriteEnd
  split
  · exact h
  · dsimp only
    split
    · exact h.congr rfl
    · exact .finish (endWriting_contextsKept _ how (h.congr rfl))

/-! ### The path of an admitted record (R59) -/

theorem enterWriting_contextsKept (k : CtxId) (st : Status) (d : Detail) (addr : Addr) (data : List Byte)
    (h : ContextsKept o s) : ContextsKept o (enterWriting k st d addr data s) :=
  h.worked (enterWriting_worked k st d addr data) (enterWriting_engine k st d addr data s)

theorem beginMeasure_contextsKept (k : CtxId) (b : MeasureBody) (external : Bool) (h : ContextsKept o s) :
    ContextsKept o (beginMeasure k b external s) := by
  unfold beginMeasure
  split
  · exact (h.modCtx k (f := fun c => { c with state := .listing }) fun _ => ⟨rfl, rfl, rfl, rfl⟩).congr rfl
  · split
    · exact formItems_contextsKept _ _ h
    · exact .completeContext _ _ _ h

theorem execProfileSet_contextsKept (k : CtxId) (b : ProfileSetBody) (h : ContextsKept o s) :
    ContextsKept o (execProfileSet k b s) := by
  unfold execProfileSet
  dsimp only
  split <;> exact .completeContext _ _ _ (h.congr rfl)

theorem execWatchAdd_contextsKept (k : CtxId) (b : WatchAddBody) (h : ContextsKept o s) :
    ContextsKept o (execWatchAdd k b s) := by
  unfold execWatchAdd
  dsimp only
  split
  · exact .completeContext _ _ _ h
  · split
    · exact .completeContext _ _ _ h
    · split
      · exact .completeContext _ _ _ h
      · split
        · exact .completeContext _ _ _ h
        · exact .completeContext _ _ _ (h.congr rfl)

theorem execWatchRemove_contextsKept (k : CtxId) (id : WatchId) (h : ContextsKept o s) :
    ContextsKept o (execWatchRemove k id s) := by
  unfold execWatchRemove
  split
  · exact .completeContext _ _ _ h
  · exact .completeContext _ _ _ (h.congr rfl)

theorem execWatchQuery_contextsKept (k : CtxId) (c : Context) (h : ContextsKept o s) :
    ContextsKept o (execWatchQuery k c s) := by
  unfold execWatchQuery
  dsimp only
  split
  · exact .completeContext _ _ _ h
  · exact enterWriting_contextsKept _ _ _ _ _ h

theorem leaveMark_contextsKept (c : ConvId) (kind : MarkKind) (k : CtxId) (h : ContextsKept o s) :
    ContextsKept o (leaveMark c kind k s) := .setWait _ _ (h.congr rfl)

theorem ownCheck_contextsKept (c : ConvId) (k : CtxId) (h : ContextsKept o s) : ContextsKept o (ownCheck c k s) :=
  .setWait _ _ (h.congr rfl)

theorem execHold_contextsKept (c : ConvId) (k : CtxId) (h : ContextsKept o s) :
    ContextsKept o (execHold c k s) := by
  unfold execHold
  split
  · exact .completeContext _ _ _ (h.changeConvState c .held)
  · exact .completeContext _ _ _ (h.changeConvState c .held)
  · exact .completeContext _ _ _ h
  all_goals exact leaveMark_contextsKept c _ k h

theorem execRelease_contextsKept (c : ConvId) (k : CtxId) (h : ContextsKept o s) :
    ContextsKept o (execRelease c k s) := by
  unfold execRelease
  split
  · exact ownCheck_contextsKept c k h
  · exact .completeContext _ _ _ h

theorem execCheck_contextsKept (c : ConvId) (k : CtxId) (h : ContextsKept o s) :
    ContextsKept o (execCheck c k s) := by
  unfold execCheck
  split
  · exact ownCheck_contextsKept c k h
  · exact ownCheck_contextsKept c k h
  · exact .completeContext _ _ _ h
  all_goals exact leaveMark_contextsKept c _ k h

theorem execConverterSet_contextsKept (k : CtxId) (c : ConvId) (action : ConvAction) (h : ContextsKept o s) :
    ContextsKept o (execConverterSet k c action s) := by
  have hrecorded := h.modCtx k (f := fun x => { x with action := some { conv := c, action := action, waits := .nothing } })
    fun _ => ⟨rfl, rfl, rfl, rfl⟩
  unfold execConverterSet
  dsimp only
  split
  · exact .completeContext _ _ _ hrecorded
  · split
    · exact execHold_contextsKept c k hrecorded
    · exact execRelease_contextsKept c k hrecorded
    · exact execCheck_contextsKept c k hrecorded

theorem execAbort_contextsKept (k : CtxId) (queue : QueueId) (scope tag : Nat) (h : ContextsKept o s) :
    ContextsKept o (execAbort k queue scope tag s) := by
  unfold execAbort
  split
  · unfold execAbortOne
    split
    · exact .completeContext _ _ _ h
    · split
      · exact .completeContext _ _ _ h
      · split
        · exact .completeContext _ _ _ h
        · exact .completeContext _ _ _ (setEndCause_contextsKept .aborted _ h)
  · unfold execAbortAll
    dsimp only
    split
    · exact .completeContext _ _ _ h
    · exact .completeContext _ _ _ (setEndCauses_contextsKept .aborted _ h)

theorem claimOne_contextsKept (k : CtxId) (ch : Chan) (h : ContextsKept o s) : ContextsKept o (claimOne k ch s) :=
  h.modCtx k fun _ => ⟨rfl, rfl, rfl, rfl⟩

theorem beginPath_contextsKept (k : CtxId) (c : Context) (h : ContextsKept o s) :
    ContextsKept o (beginPath k c s) := by
  unfold beginPath
  split
  · exact beginMeasure_contextsKept _ _ _ h
  · exact claimOne_contextsKept _ _ h
  · exact claimOne_contextsKept _ _ h
  · exact execProfileSet_contextsKept _ _ h
  · exact execWatchAdd_contextsKept _ _ h
  · exact execWatchRemove_contextsKept _ _ h
  · exact execWatchQuery_contextsKept _ _ h
  · exact .completeContext _ _ _ (h.congr rfl)
  · exact execConverterSet_contextsKept _ _ _ h
  · exact execAbort_contextsKept _ _ _ _ h
  · exact .completeContext _ _ _ h

/-! ### The Context Table and the in-flight counts (R63, R64, R66, R80) -/

/-- Whether a place of the Context Table holds a context of the queue. -/
def inUseBy (q : QueueId) (x : Option Context) : Bool :=
  match x with
  | some c => c.queue == q
  | none => false

theorem contextsOf_eq (s : State) (q : QueueId) :
    contextsOf s q = allContexts.countP fun k => inUseBy q s.contexts[k] := rfl

theorem mem_allContexts (k : CtxId) : k ∈ allContexts := by revert k; decide

theorem allContexts_nodup : allContexts.Nodup := by decide

/-- A count over a list without repetition, when the test has changed at one element. -/
theorem countP_changed {α : Type} [DecidableEq α] {p q : α → Bool} {l : List α} {a : α} (hl : l.Nodup) (ha : a ∈ l)
    (h : ∀ x, x ≠ a → q x = p x) : l.countP q + (p a).toNat = l.countP p + (q a).toNat := by
  have hperm := List.perm_cons_erase ha
  have hrest : (l.erase a).countP q = (l.erase a).countP p :=
    List.countP_congr fun x hx => by rw [h x ((hl.mem_erase_iff.1 hx).1)]
  rw [hperm.countP_eq, hperm.countP_eq, List.countP_cons, List.countP_cons, hrest]
  cases p a <;> cases q a <;> simp

/-- R63: one place of the Context Table written. -/
theorem contextsOf_set {k : CtxId} {x : Option Context} (ht : t.contexts = s.contexts.set k x) (q : QueueId) :
    contextsOf t q + (inUseBy q s.contexts[k]).toNat = contextsOf s q + (inUseBy q x).toNat := by
  have hk : t.contexts[k] = x := by rw [ht]; exact Vector.getElem_set_self _
  have hother : ∀ l : CtxId, l ≠ k → t.contexts[l] = s.contexts[l] := fun l hl => by
    rw [ht]
    exact Vector.getElem_set_ne k.isLt l.isLt (by simpa [Fin.ext_iff, eq_comm] using hl)
  have := countP_changed (p := fun l => inUseBy q s.contexts[l]) (q := fun l => inUseBy q t.contexts[l])
    allContexts_nodup (mem_allContexts k) fun l hl => by rw [hother l hl]
  rw [hk] at this
  exact this

theorem contextsOf_none (h : ∀ k : CtxId, s.contexts[k] = none) (q : QueueId) : contextsOf s q = 0 := by
  rw [contextsOf_eq, List.countP_eq_zero]
  intro k _
  simp [h k, inUseBy]

/-- R66: a queue's context that holds the tag. -/
theorem tagHeld_iff (s : State) (queue : QueueId) (tag : Nat) : tagHeld s queue tag = true ↔
    ∃ (k : CtxId) (c : Context), s.contexts[k] = some c ∧ c.queue = queue ∧ c.holdsTag = true ∧ c.request.tag = tag := by
  unfold tagHeld
  rw [List.any_eq_true]
  constructor
  · rintro ⟨k, -, hk⟩
    cases hc : s.contexts[k] with
    | none => simp [hc] at hk
    | some c =>
      simp only [hc, Bool.and_eq_true, beq_iff_eq] at hk
      exact ⟨k, c, hc, hk.1.1, hk.1.2, hk.2⟩
  · rintro ⟨k, c, hc, hq, ht, hr⟩
    exact ⟨k, mem_allContexts k, by simp [hc, hq, ht, hr]⟩

/-- A Context Table with no context in use is sound. -/
theorem contextsSound_none (hk : ∀ k : CtxId, s.contexts[k] = none) (hq : ∀ q : QueueId, (s.queues[q]).inFlight = 0) :
    s.ContextsSound := by
  refine ⟨fun _ => hk, fun q => ?_, fun k c hc => ?_, fun k l c d hc => ?_⟩
  · rw [hq, contextsOf_none hk]
  · rw [hk k] at hc; cases hc
  · rw [hk k] at hc; cases hc

theorem ContextsKept.contextsSound (h : ContextsKept o s) (ho : o.ContextsSound) : s.ContextsSound := by
  obtain ⟨hnone, hcount, hbelow, hdistinct⟩ := ho
  refine ⟨fun he k => ?_, fun q => ?_, fun k d hd => ?_, fun k l d e hd he hkl => ?_⟩
  · rcases h.session he with hs | hs
    · exact h.free k (hnone hs k)
    · exact hs k
  · rw [h.inFlight q, hcount q, contextsOf_eq, contextsOf_eq]
    congr 1
    funext k
    cases hk : o.contexts[k] with
    | none => rw [h.free k hk]
    | some c =>
      obtain ⟨d, hd, hcd⟩ := h.used k c hk
      rw [hd, inUseBy, inUseBy, hcd.queue]
  · obtain ⟨c, hc, hcd⟩ := h.used_of_used hd
    rw [hcd.admission, h.nextAdmission]
    exact hbelow k c hc
  · obtain ⟨c, hc, hcd⟩ := h.used_of_used hd
    obtain ⟨c', hc', hce⟩ := h.used_of_used he
    rw [hcd.admission, hce.admission, hcd.queue, hce.queue, hcd.holdsTag, hce.holdsTag, hcd.request, hce.request]
    exact hdistinct k l c c' hc hc' hkl

/-! ### What a command can free -/

/-- `s` follows `o` in an event that can make FREE only the contexts of `freed`: it is sound where `o` is, and every other
context in use is still in use. -/
structure ContextsTaken (freed : CtxId → Prop) (o s : State) : Prop where
  sound : o.ContextsSound → s.ContextsSound
  freed : ∀ k : CtxId, o.contexts[k] ≠ none → s.contexts[k] = none → freed k

namespace ContextsTaken

variable {freed : CtxId → Prop}

theorem trans (h : ContextsTaken freed o s) (g : ContextsTaken freed s t) : ContextsTaken freed o t := by
  refine ⟨fun ho => g.sound (h.sound ho), fun k ho ht => ?_⟩
  by_cases hs : s.contexts[k] = none
  · exact h.freed k ho hs
  · exact g.freed k hs ht

theorem ofKept (h : ContextsKept o s) : ContextsTaken freed o s := by
  refine ⟨h.contextsSound, fun k ho hs => ?_⟩
  obtain ⟨c, hc⟩ := Option.ne_none_iff_exists'.1 ho
  obtain ⟨d, hd, -⟩ := h.used k c hc
  rw [hd] at hs
  cases hs

theorem finish (h : ContextsTaken freed o s) : ContextsTaken freed o (finish s) :=
  h.trans (.ofKept (.finish (.refl s)))

/-- R157, R175: the queues are written anew outside a session. -/
theorem ofOutOfSession (ho : o.engine.state.outOfSession) (hc : s.contexts = o.contexts)
    (hq : ∀ q : QueueId, (s.queues[q]).inFlight = 0) : ContextsTaken freed o s := by
  refine ⟨fun hsound => contextsSound_none (fun k => ?_) hq, fun k h hs => ?_⟩
  · rw [hc]
    exact hsound.1 ho k
  · rw [hc] at hs
    exact absurd hs h

end ContextsTaken

/-! ### An admission (R63, R64, R66) -/

theorem takeContext_get (k l : CtxId) (c : Context) (s : State) :
    (takeContext k c s).contexts[l] = if l = k then some c else s.contexts[l] := by
  simp only [takeContext, Fin.getElem_fin, Vector.getElem_set, Fin.ext_iff, eq_comm]

theorem takeContext_inFlight (k : CtxId) (c : Context) (s : State) (q : QueueId) :
    ((takeContext k c s).queues[q]).inFlight = (s.queues[q]).inFlight + (inUseBy q (some c)).toNat := by
  have hq : (takeContext k c s).queues = (s.modQueue c.queue fun q => { q with inFlight := q.inFlight + 1 }).queues := rfl
  rw [hq, modQueue_get]
  by_cases hcq : q = c.queue
  · subst hcq; simp [inUseBy]
  · simp [inUseBy, hcq, Ne.symm hcq]

/-- R64, R66: a context that takes the next number, and its tag only when no context of the queue holds it, agrees with
none in use in either. -/
theorem distinct_of_new {c : Context} (hs : s.ContextsSound) (hnumber : c.admission = s.nextAdmission)
    (htag : c.holdsTag = true → tagHeld s c.queue c.request.tag = false) (l : CtxId) (d : Context)
    (hd : s.contexts[l] = some d) : d.admission ≠ c.admission
      ∧ ¬(d.queue = c.queue ∧ d.holdsTag = true ∧ c.holdsTag = true ∧ d.request.tag = c.request.tag) := by
  obtain ⟨-, -, hbelow, -⟩ := hs
  refine ⟨fun h => ?_, fun ⟨hq, hdt, ht, hr⟩ => ?_⟩
  · exact absurd (hbelow l d hd) (by rw [h, hnumber]; exact lt_irrefl _)
  · exact absurd ((tagHeld_iff s _ _).2 ⟨l, d, hd, hq, hdt, hr⟩) (by rw [htag ht]; exact Bool.false_ne_true)

theorem takeContext_sound {k : CtxId} {c : Context} (hfree : s.contexts[k] = none) (hrun : s.engine.state = .running)
    (hnumber : c.admission = s.nextAdmission) (htag : c.holdsTag = true → tagHeld s c.queue c.request.tag = false)
    (hs : s.ContextsSound) : (takeContext k c s).ContextsSound := by
  have hnew := distinct_of_new hs hnumber htag
  obtain ⟨-, hcount, hbelow, hdistinct⟩ := hs
  refine ⟨fun he => ?_, fun q => ?_, fun l d hd => ?_, fun l m d e hd he hlm => ?_⟩
  · have he' : s.engine.state = .off ∨ s.engine.state = .loading := he
    simp [hrun] at he'
  · have h := contextsOf_set (t := takeContext k c s) (s := s) (x := some c) rfl q
    rw [hfree] at h
    rw [takeContext_inFlight, hcount q]
    exact h.symm
  · rw [takeContext_get] at hd
    show d.admission < s.nextAdmission + 1
    split at hd
    · cases hd
      omega
    · exact Nat.lt_succ_of_lt (hbelow l d hd)
  · rw [takeContext_get] at hd he
    split at hd
    · cases hd
      rw [if_neg (by subst l; exact Ne.symm hlm)] at he
      obtain ⟨ha, ht⟩ := hnew m e he
      exact ⟨ha.symm, fun ⟨h1, h2, h3, h4⟩ => ht ⟨h1.symm, h3, h2, h4.symm⟩⟩
    · split at he
      · cases he
        exact hnew l d hd
      · exact hdistinct l m d e hd he hlm

theorem firstFreeContext_free {k : CtxId} (h : firstFreeContext s = some k) : s.contexts[k] = none := by
  simpa using List.find?_some h

section

variable {freed : CtxId → Prop}

/-- R64: a record is admitted in RUNNING, into a FREE context. -/
theorem admitRecord_taken (queue : QueueId) (r : Request) (hrun : s.engine.state = .running) :
    ContextsTaken freed s (admitRecord queue r s) := by
  unfold admitRecord
  split
  · exact .ofKept (.refl s)
  · rename_i k hk
    have hfree := firstFreeContext_free hk
    have htake : ContextsTaken freed s
        (takeContext k (.admitted queue s.nextAdmission (!tagHeld s queue r.tag) r) s) := by
      refine ⟨takeContext_sound hfree hrun rfl fun h => by simpa [Context.admitted] using h, fun l hl hn => ?_⟩
      rw [takeContext_get] at hn
      split at hn
      · cases hn
      · exact absurd hn hl
    refine htake.trans (.ofKept ?_)
    dsimp only
    split
    · exact .completeContext _ _ _ (.refl _)
    · exact beginPath_contextsKept k _ (.refl _)

theorem takeRecord_taken (q : QueueId) (how : ReadEnd) (hrun : s.engine.state = .running) :
    ContextsTaken freed s (takeRecord q how s) := by
  unfold takeRecord
  split
  · have hadvance : ContextsKept s (s.modQueue q Queue.advance) := (ContextsKept.refl s).modQueue q fun _ => rfl
    unfold arrive
    split
    · exact .ofKept (hadvance.modQueue q fun _ => rfl)
    · exact (ContextsTaken.ofKept hadvance).trans (admitRecord_taken q _ hrun)
  · exact .ofKept (faultQueue_contextsKept _ _ _ (.refl s))

theorem fetchOver_contextsKept (r : FetchRead) (h : ContextsKept o s) : ContextsKept o (fetchOver r s) := by
  unfold fetchOver
  dsimp only
  split
  · exact (h.modQueue r.queue (f := fun q => { q with readOutstanding := false }) fun _ => rfl).congr rfl
  · exact h.congr rfl

theorem fetchOver_engine (r : FetchRead) (s : State) : (fetchOver r s).engine = s.engine := by
  unfold fetchOver
  dsimp only
  split <;> rfl

theorem fetchReadEnd_taken (how : ReadEnd) (s : State) : ContextsTaken freed s (fetchReadEnd how s) := by
  unfold fetchReadEnd
  split
  · exact .ofKept (.refl s)
  · rename_i r _
    have hover := fetchOver_contextsKept r (.refl s)
    split
    · dsimp only
      split
      · rename_i htaken
        obtain ⟨-, hrun, -⟩ := htaken
        exact .finish ((ContextsTaken.ofKept hover).trans (takeRecord_taken _ how (by rw [fetchOver_engine]; exact hrun)))
      · exact .ofKept hover.finish
    · exact .ofKept (.refl s)

/-- R70: a held record is admitted in RUNNING alone. -/
theorem admitHeld_taken (queue : QueueId) (s : State) : ContextsTaken freed s (admitHeld queue s) := by
  unfold admitHeld
  split
  · split
    · rename_i hrun
      have hheld : ContextsKept s (s.modQueue queue fun q => { q with held := none }) :=
        (ContextsKept.refl s).modQueue queue fun _ => rfl
      exact (ContextsTaken.ofKept hheld).trans (admitRecord_taken queue _ hrun.1)
    · exact .ofKept (.refl s)
  · exact .ofKept (.refl s)

end

/-! ### The release of a posted context (R79, R80) -/

/-- R79: the Context Table and the in-flight count after the record of the context `c` in `k` was posted. -/
def contextReleased (k : CtxId) (c : Context) (s : State) : State :=
  { s with contexts := s.contexts.set k none }.modQueue c.queue fun q => { q with inFlight := q.inFlight - 1 }

theorem freeContext_used {k : CtxId} {c : Context} (hk : s.contexts[k] = some c) :
    freeContext k s = admitHeld c.queue (contextReleased k c s) := by
  simp only [freeContext, hk, contextReleased]

theorem contextReleased_get (k l : CtxId) (c : Context) (s : State) :
    (contextReleased k c s).contexts[l] = if l = k then none else s.contexts[l] := by
  simp only [contextReleased, modQueue_contexts, Fin.getElem_fin, Vector.getElem_set, Fin.ext_iff, eq_comm]

theorem contextReleased_inFlight (k : CtxId) (c : Context) (s : State) (q : QueueId) :
    ((contextReleased k c s).queues[q]).inFlight = (s.queues[q]).inFlight - (inUseBy q (some c)).toNat := by
  rw [contextReleased, modQueue_get]
  by_cases hcq : q = c.queue
  · subst hcq; simp [inUseBy]
  · have hne : (c.queue == q) = false := beq_false_of_ne (Ne.symm hcq)
    simp [inUseBy, hcq, hne]

theorem contextReleased_sound {k : CtxId} {c : Context} (hk : s.contexts[k] = some c) (hs : s.ContextsSound) :
    (contextReleased k c s).ContextsSound := by
  obtain ⟨hnone, hcount, hbelow, hdistinct⟩ := hs
  have hold : ∀ (l : CtxId) (d : Context), (contextReleased k c s).contexts[l] = some d → s.contexts[l] = some d := by
    intro l d hd
    rw [contextReleased_get] at hd
    split at hd
    · cases hd
    · exact hd
  refine ⟨fun he l => ?_, fun q => ?_, fun l d hd => hbelow l d (hold l d hd),
    fun l m d e hd he => hdistinct l m d e (hold l d hd) (hold m e he)⟩
  · rw [contextReleased_get, hnone he l, ite_self]
  · have h := contextsOf_set (t := contextReleased k c s) (s := s) (x := none) rfl q
    rw [hk] at h
    rw [contextReleased_inFlight, hcount q]
    simp only [inUseBy, Bool.toNat_false] at h ⊢
    omega

theorem freeContext_taken (k : CtxId) (s : State) : ContextsTaken (· = k) s (freeContext k s) := by
  cases hk : s.contexts[k] with
  | none =>
    simp only [freeContext, hk]
    exact .ofKept (.refl s)
  | some c =>
    rw [freeContext_used hk]
    refine ContextsTaken.trans ⟨contextReleased_sound hk, fun l hl hn => ?_⟩ (admitHeld_taken _ _)
    rw [contextReleased_get] at hn
    split at hn
    · assumption
    · exact absurd hn hl

theorem sourceDone_taken (w : RingWrite) (s : State) : ContextsTaken (fun k => w.source = .context k) s (sourceDone w s) := by
  unfold sourceDone
  split
  · rename_i k hk
    have hposted : ContextsKept s { s with posting := s.posting.erase (.context k) } := (ContextsKept.refl s).congr rfl
    have hfreed := freeContext_taken k { s with posting := s.posting.erase (.context k) }
    exact (ContextsTaken.ofKept hposted).trans ⟨hfreed.sound, fun l hl hn => by rw [hfreed.freed l hl hn]; exact hk⟩
  · exact .ofKept ((ContextsKept.refl s).congr rfl)

/-- The contexts that the end of the ring write in flight can make FREE. -/
def RingWriteFrees (how : WriteEnd) (s : State) (k : CtxId) : Prop :=
  how = .completes ∧ ∃ w, s.ringWrite = some w ∧ w.stale = false ∧ w.source = .context k

theorem ringWriteEnd_taken (how : WriteEnd) (s : State) :
    ContextsTaken (RingWriteFrees how s) s (ringWriteEnd how s) := by
  have hs := ContextsKept.refl s
  unfold ringWriteEnd
  split
  · exact .ofKept hs
  · rename_i w hw
    split
    · exact .ofKept (.finish (hs.congr rfl))
    · rename_i hstale
      split
      · have hposted : ContextsTaken (RingWriteFrees .completes s) s (ringPosted s) := .ofKept (hs.congr rfl)
        have hdone := sourceDone_taken w (ringPosted s)
        exact .finish (hposted.trans ⟨hdone.sound, fun k hk hn =>
          ⟨rfl, w, hw, Bool.eq_false_iff.2 hstale, hdone.freed k hk hn⟩⟩)
      · exact .ofKept (hs.sameContexts rfl (fun _ => rfl) (by rintro (hx | hx) <;> cases hx))

/-! ### The start of a session, CLEAR and reset -/

section

variable {freed : CtxId → Prop}

theorem startCommand_taken (s : State) : ContextsTaken freed s (startCommand s) := by
  unfold startCommand
  split
  · refine .ofOutOfSession (.inl ‹_›) rfl fun q => ?_
    simp [beginLoading, unconfigureRings, Queue.unconfigured]
  · exact .ofKept ((ContextsKept.refl s).modEngine id)

theorem startChecks_contextsKept (l : List ConvId) (w : CheckOwner) (h : ContextsKept o s) :
    ContextsKept o (l.foldl (fun t c => startCheck c w t) s) :=
  .foldl (f := fun t c => startCheck c w t) (fun _ _ ht => ht.congr rfl) l h

theorem startupChecks_contextsKept (h : ContextsKept o s) : ContextsKept o (startupChecks s) := by
  have hchecks := startChecks_contextsKept (startupConverters s) .engineControl h
  have hleft := hchecks.modEngine (f := fun e => { e with startupLeft := startupConverters s }) id
  unfold startupChecks
  dsimp only
  split
  · exact enterRunning_contextsKept (hleft.raise .noConverter)
  · exact hleft

theorem takeUp_inFlight (b : SetupBlock) (s : State) (q : QueueId) : ((takeUp b s).queues[q]).inFlight = 0 := by
  have hq : (takeUp b s).queues[q] = b.descriptor q.val := Vector.getElem_mapIdx _
  rw [hq, SetupBlock.descriptor]
  split <;> rfl

theorem prepareSession_taken (b : SetupBlock) (hl : s.engine.state = .loading) :
    ContextsTaken freed s (prepareSession b s) := by
  have htaken : ContextsTaken freed s (takeUp b s) := .ofOutOfSession (.inr hl) rfl (takeUp_inFlight b s)
  have hwatch : ContextsKept (takeUp b s) ((takeUp b s).modWatch (WatchUnit.prepare b.watchPeriod)) :=
    (ContextsKept.refl _).congr rfl
  exact htaken.trans (.ofKept (startupChecks_contextsKept hwatch))

theorem endSetup_taken (how : ReadEnd) (hl : s.engine.state = .loading) : ContextsTaken freed s (endSetup how s) := by
  have hfail : ∀ (error : LastError) (code index : Nat), ContextsKept s (failSetup error code index s) :=
    fun _ _ _ => (ContextsKept.refl s).sameContexts rfl (fun _ => rfl) fun _ => .inr hl
  unfold endSetup
  split
  · exact .ofKept (hfail _ _ _)
  · split
    · exact .ofKept (hfail _ _ _)
    · exact prepareSession_taken _ hl

theorem setupReadEnd_taken (k : Nat) (how : ReadEnd) (s : State) : ContextsTaken freed s (setupReadEnd k how s) := by
  unfold setupReadEnd
  split
  · exact .ofKept (.refl s)
  · split
    · have hread : ContextsKept s { s with setupReads := s.setupReads.eraseIdx k } := (ContextsKept.refl s).congr rfl
      dsimp only
      split
      · exact .ofKept hread
      · rename_i hcurrent
        have hl : s.engine.state = .loading := Classical.not_not.1 fun h => hcurrent (.inr h)
        exact .finish ((ContextsTaken.ofKept hread).trans (endSetup_taken how hl))
    · exact .ofKept (.refl s)

end

theorem clearCommand_taken (s : State) : ContextsTaken (fun _ => True) s (clearCommand s) := by
  refine ⟨fun _ => contextsSound_none (fun k => ?_) fun q => ?_, fun _ _ _ => trivial⟩
  · simp [clearCommand]
  · simp [clearCommand, abandonSetupReads, unconfigureRings, Queue.unconfigured]

theorem deviceReset_taken (s : State) : ContextsTaken (fun _ => True) s (deviceReset s) := by
  refine ⟨fun _ => contextsSound_none (fun k => ?_) fun q => ?_, fun _ _ _ => trivial⟩
  · simp [deviceReset, State.reset]
  · simp [deviceReset, State.reset, Queue.unconfigured]

/-! ### Every command -/

theorem engineCommandWrite_taken (word : Reg) (s : State) :
    ContextsTaken (fun _ => commandCode word = 4) s (engineCommandWrite word s) := by
  have hs := ContextsKept.refl s
  unfold engineCommandWrite
  split
  · exact startCommand_taken s
  · exact .ofKept (stopDrainCommand_contextsKept hs)
  · exact .ofKept (stopCutCommand_contextsKept hs)
  · rename_i hcode
    exact ⟨(clearCommand_taken s).sound, fun _ _ _ => hcode⟩
  · exact .ofKept (hs.modEngine id)

theorem windowWrite_taken (offset word : Reg) (s : State) :
    ContextsTaken (fun _ => offset = 0x00#32 ∧ commandCode word = 4) s (windowWrite offset word s) := by
  have hs := ContextsKept.refl s
  unfold windowWrite
  split
  · exact .ofKept (hs.modEngine id)
  · split
    · rename_i hoffset
      have h := engineCommandWrite_taken word s
      exact ⟨h.sound, fun k hk hn => ⟨hoffset, h.freed k hk hn⟩⟩
    · split
      · exact .ofKept (submitWrite_contextsKept word hs)
      · split
        · exact .ofKept (releaseWrite_contextsKept word hs)
        · split
          · exact .ofKept (hs.congr rfl)
          · exact .ofKept hs

/-- The contexts that a command can make FREE: all of them at a CLEAR, spelled by any of its rows, and at a device reset;
the source of the ring write that completes (R80, R173, R184). -/
def CommandFrees (i : Instr) (s : State) (k : CtxId) : Prop :=
  match i with
  | .deviceReset => True
  | .clear => True
  | .commandRefused word => commandCode word = 4
  | .registerWrite offset word => offset = 0x00#32 ∧ commandCode word = 4
  | .completionRingWriteEnd how => RingWriteFrees how s k
  | _ => False

theorem commandEffect_taken (i : Instr) (s : State) : ContextsTaken (CommandFrees i s) s (commandEffect i s) := by
  have hs := ContextsKept.refl s
  cases i with
  | deviceReset => exact deviceReset_taken s
  | start => exact startCommand_taken s
  | stopDrain => exact .ofKept (stopDrainCommand_contextsKept hs)
  | stopCut => exact .ofKept (stopCutCommand_contextsKept hs)
  | clear => exact clearCommand_taken s
  | commandRefused word => exact engineCommandWrite_taken word s
  | submitIndex word => exact .ofKept (submitWrite_contextsKept word hs)
  | releaseIndex word => exact .ofKept (releaseWrite_contextsKept word hs)
  | interruptControl word => exact .ofKept (hs.congr rfl)
  | registerWrite offset word => exact windowWrite_taken offset word s
  | setupReadEnd k how => exact setupReadEnd_taken k how s
  | fetchReadEnd how => exact fetchReadEnd_taken how s
  | listReadEnd k how => exact .ofKept (listReadEnd_contextsKept k how hs)
  | resultWriteEnd k how => exact .ofKept (resultWriteEnd_contextsKept k how hs)
  | completionRingWriteEnd how => exact ringWriteEnd_taken how s
  | settleEnd c => exact .ofKept (settleEnd_contextsKept c hs)
  | sampleEnd c outcome => exact .ofKept (sampleEnd_contextsKept c outcome hs)
  | dischargeEnd c => exact .ofKept (dischargeEnd_contextsKept c hs)
  | faultEvent c => exact .ofKept (faultEvent_contextsKept c hs)
  | faultDischargeEnd c => exact .ofKept (faultDischargeEnd_contextsKept c hs)
  | clearDischargeEnd c => exact .ofKept (hs.congr rfl)
  | periodTimerExpiry => exact .ofKept (periodExpiry_contextsKept hs)
  | coalescingTimerExpiry => exact .ofKept (coalescingExpiry_contextsKept hs)

/-- Settles O57. -/
theorem contextsStaySound : Obligations.ContextsStaySound := by
  intro s t hs hstep
  rcases step_cases hstep with rfl | ⟨i, rest, _, rfl⟩
  · exact hs
  · exact (commandEffect_taken i _).sound hs

/-- R174: a well-formed COMMAND_REFUSED spells no CLEAR. -/
theorem commandCode_of_namesNoCommand {word : Reg} (h : namesNoCommand word = true) : commandCode word ≠ 4 := by
  intro hcode
  have hmod : word.toNat % 16 = 4 := by simpa [commandCode, bits] using hcode
  simp [namesNoCommand, hmod] at h

/-- R71, R80: of the well-formed commands but CLEAR and reset, only the end of a ring write makes a context FREE. -/
theorem commandFrees_cases {i : Instr} {k : CtxId} (hwf : i.wellFormed = true) (hclear : i ≠ .clear)
    (hreset : i ≠ .deviceReset) (h : CommandFrees i s k) :
    i = .completionRingWriteEnd .completes ∧ ∃ w, s.ringWrite = some w ∧ w.stale = false ∧ w.source = .context k := by
  cases i with
  | deviceReset => exact absurd rfl hreset
  | clear => exact absurd rfl hclear
  | commandRefused word => exact absurd h (commandCode_of_namesNoCommand hwf)
  | registerWrite offset word =>
    obtain ⟨rfl, -⟩ := h
    cases hwf
  | completionRingWriteEnd how =>
    obtain ⟨rfl, hw⟩ := h
    exact ⟨rfl, hw⟩
  | _ => exact h.elim

/-- Settles O60. -/
theorem contextFreedOnlyByItsRecord : Obligations.ContextFreedOnlyByItsRecord := by
  intro i s t k hwf hclear hreset hexec hused hfree
  rw [exec_eq] at hexec
  cases hexec
  exact commandFrees_cases hwf hclear hreset ((commandEffect_taken i s).freed k hused hfree)

end Sys2Proof.Machine
end

section
/-! SUPPORT. FailedAdmissionPosts and RequestsTakeTheirPaths: a record that is admitted from a fetch read or from its queue's
held place stands in POSTING or takes its path. -/

namespace Sys2Proof.Machine

variable {s t : State} {k : CtxId} {c : Context}

/-! ### The path of a record that passes its checks (R59, R72) -/

theorem unknown_of_commonCheck {r : Request} (h : r.commonCheck = none) : r.body ≠ .unknown := by
  have hall := firstFailure_none.1 h
  simpa using hall _ (List.mem_cons_self ..)

/-- R68: the inline items of a MEASURE that passed its checks are items. -/
theorem checkItems_of_bodyCheck {r : Request} {b : MeasureBody} (hb : r.body = .measure b)
    (hinline : r.flags.externalList = false) (h : r.bodyCheck = none) :
    ∃ items, checkItems 0 (b.inlineItems.take b.itemCount) = .ok items := by
  rw [Request.bodyCheck, hb, hinline] at h
  simp only [MeasureBody.check, Bool.false_eq_true, if_false] at h
  split at h
  · cases h
  · split at h
    · cases h
    · exact ⟨_, ‹_›⟩

theorem beginMeasure_external (k : CtxId) (b : MeasureBody) (s : State) :
    beginMeasure k b true s = { s.modCtx k (fun d => { d with state := .listing }) with
      listReads := s.listReads ++
        [{ owner := k, addr := b.listAddr, bytes := 4 * b.itemCount, discarded := false }] } := rfl

theorem beginMeasure_inline {b : MeasureBody} {items : List Item}
    (h : checkItems 0 (b.inlineItems.take b.itemCount) = .ok items) (k : CtxId) (s : State) :
    beginMeasure k b false s = formItems k items s := by
  simp only [beginMeasure, Bool.false_eq_true, if_false, h]

theorem actionOfCode_eq (n : Nat) : actionOfCode n = if n = 1 then .hold else if n = 2 then .release else .check := by
  rcases n with _ | _ | _ | n <;> rfl

/-- R59: a record that passed every check is on its path once the arbiters have run. -/
theorem beginPath_pathTaken (hcommon : c.request.commonCheck = none) (hbody : c.request.bodyCheck = none)
    (k : CtxId) (s : State) : PathTaken k c s (finish (beginPath k c s)) := by
  have harb := finish_arbitrated (beginPath k c s)
  generalize finish (beginPath k c s) = t at harb
  unfold PathTaken
  unfold beginPath at harb
  cases hb : c.request.body with
  | measure b =>
    rw [hb] at harb
    dsimp only at harb ⊢
    cases hext : c.request.flags.externalList with
    | true =>
      rw [hext, beginMeasure_external] at harb
      exact harb
    | false =>
      obtain ⟨items, hitems⟩ := checkItems_of_bodyCheck hb hext hbody
      rw [hext, beginMeasure_inline hitems] at harb
      exact ⟨items, hitems, harb⟩
  | converterSet v a =>
    rw [hb] at harb
    dsimp only at harb ⊢
    rw [← actionOfCode_eq]
    exact harb
  | unknown => exact absurd hb (unknown_of_commonCheck hcommon)
  | _ =>
    rw [hb] at harb
    exact harb

/-! ### The admission of a record (R64 to R66) -/

theorem firstFreeContext_some (h : ∃ k : CtxId, s.contexts[k] = none) : ∃ k, firstFreeContext s = some k := by
  obtain ⟨k, hk⟩ := h
  cases hf : firstFreeContext s with
  | some l => exact ⟨l, rfl⟩
  | none =>
    have := List.find?_eq_none.1 hf k (mem_allContexts k)
    simp [hk] at this

/-- R65: an admission that fails no check fails neither a common check nor a body check. -/
theorem checks_of_admitted {queue : QueueId} {r : Request} (h : admissionFailure s queue r = none) :
    tagHeld s queue r.tag = false ∧ r.commonCheck = none ∧ r.bodyCheck = none := by
  refine ⟨?_, ?_, bodyCheck_of_admitted h⟩
  all_goals
    unfold admissionFailure at h
    split at h
    · cases h
  · exact Bool.eq_false_iff.2 ‹_›
  · split at h
    · cases h
    · assumption

/-- R65: a context just taken whose record failed a check. -/
theorem completeContext_takeContext (k : CtxId) (c : Context) (st : Status) (d : Detail) (s : State) :
    completeContext k st d (takeContext k c s) = takeContext k { c with state := .posting, result := some (st, d) } s := by
  have hk : (takeContext k c s).contexts[k] = some c := by rw [takeContext_get, if_pos rfl]
  rw [completeContext, modCtx_eq hk]
  simp only [takeContext, Vector.set_set]

/-- R65, R167: a context that stands in POSTING outlasts the arbiters of its event. -/
theorem Arbitrated.posting_context (a : Arbitrated s t) (hk : s.contexts[k] = some c) (hp : c.state = .posting) :
    t.contexts[k] = some c := by
  obtain ⟨d, hd, hkept⟩ := a.contextUsed k c hk
  rw [hd, hkept.waiting (.inr (.inr hp))]

/-- R64 to R66, R59: what the admission of a record does. -/
theorem admitRecord_recordTaken (hfree : ∃ k : CtxId, s.contexts[k] = none) (queue : QueueId) (r : Request) :
    RecordTaken queue r s (finish (admitRecord queue r s)) := by
  obtain ⟨k, hk⟩ := firstFreeContext_some hfree
  refine ⟨k, firstFreeContext_free hk, fun status detail hfail => ?_, fun hpass => ?_⟩
  · have hadmit : admitRecord queue r s = takeContext k
        { Context.admitted queue s.nextAdmission (!tagHeld s queue r.tag) r with
          state := .posting, result := some (status, detail) } s := by
      simp only [admitRecord, hk, hfail, completeContext_takeContext]
    have harb := finish_arbitrated (admitRecord queue r s)
    rw [hadmit] at harb ⊢
    exact ⟨harb.posting_context (by rw [takeContext_get, if_pos rfl]; rfl) rfl, harb⟩
  · obtain ⟨-, hcommon, hbody⟩ := checks_of_admitted hpass
    have hadmit : admitRecord queue r s = beginPath k (.admitted queue s.nextAdmission (!tagHeld s queue r.tag) r)
        (takeContext k (.admitted queue s.nextAdmission (!tagHeld s queue r.tag) r) s) := by
      simp only [admitRecord, hk, hpass]
    rw [hadmit]
    exact beginPath_pathTaken hcommon hbody k _

/-! ### A record from a fetch read (R162) -/

/-- R162: the state in which a record that a fetch read brought is taken: the read is over and the fetch index advanced. -/
def recordFetched (queue : QueueId) (s : State) : State :=
  { s.modQueue queue (fun q => { q with
      readOutstanding := false, fetchIndex := if q.fetchIndex + 1 = q.size then 0 else q.fetchIndex + 1 }) with
    fetchRead := none }

/-- Two changes of one queue are one. -/
theorem modQueue_modQueue (q : QueueId) (f g : Queue → Queue) (s : State) :
    (s.modQueue q f).modQueue q g = s.modQueue q fun d => g (f d) := by
  simp [State.modQueue]

/-- R162, R70: a record that its fence does not hold back is admitted. -/
theorem fetchReadEnd_record {r : FetchRead} {bytes : List Byte} (hread : s.fetchRead = some r)
    (hcurrent : r.current = true) (hrun : s.engine.state = .running) (hactive : (s.queues[r.queue]).state = .active)
    (hlength : bytes.length = 64)
    (hfence : (Request.ofBytes bytes).flags.fence = false ∨ (s.queues[r.queue]).inFlight = 0) :
    fetchReadEnd (.data bytes) s = finish (admitRecord r.queue (Request.ofBytes bytes) (recordFetched r.queue s)) := by
  have hover : (fetchOver r s).modQueue r.queue Queue.advance = recordFetched r.queue s := by
    have h := modQueue_modQueue r.queue (fun q => { q with readOutstanding := false }) Queue.advance s
    simp only [fetchOver, hcurrent, if_true]
    exact congrArg (fun x : State => { x with fetchRead := none }) h
  have hnotHeld : ¬((Request.ofBytes bytes).flags.fence = true
      ∧ 0 < ((recordFetched r.queue s).queues[r.queue]).inFlight) := by
    have hcount : ((recordFetched r.queue s).queues[r.queue]).inFlight = (s.queues[r.queue]).inFlight := by
      simp [recordFetched, State.modQueue]
    rw [hcount]
    rintro ⟨hf, hpos⟩
    rcases hfence with h | h
    · rw [h] at hf; cases hf
    · omega
  have hwf : (ReadEnd.data bytes).wfBlock = true := by simp [ReadEnd.wfBlock, hlength]
  simp only [fetchReadEnd, hread, hwf, hcurrent, hrun, hactive, and_self, if_true, takeRecord, hover, arrive, hnotHeld,
    if_false]

/-- The context that is taken, and the counts, after a fetch. -/
theorem recordFetched_taken (queue : QueueId) (k : CtxId) (c : Context) (s : State) :
    ({ (recordFetched queue s).modQueue queue (fun q => { q with inFlight := q.inFlight + 1 }) with
        nextAdmission := s.nextAdmission + 1, contexts := s.contexts.set k (some c) } : State)
      = { s.modQueue queue (fun q => { q with
          readOutstanding := false, inFlight := q.inFlight + 1
          fetchIndex := if q.fetchIndex + 1 = q.size then 0 else q.fetchIndex + 1 }) with
        fetchRead := none, nextAdmission := s.nextAdmission + 1, contexts := s.contexts.set k (some c) } := by
  simp [recordFetched, State.modQueue]

/-- R66: TAG_IN_USE is the one status of a context that does not hold its tag. -/
theorem admissionFailure_tagInUse {queue : QueueId} {r : Request} {status : Status} {detail : Detail}
    (h : admissionFailure s queue r = some (status, detail)) : status = .tagInUse ↔ tagHeld s queue r.tag = true := by
  unfold admissionFailure at h
  split at h
  · cases h
    exact ⟨fun _ => ‹_›, fun _ => rfl⟩
  · rename_i htag
    refine ⟨fun hst => ?_, fun ht => absurd ht htag⟩
    subst hst
    split at h
    · cases h
    · split at h
      · cases h
      · split at h
        · split at h <;> cases h
        · cases h

/-- Settles O17. -/
theorem failedAdmissionPosts : Obligations.FailedAdmissionPosts := by
  intro s r bytes status detail hread hcurrent hrun hactive hlength hfence hfree hfail
  have htaken := admitRecord_recordTaken (s := recordFetched r.queue s) hfree r.queue (Request.ofBytes bytes)
  rw [← fetchReadEnd_record hread hcurrent hrun hactive hlength hfence] at htaken
  obtain ⟨k, hk, hposts, -⟩ := htaken
  obtain ⟨hctx, harb⟩ := hposts status detail hfail
  refine ⟨_, k, _, exec_eq _ s, hk, hctx, rfl, rfl, rfl, rfl, rfl, ?_, ?_⟩
  · rw [admissionFailure_tagInUse hfail]
    exact .of_eq (Bool.not_eq_false' _).symm
  · rw [← recordFetched_taken]
    exact harb

/-- Settles O18. -/
theorem requestsTakeTheirPaths : Obligations.RequestsTakeTheirPaths := by
  intro s r bytes hread hcurrent hrun hactive hlength hfence hfree hpass q c
  have htaken := admitRecord_recordTaken (s := recordFetched r.queue s) hfree r.queue q
  rw [← fetchReadEnd_record hread hcurrent hrun hactive hlength hfence] at htaken
  obtain ⟨k, hk, -, hpath⟩ := htaken
  have htag : tagHeld (recordFetched r.queue s) r.queue q.tag = false := (checks_of_admitted hpass).1
  refine ⟨_, k, exec_eq _ s, hk, ?_⟩
  have h := hpath hpass
  rw [htag] at h
  rw [← recordFetched_taken]
  exact h

end Sys2Proof.Machine
end

section
/-! SUPPORT. ListReadEnds and ResultWriteEnds: the end of a transaction that a context waits for, and the channels of a claim
set. -/

namespace Sys2Proof.Machine

variable {s t : State} {c : Context}

/-! ### The claim set of a list of items (R46, R83) -/

theorem mem_allChannels (ch : Chan) : ch ∈ allChannels :=
  List.mem_map.2 ⟨ch.val, List.mem_range.2 ch.isLt, Fin.ext (Nat.mod_eq_of_lt ch.isLt)⟩

theorem allChannels_nodup : allChannels.Nodup := by
  refine List.Nodup.map_on (fun i hi j hj h => ?_) List.nodup_range
  have hij := congrArg Fin.val h
  rwa [Fin.val_ofNat, Fin.val_ofNat, Nat.mod_eq_of_lt (List.mem_range.1 hi), Nat.mod_eq_of_lt (List.mem_range.1 hj)] at hij

theorem mem_maskBits {mask : Byte} {i : Nat} : i ∈ maskBits mask ↔ i < 8 ∧ mask.getLsbD i = true := by
  have hrange : maskBits mask = (List.range 8).filter fun i => mask.getLsbD i := rfl
  rw [hrange, List.mem_filter, List.mem_range]

/-- R83: bit i of group g names channel 8g + i. -/
theorem Item.mem_channels_gang (ch : Chan) (g : Group) (mask : Byte) :
    ch ∈ (Item.gang g mask).channels ↔ ch.val / 8 = g.val ∧ mask.getLsbD (ch.val % 8) = true := by
  have hg := g.isLt
  have hval : ∀ i, i < 8 → (Fin.ofNat 64 (8 * g.val + i)).val = 8 * g.val + i := fun i hi =>
    Nat.mod_eq_of_lt (by omega)
  simp only [Item.channels, List.mem_map, mem_maskBits]
  constructor
  · rintro ⟨i, ⟨hi, hbit⟩, rfl⟩
    rw [hval i hi, show (8 * g.val + i) / 8 = g.val by omega, show (8 * g.val + i) % 8 = i by omega]
    exact ⟨rfl, hbit⟩
  · rintro ⟨hgroup, hbit⟩
    have hi : ch.val % 8 < 8 := Nat.mod_lt _ (by omega)
    exact ⟨ch.val % 8, ⟨hi, hbit⟩, Fin.ext ((hval _ hi).trans (by omega))⟩

theorem Item.mem_channels (ch : Chan) (it : Item) : ch ∈ it.channels ↔ match it with
    | .single c => ch = c
    | .gang g mask => ch.val / 8 = g.val ∧ mask.getLsbD (ch.val % 8) = true := by
  cases it with
  | single c => exact List.mem_singleton
  | gang g mask => exact Item.mem_channels_gang ch g mask

theorem mem_claimSetOf (ch : Chan) (items : List Item) : ch ∈ claimSetOf items ↔ ∃ it ∈ items, ch ∈ it.channels := by
  simp [claimSetOf, mem_allChannels]

theorem claimSetOf_nodup (items : List Item) : (claimSetOf items).Nodup := allChannels_nodup.filter _

/-! ### The end of a list read (R72, R73) -/

/-- R72: the list read of a context in LISTING. -/
theorem listReadEnd_listing {i : Nat} {r : ListRead} {b : MeasureBody} {how : ReadEnd} (hread : s.listReads[i]? = some r)
    (hkept : r.discarded = false) (hk : s.contexts[r.owner] = some c) (hs : c.state = .listing)
    (hb : c.request.body = .measure b) (hfits : readFits how r.bytes = true) :
    listReadEnd i how s = finish (endListing r.owner b how { s with listReads := s.listReads.eraseIdx i }) := by
  simp only [listReadEnd, hread, hfits, hkept, hk, hs, hb, if_true, Bool.false_eq_true, if_false]

theorem listReadEnd_discarded {i : Nat} {r : ListRead} {how : ReadEnd} (hread : s.listReads[i]? = some r)
    (hdiscarded : r.discarded = true) (hfits : readFits how r.bytes = true) :
    listReadEnd i how s = { s with listReads := s.listReads.eraseIdx i } := by
  simp only [listReadEnd, hread, hfits, hdiscarded, if_true]

theorem readFits_iff (how : ReadEnd) (n : Nat) : readFits how n = true ↔ ∀ bytes, how = .data bytes → bytes.length = n := by
  cases how <;> simp [readFits]

theorem endListing_failing {b : MeasureBody} {bytes : List Byte} {code index : Nat}
    (h : checkItems 0 (rawItems bytes b.itemCount) = .error (code, index)) (k : CtxId) (s : State) :
    endListing k b (.data bytes) s = completeContext k .invalidRequest (.field code index) s := by
  simp only [endListing, h]

theorem endListing_items {b : MeasureBody} {bytes : List Byte} {items : List Item}
    (h : checkItems 0 (rawItems bytes b.itemCount) = .ok items) (k : CtxId) (s : State) :
    endListing k b (.data bytes) s = formItems k items s := by
  simp only [endListing, h]

/-- R72: a context that goes from LISTING to POSTING. -/
theorem completeContext_posted {k : CtxId} (hk : s.contexts[k] = some c) (st : Status) (d : Detail) :
    (finish (completeContext k st d s)).contexts[k] = some { c with state := .posting, result := some (st, d) } :=
  (finish_arbitrated _).posting_context (modCtx_self hk _) rfl

/-- Settles O21. -/
theorem listReadEnds : Obligations.ListReadEnds := by
  intro s i r hread
  refine ⟨fun c b hkept hk hs hb => ?_, fun hdiscarded how hlength => ?_, fun items => ⟨claimSetOf_nodup items, fun ch => ?_⟩⟩
  · have hends : ∀ how, readFits how r.bytes = true → exec (.listReadEnd i how) s
        = .next (finish (endListing r.owner b how { s with listReads := s.listReads.eraseIdx i })) := fun how hfits => by
      rw [exec_eq, commandEffect, listReadEnd_listing hread hkept hk hs hb hfits]
    refine ⟨?_, fun bytes code index hlength hfail => ?_, fun bytes items hlength hitems => ?_⟩
    · exact ⟨_, hends _ rfl, completeContext_posted (by exact hk) _ _, finish_arbitrated _⟩
    · refine ⟨_, hends _ (beq_iff_eq.2 hlength), ?_⟩
      rw [endListing_failing hfail]
      exact ⟨completeContext_posted (by exact hk) _ _, finish_arbitrated _⟩
    · refine ⟨_, hends _ (beq_iff_eq.2 hlength), ?_⟩
      rw [endListing_items hitems]
      exact finish_arbitrated _
  · rw [exec_eq, commandEffect, listReadEnd_discarded hread hdiscarded ((readFits_iff _ _).2 hlength)]
  · rw [mem_claimSetOf]
    exact exists_congr fun it => and_congr_right fun _ => Item.mem_channels ch it

/-! ### The end of a result write (R78) -/

theorem resultWriteEnd_current {i : Nat} {w : ResultWrite} (hwrite : s.resultWrites[i]? = some w)
    (hcurrent : w.abandoned = false) (how : WriteEnd) :
    resultWriteEnd i how s = finish (endWriting w how { s with resultWrites := s.resultWrites.eraseIdx i }) := by
  simp only [resultWriteEnd, hwrite, hcurrent, Bool.false_eq_true, if_false]

theorem resultWriteEnd_abandoned {i : Nat} {w : ResultWrite} (hwrite : s.resultWrites[i]? = some w)
    (habandoned : w.abandoned = true) (how : WriteEnd) :
    resultWriteEnd i how s = { s with resultWrites := s.resultWrites.eraseIdx i } := by
  simp only [resultWriteEnd, hwrite, habandoned, if_true]

/-- Settles O22. -/
theorem resultWriteEnds : Obligations.ResultWriteEnds := by
  intro s i w hwrite
  refine ⟨fun c status detail hcurrent hk _ hresult => ?_, fun habandoned how => ?_⟩
  · have hends : ∀ how, exec (.resultWriteEnd i how) s
        = .next (finish (endWriting w how { s with resultWrites := s.resultWrites.eraseIdx i })) := fun how => by
      rw [exec_eq, commandEffect, resultWriteEnd_current hwrite hcurrent]
    have hposted : ∀ {how : WriteEnd} {d : Context},
        (endWriting w how { s with resultWrites := s.resultWrites.eraseIdx i }).contexts[w.owner] = some d →
        d.state = .posting →
        (finish (endWriting w how { s with resultWrites := s.resultWrites.eraseIdx i })).contexts[w.owner] = some d :=
      fun hd hp => (finish_arbitrated _).posting_context hd hp
    refine ⟨⟨_, hends _, hposted (modCtx_self (by exact hk) _) rfl, finish_arbitrated _⟩,
      _, hends _, hposted ?_ rfl, finish_arbitrated _⟩
    refine (modCtx_self (by exact hk) _).trans ?_
    rw [hresult]
    rfl
  · rw [exec_eq, commandEffect, resultWriteEnd_abandoned hwrite habandoned]

end Sys2Proof.Machine
end

section
/-! SUPPORT. CompletionRecordLayout: the fields of a completion ring record at their positions, and of the detail word. -/

namespace Sys2Proof.Machine

/-! ### Fields, least significant byte first (11.1) -/

/-- A one-byte field. -/
theorem byte_field {n : Nat} (h : n < 256) : (BitVec.ofNat 8 n).toNat = n :=
  (BitVec.toNat_ofNat n 8).trans (Nat.mod_eq_of_lt h)

/-- The two bytes of `bytes16`. -/
theorem half_field (n : Nat) : (BitVec.ofNat 8 n).toNat + 256 * (BitVec.ofNat 8 (n / 256)).toNat = n % 65536 := by
  simp only [BitVec.toNat_ofNat]
  omega

/-- The four bytes of `bytes32`. -/
theorem word_field (n : Nat) : (BitVec.ofNat 8 n).toNat + 256 * (BitVec.ofNat 8 (n / 256)).toNat
    + 65536 * ((BitVec.ofNat 8 (n / 65536)).toNat + 256 * (BitVec.ofNat 8 (n / 65536 / 256)).toNat)
      = n % 4294967296 := by
  rw [half_field, half_field]
  omega

theorem flag_le_one (b : Bool) : flag b ≤ 1 := by cases b <;> decide

theorem flag_field (b : Bool) : (BitVec.ofNat 8 (flag b)).toNat = flag b :=
  byte_field (Nat.lt_of_le_of_lt (flag_le_one b) (by decide))

/-- 11.4: byte 0 holds the record kind, and the phase in bit 7. -/
theorem kind_field {kind : Nat} (h : kind < 128) (phase : Bool) :
    (BitVec.ofNat 8 (kind + flag phase * 2 ^ 7)).toNat = kind + if phase then 128 else 0 := by
  rw [byte_field (by have := flag_le_one phase; omega)]
  cases phase <;> rfl

/-! ### Codes that fit their fields (11.4) -/

theorem Status.code_lt (st : Status) : st.code < 23 := by cases st <;> decide

/-! ### The three kinds of record (R79, R138, R170) -/

/-- 11.4: a notice, field by field. -/
theorem noticeRecord_fields (phase : Bool) {kind subject cause : Nat} (hkind : kind < 256) (hsubject : subject < 256)
    (hcause : cause < 256) (mean : Option Nat) (w8 w10 lost : Nat) :
    let bytes := noticeRecord phase kind subject cause mean w8 w10 lost
    bytes.length = 16 ∧ byteAt bytes 0 = 3 + (if phase then 128 else 0) ∧ byteAt bytes 1 = kind
      ∧ byteAt bytes 2 = subject ∧ byteAt bytes 3 = cause ∧ byteAt bytes 4 = flag mean.isSome ∧ byteAt bytes 5 = 0
      ∧ halfAt bytes 6 = mean.getD 0 % 65536 ∧ halfAt bytes 8 = w8 % 65536 ∧ halfAt bytes 10 = w10 % 65536
      ∧ halfAt bytes 12 = lost % 65536 ∧ halfAt bytes 14 = 0 := by
  simp only [noticeRecord, recordByte0, byte8, bytes16, zeros, List.replicate, List.cons_append, List.nil_append]
  exact ⟨rfl, kind_field (by decide) phase, byte_field hkind, byte_field hsubject, byte_field hcause,
    flag_field mean.isSome, rfl, half_field (mean.getD 0), half_field w8, half_field w10, half_field lost, rfl⟩

/-- R79, 11.4: a completion record, field by field. -/
theorem completionRecord_fields (phase : Bool) {c : Context} {status : Status} {detail : Detail} (head : Nat)
    (hresult : c.result = some (status, detail)) :
    let bytes := completionRecord phase c head
    bytes.length = 16 ∧ byteAt bytes 0 = 1 + (if phase then 128 else 0) ∧ byteAt bytes 1 = c.queue.val
      ∧ halfAt bytes 2 = c.request.tag % 65536 ∧ byteAt bytes 4 = status.code ∧ byteAt bytes 5 = c.request.kind % 256
      ∧ halfAt bytes 6 = head % 65536 ∧ wordAt bytes 8 = c.bytesWritten % 4294967296
      ∧ wordAt bytes 12 = detail.word % 4294967296 := by
  have hqueue := c.queue.isLt
  have hstatus := status.code_lt
  simp only [completionRecord, hresult, recordByte0, byte8, bytes32, bytes16, List.cons_append, List.nil_append]
  exact ⟨rfl, kind_field (by decide) phase, byte_field (by omega), half_field c.request.tag,
    byte_field (n := status.code) (by omega), BitVec.toNat_ofNat c.request.kind 8, half_field head,
    word_field c.bytesWritten, word_field detail.word⟩

/-- R138, 11.4: an event record, field by field. -/
theorem eventRecord_fields (phase : Bool) (lost : Nat) (kind : EventKind) (id : WatchId) (ch : Chan) (st : WatchState)
    (reading : Nat) (baseline : Option Nat) (round : Nat) :
    let bytes := reportRecord phase lost (.event kind id ch st reading baseline round)
    bytes.length = 16 ∧ byteAt bytes 0 = 2 + (if phase then 128 else 0) ∧ byteAt bytes 1 = kind.code
      ∧ byteAt bytes 2 = id.val ∧ byteAt bytes 3 = ch.val ∧ byteAt bytes 4 = st.code
      ∧ byteAt bytes 5 = flag baseline.isSome ∧ halfAt bytes 6 = reading % 65536
      ∧ halfAt bytes 8 = baseline.getD 0 % 65536 ∧ halfAt bytes 10 = round % 65536 ∧ halfAt bytes 12 = lost % 65536
      ∧ halfAt bytes 14 = 0 := by
  have hid := id.isLt
  have hch := ch.isLt
  have hkind : kind.code < 256 := by cases kind <;> decide
  have hst : st.code < 256 := by cases st <;> decide
  simp only [reportRecord, recordByte0, byte8, bytes16, zeros, List.replicate, List.cons_append, List.nil_append]
  exact ⟨rfl, kind_field (by decide) phase, byte_field hkind, byte_field (by omega), byte_field (by omega), byte_field hst,
    flag_field baseline.isSome, half_field reading, half_field (baseline.getD 0), half_field round, half_field lost, rfl⟩

/-! ### The detail word (R81) -/

theorem Detail.entry_fields (ready : Bool) (park : Park) (comp : Comp) (trim : Nat) {baseline : Option Nat}
    (h : baseline.getD 0 < 65536) :
    let w := (Detail.entry ready park comp trim baseline).word
    w % 2 ^ 16 = baseline.getD 0 ∧ w / 2 ^ 16 % 2 = flag baseline.isSome ∧ w / 2 ^ 17 % 2 = flag ready
      ∧ w / 2 ^ 18 % 4 = park.code ∧ w / 2 ^ 20 % 16 = comp.code ∧ w / 2 ^ 24 = trim := by
  have hset := flag_le_one baseline.isSome
  have hready := flag_le_one ready
  have hpark : park.code < 4 := by cases park <;> decide
  have hcomp : comp.code < 16 := by cases comp <;> decide
  dsimp only [Detail.word]
  omega

theorem Detail.trim_fields {mean : Option Nat} (decided : Nat) (h : mean.getD 0 < 65536) :
    let w := (Detail.trim mean decided).word
    w % 2 ^ 16 = mean.getD 0 ∧ w / 2 ^ 16 % 256 = flag mean.isSome ∧ w / 2 ^ 24 = decided := by
  have hmean := flag_le_one mean.isSome
  dsimp only [Detail.word]
  omega

theorem Detail.converter_fields (v : ConvId) (st : ConvState) {mean : Option Nat} (mark : Option MarkKind)
    (h : mean.getD 0 < 65536) :
    let w := (Detail.converter v st mean mark).word
    w % 2 ^ 16 = mean.getD 0 ∧ w / 2 ^ 16 % 16 = flag mean.isSome ∧ w / 2 ^ 20 % 16 = markCode mark
      ∧ w / 2 ^ 24 % 16 = st.code ∧ w / 2 ^ 28 = v.val := by
  have hmean := flag_le_one mean.isSome
  have hst : st.code < 16 := by cases st <;> decide
  have hmark : markCode mark < 16 := by
    rcases mark with _ | kind
    · decide
    · cases kind <;> decide
  dsimp only [Detail.word]
  omega

/-- Two fields in one word: the lower one below `m`, the other above it. -/
theorem two_fields {low m : Nat} (h : low < m) (high : Nat) : (low + high * m) % m = low ∧ (low + high * m) / m = high := by
  have hm : 0 < m := by omega
  refine ⟨?_, ?_⟩
  · rw [Nat.add_mul_mod_self_right, Nat.mod_eq_of_lt h]
  · rw [Nat.add_mul_div_right _ _ hm, Nat.div_eq_of_lt h, Nat.zero_add]

/-- Settles O26. -/
theorem completionRecordLayout : Obligations.CompletionRecordLayout := by
  refine ⟨fun phase c status detail head hresult => completionRecord_fields phase head hresult,
    fun phase lost kind id ch st reading baseline round => ?_, fun phase lost => ?_, rfl, ?_⟩
  · exact eventRecord_fields phase lost kind id ch st reading baseline round
  · have hconv : ∀ v : ConvId, v.val < 256 := fun v => by omega
    have hqueue : ∀ q : QueueId, q.val < 256 := fun q => by omega
    refine ⟨fun v mean => ⟨?_, ?_, ?_, ?_⟩, ?_, fun q index tail => ⟨?_, ?_⟩, fun round => ?_⟩
    · exact noticeRecord_fields phase (by decide) (hconv v) (by decide) mean 0 0 lost
    · exact noticeRecord_fields phase (by decide) (hconv v) (by decide) mean 0 0 lost
    · exact noticeRecord_fields phase (by decide) (hconv v) (by decide) mean 0 0 lost
    · exact noticeRecord_fields phase (by decide) (hconv v) (by decide) mean 0 0 lost
    · exact noticeRecord_fields phase (by decide) (by decide) (by decide) none 0 0 lost
    · exact noticeRecord_fields phase (by decide) (hqueue q) (by decide) none index tail lost
    · exact noticeRecord_fields phase (by decide) (hqueue q) (by decide) none index tail lost
    · exact noticeRecord_fields phase (by decide) (by decide) (by decide) none round 0 lost
  · refine ⟨fun _ => rfl, fun code index hcode _ => two_fields hcode index, fun _ => rfl, fun _ => rfl,
      fun ready park comp trim baseline hbaseline => ?_, fun id channel hid => two_fields hid channel,
      fun entries round hentries => two_fields hentries round, fun _ => rfl,
      fun mask hopSet => two_fields mask.isLt hopSet, fun mean decided hmean => Detail.trim_fields decided hmean,
      fun number restored hnumber => ?_, fun v st mean mark hmean => ?_, fun st => ?_, fun _ => rfl, rfl⟩
    · have h := Detail.entry_fields ready park comp trim hbaseline
      cases comp <;> exact h
    · exact two_fields (Nat.lt_of_lt_of_le hnumber (by decide)) restored
    · rcases mark with _ | kind
      · exact Detail.converter_fields v st none hmean
      · have h := Detail.converter_fields v st (some kind) hmean
        cases kind <;> exact h
    · cases st <;> rfl

end Sys2Proof.Machine
end

section
/-! SUPPORT. AdmissionChecks: lists of checks and the first of them that fails, the checks of each kind of record, and the
fields of a record at their positions. -/

namespace Sys2Proof.Machine

variable {s : State}

/-! ### Lists of checks (R67) -/

/-- A check of the model means a failing condition of the spec with its field code and index. -/
def CheckMeans (test : Bool × Nat × Nat) (check : Prop × Nat × Nat) : Prop :=
  (test.1 = true ↔ check.1) ∧ test.2 = check.2

theorem firstFailing_cons {fails : Prop} {code index : Nat} {rest : List (Prop × Nat × Nat)}
    {answer : Option (Nat × Nat)} : FirstFailing ((fails, code, index) :: rest) answer ↔
      (fails → answer = some (code, index)) ∧ (¬fails → FirstFailing rest answer) := by
  constructor
  · rintro ⟨hfirst, hnone⟩
    refine ⟨fun hf => hfirst 0 fails code index rfl hf fun j _ hj => absurd hj (Nat.not_lt_zero j), fun hn => ⟨?_, ?_⟩⟩
    · intro i g c x hi hg hbefore
      refine hfirst (i + 1) g c x hi hg fun j y hj hy => ?_
      cases j with
      | zero => cases hy; exact hn
      | succ j => exact hbefore j y (Nat.lt_of_succ_lt_succ hj) hy
    · exact fun hall => hnone (List.forall_mem_cons.2 ⟨hn, hall⟩)
  · rintro ⟨hfails, hpasses⟩
    refine ⟨fun i g c x hi hg hbefore => ?_, fun hall => ?_⟩
    · cases i with
      | zero => cases hi; exact hfails hg
      | succ i =>
        have hn : ¬fails := hbefore 0 _ (Nat.succ_pos i) rfl
        exact (hpasses hn).1 i g c x hi hg fun j y hj hy => hbefore (j + 1) y (Nat.succ_lt_succ hj) hy
    · obtain ⟨hn, hrest⟩ := List.forall_mem_cons.1 hall
      exact (hpasses hn).2 hrest

theorem firstFailing_nil {answer : Option (Nat × Nat)} : FirstFailing [] answer ↔ answer = none :=
  ⟨fun h => h.2 (by simp), fun h => ⟨by simp, fun _ => h⟩⟩

/-- Checks that run after others answer when those pass. -/
theorem FirstFailing.append {xs ys : List (Prop × Nat × Nat)} {a b : Option (Nat × Nat)} (hx : FirstFailing xs a)
    (hy : FirstFailing ys b) : FirstFailing (xs ++ ys) (a.or b) := by
  induction xs with
  | nil =>
    rw [firstFailing_nil.1 hx]
    exact hy
  | cons x xs ih =>
    obtain ⟨hfails, hpasses⟩ := firstFailing_cons.1 hx
    exact firstFailing_cons.2 ⟨fun hf => by rw [hfails hf]; rfl, fun hn => ih (hpasses hn)⟩

theorem firstFailure_append (xs ys : List (Bool × Nat × Nat)) :
    firstFailure (xs ++ ys) = (firstFailure xs).or (firstFailure ys) := by
  simp only [firstFailure, List.find?_append, Option.map_or]

/-- R67: the model's first failing check is the spec's. -/
theorem firstFailing_of_means {tests : List (Bool × Nat × Nat)} {checks : List (Prop × Nat × Nat)}
    (h : List.Forall₂ CheckMeans tests checks) : FirstFailing checks (firstFailure tests) := by
  induction h with
  | nil => exact firstFailing_nil.2 rfl
  | @cons test check tests checks hmeans _ ih =>
    obtain ⟨t, code, index⟩ := test
    obtain ⟨p, e⟩ := check
    obtain ⟨hiff, heq⟩ := hmeans
    subst heq
    refine firstFailing_cons.2 ⟨fun hp => ?_, fun hp => ?_⟩
    · have ht : t = true := hiff.2 hp
      simp [firstFailure, ht]
    · have ht : t = false := Bool.eq_false_iff.2 (mt hiff.1 hp)
      simpa [firstFailure, ht] using ih

theorem CheckMeans.not {p q : Prop} [Decidable p] (h : p ↔ q) (e : Nat × Nat) : CheckMeans (!decide p, e) (¬q, e) :=
  ⟨by simp [h], rfl⟩

theorem CheckMeans.notWithin (low n high : Nat) (e : Nat × Nat) :
    CheckMeans (!(decide (low ≤ n) && decide (n ≤ high)), e) (¬(low ≤ n ∧ n ≤ high), e) :=
  ⟨by rw [Bool.not_eq_true', ← Bool.decide_and, decide_eq_false_iff_not], rfl⟩

/-- A check that is made of a field whose presence bit is set. -/
theorem CheckMeans.guarded {t : Bool} {p : Prop} {e : Nat × Nat} (b : Bool) (h : CheckMeans (t, e) (p, e)) :
    CheckMeans (b && t, e) (b = true ∧ p, e) :=
  ⟨by rw [Bool.and_eq_true]; exact and_congr_right fun _ => h.1, rfl⟩

theorem forall₂_flatten {α β γ : Type} {R : β → γ → Prop} {f : α → List β} {g : α → List γ} (l : List α)
    (h : ∀ x, List.Forall₂ R (f x) (g x)) : List.Forall₂ R (l.map f).flatten (l.flatMap g) := by
  induction l with
  | nil => exact .nil
  | cons x l ih => exact List.rel_append (h x) ih

/-! ### The body checks of each kind (R32, R54, R68, R104, R120) -/

/-- R68: the checks of the fields that say how a channel is sampled. -/
def samplingFields (n settle hop ceiling : Nat) : List (Prop × Nat × Nat) :=
  [(¬(1 ≤ n ∧ n ≤ 16), 17, 0), (¬settle ≤ 11, 18, 0), (¬hop ≤ 7, 19, 0), (¬(256 ≤ ceiling ∧ ceiling ≤ 65535), 20, 0)]

theorem sampleChecks_means (n settle hop ceiling : Nat) :
    List.Forall₂ CheckMeans (sampleChecks n settle hop ceiling) (samplingFields n settle hop ceiling) :=
  .cons (.notWithin 1 n 16 _) <| .cons (.not Iff.rfl _) <| .cons (.not Nat.lt_succ_iff _) <|
    .cons (.notWithin 256 ceiling 65535 _) .nil

theorem TrimBody.check_firstFailing (b : TrimBody) : FirstFailing
    ([(¬b.channel ≤ 63, 32, 0)] ++ samplingFields b.n b.settle b.hop b.ceiling ++ [(b.windowHigh < b.windowLow, 34, 0)])
    b.check :=
  firstFailing_of_means <| List.rel_append (.cons (.not Nat.lt_succ_iff _) (sampleChecks_means _ _ _ _))
    (.cons ⟨decide_eq_true_iff, rfl⟩ .nil)

theorem ChannelSetBody.check_firstFailing (b : ChannelSetBody) : FirstFailing
    [(¬b.channel ≤ 63, 32, 0), (b.hasState = true ∧ ¬b.state ≤ 1, 40, 0), (b.hasPark = true ∧ ¬b.park ≤ 2, 41, 0),
     (b.hasComp = true ∧ ¬b.comp ≤ 1, 42, 0), (b.hasTrim = true ∧ ¬b.trim ≤ 127, 43, 0),
     (b.hasBaseline = true ∧ ¬b.baselineAction ≤ 2, 44, 0)] b.check :=
  firstFailing_of_means <| .cons (.not Nat.lt_succ_iff _) <| .cons (.guarded _ (.not Iff.rfl _)) <|
    .cons (.guarded _ (.not Iff.rfl _)) <| .cons (.guarded _ (.not Iff.rfl _)) <| .cons (.guarded _ (.not Iff.rfl _)) <|
    .cons (.guarded _ (.not Iff.rfl _)) .nil

theorem ProfileSetBody.check_firstFailing (b : ProfileSetBody) : FirstFailing
    ((((List.range 16).zip b.profiles).flatMap fun x =>
        [(b.mask.getLsbD x.1 = true ∧ ¬(2 ≤ x.2.high ∧ x.2.high ≤ 16), 48, x.1),
         (b.mask.getLsbD x.1 = true ∧ ¬(2 ≤ x.2.low ∧ x.2.low ≤ 16), 49, x.1)])
      ++ [(b.hopWrite = true ∧ ¬(1 ≤ b.hopSet ∧ b.hopSet ≤ 7), 50, 0),
          (b.hopWrite = true ∧ ¬(1 ≤ b.hopLength ∧ b.hopLength ≤ 24), 51, 0)]
      ++ (((List.range 24).zip (b.hopEntries.take b.hopLength)).map fun x =>
        (b.hopWrite = true ∧ ¬x.2 ≤ 15, 52, x.1))) b.check := by
  refine firstFailing_of_means (List.rel_append (List.rel_append (forall₂_flatten _ fun x => ?_) ?_) ?_)
  · exact .cons (.guarded _ (.notWithin 2 x.2.high 16 _)) <| .cons (.guarded _ (.notWithin 2 x.2.low 16 _)) .nil
  · exact .cons (.guarded _ (.notWithin 1 b.hopSet 7 _)) <| .cons (.guarded _ (.notWithin 1 b.hopLength 24 _)) .nil
  · refine List.forall₂_map_left_iff.2 (List.forall₂_map_right_iff.2 (List.forall₂_same.2 fun x _ => ?_))
    exact .guarded _ (.not Nat.lt_succ_iff _)

theorem WatchAddBody.check_firstFailing (b : WatchAddBody) : FirstFailing
    (samplingFields b.n b.settle b.hop b.ceiling
      ++ [(b.upper = some 0, 57, 0), (b.lower = some 0, 58, 0), (b.upper = none ∧ b.lower = none, 59, 0),
          (¬b.hysteresis ≤ 4095, 60, 0), (¬(1 ≤ b.persistence ∧ b.persistence ≤ 15), 61, 0), (¬b.shift ≤ 15, 62, 0)])
    b.check :=
  firstFailing_of_means <| List.rel_append (sampleChecks_means b.n b.settle b.hop b.ceiling) <|
    .cons ⟨beq_iff_eq, rfl⟩ <| .cons ⟨beq_iff_eq, rfl⟩ <| .cons ⟨by simp, rfl⟩ <| .cons (.not Iff.rfl _) <|
    .cons (.notWithin 1 b.persistence 15 _) <| .cons (.not Iff.rfl _) .nil

/-! ### Items (R68, R83) -/

/-- R68: the checks of one item descriptor. -/
def RawItem.fields (x : RawItem × Nat) : List (Prop × Nat × Nat) :=
  [(x.1.kind ≠ 1 ∧ x.1.kind ≠ 2, 22, x.2), (x.1.kind = 1 ∧ ¬x.1.sel ≤ 63, 23, x.2),
   (x.1.kind = 2 ∧ ¬x.1.sel ≤ 7, 24, x.2),
   (x.1.kind = 2 ∧ ¬∃ i j : Nat, i < j ∧ j < 8 ∧ x.1.mask.getLsbD i = true ∧ x.1.mask.getLsbD j = true, 25, x.2)]

/-- The failure that a check of item descriptors answers. -/
def failureOf {α : Type} : Except (Nat × Nat) α → Option (Nat × Nat)
  | .error e => some e
  | .ok _ => none

theorem maskBits_pairwise (mask : Byte) : (maskBits mask).Pairwise (· < ·) :=
  List.Pairwise.filter _ (by decide)

/-- R83: a mask that sets two bits. -/
theorem two_le_maskBits (mask : Byte) : ¬(maskBits mask).length < 2 ↔
    ∃ i j : Nat, i < j ∧ j < 8 ∧ mask.getLsbD i = true ∧ mask.getLsbD j = true := by
  have hmem : ∀ i, i ∈ maskBits mask ↔ i < 8 ∧ mask.getLsbD i = true := fun i => mem_maskBits
  have hsorted := maskBits_pairwise mask
  constructor
  · intro hlength
    match hb : maskBits mask with
    | [] => simp [hb] at hlength
    | [a] => simp [hb] at hlength
    | i :: j :: rest =>
      rw [hb] at hmem hsorted
      obtain ⟨-, hi⟩ := (hmem i).1 (by simp)
      obtain ⟨hj8, hj⟩ := (hmem j).1 (by simp)
      exact ⟨i, j, (List.pairwise_cons.1 hsorted).1 j (by simp), hj8, hi, hj⟩
  · rintro ⟨i, j, hij, hj8, hi, hj⟩ hlength
    have hmi := (hmem i).2 ⟨by omega, hi⟩
    have hmj := (hmem j).2 ⟨hj8, hj⟩
    match hb : maskBits mask with
    | [] => simp [hb] at hmi
    | [a] =>
      rw [hb, List.mem_singleton] at hmi hmj
      omega
    | a :: b :: rest => simp [hb] at hlength

/-- The failure that the check of the descriptor at `i` answers. -/
def failureAt (i : Nat) : Except Nat Item → Option (Nat × Nat)
  | .error code => some (code, i)
  | .ok _ => none

theorem RawItem.check_firstFailing (r : RawItem) (i : Nat) :
    FirstFailing (RawItem.fields (r, i)) (failureAt i r.check) := by
  have hmask := two_le_maskBits r.mask
  simp only [RawItem.fields, firstFailing_cons, firstFailing_nil, ← hmask, RawItem.check]
  by_cases hsingle : r.kind = 1
  · by_cases hsel : r.sel < 64
    · simp [hsingle, hsel, Nat.le_of_lt_succ hsel, failureAt]
    · simp [hsingle, hsel, show 63 < r.sel by omega, failureAt]
  · by_cases hgang : r.kind = 2
    · by_cases hsel : 8 ≤ r.sel
      · simp [hgang, hsel, show 7 < r.sel by omega, failureAt]
      · by_cases hbits : (maskBits r.mask).length < 2
        · simp [hgang, hsel, show r.sel ≤ 7 by omega, hbits, failureAt]
        · simp [hgang, hsel, show r.sel ≤ 7 by omega, hbits, failureAt]
    · simp [hsingle, hgang, failureAt]

theorem failureOf_checkItems_cons (i : Nat) (r : RawItem) (l : List RawItem) :
    failureOf (checkItems i (r :: l)) = (failureAt i r.check).or (failureOf (checkItems (i + 1) l)) := by
  simp only [checkItems]
  cases r.check with
  | error code => rfl
  | ok item => cases checkItems (i + 1) l <;> rfl

/-- R68, R72: the item checks of a list. -/
theorem checkItems_firstFailing (l : List RawItem) (i : Nat) :
    FirstFailing ((l.zipIdx i).flatMap RawItem.fields) (failureOf (checkItems i l)) := by
  induction l generalizing i with
  | nil => exact firstFailing_nil.2 rfl
  | cons r l ih =>
    rw [List.zipIdx_cons, List.flatMap_cons, failureOf_checkItems_cons]
    exact (r.check_firstFailing i).append (ih (i + 1))

theorem checkItems_ok {l : List RawItem} {i : Nat} {items : List Item} (h : checkItems i l = .ok items) :
    List.Forall₂ (fun r item => r.check = .ok item) l items := by
  induction l generalizing i items with
  | nil =>
    cases h
    exact .nil
  | cons r l ih =>
    unfold checkItems at h
    split at h
    · cases h
    · split at h
      · cases h
      · cases h
        exact .cons ‹_› (ih ‹_›)

/-- R83: the item that a checked descriptor names. -/
theorem RawItem.check_ok {r : RawItem} {item : Item} (h : r.check = .ok item) :
    (r.kind = 1 → ∃ ch : Chan, item = .single ch ∧ ch.val = r.sel)
      ∧ (r.kind = 2 → ∃ g : Group, item = .gang g r.mask ∧ g.val = r.sel) := by
  unfold RawItem.check at h
  split_ifs at h with hsingle hsel hgang hgroup hbits <;> cases h
  · exact ⟨fun _ => ⟨_, rfl, Nat.mod_eq_of_lt hsel⟩, fun h => by omega⟩
  · exact ⟨fun h => absurd h hsingle, fun _ => ⟨_, rfl, Nat.mod_eq_of_lt (by omega)⟩⟩

/-- R68, R83: the items of a list that passes its checks. -/
theorem checkItems_items {l : List RawItem} {i : Nat} {items : List Item} (h : checkItems i l = .ok items) :
    items.length = l.length ∧ ∀ (j : Nat) (x : RawItem), l[j]? = some x → ∃ item, items[j]? = some item
      ∧ (x.kind = 1 → ∃ ch : Chan, item = .single ch ∧ ch.val = x.sel)
      ∧ (x.kind = 2 → ∃ g : Group, item = .gang g x.mask ∧ g.val = x.sel) := by
  obtain ⟨hlength, hget⟩ := List.forall₂_iff_get.1 (checkItems_ok h)
  refine ⟨hlength.symm, fun j x hx => ?_⟩
  obtain ⟨hj, rfl⟩ := List.getElem?_eq_some_iff.1 hx
  have hj' : j < items.length := hlength ▸ hj
  exact ⟨items[j], List.getElem?_eq_getElem hj', RawItem.check_ok (hget j hj hj')⟩

/-- R68: the checks of a MEASURE body; inline items are checked last, and an external list when it arrives. -/
theorem MeasureBody.check_firstFailing (b : MeasureBody) (external : Bool) : FirstFailing
    ([(¬(1 ≤ b.itemCount ∧ b.itemCount ≤ (if external then 32 else 8)), 16, 0)]
      ++ samplingFields b.n b.settle b.hop b.ceiling
      ++ (if external then [(b.listAddr.toNat % 4 ≠ 0, 21, 0)]
          else (b.inlineItems.take b.itemCount).zipIdx.flatMap RawItem.fields)) (b.check external) := by
  have hfields := firstFailing_of_means
    (.cons (.notWithin 1 b.itemCount (if external then 32 else 8) (16, 0)) (sampleChecks_means b.n b.settle b.hop b.ceiling))
  have hcheck : b.check external = (firstFailure ((!(1 ≤ b.itemCount && b.itemCount ≤ (if external then 32 else 8)), 16, 0)
      :: sampleChecks b.n b.settle b.hop b.ceiling)).or
        (if external then firstFailure [(b.listAddr.toNat % 4 != 0, 21, 0)]
          else failureOf (checkItems 0 (b.inlineItems.take b.itemCount))) := by
    simp only [MeasureBody.check, firstFailure_append]
    generalize firstFailure (_ :: _) = first
    cases first with
    | some e => rfl
    | none =>
      cases external with
      | true => cases b.listAddr.toNat % 4 != 0 <;> rfl
      | false => cases checkItems 0 (b.inlineItems.take b.itemCount) <;> rfl
  rw [hcheck]
  refine hfields.append ?_
  cases external with
  | true => exact firstFailing_of_means (.cons ⟨bne_iff_ne, rfl⟩ .nil)
  | false => exact checkItems_firstFailing _ 0

/-! ### The common checks and the order of an admission (R65 to R69) -/

theorem Body.isMeasure_iff (b : Body) : b.isMeasure = false ↔ ∀ m, b ≠ .measure m := by
  cases b <;> simp [Body.isMeasure]

theorem Body.writesResult_iff (b : Body) :
    b.writesResult = true ↔ (∃ m, b = .measure m) ∨ (∃ t, b = .trim t) ∨ b = .watchQuery := by
  cases b <;> simp [Body.writesResult]

theorem Request.commonCheck_firstFailing (r : Request) : FirstFailing
    [(r.body = .unknown, 1, 0),
     ((∀ b, r.body ≠ .measure b)
        ∧ (r.flags.keepSamples = true ∨ r.flags.setBaseline = true ∨ r.flags.externalList = true), 2, 0),
     (((∃ b, r.body = .measure b) ∨ (∃ b, r.body = .trim b) ∨ r.body = .watchQuery) ∧ r.resultAddr.toNat % 4 ≠ 0, 3, 0)]
    r.commonCheck := by
  refine firstFailing_of_means <| .cons ⟨beq_iff_eq, rfl⟩ <| .cons ⟨?_, rfl⟩ <| .cons ⟨?_, rfl⟩ .nil
  · simp only [Bool.and_eq_true, Bool.not_eq_true', Body.isMeasure_iff, Bool.or_eq_true, or_assoc]
  · simp only [Bool.and_eq_true, Body.writesResult_iff, bne_iff_ne]

theorem commonCheck_kind {r : Request} (hb : r.body = .unknown) : r.commonCheck = some (1, 0) :=
  (firstFailing_cons.1 r.commonCheck_firstFailing).1 hb

theorem commonCheck_flags {r : Request} (hb : r.body ≠ .unknown) (hm : r.body.isMeasure = false)
    (hf : (r.flags.keepSamples || r.flags.setBaseline || r.flags.externalList) = true) : r.commonCheck = some (2, 0) := by
  obtain ⟨-, hkind⟩ := firstFailing_cons.1 r.commonCheck_firstFailing
  rw [Bool.or_eq_true, Bool.or_eq_true, or_assoc] at hf
  exact (firstFailing_cons.1 (hkind hb)).1 ⟨(Body.isMeasure_iff _).1 hm, hf⟩

theorem commonCheck_address {r : Request} {b : TrimBody} (hb : r.body = .trim b)
    (hf : (r.flags.keepSamples || r.flags.setBaseline || r.flags.externalList) = false)
    (ha : r.resultAddr.toNat % 4 ≠ 0) : r.commonCheck = some (3, 0) := by
  obtain ⟨-, hkind⟩ := firstFailing_cons.1 r.commonCheck_firstFailing
  obtain ⟨-, hflags⟩ := firstFailing_cons.1 (hkind (by rw [hb]; exact nofun))
  refine (firstFailing_cons.1 (hflags fun ⟨_, h⟩ => ?_)).1 ⟨.inr (.inl ⟨b, hb⟩), ha⟩
  rw [← or_assoc, ← Bool.or_eq_true, ← Bool.or_eq_true, hf] at h
  cases h

theorem admissionFailure_tagHeld {q : QueueId} {r : Request} (h : tagHeld s q r.tag = true) :
    admissionFailure s q r = some (.tagInUse, .zero) := by
  rw [admissionFailure, if_pos h]

/-- R65, R67: a common check, or else a body check, that fails. -/
theorem admissionFailure_field {q : QueueId} {r : Request} {code index : Nat} (htag : tagHeld s q r.tag = false)
    (h : r.commonCheck.or r.bodyCheck = some (code, index)) :
    admissionFailure s q r = some (.invalidRequest, .field code index) := by
  cases hcommon : r.commonCheck with
  | some e =>
    rw [hcommon, Option.some_or] at h
    cases h
    simp [admissionFailure, htag, hcommon]
  | none =>
    rw [hcommon, Option.none_or] at h
    simp [admissionFailure, htag, hcommon, h]

/-- R65, R69: the result length is checked last. -/
theorem admissionFailure_length {q : QueueId} {r : Request} {needed : Nat} (htag : tagHeld s q r.tag = false)
    (h : r.commonCheck.or r.bodyCheck = none) (hneeded : r.requiredLength = some needed) : admissionFailure s q r
      = if r.resultLength < needed then some (.bufferTooSmall, .length needed) else none := by
  obtain ⟨hcommon, hbody⟩ := Option.or_eq_none_iff.1 h
  simp [admissionFailure, htag, hcommon, hbody, hneeded]

theorem admissionFailure_passes {q : QueueId} {r : Request} (htag : tagHeld s q r.tag = false)
    (h : r.commonCheck.or r.bodyCheck = none) (hneeded : r.requiredLength = none) : admissionFailure s q r = none := by
  obtain ⟨hcommon, hbody⟩ := Option.or_eq_none_iff.1 h
  simp [admissionFailure, htag, hcommon, hbody, hneeded]

/-- R69: the sample area in bytes. -/
theorem sampleArea_eq (keep : Bool) (n : Nat) :
    sampleArea keep n = if keep then 2 * n + (if n % 2 = 0 then 0 else 2) else 0 := by
  unfold sampleArea
  split
  · split <;> omega
  · rfl

theorem requiredLength_trim {r : Request} {b : TrimBody} (hb : r.body = .trim b) : r.requiredLength = some 48 := by
  rw [Request.requiredLength, hb]
  rfl

/-- R69: the required length of a MEASURE result. -/
theorem requiredLength_measure {r : Request} {b : MeasureBody} (hb : r.body = .measure b) : r.requiredLength = some
    (16 + (16 + (if r.flags.keepSamples then 2 * b.n + (if b.n % 2 = 0 then 0 else 2) else 0)) * b.itemCount) := by
  rw [Request.requiredLength, hb, ← sampleArea_eq]
  rfl

/-! ### The fields of a record at their positions (11.3) -/

theorem bit_byteAt (bs : List Byte) (off i : Nat) : bit (byteAt bs off) i = (bs.getD off 0).getLsbD i := by
  rw [bit, byteAt, BitVec.getLsbD, Nat.testBit_eq_decide_div_mod_eq]
  rfl

theorem wordAt_eq (bs : List Byte) (off : Nat) : wordAt bs off
    = byteAt bs off + 2 ^ 8 * byteAt bs (off + 1) + 2 ^ 16 * byteAt bs (off + 2) + 2 ^ 24 * byteAt bs (off + 3) := by
  simp only [wordAt, halfAt, Nat.add_assoc, Nat.reduceAdd]
  omega

/-- 11.3: a profile byte holds both counts. -/
theorem Profile.ofByte_byteAt (bs : List Byte) (off : Nat) :
    Profile.ofByte (byteAt bs off) = { high := byteAt bs off % 16 + 1, low := byteAt bs off / 16 + 1 } := by
  have hbyte : byteAt bs off < 256 := (bs.getD off 0).isLt
  rw [Profile.ofByte, Nat.mod_eq_of_lt (a := byteAt bs off / 16) (by omega)]

/-- R59, 11.3: the body selected by the kind byte. -/
theorem Body.ofBytes_eq (bs : List Byte) : Body.ofBytes bs =
    if byteAt bs 0 = 1 then .measure (MeasureBody.ofBytes bs)
    else if byteAt bs 0 = 2 then .trim (TrimBody.ofBytes bs)
    else if byteAt bs 0 = 3 then .channelSet (ChannelSetBody.ofBytes bs)
    else if byteAt bs 0 = 4 then .profileSet (ProfileSetBody.ofBytes bs)
    else if byteAt bs 0 = 5 then .watchAdd (WatchAddBody.ofBytes bs)
    else if byteAt bs 0 = 6 then .watchRemove (byteAt bs 12)
    else if byteAt bs 0 = 7 then .watchQuery
    else if byteAt bs 0 = 8 then .watchTiming (halfAt bs 12)
    else if byteAt bs 0 = 9 then .converterSet (byteAt bs 12) (byteAt bs 13)
    else if byteAt bs 0 = 10 then .abort (byteAt bs 12) (byteAt bs 13) (halfAt bs 14)
    else .unknown := by
  unfold Body.ofBytes
  split <;> simp_all

/-- Settles O19. -/
theorem admissionChecks : Obligations.AdmissionChecks := by
  unfold Obligations.AdmissionChecks
  intro within sampling twoChannels itemChecks bodyChecks writesResult fieldChecks
  have hbodyChecks : ∀ r : Request, FirstFailing (bodyChecks r) r.bodyCheck := by
    rintro ⟨kind, flags, tag, addr, length, body⟩
    cases body with
    | measure b => exact b.check_firstFailing flags.externalList
    | trim b => exact b.check_firstFailing
    | channelSet b => exact b.check_firstFailing
    | profileSet b => exact b.check_firstFailing
    | watchAdd b =>
      exact firstFailing_of_means (.cons (.not Nat.lt_succ_iff _) (.cons (.not Nat.lt_succ_iff _) .nil))
    | watchRemove id => exact firstFailing_of_means (.cons (.not Nat.lt_succ_iff _) .nil)
    | watchQuery => exact firstFailing_nil.2 rfl
    | watchTiming period => exact firstFailing_of_means (.cons (.not Iff.rfl _) .nil)
    | converterSet v action =>
      exact firstFailing_of_means (.cons (.not Nat.lt_succ_iff _) (.cons (.notWithin 1 action 3 _) .nil))
    | abort queue scope tag =>
      exact firstFailing_of_means (.cons (.not Nat.lt_succ_iff _) (.cons ⟨by simp, rfl⟩ .nil))
    | unknown => exact firstFailing_nil.2 rfl
  refine ⟨fun bytes => ?_, fun s q r => ?_, fun b => b.check_firstFailing, fun l => ?_⟩
  · intro at1 at2 at4 flag item
    refine ⟨fun _ => rfl, ?_⟩
    simp only [Request.ofBytes, Body.ofBytes_eq, MeasureBody.ofBytes, ChannelSetBody.ofBytes, ProfileSetBody.ofBytes,
      WatchAddBody.ofBytes, Flags.ofByte, bit_byteAt, wordAt_eq, Profile.ofByte_byteAt]
    rfl
  · intro passesCommon
    have hpasses : passesCommon → tagHeld s q r.tag = false ∧ r.commonCheck.or r.bodyCheck = none :=
      fun ⟨htag, hcommon, hbody⟩ => ⟨htag, Option.or_eq_none_iff.2 ⟨hcommon, hbody⟩⟩
    have hcommon : ∀ {code index : Nat}, tagHeld s q r.tag = false → r.commonCheck = some (code, index) →
        admissionFailure s q r = some (.invalidRequest, .field code index) := fun htag hc =>
      admissionFailure_field htag (by rw [hc, Option.some_or])
    refine ⟨tagHeld_iff s q r.tag, admissionFailure_tagHeld, fun htag hb => hcommon htag ?_,
      fun htag hb hm hf => hcommon htag ?_, fun b hb htag hf ha => hcommon htag ?_, fun b hb hp => ?_, fun b hb hp => ?_,
      fun period hb hp => ?_, fun code index htag hc hb => ?_, hbodyChecks r, fun htag => ?_⟩
    · exact commonCheck_kind hb
    · exact commonCheck_flags hb hm hf
    · exact commonCheck_address hb hf ha
    · obtain ⟨htag, hfields⟩ := hpasses hp
      exact admissionFailure_length htag hfields (requiredLength_trim hb)
    · obtain ⟨htag, hfields⟩ := hpasses hp
      exact admissionFailure_length htag hfields (requiredLength_measure hb)
    · obtain ⟨htag, hfields⟩ := hpasses hp
      exact admissionFailure_passes htag hfields (by rw [Request.requiredLength, hb])
    · exact admissionFailure_field htag (by rw [hc, Option.none_or, hb])
    · refine ⟨r.commonCheck.or r.bodyCheck, r.commonCheck_firstFailing.append (hbodyChecks r),
        fun code index => admissionFailure_field htag, fun hfields => ?_⟩
      cases hb : r.body with
      | measure b => exact admissionFailure_length htag hfields (requiredLength_measure hb)
      | trim b => exact admissionFailure_length htag hfields (requiredLength_trim hb)
      | _ => exact admissionFailure_passes htag hfields (by rw [Request.requiredLength, hb])
  · have h := checkItems_firstFailing l 0
    refine ⟨fun code index hfail => ?_, fun items hok => ⟨?_, checkItems_items hok⟩⟩
    · rw [hfail] at h
      exact h
    · rw [hok] at h
      exact h

end Sys2Proof.Machine
end

section
/-! SUPPORT. SummaryAndStatus: the counts, the summary and the status of a sample list (R89, R90). -/

namespace Sys2Proof.Machine

variable {n : Nat} {l : List Sample}

/-! ### Counts (R89) -/

theorem mem_goodReadings {r : Nat} : r ∈ goodReadings l ↔ Sample.good r ∈ l := by
  have hone : ∀ x : Sample, x.goodReading = some r ↔ x = .good r := fun x => by
    cases x <;> simp [Sample.goodReading]
  simp [goodReadings, hone]

theorem Sample.isStall_iff (x : Sample) : x.isStall = true ↔ x = .stall := by
  cases x <;> simp [Sample.isStall]

theorem stallTaken_iff (l : List Sample) : stallTaken l = true ↔ Sample.stall ∈ l := by
  simp [stallTaken, Sample.isStall_iff]

/-- Every sample taken is GOOD, CEILING or STALL. -/
theorem length_eq_counts (l : List Sample) : l.length = goodCount l + ceilingCount l + l.countP Sample.isStall := by
  unfold goodCount ceilingCount goodReadings
  induction l with
  | nil => rfl
  | cons x rest ih =>
    cases x <;> simp [List.filterMap_cons, List.countP_cons, Sample.goodReading, Sample.isCeiling, Sample.isStall,
      ih] <;> omega

/-- R7: a STALL ends the run, so a list holds at most one. -/
theorem countP_isStall (h : ∀ x ∈ l.dropLast, x ≠ .stall) :
    l.countP Sample.isStall = if Sample.stall ∈ l then 1 else 0 := by
  rcases List.eq_nil_or_concat l with rfl | ⟨before, last, rfl⟩
  · rfl
  · rw [List.concat_eq_append, List.dropLast_concat] at h
    have hbefore : Sample.stall ∉ before := fun hm => h _ hm rfl
    have hnone : before.countP Sample.isStall = 0 :=
      List.countP_eq_zero.2 fun x hx hs => h x hx (x.isStall_iff.1 hs)
    cases last <;> simp [hbefore, hnone, Sample.isStall]

/-! ### Smallest, largest and mean reading (R89) -/

theorem minOf_least {readings : List Nat} (h : readings ≠ []) :
    minOf readings ∈ readings ∧ ∀ r ∈ readings, minOf readings ≤ r := by
  cases readings with
  | nil => exact absurd rfl h
  | cons x rest => exact List.min?_eq_some_iff.1 List.min?_cons'

theorem maxOf_greatest {readings : List Nat} (h : readings ≠ []) :
    maxOf readings ∈ readings ∧ ∀ r ∈ readings, r ≤ maxOf readings := by
  cases readings with
  | nil => exact absurd rfl h
  | cons x rest =>
    have hmax : maxOf (x :: rest) = rest.foldl max x := by rw [maxOf, List.foldl_cons, Nat.zero_max]
    rw [hmax]
    exact List.max?_eq_some_iff.1 List.max?_cons'

/-- The floor of the mean lies between any bounds of the readings. -/
theorem mean_between {readings : List Nat} {low high : Nat} (h : readings ≠ [])
    (hlow : ∀ r ∈ readings, low ≤ r) (hhigh : ∀ r ∈ readings, r ≤ high) :
    low ≤ readings.sum / readings.length ∧ readings.sum / readings.length ≤ high := by
  have hpos : 0 < readings.length := List.length_pos_iff.2 h
  refine ⟨(Nat.le_div_iff_mul_le hpos).2 ?_, Nat.div_le_of_le_mul ?_⟩
  · rw [Nat.mul_comm]
    exact List.card_nsmul_le_sum readings low hlow
  · exact List.sum_le_card_nsmul readings high hhigh

/-! ### The summary (R89) -/

theorem summaryOf_isSome (l : List Sample) : (summaryOf l).isSome = true ↔
    1 ≤ goodCount l ∧ l.length ≤ 2 * goodCount l ∧ Sample.stall ∉ l := by
  rw [← stallTaken_iff, Bool.not_eq_true]
  unfold summaryOf takenCount
  split <;> simp [*]

theorem summaryOf_eq_some {m : Summary} (h : summaryOf l = some m) : goodReadings l ≠ []
    ∧ m = { mean := (goodReadings l).sum / goodCount l, minimum := minOf (goodReadings l)
            maximum := maxOf (goodReadings l) } := by
  unfold summaryOf at h
  split at h
  · rename_i hpresent
    exact ⟨List.ne_nil_of_length_pos hpresent.1, (Option.some.inj h).symm⟩
  · cases h

/-- R89: a summary spans the GOOD readings, with its mean between the smallest and the largest. -/
theorem summaryOf_spans {m : Summary} (h : summaryOf l = some m) :
    m.mean = (goodReadings l).sum / (goodReadings l).length ∧ m.minimum ∈ goodReadings l ∧ m.maximum ∈ goodReadings l
      ∧ (∀ r ∈ goodReadings l, m.minimum ≤ r ∧ r ≤ m.maximum) ∧ m.minimum ≤ m.mean ∧ m.mean ≤ m.maximum := by
  obtain ⟨hne, rfl⟩ := summaryOf_eq_some h
  obtain ⟨hmin, hleast⟩ := minOf_least hne
  obtain ⟨hmax, hgreatest⟩ := maxOf_greatest hne
  exact ⟨rfl, hmin, hmax, fun r hr => ⟨hleast r hr, hgreatest r hr⟩, mean_between hne hleast hgreatest⟩

/-! ### The item status (R90) -/

theorem runStatus_of_stall (n : Nat) (h : Sample.stall ∈ l) : runStatus n l = .opened := by
  rw [runStatus, if_pos ((stallTaken_iff l).2 h)]

theorem runStatus_of_noStall (n : Nat) (h : Sample.stall ∉ l) : runStatus n l =
    if l.length = n ∧ goodCount l = n then .good else if (summaryOf l).isSome then .degraded else .ceiling := by
  rw [runStatus, if_neg fun ht => h ((stallTaken_iff l).1 ht)]
  rfl

/-- Settles O35. -/
theorem summaryAndStatus : Obligations.SummaryAndStatus := by
  intro n ceiling l hn hlast hceiling hrun g c summary
  have hcounts : l.length = g + c + if Sample.stall ∈ l then 1 else 0 := countP_isStall hlast ▸ length_eq_counts l
  have hsome : summary.isSome = true ↔ 1 ≤ g ∧ l.length ≤ 2 * g ∧ Sample.stall ∉ l := summaryOf_isSome l
  refine ⟨hcounts, hsome, fun m hm => ?_, ?_⟩
  · obtain ⟨hmean, hmin, hmax, hspan, hlow, hhigh⟩ := summaryOf_spans hm
    exact ⟨hmean, hmin, hmax, hspan, hlow, hhigh, hceiling _ (mem_goodReadings.1 hmax)⟩
  · rcases hrun with ⟨hstall, hle⟩ | ⟨hstall, hlen⟩
    · rw [if_pos hstall] at hcounts
      have hnotFull : g < n := by omega
      rw [runStatus_of_stall n hstall]
      simp [hsome, hstall, hnotFull.ne]
    · rw [if_neg hstall] at hcounts
      have hpresent : summary.isSome = true ↔ c ≤ g := by
        rw [hsome, and_iff_left hstall]
        omega
      have hstatus : runStatus n l = if g = n then .good else if c ≤ g then .degraded else .ceiling := by
        rw [runStatus_of_noStall n hstall, if_congr (and_iff_right hlen) rfl (if_congr hpresent rfl rfl)]
        rfl
      rw [hstatus, hpresent]
      by_cases hgood : g = n
      · have hnoCeiling : c = 0 := by omega
        simp [hgood, hlen, hstall, hnoCeiling]
      · have hless : g < n := by omega
        by_cases hle : c ≤ g
        · simp [hgood, hless, hstall, hle]
        · simp [hgood, hstall, hle, Nat.not_le.1 hle]

end Sys2Proof.Machine
end

section
/-! SUPPORT. The MEASURE result byte by byte (R97 to R100, 11.5): its header, an item block, a sample area. -/

namespace Sys2Proof.Machine

/-! ### Bytes of a list put together (11.1) -/

theorem byteAt_past {bs : List Byte} {off : Nat} (h : bs.length ≤ off) : byteAt bs off = 0 := by
  rw [byteAt, List.getD_eq_default _ _ h]
  rfl

theorem byteAt_append_right (bs rest : List Byte) (off : Nat) :
    byteAt (bs ++ rest) (bs.length + off) = byteAt rest off := by
  rw [byteAt, byteAt, List.getD_append_right _ _ _ _ (Nat.le_add_right _ _), Nat.add_sub_cancel_left]

theorem halfAt_append_right (bs rest : List Byte) (off : Nat) :
    halfAt (bs ++ rest) (bs.length + off) = halfAt rest off := by
  rw [halfAt, halfAt, Nat.add_assoc, byteAt_append_right, byteAt_append_right]

theorem byteAt_take {s off : Nat} (h : off < s) (bs : List Byte) : byteAt (bs.take s) off = byteAt bs off := by
  rw [byteAt, byteAt, List.getD_eq_getElem?_getD, List.getD_eq_getElem?_getD, List.getElem?_take_of_lt h]

theorem byteAt_zeros (s off : Nat) : byteAt (zeros s) off = 0 := by
  rw [byteAt, zeros, List.getD_eq_getElem?_getD, List.getElem?_replicate]
  split <;> rfl

theorem byteAt_append_zeros {bs : List Byte} {off : Nat} (h : bs.length ≤ off) (s : Nat) :
    byteAt (bs ++ zeros s) off = 0 := by
  rw [← Nat.add_sub_cancel' h, byteAt_append_right, byteAt_zeros]

/-! ### The sample area (R69, R97, R100) -/

/-- R100: the sample positions of the samples taken. -/
def samplePositions (l : List Sample) : List Byte := (l.map fun x => bytes16 x.position).flatten

theorem sampleAreaBytes_eq (s : Nat) (l : List Sample) :
    sampleAreaBytes s l = (samplePositions l ++ zeros s).take s := rfl

theorem samplePositions_cons (x : Sample) (l : List Sample) :
    samplePositions (x :: l) = bytes16 x.position ++ samplePositions l := rfl

theorem samplePositions_length (l : List Sample) : (samplePositions l).length = 2 * l.length := by
  induction l with
  | nil => rfl
  | cons x rest ih =>
    rw [samplePositions_cons, List.length_append, ih, List.length_cons]
    simp only [bytes16, List.length_cons, List.length_nil]
    omega

theorem halfAt_bytes16 (n : Nat) (rest : List Byte) : halfAt (bytes16 n ++ rest) 0 = n % 65536 := half_field n

theorem halfAt_samplePositions {l : List Sample} {p : Nat} {x : Sample} (h : l[p]? = some x) (rest : List Byte) :
    halfAt (samplePositions l ++ rest) (2 * p) = x.position % 65536 := by
  induction l generalizing p with
  | nil => cases h
  | cons y l ih =>
    rw [samplePositions_cons, List.append_assoc]
    cases p with
    | zero =>
      cases h
      exact halfAt_bytes16 _ _
    | succ p =>
      rw [Nat.mul_succ, Nat.add_comm]
      exact (halfAt_append_right (bytes16 y.position) _ _).trans (ih h)

theorem sampleAreaBytes_length (s : Nat) (l : List Sample) : (sampleAreaBytes s l).length = s := by
  rw [sampleAreaBytes_eq, List.length_take, List.length_append, zeros, List.length_replicate]
  omega

/-- R100: the position of a sample taken holds its reading, and 0 for a STALL. -/
theorem halfAt_sampleAreaBytes {l : List Sample} {s p : Nat} {x : Sample} (h : l[p]? = some x) (hs : 2 * p + 1 < s) :
    halfAt (sampleAreaBytes s l) (2 * p) = x.position % 65536 := by
  rw [sampleAreaBytes_eq, halfAt, byteAt_take (by omega), byteAt_take hs]
  exact halfAt_samplePositions h _

/-- R100: the positions past the samples taken are zero. -/
theorem byteAt_sampleAreaBytes_past {l : List Sample} {off : Nat} (h : 2 * l.length ≤ off) (s : Nat) :
    byteAt (sampleAreaBytes s l) off = 0 := by
  by_cases hs : off < s
  · rw [sampleAreaBytes_eq, byteAt_take hs]
    exact byteAt_append_zeros (by rwa [samplePositions_length]) s
  · exact byteAt_past (by rw [sampleAreaBytes_length]; omega)

/-! ### The header (R98) -/

theorem measureHeader_fields (c : Context) (b : MeasureBody) :
    let header := measureHeader c b
    header.length = 16
      ∧ byteAt header 0 = c.queue.val
      ∧ byteAt header 1 = 2 * flag c.request.flags.keepSamples + 4 * flag c.request.flags.setBaseline
      ∧ halfAt header 2 = c.request.tag % 65536 ∧ byteAt header 4 = b.itemCount % 256 ∧ byteAt header 5 = b.n % 256
      ∧ byteAt header 6 = b.settle % 256 ∧ byteAt header 7 = b.hop % 256 ∧ halfAt header 8 = b.ceiling % 65536
      ∧ byteAt header 10 = sampleArea c.request.flags.keepSamples b.n % 256
      ∧ byteAt header 11 = notGoodCount c.items % 256 ∧ byteAt header 12 = baselinesWritten c.items % 256
      ∧ ∀ off : Nat, 13 ≤ off → byteAt header off = 0 := by
  have hqueue := c.queue.isLt
  have hkeep := flag_le_one c.request.flags.keepSamples
  have hset := flag_le_one c.request.flags.setBaseline
  have hpast : ∀ off : Nat, 13 ≤ off → byteAt (measureHeader c b) off = 0 := fun off h => byteAt_append_zeros h 3
  simp only [measureHeader, byte8, bytes16, zeros, List.replicate, List.cons_append, List.nil_append] at hpast ⊢
  exact ⟨rfl, byte_field (by omega), (byte_field (by omega)).trans (by omega), half_field c.request.tag,
    BitVec.toNat_ofNat b.itemCount 8, BitVec.toNat_ofNat b.n 8, BitVec.toNat_ofNat b.settle 8,
    BitVec.toNat_ofNat b.hop 8, half_field b.ceiling,
    BitVec.toNat_ofNat _ 8, BitVec.toNat_ofNat _ 8, BitVec.toNat_ofNat _ 8, hpast⟩

/-! ### An item block (R99) -/

theorem itemBlock_length (e : ItemEntry) : (itemBlock e).length = 16 := rfl

/-- R91: a delta in two's complement. -/
theorem signed_field (x : Int) :
    (((BitVec.ofNat 8 (x % 65536).toNat).toNat + 256 * (BitVec.ofNat 8 ((x % 65536).toNat / 256)).toNat : Nat) : Int)
      = x % 65536 := by
  rw [half_field]
  omega

theorem ItemStatus.code_lt (st : ItemStatus) : st.code < 6 := by cases st <;> decide

/-- R99: an item block, field by field, whatever follows it. -/
theorem itemBlock_fields (e : ItemEntry) (area : List Byte) :
    let block := itemBlock e ++ area
    let m := summaryOf e.samples
    byteAt block 0 = e.status.elim 0 ItemStatus.code
      ∧ byteAt block 1 = flag (stallTaken e.samples) + 2 * flag e.retryUsed + 4 * flag m.isSome
          + 8 * flag e.delta.isSome + 16 * flag e.baselineWritten
      ∧ byteAt block 2 = e.conv.elim 255 Fin.val
      ∧ byteAt block 3 = takenCount e.samples % 256 ∧ byteAt block 4 = goodCount e.samples % 256
      ∧ byteAt block 5 = ceilingCount e.samples % 256
      ∧ halfAt block 6 = m.elim 0 Summary.mean % 65536 ∧ halfAt block 8 = m.elim 0 Summary.minimum % 65536
      ∧ halfAt block 10 = m.elim 0 Summary.maximum % 65536
      ∧ (halfAt block 12 : Int) = e.delta.getD 0 % 65536 ∧ halfAt block 14 = 0 := by
  have hstall := flag_le_one (stallTaken e.samples)
  have hretry := flag_le_one e.retryUsed
  have hsummary := flag_le_one (summaryOf e.samples).isSome
  have hdelta := flag_le_one e.delta.isSome
  have hwritten := flag_le_one e.baselineWritten
  simp only [itemBlock, signed16, byte8, bytes16, zeros, List.replicate, List.cons_append, List.nil_append]
  refine ⟨(byte_field ?_).trans ?_, (byte_field (by omega)).trans (by omega), (byte_field ?_).trans ?_,
    BitVec.toNat_ofNat _ 8, BitVec.toNat_ofNat _ 8, BitVec.toNat_ofNat _ 8, (half_field _).trans ?_,
    (half_field _).trans ?_, (half_field _).trans ?_, signed_field _, rfl⟩
  · cases e.status with
    | none => decide
    | some st => exact st.code_lt.trans (by decide)
  · cases e.status <;> rfl
  · cases e.conv with
    | none => decide
    | some v => exact v.isLt.trans (by decide)
  · cases e.conv <;> rfl
  all_goals cases summaryOf e.samples <;> rfl

/-! ### The area of an item (R97) -/

/-- R97: the block of an item and its sample area of `area` bytes. -/
def ItemEntry.resultArea (area : Nat) (e : ItemEntry) : List Byte := itemBlock e ++ sampleAreaBytes area e.samples

theorem measureResult_eq (c : Context) (b : MeasureBody) : measureResult c b = measureHeader c b
    ++ (c.items.map (ItemEntry.resultArea (sampleArea c.request.flags.keepSamples b.n))).flatten := rfl

theorem ItemEntry.resultArea_length (area : Nat) (e : ItemEntry) : (e.resultArea area).length = 16 + area := by
  rw [resultArea, List.length_append, itemBlock_length, sampleAreaBytes_length]

theorem ItemEntry.halfAt_resultArea {area p : Nat} {e : ItemEntry} {x : Sample} (h : e.samples[p]? = some x)
    (hp : 2 * p + 1 < area) : halfAt (e.resultArea area) (16 + 2 * p) = x.position % 65536 :=
  (halfAt_append_right (itemBlock e) _ _).trans (halfAt_sampleAreaBytes h hp)

theorem ItemEntry.halfAt_resultArea_past {p : Nat} {e : ItemEntry} (h : e.samples.length ≤ p) (area : Nat) :
    halfAt (e.resultArea area) (16 + 2 * p) = 0 := by
  have hzero : halfAt (sampleAreaBytes area e.samples) (2 * p) = 0 := by
    rw [halfAt, byteAt_sampleAreaBytes_past (by omega), byteAt_sampleAreaBytes_past (by omega)]
  exact (halfAt_append_right (itemBlock e) _ _).trans hzero

end Sys2Proof.Machine
end

section
/-! SUPPORT. ItemEndsNormally: the end of an item job that was not cut (R88 to R92), with the end of its MEASURE
(R75, R96). -/

namespace Sys2Proof.Machine

variable {s t : State}

/-! ### The delta and the baseline (R91, R92) -/

theorem saturate16_eq (x : Int) : saturate16 x = max (-32768) (min 32767 x) := by
  unfold saturate16
  split
  · omega
  · split <;> omega

theorem deltaOf_eq_some {o : Option Summary} {baseline : Option Nat} {m : Summary} {x : Nat} (ho : o = some m)
    (hx : baseline = some x) : deltaOf o baseline = some (max (-32768) (min 32767 ((m.mean : Int) - (x : Int)))) := by
  rw [ho, hx, deltaOf, saturate16_eq]

theorem deltaOf_eq_none {m : Option Summary} {baseline : Option Nat} (h : m = none ∨ baseline = none) :
    deltaOf m baseline = none := by
  rcases h with rfl | rfl
  · rfl
  · cases m <;> rfl

theorem endNormally_gang {e : ItemEntry} {g : Group} {mask : Byte} (h : e.item = .gang g mask) (n : Nat)
    (l : List Sample) (baseline : Option Nat) (set : Bool) : (e.endNormally n l baseline set).delta = none
      ∧ (e.endNormally n l baseline set).baselineWritten = false := by
  simp [ItemEntry.endNormally, h]

theorem endNormally_single {e : ItemEntry} {ch : Chan} (h : e.item = .single ch) (n : Nat) (l : List Sample)
    (baseline : Option Nat) (set : Bool) : (e.endNormally n l baseline set).delta = deltaOf (summaryOf l) baseline
      ∧ (e.endNormally n l baseline set).baselineWritten = (set && (summaryOf l).isSome) := by
  simp [ItemEntry.endNormally, h]

theorem writeBaseline_written {l : List Sample} {m : Summary} (h : summaryOf l = some m) (ch : Chan) (s : State) :
    writeBaseline (.single ch) true l s = s.modChan ch fun x => { x with baseline := some m.mean } := by
  simp only [writeBaseline, h, if_true]

theorem writeBaseline_notAsked (item : Item) (l : List Sample) (s : State) : writeBaseline item false l s = s := by
  unfold writeBaseline
  split <;> rfl

theorem writeBaseline_noSummary {l : List Sample} (h : summaryOf l = none) (item : Item) (set : Bool) (s : State) :
    writeBaseline item set l s = s := by
  cases item <;> simp only [writeBaseline, h]

/-- R92: the entry of an item that ends normally shows the write that SET_BASELINE asks for. -/
theorem writeBaseline_endNormally (e : ItemEntry) (n : Nat) (l : List Sample) (baseline : Option Nat) (set : Bool)
    (s : State) : writeBaseline e.item (e.endNormally n l baseline set).baselineWritten l s
      = writeBaseline e.item set l s := by
  cases hm : summaryOf l with
  | none => rw [writeBaseline_noSummary hm, writeBaseline_noSummary hm]
  | some m =>
    cases hitem : e.item with
    | single ch => rw [(endNormally_single hitem n l baseline set).2, hm, Option.isSome_some, Bool.and_true]
    | gang g mask => rfl

/-- R92: the baseline of any other channel stays. -/
theorem writeBaseline_other {item : Item} {ch : Chan} (h : item ≠ .single ch) (written : Bool) (l : List Sample)
    (s : State) : (writeBaseline item written l s).channels[ch] = s.channels[ch] := by
  unfold writeBaseline
  split
  · split
    · rw [modChan_get, if_neg fun hc => h (by rw [hc])]
    · rfl
  · rfl

theorem writeBaseline_contexts (item : Item) (written : Bool) (l : List Sample) (s : State) :
    (writeBaseline item written l s).contexts = s.contexts := by
  unfold writeBaseline
  split
  · split <;> rfl
  · rfl

/-! ### The item table and the end of the MEASURE (R75) -/

variable {k : CtxId} {i : Nat} {c : Context} {b : MeasureBody} {e : ItemEntry}

/-- The item table outlasts the end of the work. -/
theorem ItemsBecome.items {items : List ItemEntry} (h : ItemsBecome k c b items s t) :
    ∃ d, t.contexts[k] = some d ∧ d.items = items := by
  by_cases hall : ∀ e ∈ items, e.job = .ended
  · have hends := h.2 hall
    cases hc : c.endCause with
    | none => exact ⟨_, (hends.normal hc).1, rfl⟩
    | some cause => exact ⟨_, (hends.early cause.1 cause.2 hc).1, rfl⟩
  · rw [h.1 (by simpa using hall)]
    exact ⟨_, Vector.getElem_set_self _, rfl⟩

/-- R50: the end of the work releases claims and leaves the baselines. -/
theorem ItemsBecome.baseline {items : List ItemEntry} (h : ItemsBecome k c b items s t) (ch : Chan) :
    t.channels[ch].baseline = s.channels[ch].baseline := by
  by_cases hall : ∀ e ∈ items, e.job = .ended
  · rw [(h.2 hall).released ch, Channel.releasedBy]
    split <;> rfl
  · rw [h.1 (by simpa using hall)]

/-- R88: what the normal end of an item is made of: the write of the baseline, then the entry in the item table. -/
theorem itemNormalEnd_itemsBecome (hk : s.contexts[k] = some c) (hb : c.request.body = .measure b)
    (he : c.items[i]? = some e) (l : List Sample) :
    let e' := e.endNormally b.n l (itemBaseline s e.item) c.request.flags.setBaseline
    ItemsBecome k c b (c.items.set i e') (writeBaseline e.item c.request.flags.setBaseline l s)
      (itemNormalEnd k i l s) := by
  intro e'
  have heq : itemNormalEnd k i l s = measureWorkEnd k
      (modItem k i (fun _ => e') (writeBaseline e.item c.request.flags.setBaseline l s)) := by
    simp only [itemNormalEnd, hk, hb, he, e', writeBaseline_endNormally]
  have hk' : (writeBaseline e.item c.request.flags.setBaseline l s).contexts[k] = some c := by
    rw [writeBaseline_contexts, hk]
  rw [heq]
  exact itemEnd_itemsBecome hk' hb he fun _ => e'

/-- R92: SET_BASELINE writes the mean to the channel of a SINGLE item. -/
theorem itemNormalEnd_writesBaseline {l : List Sample} {ch : Chan} {m : Summary} (hk : s.contexts[k] = some c)
    (hb : c.request.body = .measure b) (he : c.items[i]? = some e) (hch : e.item = .single ch)
    (hset : c.request.flags.setBaseline = true) (hm : summaryOf l = some m) :
    (itemNormalEnd k i l s).channels[ch].baseline = some m.mean := by
  rw [(itemNormalEnd_itemsBecome hk hb he l).baseline ch, hch, hset, writeBaseline_written hm, modChan_get, if_pos rfl]

/-- R92: every other baseline stays. -/
theorem itemNormalEnd_keepsBaseline {l : List Sample} {ch : Chan} (hk : s.contexts[k] = some c)
    (hb : c.request.body = .measure b) (he : c.items[i]? = some e)
    (h : e.item ≠ .single ch ∨ (c.request.flags.setBaseline && (summaryOf l).isSome) = false) :
    (itemNormalEnd k i l s).channels[ch].baseline = s.channels[ch].baseline := by
  rw [(itemNormalEnd_itemsBecome hk hb he l).baseline ch]
  rcases h with hch | hw
  · rw [writeBaseline_other hch]
  · rcases Bool.and_eq_false_iff.1 hw with hset | hm
    · rw [hset, writeBaseline_notAsked]
    · rw [writeBaseline_noSummary (by simpa using hm)]

/-! ### The converter moves on (R8) -/

/-- R8: a release resolves the mark, if there is one. -/
theorem releaseConverter_eq (v : ConvId) (s : State) :
    let freed := s.modConv v fun x => { x with state := .idle, job := none }
    releaseConverter v s = if s.converters[v].mark = none then freed else resolveMark v freed := by
  intro freed
  have hmark : freed.converters[v].mark = s.converters[v].mark := by rw [modConv_get, if_pos rfl]
  split
  · rename_i hm
    rw [releaseConverter, resolveMark, hmark, hm]
  · rfl

/-- R10: a mark reaches no context but its owner. -/
theorem resolveMark_otherContext {v : ConvId} (h : ∀ m, s.converters[v].mark = some m → m.owner ≠ k) :
    (resolveMark v s).contexts[k] = s.contexts[k] := by
  unfold resolveMark
  split
  · rfl
  · rename_i m hm
    have hne : k ≠ m.owner := (h m hm).symm
    split
    · rw [completeContext, modCtx_other hne, changeConvState_same]
      rfl
    · split
      · rfl
      · exact modCtx_other hne _

theorem releaseConverter_otherContext {v : ConvId} (h : ∀ m, s.converters[v].mark = some m → m.owner ≠ k) :
    (releaseConverter v s).contexts[k] = s.contexts[k] := by
  refine resolveMark_otherContext fun m hm => h m ?_
  rwa [modConv_get, if_pos rfl] at hm

/-- R8: an entry that has ended is the one the context shows after the release and the arbiters. -/
theorem finish_release_entry {v : ConvId} {d : Context}
    (hmark : ∀ m, s.converters[v].mark = some m → m.owner ≠ k) (hd : s.contexts[k] = some d) (he : d.items[i]? = some e)
    (hended : e.job = .ended) :
    ∃ d', (finish (releaseConverter v s)).contexts[k] = some d' ∧ d'.items[i]? = some e := by
  obtain ⟨d', hd', hkept⟩ := (finish_arbitrated (releaseConverter v s)).contextUsed k d
    ((releaseConverter_otherContext hmark).trans hd)
  exact ⟨d', hd', hkept.startedItem he (by simp [hended])⟩

/-- R8, R88: the end of the discharge interval of an item job that was not cut. -/
theorem dischargeEnd_item {v : ConvId} {j : Job} (hst : s.converters[v].state = .discharging)
    (hj : s.converters[v].job = some j) (ho : j.owner = .item k i) (hcut : j.cut = false) :
    dischargeEnd v s = finish (releaseConverter v (itemNormalEnd k i j.samples s)) := by
  rw [dischargeEnd_eq hst hj, finishJobEnd_finish fun l hl => by rw [ho] at hl; cases hl]
  simp only [handOver, ho, hcut]

/-- Settles O30. -/
theorem itemEndsNormally : Obligations.ItemEndsNormally := by
  refine ⟨?_, ?_⟩
  · intro s v j k i c b e hst hj ho hcut hmark hk _ hb he summary writes freed moveOn baselined
    have hbecome := itemNormalEnd_itemsBecome hk hb he j.samples
    have hconv := (itemNormalEnd_workedFor k i j.samples s).converters
    have hworked := itemNormalEnd_worked (s := s) k i j.samples
    have hexec := (exec_eq (.dischargeEnd v) s).trans (congrArg _ (dischargeEnd_item hst hj ho hcut))
    have hmove : releaseConverter v (itemNormalEnd k i j.samples s) = moveOn (itemNormalEnd k i j.samples s) := by
      rw [releaseConverter_eq, hconv]
    obtain ⟨d, hd, hitems⟩ := hbecome.items
    obtain ⟨d', hd', hentry⟩ := finish_release_entry (i := i) (by rwa [hconv]) hd
      (by rw [hitems, List.getElem?_set_self (List.getElem?_eq_some_iff.1 he).1]) rfl
    have hsingle := fun ch (h : e.item = .single ch) =>
      endNormally_single h b.n j.samples (itemBaseline s e.item) c.request.flags.setBaseline
    refine ⟨_, d', _, hexec, hd', hentry, rfl, rfl, rfl, rfl, rfl, rfl, fun g mask hg => endNormally_gang hg _ _ _ _,
      fun ch hch => ⟨(hsingle ch hch).2, fun m x hm hx => ?_, fun hnone => ?_⟩, fun ch m hch hw hm => ?_,
      fun ch hch => itemNormalEnd_keepsBaseline hk hb he hch, ?_, _, ?_, congrArg finish hmove⟩
    · rw [(hsingle ch hch).1, hch]
      exact deltaOf_eq_some hm hx
    · rw [(hsingle ch hch).1, hch]
      exact deltaOf_eq_none hnone
    · exact itemNormalEnd_writesBaseline hk hb he hch (Bool.and_eq_true_iff.1 hw).1 hm
    · exact (hworked.trans ((Worked.ofModConv v _).trans (resolveMark_worked v))).trans finish_worked
    · exact hbecome
  · intro c b one keeps area
    obtain ⟨hlen, hqueue, hflags, htag, hcount, hn, hsettle, hhop, hceiling, harea, hnotGood, hwritten, hpast⟩ :=
      measureHeader_fields c b
    have hsize : sampleArea keeps b.n = area := sampleArea_eq keeps b.n
    refine ⟨measureHeader c b, c.items.map (ItemEntry.resultArea area), ?_, hlen, hqueue, hflags, htag, hcount, hn,
      hsettle, hhop, hceiling, ?_, ?_, hwritten, hpast, List.length_map _, fun i e block he hblock => ?_⟩
    · rw [measureResult_eq, ← hsize]
    · rw [harea, ← hsize]
    · rw [hnotGood, notGoodCount_eq]
    intro summary
    obtain rfl : e.resultArea area = block := by simpa [he] using hblock
    obtain ⟨hstatus, hbits, hconv, htaken, hgood, hceil, hmean, hmin, hmax, hdelta, hreserved⟩ :=
      itemBlock_fields e (sampleAreaBytes area e.samples)
    refine ⟨e.resultArea_length area, hstatus.trans ?_, hbits, hconv.trans ?_, htaken, hgood, hceil,
      fun m hm => ?_, fun hm => ?_, hdelta, hreserved, fun p x hx hp => (ItemEntry.halfAt_resultArea hx hp).trans ?_,
      fun p hp => ItemEntry.halfAt_resultArea_past hp area⟩
    · cases e.status with
      | none => rfl
      | some st => cases st <;> rfl
    · cases e.conv <;> rfl
    · change summaryOf e.samples = some m at hm
      rw [hm] at hmean hmin hmax
      exact ⟨hmean, hmin, hmax⟩
    · change summaryOf e.samples = none at hm
      rw [hm] at hmean hmin hmax
      exact ⟨hmean, hmin, hmax⟩
    · cases x <;> rfl

end Sys2Proof.Machine
end

section
/-! SUPPORT. TrimDecision: the class of a trial (R108), the decision on its bit (R109), the next trial (R107), and the
trims that the search reaches. -/

namespace Sys2Proof.Machine

variable {s : State} {n low high : Nat} {l : List Sample}

/-! ### The class of a trial (R108) -/

theorem runStatus_opened_iff : runStatus n l = .opened ↔ Sample.stall ∈ l := by
  refine ⟨fun h => ?_, runStatus_of_stall n⟩
  by_contra hstall
  rw [runStatus_of_noStall n hstall] at h
  split at h
  · cases h
  · split at h <;> cases h

theorem summaryOf_of_stall (h : Sample.stall ∈ l) : summaryOf l = none :=
  Option.not_isSome_iff_eq_none.1 fun hsome => ((summaryOf_isSome l).1 hsome).2.2 h

/-- R90: a run is OPEN or CEILING without a summary, or GOOD or DEGRADED with one. -/
theorem runStatus_cases (hn : 1 ≤ n) (l : List Sample) :
    (runStatus n l = .opened ∧ summaryOf l = none) ∨ (runStatus n l = .ceiling ∧ summaryOf l = none)
      ∨ ∃ m, summaryOf l = some m ∧ (runStatus n l = .good ∨ runStatus n l = .degraded) := by
  by_cases hstall : Sample.stall ∈ l
  · exact .inl ⟨runStatus_opened_iff.2 hstall, summaryOf_of_stall hstall⟩
  rw [runStatus_of_noStall n hstall]
  refine .inr ?_
  cases hm : summaryOf l with
  | none =>
    have hnotGood : ¬(l.length = n ∧ goodCount l = n) := fun ⟨hlen, hgood⟩ => by
      have hsome := (summaryOf_isSome l).2 ⟨by omega, by omega, hstall⟩
      simp [hm] at hsome
    exact .inl ⟨if_neg hnotGood, rfl⟩
  | some m =>
    refine .inr ⟨m, rfl, ?_⟩
    split
    · exact .inl rfl
    · exact .inr rfl

/-- R108: the class of a mean against the window. -/
def classOfMean (low high m : Nat) : TrialClass :=
  if high < m then .tooHigh else if m < low then .tooLow else .inWindow

theorem classOfMean_iff (h : low ≤ high) (m : Nat) : (classOfMean low high m = .tooHigh ↔ high < m)
    ∧ (classOfMean low high m = .inWindow ↔ low ≤ m ∧ m ≤ high) ∧ (classOfMean low high m = .tooLow ↔ m < low) := by
  unfold classOfMean
  split
  · simp; omega
  · split <;> simp <;> omega

theorem classify_mean {status : ItemStatus} (h : status = .good ∨ status = .degraded) (m : Nat) :
    classify low high status (some m) = some (classOfMean low high m) := by
  rcases h with rfl | rfl <;> simp only [classify, classOfMean] <;> split_ifs <;> rfl

/-- R108: the three ways a trial is classified. -/
theorem classify_cases (hn : 1 ≤ n) (low high : Nat) (l : List Sample) :
    let cls := classify low high (runStatus n l) ((summaryOf l).map Summary.mean)
    (runStatus n l = .opened ∧ summaryOf l = none ∧ cls = none)
      ∨ (runStatus n l = .ceiling ∧ summaryOf l = none ∧ cls = some .tooHigh)
      ∨ ∃ m, summaryOf l = some m ∧ runStatus n l ≠ .opened ∧ runStatus n l ≠ .ceiling
          ∧ cls = some (classOfMean low high m.mean) := by
  rcases runStatus_cases hn l with ⟨hst, hm⟩ | ⟨hst, hm⟩ | ⟨m, hm, hst⟩
  · exact .inl ⟨hst, hm, by rw [hst]; rfl⟩
  · exact .inr (.inl ⟨hst, hm, by rw [hst]; rfl⟩)
  · refine .inr (.inr ⟨m, hm, ?_, ?_, by rw [hm]; exact classify_mean hst m.mean⟩)
    all_goals rcases hst with h | h <;> rw [h] <;> decide

/-! ### The decision on a bit (R109) -/

theorem keepsBit_iff (comp : Comp) (cls : TrialClass) : keepsBit comp cls = true ↔
    cls = .inWindow ∨ (comp = .load ∧ cls = .tooHigh) ∨ (comp = .gain ∧ cls = .tooLow) := by
  cases comp <;> cases cls <;> decide

/-- R109: a class that clears the bit. -/
def Comp.clearingClass : Comp → TrialClass
  | .load => .tooLow
  | .gain => .tooHigh

theorem keepsBit_clearingClass (comp : Comp) : keepsBit comp comp.clearingClass = false := by cases comp <;> rfl

theorem keepsBit_inWindow (comp : Comp) : keepsBit comp .inWindow = true := by cases comp <;> rfl

theorem trialBit_eq {k : Nat} (h : k < 7) : trialBit k = 2 ^ (6 - k) := if_pos h

/-- R107: the bit of the trial after trial `k`, which is the verify after trial 6. -/
theorem trialBit_succ (k : Nat) : trialBit (k + 1) = if k < 6 then 2 ^ (5 - k) else 0 := by
  have hexp : 6 - (k + 1) = 5 - k := by omega
  rw [trialBit, hexp]
  exact if_congr (by omega) rfl rfl

theorem decide_decided (q : Search) (cls : TrialClass) :
    (q.decide cls).decided = q.decided + if keepsBit q.comp cls then trialBit q.trial else 0 := by
  simp only [Search.decide]
  split <;> rfl

/-! ### The reach of the search -/

/-- The decided trim and the bits still to decide: a decision never raises their sum past what it was. -/
theorem decide_ceiling {q : Search} (h : q.trial < 7) (cls : TrialClass) :
    (q.decide cls).decided + 2 ^ (7 - (q.decide cls).trial) ≤ q.decided + 2 ^ (7 - q.trial) := by
  have hhalf : 2 ^ (7 - q.trial) = 2 * 2 ^ (6 - q.trial) := by
    rw [← pow_succ', show 6 - q.trial + 1 = 7 - q.trial by omega]
  have hnext : 7 - (q.decide cls).trial = 6 - q.trial := by
    show 7 - (q.trial + 1) = _
    omega
  rw [decide_decided, trialBit_eq h, hhalf, hnext]
  split <;> omega

theorem decides_ceiling (classes : List TrialClass) {q : Search} (h : q.trial + classes.length ≤ 7) :
    let r := classes.foldl Search.decide q
    r.trial = q.trial + classes.length ∧ r.decided + 2 ^ (7 - r.trial) ≤ q.decided + 2 ^ (7 - q.trial) := by
  induction classes generalizing q with
  | nil => exact ⟨rfl, Nat.le_refl _⟩
  | cons cls rest ih =>
    rw [List.length_cons] at h
    have hnext : (q.decide cls).trial = q.trial + 1 := rfl
    obtain ⟨htrial, hceiling⟩ := ih (q := q.decide cls) (by omega)
    refine ⟨?_, hceiling.trans (decide_ceiling (by omega) cls)⟩
    rw [List.foldl_cons, htrial, List.length_cons]
    omega

/-- With `m` decisions left, any number of `m` bits can be added to the decided trim. -/
theorem decides_reach (m : Nat) {q : Search} (h : q.trial + m = 7) {x : Nat} (hx : x < 2 ^ m) :
    ∃ classes : List TrialClass, classes.length = m ∧ (classes.foldl Search.decide q).decided = q.decided + x := by
  induction m generalizing q x with
  | zero =>
    obtain rfl : x = 0 := by omega
    exact ⟨[], rfl, rfl⟩
  | succ m ih =>
    have hbit : trialBit q.trial = 2 ^ m := by rw [trialBit_eq (by omega), show 6 - q.trial = m by omega]
    have hnext : ∀ cls, (q.decide cls).trial + m = 7 := fun cls => by
      show q.trial + 1 + m = 7
      omega
    have hpow := pow_succ' 2 m
    by_cases hset : 2 ^ m ≤ x
    · obtain ⟨classes, hlen, hreach⟩ := ih (hnext .inWindow) (x := x - 2 ^ m) (by omega)
      refine ⟨.inWindow :: classes, congrArg (· + 1) hlen, hreach.trans ?_⟩
      rw [decide_decided, if_pos (keepsBit_inWindow _), hbit]
      omega
    · obtain ⟨classes, hlen, hreach⟩ := ih (hnext q.comp.clearingClass) (x := x) (by omega)
      refine ⟨q.comp.clearingClass :: classes, congrArg (· + 1) hlen, hreach.trans ?_⟩
      rw [decide_decided, keepsBit_clearingClass]
      rfl

/-! ### A trial becomes ready (R107) -/

/-- R107: the search of a context in use stands ready, and its trim in the channel's entry. -/
theorem beginTrial_eq {k : CtxId} {c : Context} (hk : s.contexts[k] = some c) (ch : Chan) (q : Search) :
    beginTrial k ch q s = { s.modChan ch (fun e => { e with trim := q.readied.trialTrim }) with
      contexts := s.contexts.set k (some { c with search := some q.readied }) } := by
  rw [beginTrial, modCtx_eq hk]
  rfl

/-! ### The normal end of a trial (R108 to R111) -/

/-- R108: the class of a trial of the TRIM. -/
def TrimBody.classOf (b : TrimBody) (l : List Sample) : Option TrialClass :=
  classify b.windowLow b.windowHigh (runStatus b.n l) ((summaryOf l).map Summary.mean)

/-- R114: the search with the normal end of its trial in the log. -/
def Search.trialEnded (q : Search) (b : TrimBody) (l : List Sample) : Search :=
  q.logged (runStatus b.n l) (b.classOf l) ((summaryOf l).map Summary.mean)

theorem Search.trialEnded_eq {b : TrimBody} {o : Option TrialClass} (h : b.classOf l = o) (q : Search) :
    q.trialEnded b l = q.logged (runStatus b.n l) o ((summaryOf l).map Summary.mean) := by
  rw [trialEnded, h]

section
variable {k : CtxId} {c : Context} {b : TrimBody} {q : Search}

/-- R109: trial 0..6 decides its bit, and the next trial is ready. -/
theorem trialNormalEnd_decides (hk : s.contexts[k] = some c) (hb : c.request.body = .trim b)
    (hq : c.search = some q) (ht : q.trial < 7) {cls : TrialClass} (hcls : b.classOf l = some cls) :
    trialNormalEnd k l s = beginTrial k b.chan ((q.trialEnded b l).decide cls) s := by
  rw [Search.trialEnded_eq hcls]
  rw [TrimBody.classOf] at hcls
  simp only [trialNormalEnd, trimParts_eq hk hb hq, hcls, if_pos ht]

/-- R111: a trial that ends OPEN ends the search. -/
theorem trialNormalEnd_opened (hk : s.contexts[k] = some c) (hb : c.request.body = .trim b)
    (hq : c.search = some q) (hcls : b.classOf l = none) :
    trialNormalEnd k l s = endSearch k c b (q.trialEnded b l) .opened none s := by
  rw [Search.trialEnded_eq hcls]
  rw [TrimBody.classOf] at hcls
  simp only [trialNormalEnd, trimParts_eq hk hb hq, hcls]

/-- R110: the verify ends the search by its class. -/
theorem trialNormalEnd_verify (hk : s.contexts[k] = some c) (hb : c.request.body = .trim b)
    (hq : c.search = some q) (ht : q.trial = 7) {cls : TrialClass} (hcls : b.classOf l = some cls) :
    trialNormalEnd k l s = endSearch k c b (q.trialEnded b l) (if cls = .inWindow then .success else .outOfRange)
      ((summaryOf l).map Summary.mean) s := by
  rw [Search.trialEnded_eq hcls]
  rw [TrimBody.classOf] at hcls
  simp only [trialNormalEnd, trimParts_eq hk hb hq, hcls, if_neg (show ¬q.trial < 7 by omega)]
  split <;> rfl

end

/-- Settles O36. -/
theorem trimDecision : Obligations.TrimDecision := by
  refine ⟨?_, fun q cls ht => ⟨rfl, ?_, rfl, rfl, rfl, rfl⟩, ?_,
    fun q hdecided htrial => ⟨fun classes hlen => ?_, fun trim h => ?_⟩⟩
  · intro n low high l hn hwindow status cls
    rcases classify_cases hn low high l with ⟨hst, hm, hcls⟩ | ⟨hst, hm, hcls⟩ | ⟨m, hm, hopened, hceiling, hcls⟩
    · simp [status, cls, hst, hm, hcls]
    · simp [status, cls, hst, hm, hcls]
    · have hmean : cls = some (classOfMean low high m.mean) := hcls
      rw [hmean]
      refine ⟨by simp [status, hopened], fun h => absurd h hceiling, fun m' hm' => ?_⟩
      cases hm.symm.trans hm'
      simpa only [Option.some.injEq] using classOfMean_iff hwindow m.mean
  · rw [decide_decided, trialBit_eq ht]
    exact congrArg _ (if_congr (keepsBit_iff q.comp cls) rfl rfl)
  · intro s k c b q l cls hk hb hq ht hcls next trim
    have hready : ((q.trialEnded b l).decide cls).readied.trialTrim = trim :=
      congrArg (next.decided + ·) (trialBit_succ q.trial)
    have hend := (trialNormalEnd_decides hk hb hq ht hcls).trans (beginTrial_eq hk b.chan _)
    rw [hready] at hend
    rw [hend]
    refine ⟨(modChan_get s b.chan b.chan fun e => { e with trim := trim }).trans (if_pos rfl), _,
      Vector.getElem_set_self _, rfl, rfl, hready, rfl, rfl, rfl, rfl, ?_, rfl⟩
    rw [← hcls]
    rfl
  · obtain ⟨hend, hceiling⟩ := decides_ceiling classes (q := q) (by omega)
    rw [hend, hdecided, htrial, hlen] at hceiling
    exact ⟨by omega, by omega⟩
  · obtain ⟨classes, hlen, hreach⟩ := decides_reach 7 (q := q) (by omega) h
    exact ⟨classes, hlen, by omega⟩

end Sys2Proof.Machine
end

section
/-! SUPPORT. TrimGrantSaves: a granted TRIM holds its channel, saves trim and baseline, and readies trial 0 (R105, R107). -/

namespace Sys2Proof.Machine

variable {s : State} {k : CtxId} {c : Context} {b : TrimBody}

/-- R105, R107: trial 0 of a granted TRIM tests bit 64 with no bit decided yet. -/
theorem readied_atGrant (e : Channel) : (Search.atGrant e).readied =
    { savedTrim := e.trim, savedBaseline := e.baseline, comp := e.comp, decided := 0, trial := 0, trialTrim := 64
      job := .notStarted, retryUsed := false, log := [] } := rfl

/-- R49, R105: the grant of a TRIM whose channel is READY. -/
theorem grant_trim (hk : s.contexts[k] = some c) (hb : c.request.body = .trim b) (hready : firstOff s c.claimSet = none) :
    let held := holdClaims k c.claimSet s
    grant k c s = { s with
      channels := (held.modChan b.chan fun e => { e with trim := 64 }).channels
      contexts := s.contexts.set k (some { c with
        state := .active, search := some (Search.atGrant held.channels[b.chan]).readied }) } := by
  intro held
  have hgrant : grant k c s = beginTrial k b.chan (Search.atGrant held.channels[b.chan])
      (held.modCtx k fun c => { c with state := .active }) := by
    simp only [grant, hb, hready, activate, held]
  have hactive := modCtx_self (s := held) hk fun c => { c with state := .active }
  rw [hgrant, beginTrial_eq hactive, modCtx_eq (s := held) hk]
  simp only [Vector.set_set]
  rfl

/-- Settles O37. -/
theorem trimGrantSaves : Obligations.TrimGrantSaves := by
  intro s k c b hk hb hclaim hchan old
  have hready : firstOff s c.claimSet = none := firstOff_none.2 fun ch hch => by
    rw [hclaim, List.mem_singleton] at hch
    rwa [hch]
  have hheld : ∀ ch : Chan, (holdClaims k c.claimSet s).channels[ch]
      = if ch = b.chan then { s.channels[ch] with holder := some (.context k) } else s.channels[ch] := fun ch => by
    rw [holdClaims_get, hclaim]
    exact if_congr List.mem_singleton rfl rfl
  have hself := (hheld b.chan).trans (if_pos rfl)
  have hgrant := grant_trim hk hb hready
  have hctx : (grant k c s).contexts[k] = some { c with state := .active, search := some (Search.atGrant old).readied } := by
    rw [hgrant, hself]
    exact Vector.getElem_set_self _
  have hchannels : ∀ ch : Chan, (grant k c s).channels[ch]
      = if ch = b.chan then { old with trim := 64, holder := some (.context k) } else s.channels[ch] := fun ch => by
    rw [hgrant]
    refine (modChan_get (holdClaims k c.claimSet s) b.chan ch fun e => { e with trim := 64 }).trans ?_
    rw [hself, hheld]
    split <;> rfl
  refine ⟨fun d hd => (Option.some.inj (hd.symm.trans hctx)).trans ?_, ⟨_, hctx⟩, (hchannels _).trans (if_pos rfl),
    fun ch hch => (hchannels ch).trans (if_neg hch), fun l hl => ?_, ?_⟩
  · rw [readied_atGrant]
  · rw [hgrant]
    exact Vector.getElem_set_ne k.isLt l.isLt fun h => hl (Fin.ext h.symm)
  · rw [hgrant]

end Sys2Proof.Machine
end

section
/-! SUPPORT. The TRIM result byte by byte (R114, 11.5): its header and a trial log entry. -/

namespace Sys2Proof.Machine

/-- R114: the 16-byte header of a TRIM result. -/
def trimHeader (c : Context) (b : TrimBody) (q : Search) (status : Status) (mean : Option Nat) (after : Nat) :
    List Byte :=
  byte8 c.queue.val ++ byte8 b.channel ++ bytes16 c.request.tag ++ byte8 status.code
    ++ byte8 (q.comp.code + flag mean.isSome * 2) ++ byte8 q.log.length ++ byte8 q.decided ++ byte8 q.savedTrim
    ++ byte8 after ++ bytes16 (mean.getD 0) ++ bytes16 b.windowLow ++ bytes16 b.windowHigh

theorem trimResult_header (c : Context) (b : TrimBody) (q : Search) (status : Status) (mean : Option Nat) (after : Nat) :
    trimResult c b q status mean after = trimHeader c b q status mean after
      ++ ((q.log.map trialLogBytes).flatten ++ zeros 32).take 32 := rfl

theorem trimHeader_fields (c : Context) (b : TrimBody) (q : Search) (status : Status) (mean : Option Nat) (after : Nat) :
    let header := trimHeader c b q status mean after
    header.length = 16 ∧ byteAt header 0 = c.queue.val ∧ byteAt header 1 = b.channel % 256
      ∧ halfAt header 2 = c.request.tag % 65536 ∧ byteAt header 4 = status.code
      ∧ byteAt header 5 = q.comp.code + 2 * flag mean.isSome ∧ byteAt header 6 = q.log.length % 256
      ∧ byteAt header 7 = q.decided % 256 ∧ byteAt header 8 = q.savedTrim % 256 ∧ byteAt header 9 = after % 256
      ∧ halfAt header 10 = mean.getD 0 % 65536 ∧ halfAt header 12 = b.windowLow % 65536
      ∧ halfAt header 14 = b.windowHigh % 65536 := by
  have hqueue := c.queue.isLt
  have hstatus := status.code_lt
  have hmean := flag_le_one mean.isSome
  have hcomp : q.comp.code ≤ 1 := by cases q.comp <;> decide
  simp only [trimHeader, byte8, bytes16, List.cons_append, List.nil_append]
  exact ⟨rfl, byte_field (by omega), BitVec.toNat_ofNat b.channel 8, half_field c.request.tag,
    byte_field (n := status.code) (by omega), (byte_field (by omega)).trans (by omega), BitVec.toNat_ofNat _ 8,
    BitVec.toNat_ofNat q.decided 8, BitVec.toNat_ofNat q.savedTrim 8, BitVec.toNat_ofNat after 8,
    half_field (mean.getD 0), half_field b.windowLow, half_field b.windowHigh⟩

theorem trimResult_length (c : Context) (b : TrimBody) (q : Search) (status : Status) (mean : Option Nat) (after : Nat) :
    (trimResult c b q status mean after).length = 48 := by
  rw [trimResult_header, List.length_append, (trimHeader_fields c b q status mean after).1, List.length_take,
    List.length_append, zeros, List.length_replicate]
  omega

/-! ### The trial log (R114) -/

theorem trialLogBytes_length (e : TrialLog) : (trialLogBytes e).length = 4 := rfl

theorem trialLogs_length (log : List TrialLog) : (log.map trialLogBytes).flatten.length = 4 * log.length := by
  induction log with
  | nil => rfl
  | cons e rest ih =>
    rw [List.map_cons, List.flatten_cons, List.length_append, ih, trialLogBytes_length, List.length_cons]
    omega

/-- R114: up to eight entries, and zeros in the log positions left over. -/
theorem trimResult_log (c : Context) (b : TrimBody) {q : Search} (h : q.log.length ≤ 8) (status : Status)
    (mean : Option Nat) (after : Nat) : trimResult c b q status mean after = trimHeader c b q status mean after
      ++ (q.log.map trialLogBytes).flatten ++ List.replicate (4 * (8 - q.log.length)) 0 := by
  have hlogs := trialLogs_length q.log
  have hleft : 32 - 4 * q.log.length = 4 * (8 - q.log.length) := by omega
  rw [trimResult_header, List.take_append, hlogs, List.take_of_length_le (by omega), zeros, List.take_replicate, hleft,
    Nat.min_eq_left (by omega), List.append_assoc]

theorem classCode_lt (cls : Option TrialClass) : classCode cls < 4 := by
  rcases cls with _ | cls
  · decide
  · cases cls <;> decide

theorem trialLogBytes_fields {e : TrialLog} (h : e.trim ≤ 127) :
    let bytes := trialLogBytes e
    byteAt bytes 0 = e.trim + 128 * flag e.mean.isSome ∧ byteAt bytes 1 % 16 = e.status.code
      ∧ byteAt bytes 1 / 16 % 4 = classCode e.cls ∧ byteAt bytes 1 / 64 = flag e.retryUsed
      ∧ halfAt bytes 2 = e.mean.getD 0 % 65536 := by
  have hmean := flag_le_one e.mean.isSome
  have hretry := flag_le_one e.retryUsed
  have hstatus := e.status.code_lt
  have hcls := classCode_lt e.cls
  have hsecond : byteAt (trialLogBytes e) 1 = e.status.code + classCode e.cls * 2 ^ 4 + flag e.retryUsed * 2 ^ 6 :=
    byte_field (by omega)
  refine ⟨(byte_field (by omega)).trans (by omega), ?_, ?_, ?_, half_field (e.mean.getD 0)⟩
  all_goals
    rw [hsecond]
    omega

end Sys2Proof.Machine
end

section
/-! SUPPORT. VerifyEndsSearch: the end of a search (R110 to R113), by its verify or by a trial that ends OPEN. -/

namespace Sys2Proof.Machine

variable {s : State} {k : CtxId} {c : Context} {b : TrimBody} {q : Search} {l : List Sample}

/-! ### The end of a search (R110, R112, R113) -/

/-- R110, R112: an entry with the trim and the baseline that the end of a search leaves in it. -/
def Search.settled (q : Search) (st : Status) (mean : Option Nat) (e : Channel) : Channel :=
  if st = .success then { e with trim := q.decided, baseline := mean }
  else { e with trim := q.savedTrim, baseline := q.savedBaseline }

theorem settleTrim_eq (st : Status) (ch : Chan) (q : Search) (mean : Option Nat) (s : State) :
    settleTrim st ch q mean s = s.modChan ch (q.settled st mean) := by
  unfold settleTrim restoreTrim Search.settled
  split <;> rfl

theorem Search.settled_holder (q : Search) (st : Status) (mean : Option Nat) (e : Channel) :
    (q.settled st mean e).holder = e.holder := by
  unfold settled
  split <;> rfl

/-- R75, R78: a context goes to WRITING, and its result write is issued unless the engine is HALTED. -/
theorem enterWriting_eq (k : CtxId) (st : Status) (d : Detail) (addr : Addr) (data : List Byte) (s : State) :
    enterWriting k st d addr data s = { s.modCtx k (fun c => { c with state := .writing, result := some (st, d) }) with
      resultWrites := s.resultWrites ++ if s.engine.state = .halted then [] else
        [{ owner := k, addr := addr, data := data, abandoned := false }] } := by
  rcases enterWriting_cases s k st d addr data with ⟨hh, h⟩ | ⟨hh, h⟩ <;> rw [h]
  · rw [if_pos hh, List.append_nil]
    rfl
  · rw [if_neg hh]
    rfl

/-- R113: the parts of the end of a search. -/
theorem endSearch_eq (k : CtxId) (c : Context) (b : TrimBody) (q : Search) (st : Status) (mean : Option Nat) (s : State) :
    endSearch k c b q st mean s = enterWriting k st (searchDetail st q mean) c.request.resultAddr
      (trimResult c b q st mean (q.settled st mean s.channels[b.chan]).trim)
      (releaseClaims k ((s.modCtx k fun c => { c with search := some q }).modChan b.chan (q.settled st mean))) := by
  have htrim : ((s.modCtx k fun c => { c with search := some q }).modChan b.chan
      (q.settled st mean)).channels[b.chan].trim = (q.settled st mean s.channels[b.chan]).trim := by
    rw [modChan_get, if_pos rfl]
    rfl
  unfold endSearch
  dsimp only
  rw [settleTrim_eq, htrim]

theorem endSearch_channels (st : Status) (mean : Option Nat) (ch : Chan) :
    (endSearch k c b q st mean s).channels[ch] =
      (if ch = b.chan then q.settled st mean s.channels[b.chan] else s.channels[ch]).releasedBy k := by
  rw [endSearch_eq, enterWriting_eq]
  exact (releaseClaims_releasedBy _ k ch).trans
    (congrArg _ (modChan_get (s.modCtx k fun c => { c with search := some q }) b.chan ch _))

theorem endSearch_context (hk : s.contexts[k] = some c) (st : Status) (mean : Option Nat) :
    (endSearch k c b q st mean s).contexts[k] = some { c with
      state := .writing, search := some q, result := some (st, searchDetail st q mean) } := by
  rw [endSearch_eq, enterWriting_eq]
  exact modCtx_self (s := releaseClaims k ((s.modCtx k fun c => { c with search := some q }).modChan b.chan _))
    (modCtx_self hk _) _

theorem endSearch_resultWrites (st : Status) (mean : Option Nat) :
    (endSearch k c b q st mean s).resultWrites = s.resultWrites ++ if s.engine.state = .halted then [] else
      [{ owner := k, addr := c.request.resultAddr
         data := trimResult c b q st mean (q.settled st mean s.channels[b.chan]).trim, abandoned := false }] := by
  rw [endSearch_eq, enterWriting_eq]
  rfl

/-- R113: `t` is `s` after the search `q` has ended: the channel released with `trim` and `baseline` in its entry, the
context in WRITING with `status` and `detail`, and its result write issued unless the engine is HALTED. -/
def SearchWritten (k : CtxId) (c : Context) (b : TrimBody) (q : Search) (mean : Option Nat) (s t : State)
    (status : Status) (detail : Detail) (trim : Nat) (baseline : Option Nat) : Prop :=
  t.channels[b.chan] = { s.channels[b.chan] with trim := trim, baseline := baseline, holder := none }
    ∧ ∃ d, t.contexts[k] = some d ∧ d.state = .writing ∧ d.result = some (status, detail)
      ∧ (s.engine.state = .halted → t.resultWrites = s.resultWrites)
      ∧ (s.engine.state ≠ .halted → ∃ data, t.resultWrites = s.resultWrites ++
          [{ owner := k, addr := c.request.resultAddr, data := data, abandoned := false }]
          ∧ data.length = 48 ∧ data = trimResult c b q status mean trim)

theorem endSearch_written (hk : s.contexts[k] = some c) (hh : s.channels[b.chan].holder = some (.context k))
    (st : Status) (mean : Option Nat) {trim : Nat} {baseline : Option Nat}
    (hset : q.settled st mean s.channels[b.chan] = { s.channels[b.chan] with trim := trim, baseline := baseline }) :
    SearchWritten k c b q mean s (endSearch k c b q st mean s) st (searchDetail st q mean) trim baseline := by
  have hwrites := endSearch_resultWrites (s := s) (k := k) (c := c) (b := b) (q := q) st mean
  rw [hset] at hwrites
  refine ⟨?_, _, endSearch_context hk st mean, rfl, rfl, fun hhalt => ?_, fun hrun => ⟨_, ?_, trimResult_length .., rfl⟩⟩
  · rw [endSearch_channels, if_pos rfl, hset]
    exact Channel.releasedBy_of_holder hh
  · rw [hwrites, if_pos hhalt, List.append_nil]
  · rw [hwrites, if_neg hrun]

/-! ### The verify (R110 to R113) -/

theorem TrimBody.classOf_opened (h : runStatus b.n l = .opened) : b.classOf l = none := by
  rw [classOf, h]
  rfl

theorem TrimBody.classOf_inWindow (hn : 1 ≤ b.n) (hwindow : b.windowLow ≤ b.windowHigh) {m : Nat}
    (hm : (summaryOf l).map Summary.mean = some m) (hlow : b.windowLow ≤ m) (hhigh : m ≤ b.windowHigh) :
    b.classOf l = some .inWindow := by
  rcases classify_cases hn b.windowLow b.windowHigh l with ⟨-, h, -⟩ | ⟨-, h, -⟩ | ⟨x, hx, -, -, hcls⟩
  · simp [h] at hm
  · simp [h] at hm
  · obtain rfl : x.mean = m := by simpa [hx] using hm
    exact hcls.trans (congrArg some ((classOfMean_iff hwindow x.mean).2.1.2 ⟨hlow, hhigh⟩))

/-- R108: a trial that is not OPEN has a class, which is IN_WINDOW only for a mean in the window. -/
theorem TrimBody.classOf_outOfWindow (hn : 1 ≤ b.n) (hwindow : b.windowLow ≤ b.windowHigh)
    (hst : runStatus b.n l ≠ .opened)
    (hout : ∀ m, (summaryOf l).map Summary.mean = some m → m < b.windowLow ∨ b.windowHigh < m) :
    ∃ cls, b.classOf l = some cls ∧ cls ≠ .inWindow := by
  rcases classify_cases hn b.windowLow b.windowHigh l with ⟨h, -, -⟩ | ⟨-, -, hcls⟩ | ⟨x, hx, -, -, hcls⟩
  · exact absurd h hst
  · exact ⟨_, hcls, by decide⟩
  · refine ⟨_, hcls, fun hin => ?_⟩
    obtain ⟨hlow, hhigh⟩ := (classOfMean_iff hwindow x.mean).2.1.1 hin
    have := hout x.mean (by rw [hx]; rfl)
    omega

/-- R110: every verify ends the search. -/
theorem trialNormalEnd_endsSearch (hk : s.contexts[k] = some c) (hb : c.request.body = .trim b)
    (hq : c.search = some q) (ht : q.trial = 7) (l : List Sample) :
    ∃ st mean, trialNormalEnd k l s = endSearch k c b (q.trialEnded b l) st mean s := by
  cases hcls : b.classOf l with
  | none => exact ⟨_, _, trialNormalEnd_opened hk hb hq hcls⟩
  | some cls => exact ⟨_, _, trialNormalEnd_verify hk hb hq ht hcls⟩

/-- Settles O38. -/
theorem verifyEndsSearch : Obligations.VerifyEndsSearch := by
  refine ⟨?_, ?_, ?_⟩
  · intro s k c b q l hk hb hq ht hn hwindow hh mean t written
    have hwritten : ∀ (st : Status) (m : Option Nat) (trim : Nat) (baseline : Option Nat),
        t = endSearch k c b (q.trialEnded b l) st m s → (if runStatus b.n l = .opened then none else mean) = m →
        (q.trialEnded b l).settled st m s.channels[b.chan]
          = { s.channels[b.chan] with trim := trim, baseline := baseline } →
        written st (searchDetail st (q.trialEnded b l) m) trim baseline := by
      intro st m trim baseline hend hm hset
      have h := endSearch_written hk hh st m hset
      rw [← hend, ← hm] at h
      rwa [← hm]
    obtain ⟨st, m, hend⟩ := trialNormalEnd_endsSearch hk hb hq ht l
    obtain ⟨hframe, hothers, -⟩ := endSearch_same k c b (q.trialEnded b l) st m s
    rw [← hend] at hframe hothers
    refine ⟨fun m hm hlow hhigh => ?_, fun hst hout => ?_, fun hst => ?_, hframe, hothers,
      fun ch hch hfree => ?_⟩
    · have hcls := TrimBody.classOf_inWindow hn hwindow hm hlow hhigh
      have hst : runStatus b.n l ≠ .opened := fun h => by
        rw [TrimBody.classOf_opened h] at hcls
        cases hcls
      exact hwritten .success (some m) _ _ (hm ▸ trialNormalEnd_verify hk hb hq ht hcls) ((if_neg hst).trans hm) rfl
    · obtain ⟨cls, hcls, hne⟩ := TrimBody.classOf_outOfWindow hn hwindow hst hout
      have hverify := trialNormalEnd_verify hk hb hq ht hcls
      rw [if_neg hne] at hverify
      exact hwritten .outOfRange mean _ _ hverify (if_neg hst) rfl
    · have hopened := trialNormalEnd_opened hk hb hq (TrimBody.classOf_opened hst)
      exact ht ▸ hwritten .opened none _ _ hopened (if_pos hst) rfl
    · show (trialNormalEnd k l s).channels[ch] = _
      rw [hend, endSearch_channels, if_neg hch, Channel.releasedBy_of_ne hfree]
  · intro s k c b q l hk hb hq hst
    have hcls : b.classOf l = none := TrimBody.classOf_opened hst
    rw [trialNormalEnd_opened hk hb hq hcls, Search.trialEnded_eq hcls, hst,
      summaryOf_of_stall (runStatus_opened_iff.1 hst)]
    exact endSearch_searchFails hk ⟨by decide, by decide⟩
  · intro c b q status mean after hlog one
    obtain ⟨hlen, hqueue, hchannel, htag, hstatus, hflags, hcount, hdecided, hsaved, hafter, hmean, hlow, hhigh⟩ :=
      trimHeader_fields c b q status mean after
    refine ⟨trimHeader c b q status mean after, q.log.map trialLogBytes, _, trimResult_log c b hlog status mean after,
      hlen, rfl, hqueue, hchannel, htag, hstatus, hflags.trans ?_, hcount.trans (Nat.mod_eq_of_lt (by omega)), hdecided,
      hsaved, hafter, hmean, hlow, hhigh, List.length_map _, fun i e bytes he hbytes htrim => ?_⟩
    · cases q.comp <;> rfl
    obtain rfl : trialLogBytes e = bytes := by simpa [he] using hbytes
    obtain ⟨hfirst, hcode, hclass, hretry, hreading⟩ := trialLogBytes_fields htrim
    refine ⟨trialLogBytes_length e, hfirst, hcode.trans ?_, hclass.trans ?_, hretry, hreading⟩
    · cases e.status <;> rfl
    · rcases e.cls with _ | cls
      · rfl
      · cases cls <;> rfl

end Sys2Proof.Machine
end

section
/-! SUPPORT. The watch list as pairs of watch id and channel (R118), and what placing an entry (R121) and removing one
(R122) do to it. -/

namespace Sys2Proof.Machine

variable {s t : State}

/-! ### A sound watch list (R118, R119) -/

/-- The watch ids of the list with the channels they watch. -/
def State.watched (s : State) : List (WatchId × Chan) := s.watch.entries.map fun e => (e.id, e.ch)

theorem mem_watched {id : WatchId} {ch : Chan} :
    (id, ch) ∈ s.watched ↔ ∃ e ∈ s.watch.entries, e.id = id ∧ e.ch = ch := by
  simp [State.watched]

theorem exists_mem_watched {id : WatchId} : (∃ ch, (id, ch) ∈ s.watched) ↔ ∃ e ∈ s.watch.entries, e.id = id := by
  simp only [mem_watched]
  exact ⟨fun ⟨_, e, he, hid, _⟩ => ⟨e, he, hid⟩, fun ⟨e, he, hid⟩ => ⟨e.ch, e, he, hid, rfl⟩⟩

/-- R118, R119: soundness reads of an entry its id and its channel alone. -/
theorem watchListSound_iff : s.WatchListSound ↔
    s.watched.Pairwise (fun a b => a.1 < b.1)
      ∧ (∀ (ch : Chan) (id : WatchId), s.channels[ch].watchLink = some id ↔ (id, ch) ∈ s.watched)
      ∧ (∀ ch : Chan, s.channels[ch].watchLink.isSome = true → s.channels[ch].ready = true)
      ∧ s.watch.pending.Pairwise (· < ·) ∧ ∀ id ∈ s.watch.pending, ∃ ch, (id, ch) ∈ s.watched := by
  rw [State.WatchListSound]
  simp only [← mem_watched, ← exists_mem_watched]
  rw [State.watched, List.pairwise_map]

/-- R36, R37, R118: with no link, no entry and no pending job the list is sound. -/
theorem watchListSound_empty (he : t.watch.entries = []) (hp : t.watch.pending = [])
    (hl : ∀ ch : Chan, t.channels[ch].watchLink = none) : t.WatchListSound := by
  rw [watchListSound_iff, State.watched, he, hp]
  simp only [hl]
  simp

/-! ### The entry of an id, and a new entry (R118, R121) -/

theorem watchEntry_none {id : WatchId} : watchEntry s id = none ↔ ∀ e ∈ s.watch.entries, e.id ≠ id := by
  simp [watchEntry]

theorem watchEntry_some {id : WatchId} {e : WatchEntry} (h : watchEntry s id = some e) :
    e ∈ s.watch.entries ∧ e.id = id :=
  ⟨List.mem_of_find?_eq_some h, by simpa using List.find?_some h⟩

theorem mem_insertEntry {e d : WatchEntry} {l : List WatchEntry} : d ∈ insertEntry e l ↔ d = e ∨ d ∈ l := by
  induction l with
  | nil => simp [insertEntry]
  | cons x xs ih =>
    unfold insertEntry
    split
    · exact List.mem_cons
    · rw [List.mem_cons, ih, List.mem_cons]
      exact or_left_comm

/-- R118: an entry with a new id keeps the list ascending. -/
theorem insertEntry_ascends {e : WatchEntry} {l : List WatchEntry} (hl : l.Pairwise fun a b => a.id < b.id)
    (hnew : ∀ x ∈ l, x.id ≠ e.id) : (insertEntry e l).Pairwise fun a b => a.id < b.id := by
  induction l with
  | nil => exact List.pairwise_singleton _ _
  | cons x xs ih =>
    obtain ⟨hx, hxs⟩ := List.pairwise_cons.1 hl
    unfold insertEntry
    split
    · rename_i hlt
      refine List.pairwise_cons.2 ⟨fun a ha => ?_, hl⟩
      rcases List.mem_cons.1 ha with rfl | ha
      · exact hlt
      · exact hlt.trans (hx a ha)
    · rename_i hge
      refine List.pairwise_cons.2 ⟨fun a ha => ?_, ih hxs fun y hy => hnew y (List.mem_cons_of_mem x hy)⟩
      rcases mem_insertEntry.1 ha with rfl | ha
      · exact lt_of_le_of_ne (not_lt.1 hge) (hnew x List.mem_cons_self)
      · exact hx a ha

/-- R121: the entry joins the list and its channel is linked to it. -/
def placeEntry (e : WatchEntry) (s : State) : State :=
  (s.modWatch fun w => { w with entries := insertEntry e w.entries }).modChan e.ch fun x =>
    { x with watchLink := some e.id }

theorem placeEntry_channel (e : WatchEntry) (s : State) :
    (placeEntry e s).channels[e.ch] = { s.channels[e.ch] with watchLink := some e.id } := by
  rw [placeEntry, modChan_get, if_pos rfl]
  rfl

theorem placeEntry_otherChannel {e : WatchEntry} {ch : Chan} (h : ch ≠ e.ch) :
    (placeEntry e s).channels[ch] = s.channels[ch] := by
  rw [placeEntry, modChan_get, if_neg h]
  rfl

theorem mem_watched_placeEntry {e : WatchEntry} {id : WatchId} {ch : Chan} :
    (id, ch) ∈ (placeEntry e s).watched ↔ (e.id = id ∧ e.ch = ch) ∨ (id, ch) ∈ s.watched := by
  have hentries : (placeEntry e s).watch.entries = insertEntry e s.watch.entries := rfl
  simp only [mem_watched, hentries, mem_insertEntry, or_and_right, exists_or, exists_eq_left]

/-! ### The removal of an entry (R122) -/

/-- R122: the entry of an id leaves the list with its pending job, and its channel loses the link. -/
def removeEntry (e : WatchEntry) (s : State) : State :=
  (s.modWatch (WatchUnit.remove e.id)).modChan e.ch fun x => { x with watchLink := none }

theorem removeEntry_channel (e : WatchEntry) (s : State) :
    (removeEntry e s).channels[e.ch] = { s.channels[e.ch] with watchLink := none } := by
  rw [removeEntry, modChan_get, if_pos rfl]
  rfl

theorem removeEntry_otherChannel {e : WatchEntry} {ch : Chan} (h : ch ≠ e.ch) :
    (removeEntry e s).channels[ch] = s.channels[ch] := by
  rw [removeEntry, modChan_get, if_neg h]
  rfl

/-- R122: a Watch Unit without the entry of an id and its pending job, the running job of the id marked for discard. -/
def WatchUnit.without (id : WatchId) (w : WatchUnit) : WatchUnit :=
  { w with
    entries := w.entries.filter fun x => x.id != id
    pending := w.pending.filter fun x => x != id
    running := w.running.map fun r => if r.id = id then { r with discard := true } else r }

/-- R122, R130: the Watch Unit after the removal. -/
theorem removeEntry_watch (e : WatchEntry) (s : State) :
    (removeEntry e s).watch = (s.watch.without e.id).roundTested :=
  completeRound_eq _

theorem removeEntry_entries (e : WatchEntry) (s : State) :
    (removeEntry e s).watch.entries = s.watch.entries.filter fun x => x.id != e.id := by
  rw [removeEntry_watch]
  rfl

theorem removeEntry_pending (e : WatchEntry) (s : State) :
    (removeEntry e s).watch.pending = s.watch.pending.filter fun x => x != e.id := by
  rw [removeEntry_watch]
  rfl

theorem mem_watched_removeEntry {e : WatchEntry} {id : WatchId} {ch : Chan} :
    (id, ch) ∈ (removeEntry e s).watched ↔ (id, ch) ∈ s.watched ∧ id ≠ e.id := by
  simp only [mem_watched, removeEntry_entries, List.mem_filter, bne_iff_ne]
  constructor
  · rintro ⟨x, ⟨hx, hne⟩, rfl, rfl⟩
    exact ⟨⟨x, hx, rfl, rfl⟩, hne⟩
  · rintro ⟨⟨x, hx, rfl, rfl⟩, hne⟩
    exact ⟨x, ⟨hx, hne⟩, rfl, rfl⟩

end Sys2Proof.Machine
end

section
/-! SUPPORT. WatchListStaysSound: an entry is placed with a new id on a READY channel, and removed with its link and its
pending job; a round takes its jobs from the list; every other operation keeps list, links and pending jobs, or empties
them. -/

namespace Sys2Proof.Machine

variable {s t : State}

/-! ### What leaves the watch list sound -/

namespace State.WatchListSound

/-- An operation that writes neither the watch list, nor the pending jobs, nor a channel. -/
theorem congr (h : s.WatchListSound)
    (ht : (t.watch.entries, t.watch.pending, t.channels) = (s.watch.entries, s.watch.pending, s.channels)) :
    t.WatchListSound := by
  simp only [Prod.mk.injEq] at ht
  obtain ⟨hentries, hpending, hchannels⟩ := ht
  unfold State.WatchListSound
  rw [hentries, hpending, hchannels]
  exact h

theorem worked (h : s.WatchListSound) (w : Worked s t) : t.WatchListSound := w.watchListSound h

theorem finish (h : s.WatchListSound) : (finish s).WatchListSound := h.worked finish_worked

theorem raise (r : Report) (h : s.WatchListSound) : (raise r s).WatchListSound := h.worked (raise_worked r)

theorem foldl {α : Type} {f : State → α → State} (hf : ∀ t x, t.WatchListSound → (f t x).WatchListSound) (l : List α)
    (h : s.WatchListSound) : (l.foldl f s).WatchListSound := by
  induction l generalizing s with
  | nil => exact h
  | cons x l ih => exact ih (hf s x h)

/-- R119, R128: the pending jobs are set anew, to watch ids of the list in its order. -/
theorem ofPending (h : s.WatchListSound) (hw : t.watched = s.watched) (hc : t.channels = s.channels)
    (hp : t.watch.pending.Sublist (s.watched.map Prod.fst)) : t.WatchListSound := by
  obtain ⟨hlist, hlink, hready, -, -⟩ := watchListSound_iff.1 h
  rw [watchListSound_iff, hw, hc]
  refine ⟨hlist, hlink, hready, (List.pairwise_map.2 hlist).sublist hp, fun id hid => ?_⟩
  obtain ⟨⟨_, ch⟩, hmem, rfl⟩ := List.mem_map.1 (hp.subset hid)
  exact ⟨ch, hmem⟩

/-- R140: the pending jobs are dropped. -/
theorem noPending (h : s.WatchListSound) (hw : t.watched = s.watched) (hc : t.channels = s.channels)
    (hp : t.watch.pending = []) : t.WatchListSound :=
  h.ofPending hw hc (by rw [hp]; exact List.nil_sublist _)

end State.WatchListSound

/-! ### End causes (R77) -/

theorem endActive_worked (k : CtxId) (c : Context) (e : EndCause × CtxState) : Worked s (endActive k c e s) := by
  unfold endActive
  split
  · have hitems : Worked s (s.modCtx k fun c => { c with items := c.items.map ItemEntry.endIfNotStarted }) :=
      .ofModCtx k _ fun _ => ⟨rfl, rfl, rfl, rfl, id⟩
    exact hitems.trans ((Worked.ofConverters _ _).trans (measureWorkEnd_worked k))
  · split
    · split
      · exact .ofConverters _ _
      · exact trimEarlyEnd_worked k
    · exact .refl s
  · exact (Worked.ofConverters _ s.faultDischarges).trans (completeEarly_worked k e)

theorem setEndCause_worked (cause : EndCause) (k : CtxId) : Worked s (setEndCause cause k s) := by
  unfold setEndCause
  split
  · exact .refl s
  · split
    · exact .refl s
    · rename_i c _ _
      have htold : Worked s (s.modCtx k fun d => { d with endCause := some (cause, c.state) }) :=
        .ofModCtx k _ fun _ => ⟨rfl, rfl, rfl, rfl, id⟩
      dsimp only
      split
      · exact htold.trans ((Worked.ofListReads _).trans (completeEarly_worked k _))
      · exact htold.trans (completeEarly_worked k _)
      · exact htold.trans (endActive_worked k c _)
      · exact .refl s
      · exact .refl s

theorem setEndCauses_listSound (cause : EndCause) (l : List CtxId) (h : s.WatchListSound) :
    (l.foldl (fun t k => setEndCause cause k t) s).WatchListSound :=
  .foldl (fun _ k ht => ht.worked (setEndCause_worked cause k)) l h

/-! ### The Engine Command writes (R173 to R184) -/

/-- R140: a stop drops the pending jobs. -/
theorem beginStop_listSound (mode : StopMode) (h : s.WatchListSound) : (beginStop mode s).WatchListSound := by
  have hwatch : (beginStop mode s).watch = WatchUnit.roundTested { s.watch with timer := none, pending := [] } :=
    completeRound_eq _
  refine h.noPending ?_ rfl ?_
  · rw [State.watched, hwatch]
    rfl
  · rw [hwatch]
    rfl

theorem startCommand_listSound (h : s.WatchListSound) : (startCommand s).WatchListSound := by
  unfold startCommand
  split <;> exact h.congr rfl

theorem stopDrainCommand_listSound (h : s.WatchListSound) : (stopDrainCommand s).WatchListSound := by
  unfold stopDrainCommand
  split
  · exact .finish (beginStop_listSound .drain h)
  all_goals exact h.congr rfl

theorem stopCutCommand_listSound (h : s.WatchListSound) : (stopCutCommand s).WatchListSound := by
  unfold stopCutCommand
  split
  · exact .finish (setEndCauses_listSound .stopped _ (beginStop_listSound .cut h))
  · split
    · exact h
    · exact .finish (setEndCauses_listSound .stopped _ (h.congr rfl))
  · exact .finish (h.congr rfl)
  all_goals exact h.congr rfl

/-- R37, R141: CLEAR empties the list and takes every link away. -/
theorem clearCommand_listSound (s : State) : (clearCommand s).WatchListSound := by
  refine watchListSound_empty rfl rfl fun ch => ?_
  simp [clearCommand, Channel.atClear]

/-- R36, R118: a device reset leaves no entry and no link. -/
theorem deviceReset_listSound (s : State) : (deviceReset s).WatchListSound := by
  refine watchListSound_empty rfl rfl fun ch => ?_
  simp [deviceReset, State.reset, Channel.atReset]

theorem engineCommandWrite_listSound (word : Reg) (h : s.WatchListSound) :
    (engineCommandWrite word s).WatchListSound := by
  unfold engineCommandWrite
  split
  · exact startCommand_listSound h
  · exact stopDrainCommand_listSound h
  · exact stopCutCommand_listSound h
  · exact clearCommand_listSound s
  · exact h.congr rfl

/-! ### The register writes (R160, R168, R192) -/

theorem faultQueue_listSound (q : QueueId) (reason : QueueFaultReason) (tail : Nat) (h : s.WatchListSound) :
    (faultQueue q reason tail s).WatchListSound :=
  .raise _ (h.congr rfl)

theorem submitWrite_listSound (word : Reg) (h : s.WatchListSound) : (submitWrite word s).WatchListSound := by
  unfold submitWrite
  dsimp only
  split
  · exact h.congr rfl
  · split
    · exact .finish (faultQueue_listSound _ _ _ h)
    · exact .finish (h.congr rfl)

theorem releaseWrite_listSound (word : Reg) (h : s.WatchListSound) : (releaseWrite word s).WatchListSound := by
  unfold releaseWrite
  dsimp only
  split
  · exact h.congr rfl
  · exact .finish (h.congr rfl)

theorem windowWrite_listSound (offset word : Reg) (h : s.WatchListSound) :
    (windowWrite offset word s).WatchListSound := by
  unfold windowWrite
  split
  · exact h.congr rfl
  · split
    · exact engineCommandWrite_listSound word h
    · split
      · exact submitWrite_listSound word h
      · split
        · exact releaseWrite_listSound word h
        · split
          · exact h.congr rfl
          · exact h

/-! ### The timers (R127 to R129, R189) -/

/-- R128: the pending jobs of a new round are ids of the list, in its order. -/
theorem startRound_listSound (h : s.WatchListSound) : (s.modWatch WatchUnit.startRound).WatchListSound := by
  have hwatch : (s.modWatch WatchUnit.startRound).watch = WatchUnit.roundTested { s.watch with
      round := (s.watch.round + 1) % 65536, inProgress := true, promoted := false, running := []
      pending := (s.watch.entries.filter fun e => e.state != .fault).map WatchEntry.id } := completeRound_eq _
  refine h.ofPending ?_ rfl ?_
  · rw [State.watched, hwatch]
    rfl
  · rw [hwatch, State.watched, List.map_map]
    exact List.filter_sublist.map WatchEntry.id

theorem overrunRound_listSound (h : s.WatchListSound) : (overrunRound s).WatchListSound := by
  unfold overrunRound
  dsimp only
  split
  · exact h.congr rfl
  · exact .raise _ (h.congr rfl)

theorem periodExpiry_listSound (h : s.WatchListSound) : (periodExpiry s).WatchListSound := by
  unfold periodExpiry
  split
  · exact h
  · dsimp only
    split
    · exact .finish ((overrunRound_listSound h).congr rfl)
    · exact .finish ((startRound_listSound h).congr rfl)

theorem coalescingExpiry_listSound (h : s.WatchListSound) : (coalescingExpiry s).WatchListSound := by
  unfold coalescingExpiry
  split
  · exact h
  · exact h.congr rfl

/-! ### The ends that take no record -/

theorem startupChecks_listSound (h : s.WatchListSound) : (startupChecks s).WatchListSound := by
  have hchecks : ((startupConverters s).foldl (fun t c => startCheck c .engineControl t) s).WatchListSound :=
    .foldl (fun _ c ht => ht.worked (startCheck_worked c _)) _ h
  have hleft := hchecks.congr (t := State.modEngine (fun e => { e with startupLeft := startupConverters s }) _) rfl
  unfold startupChecks
  dsimp only
  split
  · exact (hleft.raise .noConverter).congr rfl
  · exact hleft

/-- R139: the session begins with the entries kept and no job pending. -/
theorem prepareSession_listSound (b : SetupBlock) (h : s.WatchListSound) : (prepareSession b s).WatchListSound := by
  have hwatched : ((takeUp b s).modWatch (WatchUnit.prepare b.watchPeriod)).watched = s.watched := by
    show (s.watch.entries.map WatchEntry.prepare).map (fun e => (e.id, e.ch)) = s.watched
    rw [List.map_map]
    rfl
  exact startupChecks_listSound (h.noPending hwatched rfl rfl)

theorem endSetup_listSound (how : ReadEnd) (h : s.WatchListSound) : (endSetup how s).WatchListSound := by
  unfold endSetup
  split
  · exact h.congr rfl
  · split
    · exact h.congr rfl
    · exact prepareSession_listSound _ h

theorem setupReadEnd_listSound (k : Nat) (how : ReadEnd) (h : s.WatchListSound) :
    (setupReadEnd k how s).WatchListSound := by
  unfold setupReadEnd
  split
  · exact h
  · split
    · dsimp only
      split
      · exact h.congr rfl
      · exact .finish (endSetup_listSound how (h.congr rfl))
    · exact h

theorem endListing_listSound (k : CtxId) (b : MeasureBody) (how : ReadEnd) (h : s.WatchListSound) :
    (endListing k b how s).WatchListSound := by
  unfold endListing
  split
  · exact h.congr rfl
  · split <;> exact h.congr rfl

theorem listReadEnd_listSound (k : Nat) (how : ReadEnd) (h : s.WatchListSound) :
    (listReadEnd k how s).WatchListSound := by
  unfold listReadEnd
  split
  · exact h
  · split
    · dsimp only
      split
      · exact h.congr rfl
      · split
        · exact h.congr rfl
        · split
          · exact .finish (endListing_listSound _ _ how (h.congr rfl))
          · exact h.congr rfl
    · exact h

theorem resultWriteEnd_listSound (k : Nat) (how : WriteEnd) (h : s.WatchListSound) :
    (resultWriteEnd k how s).WatchListSound := by
  unfold resultWriteEnd
  split
  · exact h
  · dsimp only
    split
    · exact h.congr rfl
    · exact .finish (h.congr rfl)

/-! ### WATCH_ADD (R118, R120, R121) -/

/-- R118, R120: a new id on a READY channel that nothing watches. -/
theorem placeEntry_listSound {e : WatchEntry} (h : s.WatchListSound) (hnew : ∀ x ∈ s.watch.entries, x.id ≠ e.id)
    (hready : s.channels[e.ch].ready = true) (hlink : s.channels[e.ch].watchLink = none) :
    (placeEntry e s).WatchListSound := by
  have hascends : (insertEntry e s.watch.entries).Pairwise fun a b => a.id < b.id := insertEntry_ascends h.1 hnew
  obtain ⟨-, hlinks, hreadies, hpending, hjobs⟩ := watchListSound_iff.1 h
  have hfree : ∀ id, (id, e.ch) ∉ s.watched := fun id hid => by
    have := (hlinks e.ch id).2 hid
    rw [hlink] at this
    cases this
  refine watchListSound_iff.2 ⟨List.pairwise_map.2 hascends, fun ch id => ?_, fun ch hl => ?_, hpending,
    fun id hid => ?_⟩
  · rw [mem_watched_placeEntry]
    by_cases hch : ch = e.ch
    · subst hch
      rw [placeEntry_channel]
      simp only [hfree, or_false, and_true, Option.some.injEq]
    · rw [placeEntry_otherChannel hch, hlinks]
      simp only [Ne.symm hch, and_false, false_or]
  · by_cases hch : ch = e.ch
    · subst hch
      rw [placeEntry_channel]
      exact hready
    · rw [placeEntry_otherChannel hch] at hl ⊢
      exact hreadies ch hl
  · obtain ⟨ch, hmem⟩ := hjobs id hid
    exact ⟨ch, mem_watched_placeEntry.2 (.inr hmem)⟩

/-- R120: the steps of a WATCH_ADD, and the entry it places when none fails. -/
theorem execWatchAdd_listSound (k : CtxId) (b : WatchAddBody) (h : s.WatchListSound) :
    (execWatchAdd k b s).WatchListSound := by
  unfold execWatchAdd
  dsimp only
  split
  · exact h.congr rfl
  · rename_i hnew
    split
    · exact h.congr rfl
    · rename_i hready
      split
      · exact h.congr rfl
      · rename_i hlink
        split
        · exact h.congr rfl
        · exact (placeEntry_listSound h (watchEntry_none.1 hnew) (by simpa using hready) hlink).congr rfl

/-! ### WATCH_REMOVE (R118, R122) -/

theorem removeEntry_listSound {e : WatchEntry} (h : s.WatchListSound) (he : e ∈ s.watch.entries) :
    (removeEntry e s).WatchListSound := by
  have hdistinct := h.idsDistinct
  have hascends := h.1.filter fun x => x.id != e.id
  obtain ⟨-, hlinks, hreadies, hpending, hjobs⟩ := watchListSound_iff.1 h
  have hlink : s.channels[e.ch].watchLink = some e.id := (hlinks e.ch e.id).2 (mem_watched.2 ⟨e, he, rfl, rfl⟩)
  have honce : ∀ ch, (e.id, ch) ∈ s.watched → ch = e.ch := fun ch hmem => by
    obtain ⟨x, hx, hid, rfl⟩ := mem_watched.1 hmem
    rw [hdistinct x hx e he hid]
  rw [watchListSound_iff, removeEntry_pending]
  refine ⟨?_, fun ch id => ?_, fun ch hl => ?_, hpending.filter _, fun id hid => ?_⟩
  · rw [State.watched, removeEntry_entries]
    exact List.pairwise_map.2 hascends
  · rw [mem_watched_removeEntry, ← hlinks]
    by_cases hch : ch = e.ch
    · subst hch
      rw [removeEntry_channel, hlink]
      simp [eq_comm]
    · rw [removeEntry_otherChannel hch]
      refine ⟨fun hl => ⟨hl, ?_⟩, And.left⟩
      rintro rfl
      exact hch (honce ch ((hlinks ch e.id).1 hl))
  · by_cases hch : ch = e.ch
    · subst hch
      rw [removeEntry_channel] at hl
      cases hl
    · rw [removeEntry_otherChannel hch] at hl ⊢
      exact hreadies ch hl
  · obtain ⟨hmem, hne⟩ := List.mem_filter.1 hid
    obtain ⟨ch, hch⟩ := hjobs id hmem
    exact ⟨ch, mem_watched_removeEntry.2 ⟨hch, by simpa using hne⟩⟩

theorem execWatchRemove_listSound (k : CtxId) (id : WatchId) (h : s.WatchListSound) :
    (execWatchRemove k id s).WatchListSound := by
  unfold execWatchRemove
  split
  · exact h.congr rfl
  · rename_i e he
    obtain ⟨hmem, rfl⟩ := watchEntry_some he
    exact (removeEntry_listSound h hmem).congr rfl

/-! ### The other requests (R59) -/

theorem beginMeasure_listSound (k : CtxId) (b : MeasureBody) (external : Bool) (h : s.WatchListSound) :
    (beginMeasure k b external s).WatchListSound := by
  unfold beginMeasure
  split
  · exact h.congr rfl
  · split <;> exact h.congr rfl

theorem execProfileSet_listSound (k : CtxId) (b : ProfileSetBody) (h : s.WatchListSound) :
    (execProfileSet k b s).WatchListSound := by
  rw [execProfileSet_eq]
  exact h.congr rfl

theorem execWatchQuery_listSound (k : CtxId) (c : Context) (h : s.WatchListSound) :
    (execWatchQuery k c s).WatchListSound := by
  unfold execWatchQuery
  dsimp only
  split
  · exact h.congr rfl
  · exact h.worked (enterWriting_worked k _ _ _ _)

theorem execHold_listSound (c : ConvId) (k : CtxId) (h : s.WatchListSound) : (execHold c k s).WatchListSound := by
  unfold execHold
  split
  · exact (h.worked (changeConvState_worked c .held)).congr rfl
  · exact (h.worked (changeConvState_worked c .held)).congr rfl
  all_goals exact h.congr rfl

theorem execRelease_listSound (c : ConvId) (k : CtxId) (h : s.WatchListSound) : (execRelease c k s).WatchListSound := by
  unfold execRelease
  split <;> exact h.congr rfl

theorem execCheck_listSound (c : ConvId) (k : CtxId) (h : s.WatchListSound) : (execCheck c k s).WatchListSound := by
  unfold execCheck
  split <;> exact h.congr rfl

theorem execConverterSet_listSound (k : CtxId) (c : ConvId) (action : ConvAction) (h : s.WatchListSound) :
    (execConverterSet k c action s).WatchListSound := by
  unfold execConverterSet
  dsimp only
  split
  · exact h.congr rfl
  · split
    · exact execHold_listSound c k (h.congr rfl)
    · exact execRelease_listSound c k (h.congr rfl)
    · exact execCheck_listSound c k (h.congr rfl)

theorem execAbort_listSound (k : CtxId) (queue : QueueId) (scope tag : Nat) (h : s.WatchListSound) :
    (execAbort k queue scope tag s).WatchListSound := by
  unfold execAbort
  split
  · unfold execAbortOne
    split
    · exact h.congr rfl
    · split
      · exact h.congr rfl
      · split
        · exact h.congr rfl
        · exact (h.worked (setEndCause_worked .aborted _)).congr rfl
  · unfold execAbortAll
    dsimp only
    split
    · exact h.congr rfl
    · exact (setEndCauses_listSound .aborted _ h).congr rfl

theorem beginPath_listSound (k : CtxId) (c : Context) (h : s.WatchListSound) : (beginPath k c s).WatchListSound := by
  unfold beginPath
  split
  · exact beginMeasure_listSound _ _ _ h
  · exact h.congr rfl
  · exact h.congr rfl
  · exact execProfileSet_listSound _ _ h
  · exact execWatchAdd_listSound _ _ h
  · exact execWatchRemove_listSound _ _ h
  · exact execWatchQuery_listSound _ _ h
  · exact h.congr rfl
  · exact execConverterSet_listSound _ _ _ h
  · exact execAbort_listSound _ _ _ _ h
  · exact h.congr rfl

/-! ### The ends that take a record (R64, R70, R162) -/

theorem admitRecord_listSound (queue : QueueId) (r : Request) (h : s.WatchListSound) :
    (admitRecord queue r s).WatchListSound := by
  unfold admitRecord
  split
  · exact h
  · dsimp only
    split
    · exact h.congr rfl
    · exact beginPath_listSound _ _ (h.congr rfl)

theorem takeRecord_listSound (q : QueueId) (how : ReadEnd) (h : s.WatchListSound) :
    (takeRecord q how s).WatchListSound := by
  unfold takeRecord
  split
  · unfold arrive
    split
    · exact h.congr rfl
    · exact admitRecord_listSound _ _ (h.congr rfl)
  · exact faultQueue_listSound _ _ _ h

theorem fetchOver_listSound (r : FetchRead) (h : s.WatchListSound) : (fetchOver r s).WatchListSound := by
  unfold fetchOver
  dsimp only
  split <;> exact h.congr rfl

theorem fetchReadEnd_listSound (how : ReadEnd) (h : s.WatchListSound) : (fetchReadEnd how s).WatchListSound := by
  unfold fetchReadEnd
  split
  · exact h
  · rename_i r _
    have hover := fetchOver_listSound r h
    split
    · dsimp only
      split
      · exact .finish (takeRecord_listSound _ how hover)
      · exact hover.finish
    · exact h

theorem freeContext_listSound (k : CtxId) (h : s.WatchListSound) : (freeContext k s).WatchListSound := by
  unfold freeContext
  split
  · exact h
  · unfold admitHeld
    split
    · split
      · exact admitRecord_listSound _ _ (h.congr rfl)
      · exact h.congr rfl
    · exact h.congr rfl

theorem ringWriteEnd_listSound (how : WriteEnd) (h : s.WatchListSound) : (ringWriteEnd how s).WatchListSound := by
  unfold ringWriteEnd
  split
  · exact h
  · rename_i w _
    split
    · exact .finish (h.congr rfl)
    · split
      · refine .finish ?_
        unfold sourceDone
        split
        · exact freeContext_listSound _ (h.congr rfl)
        · exact h.congr rfl
      · exact h.congr rfl

/-! ### What a command does to the watch list -/

theorem commandEffect_listSound (i : Instr) (h : s.WatchListSound) : (commandEffect i s).WatchListSound := by
  cases i with
  | deviceReset => exact deviceReset_listSound s
  | start => exact startCommand_listSound h
  | stopDrain => exact stopDrainCommand_listSound h
  | stopCut => exact stopCutCommand_listSound h
  | clear => exact clearCommand_listSound s
  | commandRefused word => exact engineCommandWrite_listSound word h
  | submitIndex word => exact submitWrite_listSound word h
  | releaseIndex word => exact releaseWrite_listSound word h
  | interruptControl word => exact h.congr rfl
  | registerWrite offset word => exact windowWrite_listSound offset word h
  | setupReadEnd k how => exact setupReadEnd_listSound k how h
  | fetchReadEnd how => exact fetchReadEnd_listSound how h
  | listReadEnd k how => exact listReadEnd_listSound k how h
  | resultWriteEnd k how => exact resultWriteEnd_listSound k how h
  | completionRingWriteEnd how => exact ringWriteEnd_listSound how h
  | settleEnd c => exact h.worked (settleEnd_worked c)
  | sampleEnd c outcome => exact h.worked (sampleEnd_worked c outcome)
  | dischargeEnd c => exact h.worked (dischargeEnd_worked c h.idsDistinct)
  | faultEvent c => exact h.worked (faultEvent_worked c)
  | faultDischargeEnd c => exact h.worked (faultDischargeEnd_worked c)
  | clearDischargeEnd c => exact h.congr rfl
  | periodTimerExpiry => exact periodExpiry_listSound h
  | coalescingTimerExpiry => exact coalescingExpiry_listSound h

/-- Settles O56: soundness is kept by the effect of each command. -/
theorem watchListStaysSound : Obligations.WatchListStaysSound := by
  intro s t hs hstep
  rcases step_cases hstep with rfl | ⟨i, rest, -, rfl⟩
  · exact hs
  · exact commandEffect_listSound i (hs.congr rfl)

end Sys2Proof.Machine
end

section
/-! SUPPORT. TimersExpire: the start of a round, the overrun of one in progress (R127 to R129), and what the arbiters of
an event leave of the flags of a round that goes on (R130). -/

namespace Sys2Proof.Machine

variable {s t u : State}

/-! ### The flags of a round (R130) -/

/-- R130: a round that the test leaves in progress keeps its flags. -/
theorem roundTested_goesOn {w : WatchUnit} (h : w.roundTested.inProgress = true) :
    w.inProgress = true ∧ w.roundTested.promoted = w.promoted ∧ w.roundTested.overrun = w.overrun := by
  unfold WatchUnit.roundTested at *
  dsimp only at *
  obtain ⟨hin, hgoes⟩ := Bool.and_eq_true_iff.1 h
  rw [hgoes, Bool.and_true, Bool.and_true]
  exact ⟨hin, rfl, rfl⟩

/-- A round in progress in `t` is the round of `s`, with its flags. -/
def RoundKept (s t : State) : Prop :=
  t.watch.inProgress = true →
    s.watch.inProgress = true ∧ t.watch.promoted = s.watch.promoted ∧ t.watch.overrun = s.watch.overrun

namespace RoundKept

theorem ofWatch (h : t.watch = s.watch) : RoundKept s t := fun hp => by
  rw [h] at hp ⊢
  exact ⟨hp, rfl, rfl⟩

theorem refl (s : State) : RoundKept s s := .ofWatch rfl

theorem trans (h : RoundKept s t) (g : RoundKept t u) : RoundKept s u := fun hp => by
  obtain ⟨ht, hpromoted, hoverrun⟩ := g hp
  obtain ⟨hs, hpromoted', hoverrun'⟩ := h ht
  exact ⟨hs, hpromoted.trans hpromoted', hoverrun.trans hoverrun'⟩

theorem ofSkipPending (id : WatchId) (s : State) : RoundKept s (skipPending id s) := by
  rw [skipPending_eq]
  exact roundTested_goesOn

theorem ofSkipAllPending (s : State) : RoundKept s (skipAllPending s) := by
  unfold skipAllPending
  generalize s.watch.pending = l
  induction l generalizing s with
  | nil => exact .refl s
  | cons id l ih => exact (ofSkipPending id s).trans (ih (skipPending id s))

theorem ofNoConverterEnds (s : State) : RoundKept s (noConverterEnds s) := by
  unfold noConverterEnds
  split
  · exact (ofWatch (WatchUnitKept.foldl _ WatchUnitKept.ofContextNoConverter _ s).watch).trans (ofSkipAllPending _)
  · exact .refl s

theorem ofSettleClaims (n : Nat) (s : State) : RoundKept s (settleClaims n s) := by
  induction n generalizing s with
  | zero => exact .refl s
  | succ n ih =>
    have hround := (ofWatch (WatchUnitKept.ofGrantPass s).watch).trans (ofNoConverterEnds (grantPass s))
    unfold settleClaims
    dsimp only
    split
    · exact hround.trans (ih _)
    · exact hround

theorem ofOfferWatch (c : ConvId) (id : WatchId) (s : State) : RoundKept s (offerWatch c id s) := by
  unfold offerWatch
  split
  · split
    · exact fun hp => ⟨hp, rfl, rfl⟩
    · exact ofSkipPending id s
  · exact ofSkipPending id s

theorem ofArbiterStep (h : arbiterStep s = some t) : RoundKept s t := by
  obtain ⟨c, -, -, ⟨id, -, -, rfl⟩ | ⟨w, -, rfl⟩⟩ := arbiterStep_cases h
  · exact ofOfferWatch c id s
  · exact .ofWatch (WatchUnitKept.ofDispatchWork c w s).watch

theorem ofArbiterLoop (n : Nat) (s : State) : RoundKept s (arbiterLoop n s) := by
  induction n generalizing s with
  | zero => exact .refl s
  | succ n ih =>
    unfold arbiterLoop
    split
    · exact (ofArbiterStep ‹_›).trans (ih _)
    · exact .refl s

/-- The arbiters of an event complete a round or leave its flags alone. -/
theorem ofFinish (s : State) : RoundKept s (finish s) :=
  (ofSettleClaims 17 s).trans ((ofArbiterLoop 36 _).trans (.ofWatch (finish_afterArbiters s).2.2.2))

end RoundKept

/-! ### An expiry of the period timer (R127 to R129) -/

/-- R128, R130: a round starts with its jobs, or completes at once with none. -/
theorem startRound_eq (w : WatchUnit) :
    let jobs := (w.entries.filter fun e => decide (e.state ≠ .fault)).map WatchEntry.id
    w.startRound = { w with
      round := (w.round + 1) % 65536, inProgress := !jobs.isEmpty, promoted := false, running := [], pending := jobs
      overrun := if jobs.isEmpty then false else w.overrun } := by
  have hfilter : (w.entries.filter fun e => decide (e.state ≠ .fault)) = w.entries.filter fun e => e.state != .fault :=
    List.filter_congr fun e _ => by simp [bne, decide_not, beq_eq_decide]
  dsimp only
  rw [hfilter, WatchUnit.startRound, completeRound_eq, WatchUnit.roundTested]
  cases ((w.entries.filter fun e => e.state != .fault).map WatchEntry.id).isEmpty <;> simp

theorem raise_modWatch (r : Report) (f : WatchUnit → WatchUnit) (s : State) :
    (raise r s).modWatch f = raise r (s.modWatch f) := by
  unfold raise
  by_cases h : s.reports.length < Config.reportPlaces
  · rw [if_pos h, if_pos (by exact h)]
    rfl
  · rw [if_neg h, if_neg (by exact h)]
    rfl

/-- R170: a full buffer takes no record. -/
theorem raise_reports (r : Report) (s : State) :
    (raise r s).reports = if s.reports.length < 8 then s.reports ++ [r] else s.reports := by
  rcases raise_cases s r with ⟨hroom, h⟩ | ⟨hfull, h⟩
  · rw [h, if_pos hroom]
  · rw [h, if_neg (not_lt.2 hfull)]

/-- R127, R129: a round in progress is marked overrun, with ROUND_OVERRUN unless it was marked before. -/
theorem overrunRound_startTimer (s : State) :
    (overrunRound s).modWatch WatchUnit.startTimer =
      (if s.watch.overrun then id else raise (.roundOverrun s.watch.round)) { s with watch := { s.watch with
        promoted := true, overrun := true
        timer := if s.watch.period = 0 then none else some (s.watch.period * 32000) } } := by
  unfold overrunRound
  dsimp only
  split
  · rfl
  · rw [raise_modWatch]
    rfl

theorem overrunRound_watch (s : State) :
    (overrunRound s).watch = { s.watch with promoted := true, overrun := true } := by
  unfold overrunRound
  dsimp only
  split
  · rfl
  · rw [raise_watch]
    rfl

/-- R129, R170: the notice is raised once in a round, and dropped at a full buffer. -/
theorem overrunRound_reports (s : State) : (overrunRound s).reports =
    if s.watch.overrun = false ∧ s.reports.length < 8 then s.reports ++ [.roundOverrun s.watch.round]
    else s.reports := by
  unfold overrunRound
  cases s.watch.overrun with
  | true => rfl
  | false =>
    refine (raise_reports _ _).trans ?_
    simp only [true_and]
    rfl

theorem periodExpiry_running {left : Nat} (h : s.watch.timer = some left) : periodExpiry s =
    finish ((if s.watch.inProgress then overrunRound s else s.modWatch WatchUnit.startRound).modWatch
      WatchUnit.startTimer) := by
  simp only [periodExpiry, h]

/-- Settles O34: each expiry leads to the state written out, and its arbiters keep the flags of a round that goes on. -/
theorem timersExpire : Obligations.TimersExpire := by
  refine ⟨fun s h => ?_, fun s left h => ?_, fun s h => ?_, fun s left h => ⟨fun hidle => ?_, fun hround => ?_⟩⟩
  · rw [exec_eq, commandEffect, coalescingExpiry, h]
  · rw [exec_eq, commandEffect, coalescingExpiry, h]
    rfl
  · rw [exec_eq, commandEffect, periodExpiry, h]
  · have hstarted : (s.modWatch WatchUnit.startRound).modWatch WatchUnit.startTimer = { s with
        watch := s.watch.startRound.startTimer } := rfl
    rw [exec_eq, commandEffect, periodExpiry_running h, hidle, if_neg (by simp), hstarted, startRound_eq]
    exact ⟨rfl, finish_arbitrated _⟩
  · have heffect := periodExpiry_running h
    rw [hround, if_pos rfl] at heffect
    have hnext := (exec_eq .periodTimerExpiry s).trans (congrArg _ heffect)
    have hoverran := overrunRound_startTimer s
    have a := finish_arbitrated ((overrunRound s).modWatch WatchUnit.startTimer)
    have hkept := RoundKept.ofFinish ((overrunRound s).modWatch WatchUnit.startTimer)
    have hwatch : ((overrunRound s).modWatch WatchUnit.startTimer).watch
        = WatchUnit.startTimer { s.watch with promoted := true, overrun := true } :=
      congrArg WatchUnit.startTimer (overrunRound_watch s)
    refine ⟨hoverran ▸ hnext, _, hnext, ?_, ?_, a.reports.trans (overrunRound_reports s), fun hp => ?_, hoverran ▸ a⟩
    · rw [a.watch.2.2, hwatch]
      rfl
    · rw [a.watch.2.1, hwatch]
      rfl
    · obtain ⟨-, hpromoted, hoverrun⟩ := hkept hp
      rw [hpromoted, hoverrun, hwatch]
      exact ⟨rfl, rfl⟩

end Sys2Proof.Machine
end

section
/-! SUPPORT. WatchLevels and JudgeEntry: the levels and the kinds of reading (R134), the tracking step (R135), and the
judgment of an entry by its state (R135, R136). -/

namespace Sys2Proof.Machine

variable {b r : Nat} {e : WatchEntry}

/-! ### The levels (R134) -/

theorem levels_upper {u : Nat} (h : e.upper = some u) (b : Nat) :
    highLevel b e = some (limit16 (b + u)) ∧ highHolding b e = some (limit16 (b + u - e.hysteresis)) := by
  rw [highLevel, highHolding, h]
  exact ⟨rfl, rfl⟩

theorem levels_noUpper (h : e.upper = none) (b : Nat) : highLevel b e = none ∧ highHolding b e = none := by
  rw [highLevel, highHolding, h]
  exact ⟨rfl, rfl⟩

theorem levels_lower {l : Nat} (h : e.lower = some l) (b : Nat) :
    lowLevel b e = some (limit16 (b - l)) ∧ lowHolding b e = some (limit16 (b + e.hysteresis - l)) := by
  rw [lowLevel, lowHolding, h]
  exact ⟨rfl, rfl⟩

theorem levels_noLower (h : e.lower = none) (b : Nat) : lowLevel b e = none ∧ lowHolding b e = none := by
  rw [lowLevel, lowHolding, h]
  exact ⟨rfl, rfl⟩

/-- R134: a level computed over whole numbers, floored at 0, is limited as the integer is. -/
theorem limit16_eq {n : Nat} {x : Int} (h : (n : Int) = max 0 x) : (limit16 n : Int) = max 0 (min 65535 x) := by
  unfold limit16
  omega

/-! ### The three kinds of reading (R134) -/

theorem crossing_high_iff (b r : Nat) (e : WatchEntry) :
    crossing b r e = some .high ↔ ∃ h, highLevel b e = some h ∧ h ≤ r := by
  have hany : (highLevel b e).any (fun h => decide (h ≤ r)) = true ↔ ∃ h, highLevel b e = some h ∧ h ≤ r := by
    simp [Option.any_eq_true]
  unfold crossing
  rw [← hany]
  split
  · simp only [*]
  · split <;> simp [*]

/-- A reading at the low level, unless it is at the high level as well. -/
theorem crossing_low_iff (b r : Nat) (e : WatchEntry) : crossing b r e = some .low ↔
    crossing b r e ≠ some .high ∧ ∃ l, lowLevel b e = some l ∧ r ≤ l := by
  have hany : (lowLevel b e).any (fun l => decide (r ≤ l)) = true ↔ ∃ l, lowLevel b e = some l ∧ r ≤ l := by
    simp [Option.any_eq_true]
  rw [← hany]
  unfold crossing
  split
  · simp
  · split <;> simp [*]

/-- R134: with limits of at least 1 the low level lies below the high level. -/
theorem lowLevel_lt_highLevel {h l : Nat} (hb : b ≤ 65535) (hupper : ∀ u, e.upper = some u → 1 ≤ u)
    (hlower : ∀ l, e.lower = some l → 1 ≤ l) (hh : highLevel b e = some h) (hl : lowLevel b e = some l) : l < h := by
  obtain ⟨u, hu, rfl⟩ := Option.map_eq_some_iff.1 hh
  obtain ⟨v, hv, rfl⟩ := Option.map_eq_some_iff.1 hl
  have := hupper u hu
  have := hlower v hv
  unfold limit16
  omega

/-- Settles O39: the low level lies below the high level, so no reading is at both. -/
theorem watchLevels : Obligations.WatchLevels := by
  intro b r e hb _ hupper hlower limited
  refine ⟨fun u hu => ?_, fun hu => levels_noUpper hu b, fun l hl => ?_, fun hl => levels_noLower hl b,
    crossing_high_iff b r e, ?_⟩
  · obtain ⟨hlevel, hholding⟩ := levels_upper hu b
    exact ⟨_, _, hlevel, hholding, limit16_eq (by omega), limit16_eq (by omega)⟩
  · obtain ⟨hlevel, hholding⟩ := levels_lower hl b
    exact ⟨_, _, hlevel, hholding, limit16_eq (by omega), limit16_eq (by omega)⟩
  · rw [crossing_low_iff, and_iff_right_iff_imp, ne_eq, crossing_high_iff]
    rintro ⟨l, hl, hrl⟩ ⟨h, hh, hhr⟩
    exact absurd (lowLevel_lt_highLevel hb hupper hlower hh hl) (not_lt.2 (hhr.trans hrl))

/-! ### The tracking step (R135) -/

/-- R135: the step toward a reading at or above the baseline. -/
theorem trackBaseline_up {shift : Nat} (hs : shift < 15) (h : b ≤ r) :
    trackBaseline b r shift = b + (r - b) / 2 ^ shift := by
  have hdiff : (r : Int) - b = (r - b : Nat) := (Int.ofNat_sub h).symm
  have hpow : (2 : Int) ^ shift = (2 ^ shift : Nat) := by push_cast; rfl
  rw [trackBaseline, if_neg (by omega), hdiff, hpow, ← Int.ofNat_tdiv]
  generalize (r - b) / 2 ^ shift = step
  omega

/-- R135: the step toward a reading at or below the baseline. -/
theorem trackBaseline_down {shift : Nat} (hs : shift < 15) (h : r ≤ b) :
    trackBaseline b r shift = b - (b - r) / 2 ^ shift := by
  have hdiff : (r : Int) - b = -(b - r : Nat) := by rw [Int.ofNat_sub h, neg_sub]
  have hpow : (2 : Int) ^ shift = (2 ^ shift : Nat) := by push_cast; rfl
  rw [trackBaseline, if_neg (by omega), hdiff, hpow, Int.neg_tdiv, ← Int.ofNat_tdiv]
  generalize (b - r) / 2 ^ shift = step
  omega

/-- R135: shift 15 freezes the baseline. -/
theorem trackBaseline_frozen (b r : Nat) : trackBaseline b r 15 = b := if_pos rfl

/-- R135: shift 0 takes the reading. -/
theorem trackBaseline_zero (b r : Nat) : trackBaseline b r 0 = r := by
  rcases le_total b r with h | h
  · rw [trackBaseline_up (by decide) h, pow_zero, Nat.div_one]
    omega
  · rw [trackBaseline_down (by decide) h, pow_zero, Nat.div_one]
    omega

/-! ### The judgment by state (R135, R136) -/

theorem judge_inside (h : e.state = .inside) (b r : Nat) : judge (some b) r e = judgeInside b r e := by
  rw [judge, h]

theorem judge_outside (h : e.state = .above ∨ e.state = .below) (b r : Nat) :
    judge (some b) r e = judgeOutside b r e := by
  rcases h with h | h <;> rw [judge, h]

theorem judgeInside_crossing {d : Direction} (h : crossing b r e = some d) : judgeInside b r e =
    if e.crossingCount d = e.persistence then
      { entry := { e with state := d.crossed.1, count := 0, direction := d, last := some r }
        baseline := some b, event := some d.crossed.2 }
    else
      { entry := { e with count := e.crossingCount d, direction := d, last := some r }
        baseline := some b, event := none } := by
  rw [judgeInside, h]

theorem judgeInside_inside (h : crossing b r e = none) : judgeInside b r e =
    { entry := { e with count := 0, last := some r }
      baseline := some (trackBaseline b r e.shift), event := none } := by
  rw [judgeInside, h]

/-- R136: the reading that holds an entry in ABOVE or BELOW. -/
theorem holds_iff (b r : Nat) (e : WatchEntry) : holds b r e = true ↔
    (e.state = .above ∧ ∃ h, highHolding b e = some h ∧ h ≤ r)
      ∨ (e.state = .below ∧ ∃ l, lowHolding b e = some l ∧ r ≤ l) := by
  unfold holds
  cases e.state <;> simp [Option.any_eq_true]

/-- Settles O40, by the state of the entry and the kind of reading. -/
theorem judgeEntry : Obligations.JudgeEntry := by
  intro b r e _ _ v
  refine ⟨fun hst => ?_, fun hst => ?_⟩
  · have hv : v = judgeInside b r e := judge_inside hst b r
    refine ⟨fun d hd => ?_, fun hnone => ?_⟩
    · intro count
      rw [judgeInside_crossing hd] at hv
      refine ⟨?_, fun hcount => ?_, fun hcount => ?_⟩
      · rw [hv]
        split <;> rfl
      · rw [hv, if_pos (show e.crossingCount d = e.persistence from hcount)]
        cases d <;> exact ⟨rfl, rfl⟩
      · rw [hv, if_neg (show e.crossingCount d ≠ e.persistence from hcount)]
        exact ⟨rfl, rfl⟩
    · rw [judgeInside_inside hnone] at hv
      rw [hv]
      refine ⟨rfl, rfl, fun hs => ?_, fun hs => ?_, fun hs => ⟨_, rfl, trackBaseline_up hs, trackBaseline_down hs⟩⟩
      · rw [hs, trackBaseline_frozen]
      · rw [hs, trackBaseline_zero]
  · intro holding
    have hv : v = judgeOutside b r e := judge_outside hst b r
    have hholds : holds b r e = true ↔ holding := holds_iff b r e
    rw [judgeOutside] at hv
    rw [hv, ← hholds]
    refine ⟨?_, fun hh => ?_, fun hh hcount => ?_, fun hh hcount => ?_⟩
    · split
      · rfl
      · split <;> rfl
    · rw [if_pos hh]
      exact ⟨rfl, rfl⟩
    · rw [if_neg hh, if_pos hcount]
      exact ⟨rfl, rfl⟩
    · rw [if_neg hh, if_neg hcount]
      exact ⟨rfl, rfl⟩

end Sys2Proof.Machine
end

section
/-! SUPPORT. WatchVerdicts: the reading and the verdict of a watch job (R132, R133, R137), and what its normal end
writes, raises and completes, judged or discarded (R123, R130, R138). -/

namespace Sys2Proof.Machine

variable {s : State} {n ceiling : Nat} {l : List Sample} {id : WatchId} {w : RunningWatch} {j : Job} {e : WatchEntry}

/-! ### The reading and the verdict (R132, R137) -/

/-- R90: a run with a summary is GOOD or DEGRADED. -/
theorem runStatus_of_summary {m : Summary} (h : summaryOf l = some m) (n : Nat) :
    runStatus n l = .good ∨ runStatus n l = .degraded := by
  have hsome : (summaryOf l).isSome = true := by rw [h]; rfl
  rw [runStatus_of_noStall n ((summaryOf_isSome l).1 hsome).2.2, if_pos hsome]
  split
  · exact .inl rfl
  · exact .inr rfl

theorem watchReading_opened (h : runStatus n l = .opened) (ceiling : Nat) : watchReading n ceiling l = none := by
  rw [watchReading, h]

theorem watchReading_ceiling (h : runStatus n l = .ceiling) (ceiling : Nat) :
    watchReading n ceiling l = some ceiling := by
  rw [watchReading, h]

theorem watchReading_summary {m : Summary} (h : summaryOf l = some m) (n ceiling : Nat) :
    watchReading n ceiling l = some m.mean := by
  rcases runStatus_of_summary h n with hst | hst <;> rw [watchReading, hst, h] <;> rfl

theorem watchVerdict_judged {r : Nat} (h : watchReading n ceiling l = some r) (baseline : Option Nat) (e : WatchEntry) :
    watchVerdict n ceiling l baseline e = judge baseline r e := by
  rw [watchVerdict, h]

theorem watchVerdict_open (h : watchReading n ceiling l = none) (baseline : Option Nat) (e : WatchEntry) :
    watchVerdict n ceiling l baseline e = judgeOpen baseline e := by
  rw [watchVerdict, h]

/-! ### The judgment of a running job's entry (R132, step 3) -/

/-- R132: the verdict on the entry of a running job, against its channel's baseline. -/
def RunningWatch.verdict (w : RunningWatch) (j : Job) (e : WatchEntry) (s : State) : Verdict :=
  watchVerdict j.n j.ceiling j.samples s.channels[w.ch].baseline e

/-- R138: the event record of a verdict that raises an event, with 0 for the reading of an OPEN run. -/
def RunningWatch.eventRecord (w : RunningWatch) (j : Job) (e : WatchEntry) (s : State) (kind : EventKind) : Report :=
  .event kind e.id e.ch e.state ((watchReading j.n j.ceiling j.samples).getD 0) (w.verdict j e s).baseline w.round

/-- The state with the entry and the baseline of the verdict. -/
def verdictWritten (w : RunningWatch) (j : Job) (e : WatchEntry) (s : State) : State :=
  (modEntry e.id (fun _ => (w.verdict j e s).entry) s).modChan w.ch fun x =>
    { x with baseline := (w.verdict j e s).baseline }

theorem applyVerdict_noEvent (h : (w.verdict j e s).event = none) : applyVerdict w j e s = verdictWritten w j e s := by
  have hreport : (w.verdict j e s).report e (watchReading j.n j.ceiling j.samples) w.round = none := by
    rw [Verdict.report, h]
    rfl
  exact congrArg (raiseOption · (verdictWritten w j e s)) hreport

/-- R138: the event of the verdict. -/
theorem applyVerdict_event {kind : EventKind} (h : (w.verdict j e s).event = some kind) :
    applyVerdict w j e s = raise (w.eventRecord j e s kind) (verdictWritten w j e s) := by
  have hreport : (w.verdict j e s).report e (watchReading j.n j.ceiling j.samples) w.round
      = some (w.eventRecord j e s kind) := by
    rw [Verdict.report, h]
    rfl
  exact congrArg (raiseOption · (verdictWritten w j e s)) hreport

/-- The event touches neither channels nor the Watch Unit. -/
theorem applyVerdict_tables (w : RunningWatch) (j : Job) (e : WatchEntry) (s : State) :
    (applyVerdict w j e s).channels = (verdictWritten w j e s).channels
      ∧ (applyVerdict w j e s).watch = (verdictWritten w j e s).watch := by
  cases h : (w.verdict j e s).event with
  | none =>
    rw [applyVerdict_noEvent h]
    exact ⟨rfl, rfl⟩
  | some kind =>
    rw [applyVerdict_event h]
    exact ⟨raise_channels _ _, raise_watch _ _⟩

/-! ### The normal end of a watch job (R132) -/

/-- R122, R123: a job marked for discard, or without its entry, ends without a judgment. -/
theorem watchNormalEnd_discarded (hw : s.watch.running.find? (fun r => r.id == id) = some w)
    (h : w.discard = true ∨ watchEntry s id = none) (j : Job) : watchNormalEnd id j s = endRunning w s := by
  have hrun : runningWatch s id = some w := hw
  simp only [watchNormalEnd, hrun]
  split
  · rename_i hd he
    simp only [hd, he, Bool.false_eq_true, reduceCtorEq, or_self] at h
  · rfl

theorem watchNormalEnd_judged (hw : s.watch.running.find? (fun r => r.id == id) = some w)
    (he : s.watch.entries.find? (fun x => x.id == id) = some e) (hd : w.discard = false) (j : Job) :
    watchNormalEnd id j s = endRunning w (applyVerdict w j e s) := by
  have hrun : runningWatch s id = some w := hw
  have hentry : watchEntry s id = some e := he
  simp only [watchNormalEnd, hrun, hd, hentry]

theorem RunningWatch.id_of_find (hw : s.watch.running.find? (fun r => r.id == id) = some w) : w.id = id := by
  simpa using List.find?_some hw

/-- R130, R132, R138: the channel entries and the Watch Unit after a judged end. -/
theorem watchNormalEnd_tables (hw : s.watch.running.find? (fun r => r.id == id) = some w)
    (he : s.watch.entries.find? (fun x => x.id == id) = some e) (hd : w.discard = false)
    (hc : s.channels[w.ch].holder = some .watchUnit) (j : Job) :
    (watchNormalEnd id j s).channels = s.channels.set w.ch { s.channels[w.ch] with
        holder := none, baseline := (w.verdict j e s).baseline }
      ∧ (watchNormalEnd id j s).watch = WatchUnit.roundTested { s.watch with
          running := s.watch.running.filter fun r => r.id != id
          entries := s.watch.entries.map fun x => if x.id = id then (w.verdict j e s).entry else x } := by
  obtain ⟨hchannels, hwatch⟩ := applyVerdict_tables w j e s
  obtain ⟨-, hid⟩ := watchEntry_some (s := s) he
  have hget : (applyVerdict w j e s).channels[w.ch]
      = { s.channels[w.ch] with baseline := (w.verdict j e s).baseline } := by
    rw [hchannels, verdictWritten, modChan_get, if_pos rfl]
    rfl
  have hend := endRunning_eq w (applyVerdict w j e s) (by rw [hget]; exact hc)
  rw [watchNormalEnd_judged hw he hd, hend, hget, hchannels, hwatch, RunningWatch.id_of_find hw]
  refine ⟨?_, ?_⟩
  · simp only [verdictWritten, modChan_channels, Vector.set_set]
    rfl
  · rw [← hid]
    rfl

/-- Settles O41, by the discard mark and by the event of the verdict. -/
theorem watchVerdicts : Obligations.WatchVerdicts := by
  refine ⟨fun n ceiling l baseline e => ?_, fun s id j w hw hc hdiscard => ?_, fun s id j w e hw he hc => ?_⟩
  · intro v
    refine ⟨fun h => ?_, fun h => ?_, fun m hm => ?_, fun r => rfl⟩
    · have hv : v = judgeOpen baseline e := watchVerdict_open (watchReading_opened h ceiling) baseline e
      rw [hv]
      exact ⟨rfl, rfl, rfl⟩
    · exact watchVerdict_judged (watchReading_ceiling h ceiling) baseline e
    · exact watchVerdict_judged (watchReading_summary hm n ceiling) baseline e
  · rw [watchNormalEnd_discarded hw (hdiscard.imp_right watchEntry_none.2), endRunning_eq w s hc,
      RunningWatch.id_of_find hw]
  · intro v t
    refine ⟨watchNormalEnd_watchJobEnded id j s, ?_⟩
    cases hd : w.discard with
    | true =>
      have ht : t = _ := (watchNormalEnd_discarded hw (.inl hd) j).trans (endRunning_eq w s hc)
      rw [RunningWatch.id_of_find hw] at ht
      rw [ht]
      exact ⟨rfl, rfl, fun _ => ⟨rfl, rfl, rfl⟩, fun _ h => by cases h⟩
    | false =>
      obtain ⟨hchannels, hwatch⟩ := watchNormalEnd_tables hw he hd hc j
      have ht : t = endRunning w (applyVerdict w j e s) := watchNormalEnd_judged hw he hd j
      refine ⟨hchannels, hwatch, fun hnone => ?_, fun kind _ hkind => ?_⟩
      · rw [ht, applyVerdict_noEvent (hnone.resolve_left (by simp))]
        exact ⟨rfl, rfl, rfl⟩
      · rw [ht, applyVerdict_event hkind]
        rcases raise_cases (verdictWritten w j e s) (w.eventRecord j e s kind) with ⟨hroom, h⟩ | ⟨hfull, h⟩
        · rw [h]
          refine ⟨fun hlen => absurd hroom (not_lt.2 hlen), fun _ => ⟨_, rfl, rfl, rfl, fun hst => ?_, fun hst => ?_,
            fun m hm => ?_⟩⟩
          · rw [watchReading_ceiling hst, Option.getD_some]
          · rw [watchReading_opened hst, Option.getD_none]
          · rw [watchReading_summary hm, Option.getD_some]
        · rw [h]
          exact ⟨fun _ => ⟨rfl, rfl, rfl⟩, fun hlen => absurd hlen (not_lt.2 hfull)⟩

end Sys2Proof.Machine
end

section
/-! SUPPORT. WatchAddExecutes: the outcomes of a WATCH_ADD in the order of its steps (R120), and the entry it places
(R121). -/

namespace Sys2Proof.Machine

variable {s : State} {k : CtxId} {c : Context} {b : WatchAddBody} {e : WatchEntry}

/-! ### The outcomes in order (R120) -/

/-- R120: an id stands once in the list, so it names its entry. -/
theorem watchEntry_eq {id : WatchId} (he : e ∈ s.watch.entries) (hid : e.id = id)
    (honce : ∀ d ∈ s.watch.entries, d.id = id → d = e) : watchEntry s id = some e := by
  cases h : watchEntry s id with
  | none => exact absurd hid (watchEntry_none.1 h e he)
  | some d =>
    obtain ⟨hd, hdid⟩ := watchEntry_some h
    rw [honce d hd hdid]

theorem execWatchAdd_idInUse (he : watchEntry s b.entry.id = some e) (k : CtxId) :
    execWatchAdd k b s = completeContext k .idInUse (.watch b.entry.id.val e.ch.val) s := by
  simp only [execWatchAdd, he]

theorem execWatchAdd_off (hid : watchEntry s b.entry.id = none) (hr : s.channels[b.entry.ch].ready = false)
    (k : CtxId) : execWatchAdd k b s = completeContext k .channelOff (.channel b.entry.ch) s := by
  simp only [execWatchAdd, hid, hr, Bool.not_false, if_true]

theorem execWatchAdd_watched {link : WatchId} (hid : watchEntry s b.entry.id = none)
    (hr : s.channels[b.entry.ch].ready = true) (hl : s.channels[b.entry.ch].watchLink = some link) (k : CtxId) :
    execWatchAdd k b s = completeContext k .channelWatched (.watch link.val b.entry.ch.val) s := by
  simp only [execWatchAdd, hid, hr, hl, Bool.not_true, Bool.false_eq_true, if_false]

theorem execWatchAdd_invalid {code index : Nat} (hid : watchEntry s b.entry.id = none)
    (hr : s.channels[b.entry.ch].ready = true) (hl : s.channels[b.entry.ch].watchLink = none)
    (hcheck : b.check = some (code, index)) (k : CtxId) :
    execWatchAdd k b s = completeContext k .invalidRequest (.field code index) s := by
  simp only [execWatchAdd, hid, hr, hl, hcheck, Bool.not_true, Bool.false_eq_true, if_false]

theorem execWatchAdd_placed (hid : watchEntry s b.entry.id = none) (hr : s.channels[b.entry.ch].ready = true)
    (hl : s.channels[b.entry.ch].watchLink = none) (hcheck : b.check = none) (k : CtxId) : execWatchAdd k b s =
      completeContext k .success (.watch b.entry.id.val b.entry.ch.val) (placeEntry b.entry s) := by
  simp only [execWatchAdd, hid, hr, hl, hcheck, Bool.not_true, Bool.false_eq_true, if_false]
  rfl

/-- R120: a WATCH_ADD completes its context, after it has placed the entry or with nothing else done. -/
theorem execWatchAdd_cases (k : CtxId) (b : WatchAddBody) (s : State) : ∃ st d,
    execWatchAdd k b s = completeContext k st d s
      ∨ execWatchAdd k b s = completeContext k st d (placeEntry b.entry s) := by
  unfold execWatchAdd
  dsimp only
  split
  · exact ⟨_, _, .inl rfl⟩
  · split
    · exact ⟨_, _, .inl rfl⟩
    · split
      · exact ⟨_, _, .inl rfl⟩
      · split
        · exact ⟨_, _, .inl rfl⟩
        · exact ⟨_, _, .inr rfl⟩

/-! ### A completed context (R79) -/

theorem completeContext_get (hk : s.contexts[k] = some c) (st : Status) (d : Detail) :
    (completeContext k st d s).contexts[k] = some { c with state := .posting, result := some (st, d) } :=
  modCtx_self hk _

theorem completeContext_other {l : CtxId} (h : l ≠ k) (st : Status) (d : Detail) :
    (completeContext k st d s).contexts[l] = s.contexts[l] :=
  modCtx_other h _

/-- Settles O44, by the first step of R120 that fails. -/
theorem watchAddExecutes : Obligations.WatchAddExecutes := by
  intro s k c b hk hid hch id ch t completes unchanged
  have hidval : b.entry.id.val = b.id := Nat.mod_eq_of_lt hid
  have hchval : b.entry.ch.val = b.channel := Nat.mod_eq_of_lt hch
  have hfailed : ∀ {st : Status} {d d' : Detail}, d = d' → t = completeContext k st d s → completes st d' ∧ unchanged :=
    fun hd ht => ⟨hd ▸ (congrArg (fun x : State => x.contexts[k]) ht).trans (completeContext_get hk _ _),
      (congrArg State.watch ht).trans rfl, (congrArg State.channels ht).trans rfl⟩
  refine ⟨fun e he heid honce => ?_, fun hnew => ⟨fun hoff => ?_, fun link hready hlink => ?_, fun hready hfree =>
    ⟨fun code index hcheck => ?_, fun hcheck => ?_⟩⟩, fun l hl => ?_, ?_⟩
  · exact hfailed (by rw [hidval]) (execWatchAdd_idInUse (watchEntry_eq he heid honce) k)
  · exact hfailed rfl (execWatchAdd_off (watchEntry_none.2 hnew) hoff k)
  · exact hfailed (by rw [hchval]) (execWatchAdd_watched (watchEntry_none.2 hnew) hready hlink k)
  · exact hfailed rfl (execWatchAdd_invalid (watchEntry_none.2 hnew) hready hfree hcheck k)
  · have ht := execWatchAdd_placed (watchEntry_none.2 hnew) hready hfree hcheck k
    rw [hidval, hchval] at ht
    have hentries : t.watch.entries = insertEntry b.entry s.watch.entries :=
      congrArg (fun x : State => x.watch.entries) ht
    have hchannels : t.channels = (placeEntry b.entry s).channels := (congrArg State.channels ht).trans rfl
    rw [hchannels, hentries]
    exact ⟨(congrArg (fun x : State => x.contexts[k]) ht).trans (completeContext_get (s := placeEntry b.entry s) hk _ _),
      placeEntry_channel b.entry s, fun d hd => placeEntry_otherChannel hd, b.entry, mem_insertEntry.2 (.inl rfl), rfl,
      fun d => mem_insertEntry⟩
  · obtain ⟨st, d, ht | ht⟩ := execWatchAdd_cases k b s
    · exact (congrArg (fun x : State => x.contexts[l]) ht).trans (completeContext_other hl st d)
    · exact (congrArg (fun x : State => x.contexts[l]) ht).trans
        (completeContext_other (s := placeEntry b.entry s) hl st d)
  · obtain ⟨st, d, ht | ht⟩ := execWatchAdd_cases k b s
    all_goals
      rw [show t = _ from ht]
      rfl

end Sys2Proof.Machine
end

section
/-! SUPPORT. WatchRequestsExecute: WATCH_REMOVE with the test of its round (R122, R130), WATCH_TIMING (R126),
WATCH_QUERY (R124), and the bytes of its result (R125, 11.5). -/

namespace Sys2Proof.Machine

variable {s : State} {k : CtxId} {c : Context} {e : WatchEntry}

/-! ### WATCH_REMOVE (R122, R130) -/

theorem execWatchRemove_none {id : WatchId} (h : watchEntry s id = none) (k : CtxId) :
    execWatchRemove k id s = completeContext k .noSuchWatch (.watch id.val 0) s := by
  rw [execWatchRemove, h]

theorem execWatchRemove_some (h : watchEntry s e.id = some e) (k : CtxId) :
    execWatchRemove k e.id s = completeContext k .success (.watch e.id.val e.ch.val) (removeEntry e s) := by
  rw [execWatchRemove, h]
  rfl

/-- R130: a round with no pending and no running job completes. -/
theorem roundTested_completes {w : WatchUnit} (hp : w.pending = []) (hr : w.running = []) (hi : w.inProgress = true) :
    w.roundTested = { w with inProgress := false, promoted := false, overrun := false } := by
  simp [WatchUnit.roundTested, hp, hr, hi]

/-- R130: any other round goes on. -/
theorem roundTested_self {w : WatchUnit} (h : w.inProgress = false ∨ w.pending ≠ [] ∨ w.running ≠ []) :
    w.roundTested = w := by
  have htest : (w.inProgress && w.pending.isEmpty && w.running.isEmpty) = false := by
    rcases h with h | h | h <;> simp [h]
  simp only [WatchUnit.roundTested, htest, Bool.not_false, Bool.and_true]

theorem removeEntry_completes (hp : ∀ id ∈ s.watch.pending, id = e.id) (hr : s.watch.running = [])
    (hi : s.watch.inProgress = true) : (removeEntry e s).watch.inProgress = false
      ∧ (removeEntry e s).watch.promoted = false ∧ (removeEntry e s).watch.overrun = false := by
  have hpending : (s.watch.without e.id).pending = [] := List.filter_eq_nil_iff.2 fun id hid => by simp [hp id hid]
  have hrunning : (s.watch.without e.id).running = [] := List.map_eq_nil_iff.2 hr
  rw [removeEntry_watch, roundTested_completes hpending hrunning hi]
  exact ⟨rfl, rfl, rfl⟩

theorem removeEntry_goesOn
    (h : s.watch.inProgress = false ∨ (∃ id ∈ s.watch.pending, id ≠ e.id) ∨ s.watch.running ≠ []) :
    (removeEntry e s).watch.inProgress = s.watch.inProgress ∧ (removeEntry e s).watch.promoted = s.watch.promoted
      ∧ (removeEntry e s).watch.overrun = s.watch.overrun := by
  have hopen : (s.watch.without e.id).inProgress = false ∨ (s.watch.without e.id).pending ≠ []
      ∨ (s.watch.without e.id).running ≠ [] := by
    refine h.imp_right (Or.imp (fun ⟨id, hid, hne⟩ hnil => ?_) fun hrun hnil => hrun (List.map_eq_nil_iff.1 hnil))
    exact List.filter_eq_nil_iff.1 hnil id hid (by simpa using hne)
  rw [removeEntry_watch, roundTested_self hopen]
  exact ⟨rfl, rfl, rfl⟩

/-! ### WATCH_QUERY (R124) -/

theorem execWatchQuery_short (h : c.request.resultLength < queryLength s.watch.entries.length) (k : CtxId) :
    execWatchQuery k c s = completeContext k .bufferTooSmall (.length (queryLength s.watch.entries.length)) s :=
  if_pos h

theorem execWatchQuery_fits (h : queryLength s.watch.entries.length ≤ c.request.resultLength) (k : CtxId) :
    execWatchQuery k c s = enterWriting k .success (.query s.watch.entries.length s.watch.round) c.request.resultAddr
      (watchQueryResult c.queue c.request.tag s) s :=
  if_neg (not_lt.2 h)

/-- R124: a WATCH_QUERY touches its own context and the result writes. -/
theorem execWatchQuery_workedFor (k : CtxId) (c : Context) (s : State) :
    WorkedFor k s (execWatchQuery k c s) ∧ (execWatchQuery k c s).channels = s.channels := by
  rcases lt_or_ge c.request.resultLength (queryLength s.watch.entries.length) with h | h
  · rw [execWatchQuery_short h]
    exact ⟨.ofModCtx k _ s, rfl⟩
  · rw [execWatchQuery_fits h]
    exact ⟨enterWriting_workedFor k _ _ _ _ s, by rw [enterWriting_eq]; rfl⟩

/-! ### The result of a WATCH_QUERY, byte by byte (R125, 11.5) -/

/-- R125: the 16-byte header, six reserved bytes at its end. -/
def watchHeader (queue : QueueId) (tag : Nat) (s : State) : List Byte :=
  byte8 queue.val ++ byte8 s.watch.entries.length ++ bytes16 tag ++ bytes16 s.watch.round
    ++ byte8 (flag s.watch.inProgress + flag s.watch.promoted * 2) ++ byte8 s.watch.pending.length
    ++ bytes16 s.watch.period ++ zeros 6

/-- R125: one block per entry, with its channel's baseline. -/
def watchBlocks (s : State) : List (List Byte) := s.watch.entries.map fun e => watchBlock e s.channels[e.ch].baseline

theorem watchQueryResult_eq (queue : QueueId) (tag : Nat) (s : State) :
    watchQueryResult queue tag s = watchHeader queue tag s ++ (watchBlocks s).flatten := rfl

theorem watchHeader_fields (queue : QueueId) (tag : Nat) (s : State) :
    let header := watchHeader queue tag s
    header.length = 16 ∧ byteAt header 0 = queue.val ∧ byteAt header 1 = s.watch.entries.length % 256
      ∧ halfAt header 2 = tag % 65536 ∧ halfAt header 4 = s.watch.round % 65536
      ∧ byteAt header 6 = flag s.watch.inProgress + 2 * flag s.watch.promoted
      ∧ byteAt header 7 = s.watch.pending.length % 256 ∧ halfAt header 8 = s.watch.period % 65536 := by
  have hqueue := queue.isLt
  have hin := flag_le_one s.watch.inProgress
  have hpromoted := flag_le_one s.watch.promoted
  simp only [watchHeader, byte8, bytes16, List.cons_append, List.nil_append]
  exact ⟨rfl, byte_field (by omega), BitVec.toNat_ofNat _ 8, half_field tag, half_field s.watch.round,
    (byte_field (by omega)).trans (by omega), BitVec.toNat_ofNat _ 8, half_field s.watch.period⟩

theorem watchHeader_reserved (queue : QueueId) (tag : Nat) (s : State) {off : Nat} (h : 10 ≤ off) :
    byteAt (watchHeader queue tag s) off = 0 := byteAt_append_zeros h 6

theorem watchBlock_length (e : WatchEntry) (baseline : Option Nat) : (watchBlock e baseline).length = 16 := rfl

theorem watchBlocks_length (s : State) : (watchBlocks s).flatten.length = 16 * s.watch.entries.length := by
  unfold watchBlocks
  generalize s.watch.entries = entries
  induction entries with
  | nil => rfl
  | cons e rest ih =>
    rw [List.map_cons, List.flatten_cons, List.length_append, ih, watchBlock_length, List.length_cons]
    omega

theorem watchQueryResult_length (queue : QueueId) (tag : Nat) (s : State) :
    (watchQueryResult queue tag s).length = 16 + 16 * s.watch.entries.length := by
  rw [watchQueryResult_eq, List.length_append, (watchHeader_fields queue tag s).1, watchBlocks_length]

/-- R125: an entry block, field by field. -/
theorem watchBlock_fields (baseline : Option Nat) (hcount : e.count ≤ 15) (hpersistence : e.persistence ≤ 15) :
    let block := watchBlock e baseline
    byteAt block 0 = e.id.val ∧ byteAt block 1 = e.ch.val
      ∧ byteAt block 2 = e.state.code + 4 * flag (e.direction = .low) + 8 * flag e.upper.isSome
          + 16 * flag e.lower.isSome + 32 * flag e.last.isSome + 64 * flag baseline.isSome
      ∧ byteAt block 3 = e.count + 16 * e.persistence
      ∧ halfAt block 4 = e.last.getD 0 % 65536 ∧ halfAt block 6 = baseline.getD 0 % 65536
      ∧ halfAt block 8 = e.skipped % 65536 ∧ halfAt block 10 = e.upper.getD 0 % 65536
      ∧ halfAt block 12 = e.lower.getD 0 % 65536 ∧ halfAt block 14 = e.hysteresis % 65536 := by
  have hid := e.id.isLt
  have hch := e.ch.isLt
  have hstate : e.state.code ≤ 3 := by cases e.state <;> decide
  have hdirection : (if e.direction = .low then 4 else 0) = 4 * flag (e.direction = .low) := by
    cases e.direction <;> rfl
  have hlow := flag_le_one (e.direction = .low)
  have hupper := flag_le_one e.upper.isSome
  have hlower := flag_le_one e.lower.isSome
  have hlast := flag_le_one e.last.isSome
  have hbaseline := flag_le_one baseline.isSome
  simp only [watchBlock, byte8, bytes16, List.cons_append, List.nil_append, hdirection]
  exact ⟨byte_field (by omega), byte_field (by omega), (byte_field (by omega)).trans (by omega),
    (byte_field (by omega)).trans (by omega), half_field (e.last.getD 0), half_field (baseline.getD 0),
    half_field e.skipped, half_field (e.upper.getD 0), half_field (e.lower.getD 0), half_field e.hysteresis⟩

/-! ### The three requests -/

/-- Settles O45: each request leads to a state written out, and the result is its header and its blocks. -/
theorem watchRequestsExecute : Obligations.WatchRequestsExecute := by
  refine ⟨fun s k c hk => ?_, fun s queue tag => ?_⟩
  · intro framed
    refine ⟨fun id hid => ?_, fun e he => ?_, fun period _ => ?_, ?_⟩
    · rw [execWatchRemove_none (watchEntry_none.2 hid)]
      exact ⟨completeContext_get hk _ _, rfl, rfl, rfl, fun l hl => completeContext_other hl _ _, rfl⟩
    · intro t
      have ht : t = _ := execWatchRemove_some he k
      have hwatch := removeEntry_watch e s
      rw [ht]
      exact ⟨completeContext_get (s := removeEntry e s) hk _ _, removeEntry_entries e s, removeEntry_pending e s,
        removeEntry_channel e s, fun d hd => removeEntry_otherChannel hd, (congrArg WatchUnit.period hwatch).trans rfl,
        (congrArg WatchUnit.timer hwatch).trans rfl, (congrArg WatchUnit.round hwatch).trans rfl,
        fun hi hp hr => removeEntry_completes hp hr hi, removeEntry_goesOn, rfl,
        ⟨fun l hl => completeContext_other (s := removeEntry e s) hl _ _, rfl⟩, congrArg WatchUnit.running hwatch⟩
    · exact ⟨rfl, completeContext_get (s := s.modWatch _) hk _ _, rfl, rfl,
        fun l hl => completeContext_other (s := s.modWatch _) hl _ _, rfl⟩
    · obtain ⟨hworked, hchannels⟩ := execWatchQuery_workedFor k c s
      refine ⟨by rw [hworked.frame], hchannels, ⟨hworked.others, by rw [hworked.frame]⟩, fun hshort => ?_,
        fun hfits hrun => ?_⟩
      · rw [execWatchQuery_short hshort]
        exact ⟨rfl, completeContext_get hk _ _⟩
      · rw [execWatchQuery_fits hfits, enterWriting_eq, if_neg hrun]
        exact ⟨modCtx_self hk _, _, rfl, watchQueryResult_length _ _ s, rfl⟩
  · intro one
    obtain ⟨hlength, hqueue, hentries, htag, hround, hflags, hpending, hperiod⟩ := watchHeader_fields queue tag s
    refine ⟨watchHeader queue tag s, watchBlocks s, watchQueryResult_eq queue tag s, hlength, hqueue, hentries, htag,
      hround, hflags, hpending, hperiod, fun off => watchHeader_reserved queue tag s, List.length_map _,
      fun i e block he hblock hcount hpersistence => ?_⟩
    obtain rfl : watchBlock e s.channels[e.ch].baseline = block := by simpa [watchBlocks, he] using hblock
    obtain ⟨hid, hch, hstate, hrest⟩ := watchBlock_fields s.channels[e.ch].baseline hcount hpersistence
    refine ⟨watchBlock_length e _, hid, hch, hstate.trans ?_, hrest⟩
    cases e.state <;> rfl

end Sys2Proof.Machine
end

section
/-! SUPPORT. AbortExecutes: the end causes that an ABORT sets (R77), the target of scope ONE (R143), and the targets of
scope ALL in their order (R144). -/

namespace Sys2Proof.Machine

variable {s t u : State} {k l : CtxId} {c d : Context} {q : QueueId} {tag : Nat}

/-! ### One end cause (R77) -/

theorem setEndCause_free (hk : s.contexts[k] = none) (cause : EndCause) : setEndCause cause k s = s := by
  rw [setEndCause, hk]

/-- `t` is `s` but for what an end cause can touch (R77). -/
def EndsOnly (s t : State) : Prop := t = { s with
  contexts := t.contexts, converters := t.converters, faultDischarges := t.faultDischarges
  channels := t.channels, listReads := t.listReads }

theorem EndsOnly.trans (h : EndsOnly s t) (g : EndsOnly t u) : EndsOnly s u := by
  unfold EndsOnly at *
  rw [h] at g
  exact g

theorem setEndCause_endsOnly (cause : EndCause) (k : CtxId) (s : State) : EndsOnly s (setEndCause cause k s) := by
  cases hk : s.contexts[k] with
  | none => rw [setEndCause_free hk]; rfl
  | some c => exact (setEndCause_taken hk cause).frame

theorem setEndCause_other (cause : EndCause) (h : l ≠ k) : (setEndCause cause k s).contexts[l] = s.contexts[l] := by
  cases hk : s.contexts[k] with
  | none => rw [setEndCause_free hk]
  | some c => exact (setEndCause_taken hk cause).others l h

/-- The states in which a context is given an end cause (R77). -/
def CtxState.Endable (st : CtxState) : Prop := st = .listing ∨ st = .claiming ∨ st = .active

/-- R143, R144: a context is in a state of work, or writes or posts. -/
theorem CtxState.not_endable {st : CtxState} (h : ¬st.Endable) : st = .writing ∨ st = .posting := by
  cases st <;> simp_all [CtxState.Endable]

/-- R77: a TRIM whose search has not begun is told its end cause, and nothing else happens. -/
theorem setEndCause_unbegun {b : TrimBody} (hk : s.contexts[k] = some c) (he : c.endCause = none)
    (ha : c.state = .active) (hb : c.request.body = .trim b) (hq : c.search = none) (cause : EndCause) :
    (setEndCause cause k s).contexts[k] = some { c with endCause := some (cause, .active) } := by
  have heq : setEndCause cause k s = s.modCtx k fun c => { c with endCause := some (cause, .active) } := by
    simp [setEndCause, endActive, hk, he, ha, hb, hq]
  rw [heq]
  exact modCtx_self hk _

/-- R77: the end cause of a context after one has reached it. -/
theorem Context.EndedBy.endCause_eq {cause : EndCause} (h : c.EndedBy cause d) (hs : c.state.Endable)
    (ht : ∀ b, c.endCause = none → c.state = .active → c.request.body = .trim b → c.search ≠ none) :
    d.endCause = if c.endCause.isSome then c.endCause else some (cause, c.state) := by
  unfold Context.EndedBy at h
  cases he : c.endCause with
  | some e =>
    simp only [he, Option.isSome_some, if_true] at h ⊢
    rw [h, he]
  | none =>
    simp only [he, Option.isSome_none, Bool.false_eq_true, if_false] at h ⊢
    rcases hs with hs | hs | hs
    · simp only [hs] at h ⊢
      rw [h]
    · simp only [hs] at h ⊢
      rw [h]
    · simp only [hs] at h ⊢
      cases hb : c.request.body with
      | measure b =>
        simp only [hb] at h
        by_cases hr : ∃ e ∈ c.items, e.job = .running
        · rw [h.1 hr]
        · rw [h.2 fun e he hj => hr ⟨e, he, hj⟩]
      | trim b =>
        simp only [hb] at h
        obtain ⟨q, hq⟩ := Option.ne_none_iff_exists'.1 (ht b he hs hb)
        by_cases hr : q.job = .running
        · rw [(h q hq).1 hr]
        · rw [(h q hq).2 hr]
      | _ =>
        simp only [hb] at h
        rw [h]

/-- R77: a context that waits goes to POSTING at once, with the state it was in as detail. -/
theorem Context.EndedBy.posted (h : c.EndedBy .aborted d) (he : c.endCause = none)
    (hs : c.state = .listing ∨ c.state = .claiming) :
    d.state = .posting ∧ d.result = some (.aborted, .state c.state) := by
  unfold Context.EndedBy at h
  rcases hs with hs | hs
  all_goals
    simp only [he, hs, Option.isSome_none, Bool.false_eq_true, if_false] at h ⊢
    rw [h]
    exact ⟨rfl, rfl⟩

/-- R143, R144: what an ABORT makes of a context in LISTING, CLAIMING or ACTIVE. -/
structure Context.Aborted (c d : Context) : Prop where
  endedBy : c.EndedBy .aborted d
  endCause : d.endCause = if c.endCause.isSome then c.endCause else some (.aborted, c.state)
  posted : c.endCause = none → c.state = .listing ∨ c.state = .claiming →
    d.state = .posting ∧ d.result = some (.aborted, .state c.state)

theorem setEndCause_aborted (hk : s.contexts[k] = some c) (hs : c.state.Endable) :
    ∃ d, (setEndCause .aborted k s).contexts[k] = some d ∧ c.Aborted d := by
  obtain ⟨d, hd, hended⟩ := (setEndCause_taken hk .aborted).context
  refine ⟨d, hd, hended, ?_, hended.posted⟩
  by_cases hu : c.endCause = none ∧ c.state = .active ∧ (∃ b, c.request.body = .trim b) ∧ c.search = none
  · obtain ⟨he, ha, ⟨b, hb⟩, hq⟩ := hu
    cases hd.symm.trans (setEndCause_unbegun hk he ha hb hq .aborted)
    simp only [he, ha, Option.isSome_none, Bool.false_eq_true, if_false]
  · exact hended.endCause_eq hs fun b he ha hb hq => hu ⟨he, ha, ⟨b, hb⟩, hq⟩

/-! ### End causes one after the other (R144) -/

/-- The end causes of several contexts, in their order. -/
def setEndCauses (cause : EndCause) (order : List CtxId) (s : State) : State :=
  order.foldl (fun u l => setEndCause cause l u) s

theorem setEndCauses_endsOnly (cause : EndCause) (order : List CtxId) (s : State) :
    EndsOnly s (setEndCauses cause order s) := by
  induction order generalizing s with
  | nil => rfl
  | cons m order ih => exact (setEndCause_endsOnly cause m s).trans (ih _)

theorem setEndCauses_other (cause : EndCause) {order : List CtxId} (h : l ∉ order) :
    (setEndCauses cause order s).contexts[l] = s.contexts[l] := by
  induction order generalizing s with
  | nil => rfl
  | cons m order ih =>
    obtain ⟨hm, hrest⟩ := not_or.1 (mt List.mem_cons.2 h)
    exact (ih hrest).trans (setEndCause_other cause hm)

/-- R144: each context of the order is ended once, from the state it had at first. -/
theorem setEndCauses_aborted {order : List CtxId} (hn : order.Nodup) (hl : l ∈ order) (hk : s.contexts[l] = some c)
    (hs : c.state.Endable) : ∃ d, (setEndCauses .aborted order s).contexts[l] = some d ∧ c.Aborted d := by
  induction order generalizing s with
  | nil => cases hl
  | cons m order ih =>
    obtain ⟨hm, hrest⟩ := List.nodup_cons.1 hn
    rcases List.mem_cons.1 hl with rfl | hl
    · obtain ⟨d, hd, hended⟩ := setEndCause_aborted hk hs
      exact ⟨d, (setEndCauses_other .aborted hm).trans hd, hended⟩
    · have hne : l ≠ m := fun h => hm (h ▸ hl)
      exact ih hrest hl ((setEndCause_other .aborted hne).trans hk)

/-! ### Scope ONE (R143) -/

/-- R143: the context `l` holds the target tag, and is not the ABORT's own. -/
def HoldsTarget (s : State) (k : CtxId) (q : QueueId) (tag : Nat) (l : CtxId) : Prop :=
  l ≠ k ∧ ∃ c : Context, s.contexts[l] = some c ∧ c.queue = q ∧ c.holdsTag = true ∧ c.request.tag = tag

/-- R143: the test that the search for the target makes of each context. -/
def isTarget (s : State) (k : CtxId) (q : QueueId) (tag : Nat) (l : CtxId) : Bool :=
  l != k && s.contexts[l].any fun c => c.queue == q && c.holdsTag && c.request.tag == tag

theorem isTarget_iff : isTarget s k q tag l = true ↔ HoldsTarget s k q tag l := by
  unfold isTarget HoldsTarget
  cases s.contexts[l] <;> simp [and_assoc]

theorem abortTarget_eq_find (s : State) (k : CtxId) (q : QueueId) (tag : Nat) :
    abortTarget s k q tag = allContexts.find? (isTarget s k q tag) := by
  unfold abortTarget isTarget
  congr 1
  funext l
  cases s.contexts[l] <;> rfl

theorem abortTarget_none : abortTarget s k q tag = none ↔ ∀ l, ¬HoldsTarget s k q tag l := by
  rw [abortTarget_eq_find, List.find?_eq_none]
  exact ⟨fun h l hl => h l (mem_allContexts l) (isTarget_iff.2 hl), fun h l _ hl => h l (isTarget_iff.1 hl)⟩

theorem abortTarget_holds (h : abortTarget s k q tag = some l) : HoldsTarget s k q tag l :=
  isTarget_iff.1 (List.find?_some (abortTarget_eq_find s k q tag ▸ h))

/-- R66: two contexts of one queue hold different tags, so the target is the one that holds the tag. -/
theorem abortTarget_unique (hs : s.ContextsSound) (h : HoldsTarget s k q tag l) : abortTarget s k q tag = some l := by
  cases ht : abortTarget s k q tag with
  | none => exact absurd h (abortTarget_none.1 ht l)
  | some m =>
    obtain ⟨-, -, -, hdistinct⟩ := hs
    obtain ⟨-, c, hc, hcq, hch, hct⟩ := h
    obtain ⟨-, d, hd, hdq, hdh, hdt⟩ := abortTarget_holds ht
    by_contra hne
    have hml : m ≠ l := fun h => hne (h ▸ rfl)
    exact (hdistinct m l d c hd hc hml).2 ⟨hdq.trans hcq.symm, hdh, hch, hdt.trans hct.symm⟩

theorem inState_eq (hk : s.contexts[k] = some c) (st : CtxState) : inState s st k = (c.state == st) := by
  rw [inState, hk]

theorem execAbortOne_notFound (h : abortTarget s k q tag = none) :
    execAbortOne k q tag s = completeContext k .notFound (.count 0) s := by
  rw [execAbortOne, h]

/-- R143: a target that writes or posts its result is too late. -/
theorem execAbortOne_tooLate (h : abortTarget s k q tag = some l) (hl : s.contexts[l] = some c)
    (hc : c.state = .writing ∨ c.state = .posting) :
    execAbortOne k q tag s = completeContext k .tooLate (.state c.state) s := by
  rcases hc with hc | hc <;> simp [execAbortOne, h, inState_eq hl, hc]

theorem execAbortOne_success (h : abortTarget s k q tag = some l) (hl : s.contexts[l] = some c)
    (hc : c.state.Endable) :
    execAbortOne k q tag s = completeContext k .success (.count 1) (setEndCause .aborted l s) := by
  rcases hc with hc | hc | hc <;> simp [execAbortOne, h, inState_eq hl, hc]

/-- R143: scope ONE answers, after the end cause of the target or with nothing else done. -/
theorem execAbortOne_cases (k : CtxId) (q : QueueId) (tag : Nat) (s : State) : ∃ st d,
    execAbortOne k q tag s = completeContext k st d s
      ∨ ∃ l, HoldsTarget s k q tag l
        ∧ execAbortOne k q tag s = completeContext k st d (setEndCause .aborted l s) := by
  cases ht : abortTarget s k q tag with
  | none => exact ⟨_, _, .inl (execAbortOne_notFound ht)⟩
  | some l =>
    have hl := abortTarget_holds ht
    obtain ⟨-, c, hc, -⟩ := id hl
    by_cases hs : c.state.Endable
    · exact ⟨_, _, .inr ⟨l, hl, execAbortOne_success ht hc hs⟩⟩
    · exact ⟨_, _, .inl (execAbortOne_tooLate ht hc (CtxState.not_endable hs))⟩

theorem execAbortOne_other (hk : l ≠ k) (hl : ¬HoldsTarget s k q tag l) :
    (execAbortOne k q tag s).contexts[l] = s.contexts[l] := by
  obtain ⟨st, d, h | ⟨m, hm, h⟩⟩ := execAbortOne_cases k q tag s <;> rw [h]
  · exact completeContext_other hk _ _
  · exact (completeContext_other hk _ _).trans (setEndCause_other .aborted fun h => hl (h ▸ hm))

/-! ### Scope ALL (R144) -/

/-- R144: the contexts that scope ALL ends, oldest first. -/
def abortOrder (s : State) (k : CtxId) (q : QueueId) : List CtxId :=
  (abortAllTargets s k q).filter (countsAsAborted s)

theorem abortOrder_nodup (s : State) (k : CtxId) (q : QueueId) : (abortOrder s k q).Nodup :=
  ((byAdmission_order s).1.filter _).filter _

theorem abortOrder_ascends (s : State) (k : CtxId) (q : QueueId) :
    (abortOrder s k q).Pairwise fun l m => ∀ c d : Context, s.contexts[l] = some c → s.contexts[m] = some d →
      c.admission ≤ d.admission :=
  ((byAdmission_order s).2.2.filter _).filter _

theorem mem_abortOrder : l ∈ abortOrder s k q ↔
    l ≠ k ∧ ∃ c, s.contexts[l] = some c ∧ c.queue = q ∧ c.state.Endable := by
  obtain ⟨-, hmem, -⟩ := byAdmission_order s
  rw [abortOrder, abortAllTargets, List.mem_filter, List.mem_filter, hmem, countsAsAborted]
  unfold inState CtxState.Endable
  cases s.contexts[l] <;> simp [and_assoc, or_assoc]

theorem mem_abortOrder_of (hl : s.contexts[l] = some c) : l ∈ abortOrder s k q ↔
    l ≠ k ∧ c.queue = q ∧ c.state.Endable := by
  simp [mem_abortOrder, hl]

theorem execAbortAll_notFound (h : abortOrder s k q = []) :
    execAbortAll k q s = completeContext k .notFound (.count 0) s :=
  if_pos (List.isEmpty_iff.2 h)

/-- R144: scope ALL answers with the number of the contexts it has ended. -/
theorem execAbortAll_success (h : abortOrder s k q ≠ []) : execAbortAll k q s =
    completeContext k .success (.count (abortOrder s k q).length) (setEndCauses .aborted (abortOrder s k q) s) :=
  if_neg (mt List.isEmpty_iff.1 h)

/-- R144: scope ALL answers after the end causes of its targets. -/
theorem execAbortAll_answers (k : CtxId) (q : QueueId) (s : State) : ∃ st d,
    execAbortAll k q s = completeContext k st d (setEndCauses .aborted (abortOrder s k q) s) := by
  by_cases h : abortOrder s k q = []
  · exact ⟨_, _, by rw [execAbortAll_notFound h, h]; rfl⟩
  · exact ⟨_, _, execAbortAll_success h⟩

/-- A list without repetition is as long as the count of its elements. -/
theorem countP_finRange_eq_length {n : ℕ} {p : Fin n → Bool} {order : List (Fin n)} (hn : order.Nodup)
    (hmem : ∀ x, p x = true ↔ x ∈ order) : (List.finRange n).countP p = order.length := by
  rw [List.countP_eq_length_filter]
  refine List.Perm.length_eq ((List.perm_ext_iff_of_nodup ((List.nodup_finRange n).filter _) hn).2 fun x => ?_)
  simp [hmem]

/-- R144: a context but the ABORT's own, after scope ALL. -/
theorem execAbortAll_other (h : l ≠ k) :
    (execAbortAll k q s).contexts[l] = (setEndCauses .aborted (abortOrder s k q) s).contexts[l] := by
  obtain ⟨st, d, h'⟩ := execAbortAll_answers k q s
  rw [h']
  exact completeContext_other h _ _

theorem execAbortAll_ended (hl : l ≠ k) (hc : s.contexts[l] = some c) (hq : c.queue = q) (hs : c.state.Endable) :
    ∃ d, (execAbortAll k q s).contexts[l] = some d ∧ c.Aborted d := by
  rw [execAbortAll_other hl]
  exact setEndCauses_aborted (abortOrder_nodup s k q) ((mem_abortOrder_of hc).2 ⟨hl, hq, hs⟩) hc hs

theorem execAbortAll_kept (hl : l ≠ k) (hc : s.contexts[l] = some c) (h : c.queue ≠ q ∨ ¬c.state.Endable) :
    (execAbortAll k q s).contexts[l] = some c := by
  rw [execAbortAll_other hl, setEndCauses_other, hc]
  rw [mem_abortOrder_of hc]
  rintro ⟨-, hq, hs⟩
  exact h.elim (· hq) (· hs)

/-- Settles O47: scope ONE by its target's state, scope ALL by the order of its targets. -/
theorem abortExecutes : Obligations.AbortExecutes := by
  refine ⟨fun s k a q tag hk hs => ?_, fun s k c hk => setEndCause_taken hk .aborted⟩
  intro holds working one all answers posts targets
  have htargets : targets = (abortOrder s k q).length := by
    refine countP_finRange_eq_length (abortOrder_nodup s k q) fun l => ?_
    rw [mem_abortOrder]
    unfold CtxState.Endable
    cases s.contexts[l] <;> simp [or_assoc]
  have hworking : ∀ {l : CtxId} {c : Context}, s.contexts[l] = some c → (working l ↔ c.state.Endable) := fun hl =>
    ⟨fun ⟨d, hd, hend⟩ => by cases hl.symm.trans hd; exact hend, fun hend => ⟨_, hl, hend⟩⟩
  refine ⟨fun hnone => ?_, fun l c hl hc => ?_, fun m hm hother => execAbortOne_other hm hother, fun h0 => ?_,
    fun hpos => ?_, fun m c hm hc hq => execAbortAll_kept hm hc (.inl hq), fun m c hm hc hq => ?_, ?_⟩
  · rw [show one = _ from execAbortOne_notFound (abortTarget_none.2 hnone)]
    exact completeContext_get hk _ _
  · have htarget := abortTarget_unique hs hl
    have hlate : c.state = .writing ∨ c.state = .posting →
        answers one .tooLate (.state c.state) ∧ one.contexts[l] = some c := fun hc' => by
      rw [show one = _ from execAbortOne_tooLate htarget hc hc']
      exact ⟨completeContext_get hk _ _, (completeContext_other hl.1 _ _).trans hc⟩
    refine ⟨fun hw => hw ▸ hlate (.inl hw), fun hp => hp ▸ hlate (.inr hp), fun hwork => ?_⟩
    have hend := (hworking hc).1 hwork
    have hone : one = _ := execAbortOne_success htarget hc hend
    obtain ⟨d, hd, haborted⟩ := setEndCause_aborted hc hend
    have hget : one.contexts[l] = some d := by
      rw [hone]
      exact (completeContext_other hl.1 _ _).trans hd
    refine ⟨?_, ⟨d, hget, haborted.endCause, haborted.posted⟩, ⟨d, hget, haborted.endedBy⟩, hone⟩
    rw [hone]
    exact completeContext_get ((setEndCause_other .aborted (Ne.symm hl.1)).trans hk) _ _
  · have hnil : abortOrder s k q = [] := List.length_eq_zero_iff.1 (htargets ▸ h0)
    have hall : all = _ := execAbortAll_notFound hnil
    rw [hall]
    exact ⟨completeContext_get hk _ _, rfl⟩
  · have hne : abortOrder s k q ≠ [] := List.ne_nil_of_length_pos (htargets ▸ hpos)
    have hall : all = _ := execAbortAll_success hne
    rw [htargets, hall]
    refine ⟨?_, abortOrder s k q, abortOrder_nodup s k q, fun l => ?_, abortOrder_ascends s k q, rfl⟩
    · exact completeContext_get ((setEndCauses_other .aborted fun h => (mem_abortOrder.1 h).1 rfl).trans hk) _ _
    · rw [mem_abortOrder]
      refine and_congr_right fun _ => ⟨?_, ?_⟩
      · rintro ⟨c, hc, hq, hend⟩
        exact ⟨(hworking hc).2 hend, fun d hd => by cases hc.symm.trans hd; exact hq⟩
      · rintro ⟨⟨c, hc, hend⟩, hq⟩
        exact ⟨c, hc, hq c hc, hend⟩
  · by_cases hend : c.state.Endable
    · obtain ⟨d, hd, haborted⟩ := execAbortAll_ended hm hc hq hend
      refine ⟨⟨d, hd, haborted.endedBy⟩, fun _ => ⟨d, hd, haborted.endCause, haborted.posted⟩, fun hlate => ?_⟩
      rcases hend with h | h | h <;> rw [h] at hlate <;> simp at hlate
    · have hlate := CtxState.not_endable hend
      have hkept : all.contexts[m] = some c := execAbortAll_kept hm hc (.inr hend)
      obtain ⟨d, hd, hended⟩ := (EndCauseTaken.ofSpared hc .aborted (.inr hlate)).context
      cases hc.symm.trans hd
      exact ⟨⟨c, hkept, hended⟩, fun hwork => absurd ((hworking hc).1 hwork) hend, fun _ => hkept⟩
  · rintro t (rfl | rfl)
    · obtain ⟨st, d, h | ⟨l, -, h⟩⟩ := execAbortOne_cases k q tag s <;> rw [show one = _ from h]
      · rfl
      · rw [show setEndCause .aborted l s = _ from setEndCause_endsOnly .aborted l s]
        rfl
    · obtain ⟨st, d, h⟩ := execAbortAll_answers k q s
      rw [show all = _ from h, show setEndCauses .aborted (abortOrder s k q) s = _ from setEndCauses_endsOnly ..]
      rfl

end Sys2Proof.Machine
end

section
/-! SUPPORT. ConverterSetExecutes: what a CONVERTER_SET does to a marked converter (R147), what its three actions do to an
unmarked one in each state (R148 to R150), and when NO_CONVERTER follows (R18). -/

namespace Sys2Proof.Machine

variable {s t : State} {k : CtxId} {c : Context} {v : ConvId} {action : ConvAction}

/-! ### The converter's mark and state (R147 to R150) -/

/-- R148, R150: the states in which a HOLD or a CHECK leaves its mark. -/
def ConvState.takesMark (st : ConvState) : Prop :=
  st = .settling ∨ st = .sampling ∨ st = .discharging ∨ st = .checking

theorem ConvState.held_or_atRest_or_takesMark (st : ConvState) : st = .held ∨ st.atRest ∨ st.takesMark := by
  cases st <;> simp [atRest, takesMark]

/-- R147: a CONVERTER_SET records its action in its context. -/
def recordAction (k : CtxId) (v : ConvId) (action : ConvAction) (s : State) : State :=
  s.modCtx k fun c => { c with action := some { conv := v, action := action, waits := .nothing } }

theorem recordAction_get (hk : s.contexts[k] = some c) (v : ConvId) (action : ConvAction) :
    (recordAction k v action s).contexts[k]
      = some { c with action := some { conv := v, action := action, waits := .nothing } } :=
  modCtx_self hk _

theorem execConverterSet_marked {m : Mark} (h : s.converters[v].mark = some m) (k : CtxId) (action : ConvAction) :
    execConverterSet k v action s =
      completeContext k .converterBusy (.converter v s.converters[v].state none (some m.kind))
        (recordAction k v action s) := by
  simp only [execConverterSet, h]
  rfl

section
variable (hm : s.converters[v].mark = none)
include hm

theorem execConverterSet_hold_held (h : s.converters[v].state = .held) (k : CtxId) : execConverterSet k v .hold s =
    completeContext k .success (.converter v .held none none) (recordAction k v .hold s) := by
  simp only [execConverterSet, execHold, modCtx_converters, hm, h]
  rfl

theorem execConverterSet_hold_atRest (h : s.converters[v].state.atRest) (k : CtxId) : execConverterSet k v .hold s =
    completeContext k .success (.converter v .held none none)
      (changeConvState v .held (recordAction k v .hold s)) := by
  rcases h with h | h <;> simp only [execConverterSet, execHold, modCtx_converters, hm, h] <;> rfl

theorem execConverterSet_hold_takesMark (h : s.converters[v].state.takesMark) (k : CtxId) :
    execConverterSet k v .hold s = leaveMark v .hold k (recordAction k v .hold s) := by
  rcases h with h | h | h | h <;> simp only [execConverterSet, execHold, modCtx_converters, hm, h] <;> rfl

theorem execConverterSet_release_held (h : s.converters[v].state = .held) (k : CtxId) :
    execConverterSet k v .release s = ownCheck v k (recordAction k v .release s) := by
  simp only [execConverterSet, execRelease, modCtx_converters, hm, h, if_true]
  rfl

theorem execConverterSet_release_notHeld (h : s.converters[v].state ≠ .held) (k : CtxId) :
    execConverterSet k v .release s =
      completeContext k .notHeld (.converter v s.converters[v].state none none) (recordAction k v .release s) := by
  simp only [execConverterSet, execRelease, modCtx_converters, hm, h, if_false]
  rfl

theorem execConverterSet_check_held (h : s.converters[v].state = .held) (k : CtxId) : execConverterSet k v .check s =
    completeContext k .converterHeld (.converter v .held none none) (recordAction k v .check s) := by
  simp only [execConverterSet, execCheck, modCtx_converters, hm, h]
  rfl

theorem execConverterSet_check_atRest (h : s.converters[v].state.atRest) (k : CtxId) :
    execConverterSet k v .check s = ownCheck v k (recordAction k v .check s) := by
  rcases h with h | h <;> simp only [execConverterSet, execCheck, modCtx_converters, hm, h] <;> rfl

theorem execConverterSet_check_takesMark (h : s.converters[v].state.takesMark) (k : CtxId) :
    execConverterSet k v .check s = leaveMark v .check k (recordAction k v .check s) := by
  rcases h with h | h | h | h <;> simp only [execConverterSet, execCheck, modCtx_converters, hm, h] <;> rfl

end

/-- R147 to R150: the states that a CONVERTER_SET can lead to. Its context completes, with the converter as it was or HELD
from rest; or it waits, for its mark or for its check. -/
inductive ConverterSetOutcome (k : CtxId) (v : ConvId) (action : ConvAction) (s : State) : State → Prop
  | completes (st : Status) (e : Detail) :
    ConverterSetOutcome k v action s (completeContext k st e (recordAction k v action s))
  | becomesHeld (ha : action = .hold) (hs : s.converters[v].state.atRest) :
    ConverterSetOutcome k v action s (completeContext k .success (.converter v .held none none)
      (changeConvState v .held (recordAction k v action s)))
  | leavesMark (kind : MarkKind) : ConverterSetOutcome k v action s (leaveMark v kind k (recordAction k v action s))
  | checks : ConverterSetOutcome k v action s (ownCheck v k (recordAction k v action s))

theorem execConverterSet_outcome (k : CtxId) (v : ConvId) (action : ConvAction) (s : State) :
    ConverterSetOutcome k v action s (execConverterSet k v action s) := by
  cases hm : s.converters[v].mark with
  | some m =>
    rw [execConverterSet_marked hm]
    exact .completes _ _
  | none =>
    have hstate := ConvState.held_or_atRest_or_takesMark s.converters[v].state
    cases action with
    | hold =>
      obtain h | h | h := hstate
      · rw [execConverterSet_hold_held hm h]; exact .completes _ _
      · rw [execConverterSet_hold_atRest hm h]; exact .becomesHeld rfl h
      · rw [execConverterSet_hold_takesMark hm h]; exact .leavesMark _
    | release =>
      by_cases h : s.converters[v].state = .held
      · rw [execConverterSet_release_held hm h]; exact .checks
      · rw [execConverterSet_release_notHeld hm h]; exact .completes _ _
    | check =>
      obtain h | h | h := hstate
      · rw [execConverterSet_check_held hm h]; exact .completes _ _
      · rw [execConverterSet_check_atRest hm h]; exact .checks
      · rw [execConverterSet_check_takesMark hm h]; exact .leavesMark _

/-! ### What it leaves alone, and its notice (R18) -/

/-- A converter's new state while another one is online raises nothing (R18). -/
theorem changeConvState_onlineElsewhere (h : ∃ d : ConvId, d ≠ v ∧ s.converters[d].state.online = true)
    (st : ConvState) : changeConvState v st s = s.modConv v fun x => { x with state := st } := by
  obtain ⟨d, hd, hon⟩ := h
  have hcount : onlineCount (s.modConv v fun x => { x with state := st }) ≠ 0 :=
    onlineCount_ne_zero.2 ⟨d, by rw [modConv_get, if_neg hd]; exact hon⟩
  exact if_neg fun hzero => hcount hzero.2

/-- `t` is `s` after the CONVERTER_SET in `k` has acted on the converter `v`: it touches that converter, its own context, and
the reports. -/
structure ActedOn (k : CtxId) (v : ConvId) (s t : State) : Prop where
  otherConverters : ∀ d : ConvId, d ≠ v → t.converters[d] = s.converters[d]
  otherContexts : ∀ l : CtxId, l ≠ k → t.contexts[l] = s.contexts[l]
  frame : t = { s with
    converters := t.converters, contexts := t.contexts, reports := t.reports, lost := t.lost, posting := t.posting }

theorem ConverterSetOutcome.actedOn (h : ConverterSetOutcome k v action s t) : ActedOn k v s t := by
  have hrecord : ∀ l : CtxId, l ≠ k → (recordAction k v action s).contexts[l] = s.contexts[l] :=
    fun l hl => modCtx_other hl _
  cases h with
  | completes st e => exact ⟨fun _ _ => rfl, fun l hl => (completeContext_other hl st e).trans (hrecord l hl), rfl⟩
  | becomesHeld _ _ =>
    have hconv := changeConvState_converters v .held (recordAction k v action s)
    have hframe := changeConvState_same v .held (recordAction k v action s)
    refine ⟨fun d hd => ?_, fun l hl => (completeContext_other hl _ _).trans ?_, ?_⟩
    · exact (congrArg (fun x : Vector Converter 4 => x[d]) hconv).trans (by rw [modConv_get, if_neg hd]; rfl)
    · rw [hframe]
      exact hrecord l hl
    · rw [hframe]
      rfl
  | leavesMark kind =>
    exact ⟨fun d hd => by rw [leaveMark, setWait, modCtx_converters, modConv_get, if_neg hd]; rfl,
      fun l hl => (modCtx_other hl _).trans (hrecord l hl), rfl⟩
  | checks =>
    exact ⟨fun d hd => by rw [ownCheck, setWait, modCtx_converters, startCheck, modConv_get, if_neg hd]; rfl,
      fun l hl => (modCtx_other hl _).trans (hrecord l hl), rfl⟩

/-- R18: only the HOLD of the last converter online raises a notice. -/
theorem ConverterSetOutcome.reports_kept (h : ConverterSetOutcome k v action s t)
    (hq : (∃ d : ConvId, d ≠ v ∧ s.converters[d].state.online = true) ∨ s.converters[v].state ≠ .idle
      ∨ action ≠ .hold) : t.reports = s.reports ∧ t.lost = s.lost := by
  cases h with
  | completes | leavesMark | checks => exact ⟨rfl, rfl⟩
  | becomesHeld ha hs =>
    have hquiet : changeConvState v .held (recordAction k v action s) =
        (recordAction k v action s).modConv v fun x => { x with state := .held } := by
      obtain hon | hidle | hne := hq
      · exact changeConvState_onlineElsewhere (s := recordAction k v action s) hon .held
      · exact changeConvState_offline_held v _ (hs.resolve_right hidle)
      · exact absurd ha hne
    rw [hquiet]
    exact ⟨rfl, rfl⟩

/-- R18: the HOLD of the last converter online raises NO_CONVERTER. -/
theorem execConverterSet_hold_lastOnline (hm : s.converters[v].mark = none) (hi : s.converters[v].state = .idle)
    (hlast : ∀ d : ConvId, d ≠ v → s.converters[d].state.online = false) (hroom : s.reports.length < 8) (k : CtxId) :
    (execConverterSet k v .hold s).reports = s.reports ++ [.noConverter] := by
  rw [execConverterSet_hold_atRest hm (.inr hi)]
  exact (becomesHeld v (recordAction k v .hold s) hi hroom).trans (congrArg (s.reports ++ ·) (if_pos hlast))

/-! ### Each outcome in full -/

theorem completeContext_recorded (hk : s.contexts[k] = some c) (v : ConvId) (action : ConvAction) (st : Status)
    (e : Detail) : ∃ d, (completeContext k st e (recordAction k v action s)).contexts[k] = some d
      ∧ d.state = .posting ∧ d.result = some (st, e) :=
  ⟨_, completeContext_get (recordAction_get hk v action) st e, rfl, rfl⟩

theorem becomesHeld_recorded (hk : s.contexts[k] = some c) (v : ConvId) (action : ConvAction) (st : Status)
    (e : Detail) :
    let t := completeContext k st e (changeConvState v .held (recordAction k v action s))
    (∃ d, t.contexts[k] = some d ∧ d.state = .posting ∧ d.result = some (st, e))
      ∧ t.converters[v] = { s.converters[v] with state := .held } := by
  have hconv := changeConvState_converters v .held (recordAction k v action s)
  have hsame := changeConvState_same v .held (recordAction k v action s)
  have hcontext := (congrArg (fun x : State => x.contexts[k]) hsame).trans (recordAction_get hk v action)
  refine ⟨⟨_, completeContext_get hcontext st e, rfl, rfl⟩, ?_⟩
  exact (congrArg (fun x : Vector Converter 4 => x[v]) hconv).trans (by rw [modConv_get, if_pos rfl]; rfl)

theorem leaveMark_recorded (hk : s.contexts[k] = some c) (v : ConvId) (action : ConvAction) (kind : MarkKind) :
    let t := leaveMark v kind k (recordAction k v action s)
    t.contexts[k] = some { c with action := some { conv := v, action := action, waits := .mark } }
      ∧ t.converters[v] = { s.converters[v] with mark := some { kind := kind, owner := k } } :=
  ⟨modCtx_self (recordAction_get hk v action) _, by
    rw [leaveMark, setWait, modCtx_converters, modConv_get, if_pos rfl]; rfl⟩

theorem ownCheck_recorded (hk : s.contexts[k] = some c) (v : ConvId) (action : ConvAction) :
    let t := ownCheck v k (recordAction k v action s)
    t.contexts[k] = some { c with action := some { conv := v, action := action, waits := .check } }
      ∧ t.converters[v] = { s.converters[v] with
        state := .checking, origin := some s.converters[v].state, job := some (checkJob s (.context k)) } :=
  ⟨modCtx_self (recordAction_get hk v action) _, by
    rw [ownCheck, setWait, modCtx_converters, startCheck, modConv_get, if_pos rfl]; rfl⟩

/-- Settles O46: the mark first, then the action by the converter's state. -/
theorem converterSetExecutes : Obligations.ConverterSetExecutes := by
  intro s k c v hk old after completes waits checks busy
  have hcompletes : ∀ {action : ConvAction} {status : Status} {st : ConvState} {mark : Option MarkKind},
      after action = completeContext k status (.converter v st none mark) (recordAction k v action s) →
        completes action status st mark ∧ (after action).converters = s.converters := fun h => by
    simp only [completes, h]
    exact ⟨completeContext_recorded hk v _ _ _, rfl⟩
  have hmarks : ∀ {action : ConvAction} {kind : MarkKind},
      after action = leaveMark v kind k (recordAction k v action s) →
        waits action .mark ∧ (after action).converters[v] = { old with mark := some { kind := kind, owner := k } } :=
    fun h => by
      simp only [waits, h]
      exact leaveMark_recorded hk v _ _
  have hchecks : ∀ {action : ConvAction}, after action = ownCheck v k (recordAction k v action s) → checks action :=
    fun h => by
      simp only [checks, waits, h]
      exact ownCheck_recorded hk v _
  refine ⟨fun m action hm => hcompletes (execConverterSet_marked hm k action), fun hm => ⟨fun h => ?_,
      fun h => hcompletes (execConverterSet_hold_held hm h k),
      fun h => hmarks (execConverterSet_hold_takesMark hm h k),
      fun h => hchecks (execConverterSet_release_held hm h k),
      fun h => hcompletes (execConverterSet_release_notHeld hm h k),
      fun h => hchecks (execConverterSet_check_atRest hm h.symm k),
      fun h => hcompletes (execConverterSet_check_held hm h k),
      fun h => hmarks (execConverterSet_check_takesMark hm h k)⟩,
    fun action => (execConverterSet_outcome k v action s).actedOn.otherConverters, fun action => ?_⟩
  · have hheld : after .hold = _ := execConverterSet_hold_atRest hm h.symm k
    simp only [completes, hheld]
    exact becomesHeld_recorded hk v .hold _ _
  · have houtcome := execConverterSet_outcome k v action s
    obtain ⟨-, hothers, hframe⟩ := houtcome.actedOn
    refine ⟨hothers, hframe, fun hlast ha hidle hm hroom => ?_, houtcome.reports_kept⟩
    subst ha
    exact execConverterSet_hold_lastOnline hm hidle hlast hroom k

end Sys2Proof.Machine
end

section
/-! SUPPORT. What the admission of a record leaves alone outside its context: the registers, the queue descriptors and the
completion ring (R59, R64). -/

namespace Sys2Proof.Machine

variable {s t u : State} {k : CtxId}

/-! ### The path of a record (R59) -/

/-- `t` is `s` after work on the path of the request in `k`: the registers, the queues and the ring are as they were, the
report buffer is in its bounds, and `k` has written no result byte. -/
structure PathKept (k : CtxId) (s t : State) : Prop where
  frame : t = { s with
    channels := t.channels, profiles := t.profiles, hopSets := t.hopSets, converters := t.converters
    faultDischarges := t.faultDischarges, contexts := t.contexts, listReads := t.listReads
    resultWrites := t.resultWrites, reports := t.reports, lost := t.lost, posting := t.posting, watch := t.watch }
  reports : s.ReportsInRange → t.ReportsInRange
  bytesWritten : ∀ c, s.contexts[k] = some c → ∃ d, t.contexts[k] = some d ∧ d.bytesWritten = c.bytesWritten

namespace PathKept

/-- Work on the tables that hold neither contexts nor reports. -/
theorem ofTables (h : t = { s with
    channels := t.channels, profiles := t.profiles, hopSets := t.hopSets, converters := t.converters
    faultDischarges := t.faultDischarges, listReads := t.listReads, resultWrites := t.resultWrites
    watch := t.watch }) : PathKept k s t := by
  refine ⟨?_, fun hs => ?_, fun c hc => ⟨c, ?_, rfl⟩⟩ <;> rw [h]
  · exact hs
  · exact hc

theorem refl (k : CtxId) (s : State) : PathKept k s s := .ofTables rfl

theorem trans (h : PathKept k s t) (g : PathKept k t u) : PathKept k s u where
  frame := by
    have hu := g.frame
    rw [h.frame] at hu
    exact hu
  reports hs := g.reports (h.reports hs)
  bytesWritten c hc := by
    obtain ⟨d, hd, hcd⟩ := h.bytesWritten c hc
    obtain ⟨e, he, hde⟩ := g.bytesWritten d hd
    exact ⟨e, he, hde.trans hcd⟩

theorem modCtx (h : PathKept k s t) {f : Context → Context} (hf : ∀ c, (f c).bytesWritten = c.bytesWritten) :
    PathKept k s (t.modCtx k f) :=
  h.trans ⟨rfl, id, fun c hc => ⟨f c, modCtx_self hc f, hf c⟩⟩

theorem completeContext (h : PathKept k s t) (st : Status) (d : Detail) : PathKept k s (completeContext k st d t) :=
  h.modCtx fun _ => rfl

theorem enterWriting (h : PathKept k s t) (st : Status) (d : Detail) (addr : Addr) (data : List Byte) :
    PathKept k s (enterWriting k st d addr data t) := by
  have hstate := h.modCtx (f := fun c => { c with state := .writing, result := some (st, d) }) fun _ => rfl
  rcases enterWriting_cases t k st d addr data with ⟨_, hw⟩ | ⟨_, hw⟩ <;> rw [hw]
  · exact hstate
  · exact hstate.trans (.ofTables rfl)

/-- End causes that reach other contexts (R77). -/
theorem ofEndCauses {order : List CtxId} (hk : k ∉ order) (cause : EndCause) (s : State) :
    PathKept k s (setEndCauses cause order s) := by
  have hframe := setEndCauses_endsOnly cause order s
  have hown := setEndCauses_other (s := s) cause hk
  refine ⟨?_, fun hs => ?_, fun c hc => ⟨c, hown.trans hc, rfl⟩⟩ <;> rw [hframe]
  exact hs

end PathKept

theorem beginMeasure_pathKept (k : CtxId) (b : MeasureBody) (external : Bool) (s : State) :
    PathKept k s (beginMeasure k b external s) := by
  unfold beginMeasure
  split
  · exact ((PathKept.refl k s).modCtx (f := fun c => { c with state := .listing }) fun _ => rfl).trans (.ofTables rfl)
  · split
    · exact (PathKept.refl k s).modCtx fun _ => rfl
    · exact (PathKept.refl k s).completeContext _ _

theorem execWatchAdd_pathKept (k : CtxId) (b : WatchAddBody) (s : State) : PathKept k s (execWatchAdd k b s) := by
  have hs := PathKept.refl k s
  unfold execWatchAdd
  dsimp only
  split
  · exact hs.completeContext _ _
  · split
    · exact hs.completeContext _ _
    · split
      · exact hs.completeContext _ _
      · split
        · exact hs.completeContext _ _
        · exact .completeContext (.ofTables rfl) _ _

theorem execWatchRemove_pathKept (k : CtxId) (id : WatchId) (s : State) : PathKept k s (execWatchRemove k id s) := by
  unfold execWatchRemove
  split <;> exact .completeContext (.ofTables rfl) _ _

theorem execWatchQuery_pathKept (k : CtxId) (c : Context) (s : State) : PathKept k s (execWatchQuery k c s) := by
  unfold execWatchQuery
  dsimp only
  split
  · exact (PathKept.refl k s).completeContext _ _
  · exact (PathKept.refl k s).enterWriting _ _ _ _

theorem changeConvState_pathKept (k : CtxId) (v : ConvId) (st : ConvState) (s : State) :
    PathKept k s (changeConvState v st s) := by
  have hframe := changeConvState_same v st s
  refine ⟨?_, (changeConvState_worked v st).reports, fun c hc => ⟨c, ?_, rfl⟩⟩ <;> rw [hframe]
  exact hc

theorem execConverterSet_pathKept (k : CtxId) (v : ConvId) (action : ConvAction) (s : State) :
    PathKept k s (execConverterSet k v action s) := by
  have hrecorded : PathKept k s (recordAction k v action s) := (PathKept.refl k s).modCtx fun _ => rfl
  have houtcome := execConverterSet_outcome k v action s
  generalize execConverterSet k v action s = t at houtcome
  cases houtcome with
  | completes st e => exact hrecorded.completeContext st e
  | becomesHeld _ _ => exact (hrecorded.trans (changeConvState_pathKept k v .held _)).completeContext _ _
  | leavesMark kind => exact (hrecorded.trans (.ofTables rfl)).modCtx fun _ => rfl
  | checks => exact (hrecorded.trans (.ofTables rfl)).modCtx fun _ => rfl

theorem execAbort_pathKept (k : CtxId) (queue : QueueId) (scope tag : Nat) (s : State) :
    PathKept k s (execAbort k queue scope tag s) := by
  unfold execAbort
  split
  · obtain ⟨st, d, hone | ⟨l, ⟨hl, -⟩, hone⟩⟩ := execAbortOne_cases k queue tag s <;> rw [hone]
    · exact (PathKept.refl k s).completeContext st d
    · exact .completeContext (.ofEndCauses (order := [l]) (by simpa using hl.symm) .aborted s) st d
  · obtain ⟨st, d, hall⟩ := execAbortAll_answers k queue s
    rw [hall]
    exact .completeContext (.ofEndCauses (fun h => (mem_abortOrder.1 h).1 rfl) .aborted s) st d

theorem beginPath_pathKept (k : CtxId) (c : Context) (s : State) : PathKept k s (beginPath k c s) := by
  have hs := PathKept.refl k s
  unfold beginPath
  split
  · exact beginMeasure_pathKept k _ _ s
  · exact hs.modCtx fun _ => rfl
  · exact hs.modCtx fun _ => rfl
  · rename_i b _
    unfold execProfileSet
    dsimp only
    split <;> exact .completeContext (.ofTables rfl) _ _
  · exact execWatchAdd_pathKept k _ s
  · exact execWatchRemove_pathKept k _ s
  · exact execWatchQuery_pathKept k c s
  · exact .completeContext (.ofTables rfl) _ _
  · exact execConverterSet_pathKept k _ _ s
  · exact execAbort_pathKept k _ _ _ s
  · exact hs.completeContext _ _

/-! ### The admission of a record (R64) -/

/-- R64: `t` is `s` after the record `r` of `queue` was admitted to the FREE context `k`, whatever its checks and its path. -/
structure AdmittedTo (k : CtxId) (queue : QueueId) (r : Request) (s t : State) : Prop where
  free : s.contexts[k] = none
  taken : ∃ c, t.contexts[k] = some c ∧ c.queue = queue ∧ c.holdsTag = (!tagHeld s queue r.tag)
    ∧ c.admission = s.nextAdmission ∧ c.request = r ∧ c.bytesWritten = 0
  others : ∀ (l : CtxId) (c : Context), s.contexts[l] = some c → ∃ d, t.contexts[l] = some d ∧ c.SameRecord d
  nextAdmission : t.nextAdmission = s.nextAdmission + 1
  queues : t.queues = (s.modQueue queue fun q => { q with inFlight := q.inFlight + 1 }).queues
  frame : t = { s with
    channels := t.channels, profiles := t.profiles, hopSets := t.hopSets, converters := t.converters
    faultDischarges := t.faultDischarges, contexts := t.contexts, nextAdmission := t.nextAdmission, queues := t.queues
    listReads := t.listReads, resultWrites := t.resultWrites, reports := t.reports, lost := t.lost
    posting := t.posting, watch := t.watch }
  reports : s.ReportsInRange → t.ReportsInRange

/-- R65, R59: a record that is admitted ends in POSTING or enters its path. -/
theorem admitRecord_afterTake (hk : firstFreeContext s = some k) (queue : QueueId) (r : Request) :
    let c := Context.admitted queue s.nextAdmission (!tagHeld s queue r.tag) r
    PathKept k (takeContext k c s) (admitRecord queue r s)
      ∧ ContextsKept (takeContext k c s) (admitRecord queue r s) := by
  simp only [admitRecord, hk]
  split
  · exact ⟨.completeContext (.refl k _) _ _, .completeContext _ _ _ (.refl _)⟩
  · exact ⟨beginPath_pathKept k _ _, beginPath_contextsKept k _ (.refl _)⟩

theorem admitRecord_admittedTo (hk : firstFreeContext s = some k) (queue : QueueId) (r : Request) :
    AdmittedTo k queue r s (admitRecord queue r s) := by
  obtain ⟨hpath, hkept⟩ := admitRecord_afterTake hk queue r
  have hfree := firstFreeContext_free hk
  have hframe := hpath.frame
  generalize hc : Context.admitted queue s.nextAdmission (!tagHeld s queue r.tag) r = c at hpath hkept hframe
  have hown : (takeContext k c s).contexts[k] = some c := by rw [takeContext_get, if_pos rfl]
  have hqueue : c.queue = queue := by rw [← hc]; rfl
  refine ⟨hfree, ?_, fun l x hl => ?_, ?_, ?_, ?_, hpath.reports⟩
  · obtain ⟨d, hd, hsame⟩ := hkept.used k c hown
    obtain ⟨e, he, hbytes⟩ := hpath.bytesWritten c hown
    cases hd.symm.trans he
    exact ⟨d, hd, by rw [hsame.queue, hqueue], by rw [hsame.holdsTag, ← hc]; rfl, by rw [hsame.admission, ← hc]; rfl,
      by rw [hsame.request, ← hc]; rfl, by rw [hbytes, ← hc]; rfl⟩
  · have hne : l ≠ k := fun h => by rw [h, hfree] at hl; cases hl
    exact hkept.used l x (by rw [takeContext_get, if_neg hne, hl])
  · rw [hframe]
    rfl
  · rw [hframe, ← hqueue]
    rfl
  · rw [hframe]
    rfl

/-- The admission of a record, whether or not a context is FREE (log entry 21). -/
theorem admitRecord_cases (queue : QueueId) (r : Request) (s : State) :
    admitRecord queue r s = s ∨ ∃ k, AdmittedTo k queue r s (admitRecord queue r s) := by
  cases hk : firstFreeContext s with
  | none => exact .inl (by simp only [admitRecord, hk])
  | some k => exact .inr ⟨k, admitRecord_admittedTo hk queue r⟩

end Sys2Proof.Machine
end

section
/-! SUPPORT. ReportsStayInRange and RingStaysSound: what a command does to the report buffer, the lost count, the completion
ring and the ring write in flight (R165, R166, R168, R170). -/

namespace Sys2Proof.Machine

variable {s t u : State}

/-! ### Both invariants at once -/

/-- The report buffer and the completion ring are sound in `t` where they are in `s`. -/
structure PostingKept (s t : State) : Prop where
  reports : s.ReportsInRange → t.ReportsInRange
  ring : s.RingSound → t.RingSound

namespace PostingKept

theorem refl (s : State) : PostingKept s s := ⟨id, id⟩

theorem trans (h : PostingKept s t) (g : PostingKept t u) : PostingKept s u :=
  ⟨fun hs => g.reports (h.reports hs), fun hs => g.ring (h.ring hs)⟩

/-- `trans` with the later operation first, which names the state in between. -/
theorem after (g : PostingKept t u) (h : PostingKept s t) : PostingKept s u := h.trans g

/-- An operation that writes none of the four fields. -/
theorem congr (h : PostingKept s t)
    (hu : (u.ring, u.ringWrite, u.reports, u.lost) = (t.ring, t.ringWrite, t.reports, t.lost)) : PostingKept s u := by
  simp only [Prod.mk.injEq] at hu
  obtain ⟨hring, hwrite, hreports, hlost⟩ := hu
  refine h.trans ⟨fun ht => ?_, fun ht => ?_⟩
  · rwa [State.ReportsInRange, hreports, hlost]
  · rwa [State.RingSound, hring, hwrite]

theorem worked (h : PostingKept s t) (w : Worked t u) : PostingKept s u := h.trans ⟨w.reports, w.ringSound⟩

theorem finish (h : PostingKept s t) : PostingKept s (finish t) := h.worked finish_worked

theorem raise (h : PostingKept s t) (r : Report) : PostingKept s (raise r t) := h.worked (raise_worked r)

theorem foldl {α : Type} {f : State → α → State} (hf : ∀ t x, PostingKept t (f t x)) (l : List α) (s : State) :
    PostingKept s (l.foldl f s) := by
  induction l generalizing s with
  | nil => exact .refl s
  | cons x l ih => exact (hf s x).trans (ih _)

theorem cutContexts (h : PostingKept s t) : PostingKept s (cutContexts t) :=
  h.trans (.foldl (fun u k => (PostingKept.refl u).worked (setEndCause_worked .stopped k)) _ t)

/-- A session's end or start takes the ring away, and the write in flight goes to no slot of it. -/
theorem noRing (hreports : s.ReportsInRange → t.ReportsInRange) (hring : t.ring.configured = false)
    (hwrite : ∀ w, t.ringWrite = some w → w.stale = true) : PostingKept s t := by
  refine ⟨hreports, fun _ => ⟨fun hc => ?_, fun w hw hst => ?_⟩⟩
  · rw [hring] at hc; cases hc
  · rw [hwrite w hw] at hst; cases hst

end PostingKept

/-! ### Slots of the ring (R165, R168) -/

/-- An index that has wrapped at most once. -/
theorem mod_of_wrapped_once {i n : Nat} (h : i < 2 * n) : i % n = if i < n then i else i - n := by
  split
  · exact Nat.mod_eq_of_lt ‹_›
  · rw [Nat.mod_eq_sub_mod (by omega), Nat.mod_eq_of_lt (by omega)]

theorem size_pos_of_mem {n : Nat} (h : n ∈ ringSizes) : 0 < n := by
  simp only [ringSizes, List.mem_cons, List.not_mem_nil, or_false] at h
  omega

/-- R168, step 2: the distance from the head to the slot `v`. -/
theorem releaseCount_eq {r : Ring} {v : Nat} (hv : v < r.size) (hh : r.head < r.size) :
    releaseCount r v = if r.head ≤ v then v - r.head else v + r.size - r.head := by
  rw [releaseCount, mod_of_wrapped_once (by omega)]
  split <;> split <;> omega

/-- R168: a release moves the head and leaves the write index where it is. -/
theorem Ring.Sound.released {r : Ring} (h : r.Sound) {v : Nat} (hv : v < r.size) (hc : releaseCount r v ≤ r.count) :
    ({ r with head := v, count := r.count - releaseCount r v } : Ring).Sound := by
  intro hconf
  obtain ⟨hsize, hhead, hcount, hindex⟩ := h hconf
  have hr := releaseCount_eq hv hhead
  refine ⟨hsize, hv, by dsimp only; omega, ?_⟩
  dsimp only
  rw [hindex, mod_of_wrapped_once (by omega), mod_of_wrapped_once (by split at hr <;> omega)]
  split at hr <;> split <;> split <;> omega

/-- R166: a posted record takes the slot at the write index. -/
theorem Ring.Sound.posted {r : Ring} (h : r.Sound) (hc : r.configured = true) (hroom : r.count < r.size) :
    r.posted.Sound := by
  obtain ⟨hsize, hhead, hcount, hindex⟩ := h hc
  rw [mod_of_wrapped_once (by omega)] at hindex
  unfold Ring.posted
  split
  all_goals
    refine fun _ => ⟨hsize, hhead, hroom, ?_⟩
    dsimp only
    rw [← Nat.add_assoc]
    by_cases hfull : r.head + r.count + 1 < 2 * r.size
    · rw [mod_of_wrapped_once hfull]
      split at hindex <;> split <;> omega
    · omega

/-! ### The Engine Command writes (R174 to R184) -/

theorem unconfigureRings_postingKept (s : State) : PostingKept s (unconfigureRings s) := by
  refine .noRing id rfl fun w hw => ?_
  obtain ⟨x, _, rfl⟩ := Option.map_eq_some_iff.1 hw
  rfl

theorem startCommand_postingKept (s : State) : PostingKept s (startCommand s) := by
  unfold startCommand
  split
  · exact (unconfigureRings_postingKept s).congr rfl
  · exact (PostingKept.refl s).congr rfl

theorem stopDrainCommand_postingKept (s : State) : PostingKept s (stopDrainCommand s) := by
  have hs := PostingKept.refl s
  unfold stopDrainCommand
  split
  · exact .finish (hs.congr rfl)
  all_goals exact hs.congr rfl

theorem stopCutCommand_postingKept (s : State) : PostingKept s (stopCutCommand s) := by
  have hs := PostingKept.refl s
  unfold stopCutCommand
  split
  · exact .finish (.cutContexts (hs.congr rfl))
  · split
    · exact hs
    · exact .finish (.cutContexts (hs.congr rfl))
  · exact .finish (hs.congr rfl)
  all_goals exact hs.congr rfl

/-- R184: CLEAR empties the report buffer, and the ring goes. -/
theorem clearCommand_postingKept (s : State) : PostingKept s (clearCommand s) := by
  unfold clearCommand
  generalize allContexts.foldl restoreForClear s = r
  refine .noRing (fun _ => ⟨Nat.zero_le _, Nat.zero_le _⟩) rfl fun w hw => ?_
  obtain ⟨x, _, rfl⟩ := Option.map_eq_some_iff.1 hw
  rfl

theorem deviceReset_postingKept (s : State) : PostingKept s (deviceReset s) :=
  .noRing (fun _ => ⟨Nat.zero_le _, Nat.zero_le _⟩) rfl fun _ hw => by cases hw

theorem engineCommandWrite_postingKept (word : Reg) (s : State) : PostingKept s (engineCommandWrite word s) := by
  unfold engineCommandWrite
  split
  · exact startCommand_postingKept s
  · exact stopDrainCommand_postingKept s
  · exact stopCutCommand_postingKept s
  · exact clearCommand_postingKept s
  · exact (PostingKept.refl s).congr rfl

/-! ### The register writes and the timers -/

theorem faultQueue_postingKept (q : QueueId) (reason : QueueFaultReason) (tail : Nat) (s : State) :
    PostingKept s (faultQueue q reason tail s) :=
  .after ((PostingKept.refl _).raise _) ((PostingKept.refl s).congr rfl)

theorem submitWrite_postingKept (word : Reg) (s : State) : PostingKept s (submitWrite word s) := by
  have hs := PostingKept.refl s
  unfold submitWrite
  dsimp only
  split
  · exact hs.congr rfl
  · split
    · exact (faultQueue_postingKept _ _ _ s).finish
    · exact .finish (hs.congr rfl)

theorem releaseRecords_postingKept {v : Nat} (hv : v < s.ring.size) (hc : releaseCount s.ring v ≤ s.ring.count) :
    PostingKept s (releaseRecords v s) := by
  refine ⟨id, fun hs => ⟨hs.1.released hv hc, fun w hw hst => ?_⟩⟩
  obtain ⟨hconf, hroom⟩ := hs.2 w hw hst
  exact ⟨hconf, lt_of_le_of_lt (Nat.sub_le _ _) hroom⟩

theorem releaseWrite_postingKept (word : Reg) (s : State) : PostingKept s (releaseWrite word s) := by
  unfold releaseWrite
  dsimp only
  split
  · exact (PostingKept.refl s).congr rfl
  · rename_i hok
    simp only [not_or, not_le, not_lt] at hok
    obtain ⟨-, hv, hc⟩ := hok
    exact (releaseRecords_postingKept hv hc).finish

theorem windowWrite_postingKept (offset word : Reg) (s : State) : PostingKept s (windowWrite offset word s) := by
  have hs := PostingKept.refl s
  unfold windowWrite
  split
  · exact hs.congr rfl
  · split
    · exact engineCommandWrite_postingKept word s
    · split
      · exact submitWrite_postingKept word s
      · split
        · exact releaseWrite_postingKept word s
        · split
          · exact hs.congr rfl
          · exact hs

theorem periodExpiry_postingKept (s : State) : PostingKept s (periodExpiry s) := by
  have hs := PostingKept.refl s
  unfold periodExpiry overrunRound
  split
  · exact hs
  · dsimp only
    split
    · split
      · exact .finish (hs.congr rfl)
      · have hmarked : PostingKept s (s.modWatch fun w => { w with promoted := true, overrun := true }) := hs.congr rfl
        exact .finish ((hmarked.raise (.roundOverrun s.watch.round)).congr rfl)
    · exact .finish (hs.congr rfl)

theorem coalescingExpiry_postingKept (s : State) : PostingKept s (coalescingExpiry s) := by
  unfold coalescingExpiry
  split <;> exact (PostingKept.refl s).congr rfl

/-! ### The setup read (R157, R177) -/

/-- R157: the ring of a valid setup block starts empty. -/
theorem takeUp_postingKept {b : SetupBlock} (hb : b.check = none) (s : State) : PostingKept s (takeUp b s) := by
  have hsize : b.ringSize ∈ ringSizes := by
    by_contra hn
    simp only [SetupBlock.check, hn, not_false_eq_true, if_true] at hb
    split at hb
    · cases hb
    · split at hb
      · cases hb
      · split at hb <;> cases hb
  have hpos := size_pos_of_mem hsize
  refine ⟨id, fun _ => ⟨fun _ => ⟨hsize, hpos, Nat.zero_le _, ?_⟩, fun _ _ _ => ⟨rfl, hpos⟩⟩⟩
  exact (Nat.zero_mod _).symm

theorem startupChecks_postingKept (s : State) : PostingKept s (startupChecks s) := by
  have hchecks : PostingKept s ((startupConverters s).foldl (fun t c => startCheck c .engineControl t) s) :=
    .foldl (fun t c => (PostingKept.refl t).worked (startCheck_worked c _)) _ s
  have hleft := hchecks.congr (u := State.modEngine (fun e => { e with startupLeft := startupConverters s }) _) rfl
  unfold startupChecks
  dsimp only
  split
  · exact (hleft.raise .noConverter).congr rfl
  · exact hleft

theorem endSetup_postingKept (how : ReadEnd) (s : State) : PostingKept s (endSetup how s) := by
  unfold endSetup
  split
  · exact (PostingKept.refl s).congr rfl
  · split
    · exact (PostingKept.refl s).congr rfl
    · exact .after (startupChecks_postingKept _) ((takeUp_postingKept ‹_› s).congr rfl)

theorem setupReadEnd_postingKept (k : Nat) (how : ReadEnd) (s : State) : PostingKept s (setupReadEnd k how s) := by
  have hs := PostingKept.refl s
  unfold setupReadEnd
  split
  · exact hs
  · split
    · dsimp only
      split
      · exact hs.congr rfl
      · exact .finish (.after (endSetup_postingKept how _) (hs.congr rfl))
    · exact hs

/-! ### List reads, result writes and jobs -/

theorem endListing_postingKept (k : CtxId) (b : MeasureBody) (how : ReadEnd) (s : State) :
    PostingKept s (endListing k b how s) := by
  unfold endListing
  split
  · exact (PostingKept.refl s).congr rfl
  · split <;> exact (PostingKept.refl s).congr rfl

theorem listReadEnd_postingKept (k : Nat) (how : ReadEnd) (s : State) : PostingKept s (listReadEnd k how s) := by
  have hs := PostingKept.refl s
  unfold listReadEnd
  split
  · exact hs
  · split
    · dsimp only
      split
      · exact hs.congr rfl
      · split
        · exact hs.congr rfl
        · split
          · exact .finish (.after (endListing_postingKept _ _ how _) (hs.congr rfl))
          · exact hs.congr rfl
    · exact hs

theorem resultWriteEnd_postingKept (k : Nat) (how : WriteEnd) (s : State) : PostingKept s (resultWriteEnd k how s) := by
  have hs := PostingKept.refl s
  unfold resultWriteEnd
  split
  · exact hs
  · dsimp only
    split
    · exact hs.congr rfl
    · exact .finish (hs.congr rfl)

/-- R138: a verdict raises at most its event. -/
theorem applyVerdict_postingKept (w : RunningWatch) (j : Job) (e : WatchEntry) (s : State) :
    PostingKept s (applyVerdict w j e s) := by
  have hwritten : PostingKept s (verdictWritten w j e s) := (PostingKept.refl s).congr rfl
  cases h : (w.verdict j e s).event with
  | none =>
    rw [applyVerdict_noEvent h]
    exact hwritten
  | some kind =>
    rw [applyVerdict_event h]
    exact hwritten.raise _

theorem watchNormalEnd_postingKept (id : WatchId) (j : Job) (s : State) : PostingKept s (watchNormalEnd id j s) := by
  unfold watchNormalEnd
  split
  · exact .refl s
  · split
    · exact (applyVerdict_postingKept _ j _ s).worked (endRunning_worked _)
    · exact (PostingKept.refl s).worked (endRunning_worked _)

theorem handOver_postingKept (j : Job) (s : State) : PostingKept s (handOver j s) := by
  have hs := PostingKept.refl s
  unfold handOver
  split
  · exact hs.worked (itemNormalEnd_worked _ _ _)
  · exact hs.worked (itemCutEnd_worked _ _)
  · exact hs.worked (trialNormalEnd_worked _ _)
  · exact hs.worked (trimEarlyEnd_worked _)
  · exact watchNormalEnd_postingKept _ j s
  · exact hs

theorem dischargeEnd_postingKept (c : ConvId) (s : State) : PostingKept s (dischargeEnd c s) := by
  unfold dischargeEnd
  split
  · rename_i j _ _
    have hrelease : Worked (handOver j s) (releaseConverter c (handOver j s)) :=
      (Worked.ofModConv c _).trans (resolveMark_worked c)
    exact (handOver_postingKept j s).worked (hrelease.trans (finishJobEnd_arbitrated j _).worked)
  · exact .refl s

/-! ### The ends that take a record (R64, R70, R162, R166) -/

theorem admitRecord_postingKept (queue : QueueId) (r : Request) (s : State) :
    PostingKept s (admitRecord queue r s) := by
  rcases admitRecord_cases queue r s with h | ⟨k, h⟩
  · rw [h]
    exact .refl s
  · refine ⟨h.reports, fun hs => ?_⟩
    rw [h.frame]
    exact hs

theorem takeRecord_postingKept (q : QueueId) (how : ReadEnd) (s : State) : PostingKept s (takeRecord q how s) := by
  unfold takeRecord
  split
  · unfold arrive
    split
    · exact (PostingKept.refl s).congr rfl
    · exact .after (admitRecord_postingKept _ _ _) ((PostingKept.refl s).congr rfl)
  · exact faultQueue_postingKept _ _ _ s

theorem fetchReadEnd_postingKept (how : ReadEnd) (s : State) : PostingKept s (fetchReadEnd how s) := by
  unfold fetchReadEnd
  split
  · exact .refl s
  · rename_i r _
    have hover : PostingKept s (fetchOver r s) := by
      unfold fetchOver
      dsimp only
      split <;> exact (PostingKept.refl s).congr rfl
    split
    · dsimp only
      split
      · exact .finish (hover.trans (takeRecord_postingKept _ how _))
      · exact hover.finish
    · exact .refl s

theorem freeContext_postingKept (k : CtxId) (s : State) : PostingKept s (freeContext k s) := by
  unfold freeContext
  split
  · exact .refl s
  · unfold admitHeld
    split
    · split
      · exact .after (admitRecord_postingKept _ _ _) ((PostingKept.refl s).congr rfl)
      · exact (PostingKept.refl s).congr rfl
    · exact (PostingKept.refl s).congr rfl

theorem sourceDone_postingKept (w : RingWrite) (s : State) : PostingKept s (sourceDone w s) := by
  unfold sourceDone
  split
  · exact .after (freeContext_postingKept _ _) ((PostingKept.refl s).congr rfl)
  · refine ⟨fun hs => ⟨?_, (Nat.sub_le _ _).trans hs.2⟩, id⟩
    rw [List.length_tail]
    exact (Nat.sub_le _ _).trans hs.1

/-- R165: with no write in flight, a sound ring is all there is to keep. -/
theorem PostingKept.ofRing (hreports : (t.reports, t.lost) = (s.reports, s.lost)) (hwrite : t.ringWrite = none)
    (hring : s.RingSound → t.ring.Sound) : PostingKept s t := by
  simp only [Prod.mk.injEq] at hreports
  refine ⟨fun hs => ?_, fun hs => ⟨hring hs, fun w hw => ?_⟩⟩
  · rwa [State.ReportsInRange, hreports.1, hreports.2]
  · rw [hwrite] at hw; cases hw

theorem ringWriteEnd_postingKept (how : WriteEnd) (s : State) : PostingKept s (ringWriteEnd how s) := by
  unfold ringWriteEnd
  split
  · exact .refl s
  · rename_i w hw
    split
    · exact .finish (.ofRing rfl rfl (·.1))
    · rename_i hst
      split
      · have hposted : PostingKept s (ringPosted s) := .ofRing rfl rfl fun hs => by
          obtain ⟨hconf, hroom⟩ := hs.2 w hw (Bool.eq_false_iff.2 hst)
          exact hs.1.posted hconf hroom
        exact (hposted.trans (sourceDone_postingKept w _)).finish
      · exact .ofRing rfl rfl (·.1)

/-! ### Every command -/

theorem commandEffect_postingKept (i : Instr) (s : State) : PostingKept s (commandEffect i s) := by
  have hs := PostingKept.refl s
  cases i with
  | deviceReset => exact deviceReset_postingKept s
  | start => exact startCommand_postingKept s
  | stopDrain => exact stopDrainCommand_postingKept s
  | stopCut => exact stopCutCommand_postingKept s
  | clear => exact clearCommand_postingKept s
  | commandRefused word => exact engineCommandWrite_postingKept word s
  | submitIndex word => exact submitWrite_postingKept word s
  | releaseIndex word => exact releaseWrite_postingKept word s
  | interruptControl word => exact hs.congr rfl
  | registerWrite offset word => exact windowWrite_postingKept offset word s
  | setupReadEnd k how => exact setupReadEnd_postingKept k how s
  | fetchReadEnd how => exact fetchReadEnd_postingKept how s
  | listReadEnd k how => exact listReadEnd_postingKept k how s
  | resultWriteEnd k how => exact resultWriteEnd_postingKept k how s
  | completionRingWriteEnd how => exact ringWriteEnd_postingKept how s
  | settleEnd c => exact hs.worked (settleEnd_worked c)
  | sampleEnd c outcome => exact hs.worked (sampleEnd_worked c outcome)
  | dischargeEnd c => exact dischargeEnd_postingKept c s
  | faultEvent c => exact hs.worked (faultEvent_worked c)
  | faultDischargeEnd c => exact hs.worked (faultDischargeEnd_worked c)
  | clearDischargeEnd c => exact hs.congr rfl
  | periodTimerExpiry => exact periodExpiry_postingKept s
  | coalescingTimerExpiry => exact coalescingExpiry_postingKept s

theorem step_postingKept (h : step s = .next t) : PostingKept s t := by
  rcases step_cases h with rfl | ⟨i, rest, _, rfl⟩
  · exact .refl _
  · exact .after (commandEffect_postingKept i _) ((PostingKept.refl s).congr rfl)

/-- Settles O52. -/
theorem reportsStayInRange : Obligations.ReportsStayInRange := fun _ _ hs hstep => (step_postingKept hstep).reports hs

/-- Settles O53. -/
theorem ringStaysSound : Obligations.RingStaysSound := fun _ _ hs hstep => (step_postingKept hstep).ring hs

end Sys2Proof.Machine
end

section
/-! SUPPORT. SetupChecksInOrder: the fields of the setup block, the sizes it may name, and the first of its checks that fails
(R155, R156). -/

namespace Sys2Proof.Machine

/-! ### Sizes (R155) -/

/-- A power of two between two powers of two is one of those between their exponents. -/
theorem powerOfTwo_within {a b n : Nat} :
    (2 ^ a ≤ n ∧ n ≤ 2 ^ b ∧ ∃ e, n = 2 ^ e) ↔ ∃ e, a ≤ e ∧ e ≤ b ∧ n = 2 ^ e := by
  constructor
  · rintro ⟨hlow, hhigh, e, rfl⟩
    exact ⟨e, (Nat.pow_le_pow_iff_right (by decide)).1 hlow, (Nat.pow_le_pow_iff_right (by decide)).1 hhigh, rfl⟩
  · rintro ⟨e, hlow, hhigh, rfl⟩
    exact ⟨Nat.pow_le_pow_right (by decide) hlow, Nat.pow_le_pow_right (by decide) hhigh, e, rfl⟩

theorem mem_queueSizes {n : Nat} : n ∈ queueSizes ↔ 16 ≤ n ∧ n ≤ 1024 ∧ ∃ e, n = 2 ^ e := by
  refine Iff.trans ?_ (powerOfTwo_within (a := 4) (b := 10)).symm
  constructor
  · intro h
    simp only [queueSizes, List.mem_cons, List.not_mem_nil, or_false] at h
    rcases h with rfl | rfl | rfl | rfl | rfl | rfl | rfl
    exacts [⟨4, by decide⟩, ⟨5, by decide⟩, ⟨6, by decide⟩, ⟨7, by decide⟩, ⟨8, by decide⟩, ⟨9, by decide⟩,
      ⟨10, by decide⟩]
  · rintro ⟨e, hlow, hhigh, rfl⟩
    interval_cases e <;> decide

theorem mem_ringSizes {n : Nat} : n ∈ ringSizes ↔ 32 ≤ n ∧ n ≤ 4096 ∧ ∃ e, n = 2 ^ e := by
  refine Iff.trans ?_ (powerOfTwo_within (a := 5) (b := 12)).symm
  constructor
  · intro h
    simp only [ringSizes, List.mem_cons, List.not_mem_nil, or_false] at h
    rcases h with rfl | rfl | rfl | rfl | rfl | rfl | rfl | rfl
    exacts [⟨5, by decide⟩, ⟨6, by decide⟩, ⟨7, by decide⟩, ⟨8, by decide⟩, ⟨9, by decide⟩, ⟨10, by decide⟩,
      ⟨11, by decide⟩, ⟨12, by decide⟩]
  · rintro ⟨e, hlow, hhigh, rfl⟩
    interval_cases e <;> decide

/-! ### The checks of a queue (R156, checks 2 to 4) -/

/-- R155: a queue of the setup block that fails none of its checks. -/
def SetupQueue.Good (q : SetupQueue) : Prop :=
  q.base % 64 = 0 ∧ (16 ≤ q.size ∧ q.size ≤ 1024 ∧ ∃ e, q.size = 2 ^ e) ∧ q.quota ≠ 0

theorem SetupQueue.Good.check {q : SetupQueue} (h : q.Good) : q.check = none := by
  obtain ⟨hbase, hsize, hquota⟩ := h
  rw [SetupQueue.check, if_neg (not_not.2 hbase), if_neg (not_not.2 (mem_queueSizes.2 hsize)), if_neg hquota]

/-- R156: the first queue with a failing check gives its code and its index. -/
theorem checkSetupQueues_first {l : List SetupQueue} {j code : Nat} {q : SetupQueue} (hq : l[j]? = some q)
    (hcode : q.check = some code) (hbefore : ∀ (m : Nat) (x : SetupQueue), m < j → l[m]? = some x → x.check = none)
    (i : Nat) : checkSetupQueues i l = some (code, i + j) := by
  induction l generalizing i j with
  | nil => cases hq
  | cons x l ih =>
    cases j with
    | zero =>
      cases hq
      simp only [checkSetupQueues, hcode, Nat.add_zero]
    | succ j =>
      have hx : x.check = none := hbefore 0 x (Nat.zero_lt_succ j) rfl
      have hrest := ih hq (fun m y hm hy => hbefore (m + 1) y (Nat.succ_lt_succ hm) hy) (i + 1)
      simp only [checkSetupQueues, hx, hrest, Nat.add_assoc, Nat.add_comm 1]

theorem checkSetupQueues_none {l : List SetupQueue} (h : ∀ q ∈ l, q.check = none) (i : Nat) :
    checkSetupQueues i l = none := by
  induction l generalizing i with
  | nil => rfl
  | cons x l ih =>
    obtain ⟨hx, hl⟩ := List.forall_mem_cons.1 h
    simp only [checkSetupQueues, hx, ih hl]

/-! ### The checks of a block (R156) -/

/-- R155: the queues before index `i` that a block configures fail no check. -/
def SetupBlock.GoodBefore (b : SetupBlock) (i : Nat) : Prop :=
  ∀ j q, j < i → j < b.queueCount → b.queues[j]? = some q → q.Good

section
variable {b : SetupBlock} (hcount : 1 ≤ b.queueCount ∧ b.queueCount ≤ 4)
include hcount

theorem SetupBlock.check_ofQueue {i code : Nat} {q : SetupQueue} (hi : i < b.queueCount) (hq : b.queues[i]? = some q)
    (hbefore : b.GoodBefore i) (hcode : q.check = some code) : b.check = some (code, i) := by
  have hconf : b.configured[i]? = some q := by rw [SetupBlock.configured, List.getElem?_take_of_lt hi, hq]
  have hfirst := checkSetupQueues_first hconf hcode (fun m x hm hx => by
    have hlt := hm.trans hi
    rw [SetupBlock.configured, List.getElem?_take_of_lt hlt] at hx
    exact (hbefore m x hm hlt hx).check) 0
  rw [SetupBlock.check, if_neg (by omega), hfirst, Nat.zero_add]

/-- R156: with good queues, the checks of the ring, the quotas and the watch period are left. -/
theorem SetupBlock.check_ofGood (hgood : b.GoodBefore 4) : b.check =
    if b.ringBase % 16 ≠ 0 then some (5, 0)
    else if b.ringSize ∉ ringSizes then some (6, 0)
    else if 16 < ((b.queues.take b.queueCount).map SetupQueue.quota).sum then some (7, 0)
    else if 60000 < b.watchPeriod then some (8, 0) else none := by
  have hnone : checkSetupQueues 0 b.configured = none := checkSetupQueues_none (fun q hq => by
    obtain ⟨j, hj⟩ := List.mem_iff_getElem?.1 hq
    have hlt : j < b.queueCount := by
      have := (List.getElem?_eq_some_iff.1 hj).1
      rw [SetupBlock.configured, List.length_take] at this
      omega
    rw [SetupBlock.configured, List.getElem?_take_of_lt hlt] at hj
    exact (hgood j q (by omega) hlt hj).check) 0
  rw [SetupBlock.check, if_neg (by omega), hnone]
  rfl

end

/-- Settles O11: each check is reached when those before it pass. -/
theorem setupChecksInOrder : Obligations.SetupChecksInOrder := by
  refine ⟨fun bytes => ?_, ?_⟩
  · simp only [SetupBlock.ofBytes, SetupQueue.ofBytes, List.map_cons, List.map_nil, wordAt_eq, halfAt, byteAt]
    rfl
  intro b _ powerOfTwoIn
  refine ⟨fun hn => by rw [SetupBlock.check, if_pos (by omega)], fun hcount => ?_⟩
  refine ⟨fun i q hi hq hbefore hbase => ?_, fun i q hi hq hbefore hbase hsize => ?_,
    fun i q hi hq hbefore hbase hsize hquota => ?_, fun hgood => ?_⟩
  · exact b.check_ofQueue hcount hi hq hbefore (if_pos hbase)
  · refine b.check_ofQueue hcount hi hq hbefore ?_
    rw [SetupQueue.check, if_neg (not_not.2 hbase), if_pos (mt mem_queueSizes.1 hsize)]
  · refine b.check_ofQueue hcount hi hq hbefore ?_
    rw [SetupQueue.check, if_neg (not_not.2 hbase), if_neg (not_not.2 (mem_queueSizes.2 hsize)), if_pos hquota]
  · rw [b.check_ofGood hcount hgood]
    refine ⟨fun hbase => if_pos hbase, fun hbase hsize => ?_, fun hbase hsize hquotas => ?_,
      fun hbase hsize hquotas hperiod => ?_, fun hbase hsize hquotas hperiod => ?_⟩
    all_goals rw [if_neg (not_not.2 hbase)]
    · exact if_pos (mt mem_ringSizes.1 hsize)
    all_goals rw [if_neg (not_not.2 (mem_ringSizes.2 hsize))]
    · exact if_pos hquotas
    · rw [if_neg (not_lt.2 hquotas), if_pos hperiod]
    · rw [if_neg (not_lt.2 hquotas), if_neg (not_lt.2 hperiod)]

end Sys2Proof.Machine
end

section
/-! SUPPORT. FetchArbiterServes, RecordAdmitted and FetchEndsWithoutContext: the queue that the fetch arbiter serves (R161), and
what the end of a fetch read does to its queue (R162, R163, R70). -/

namespace Sys2Proof.Machine

variable {s t u : State} {q : QueueId}

/-! ### What the claim arbiter and the converter arbiter touch -/

/-- `t` is `s` after work of the two arbiters: grants, dispatches, and NO_CONVERTER ends. -/
def GrantsOnly (s t : State) : Prop := t = { s with
  channels := t.channels, converters := t.converters, contexts := t.contexts, resultWrites := t.resultWrites
  watch := t.watch }

namespace GrantsOnly

theorem refl (s : State) : GrantsOnly s s := rfl

theorem trans (h : GrantsOnly s t) (g : GrantsOnly t u) : GrantsOnly s u := by
  unfold GrantsOnly at *
  rw [h] at g
  exact g

theorem queues (h : GrantsOnly s t) : t.queues = s.queues := by rw [h]

theorem foldl {α : Type} (f : State → α → State) (hf : ∀ t x, GrantsOnly t (f t x)) (l : List α) (s : State) :
    GrantsOnly s (l.foldl f s) := by
  induction l generalizing s with
  | nil => exact .refl s
  | cons x l ih => exact (hf s x).trans (ih _)

theorem ofGrantPass (s : State) : GrantsOnly s (grantPass s) := by
  have hgrant : ∀ (t : State) (k : CtxId) (c : Context), GrantsOnly t (grant k c t) := fun t k c => by
    unfold grant execChannelSet activate
    dsimp only
    split
    · split <;> rfl
    · split
      · rfl
      · split <;> rfl
  unfold grantPass
  split
  · refine foldl tryGrant (fun t k => ?_) _ s
    unfold tryGrant
    split
    · split
      · exact hgrant t k _
      · rfl
    · rfl
  · rfl

theorem ofNoConverterEnds (s : State) : GrantsOnly s (noConverterEnds s) := by
  have hcontext : ∀ (t : State) (k : CtxId), GrantsOnly t (contextNoConverter t k) := fun t k => by
    unfold GrantsOnly
    rw [(contextNoConverter_same t k).1]
  unfold noConverterEnds
  split
  · exact (foldl contextNoConverter hcontext _ s).trans (foldl (fun t id => skipPending id t) (fun _ _ => rfl) _ _)
  · rfl

theorem ofSettleClaims (n : Nat) (s : State) : GrantsOnly s (settleClaims n s) := by
  induction n generalizing s with
  | zero => rfl
  | succ n ih =>
    have hround := (ofGrantPass s).trans (ofNoConverterEnds (grantPass s))
    unfold settleClaims
    dsimp only
    split
    · exact hround.trans (ih _)
    · exact hround

theorem ofArbiterStep (h : arbiterStep s = some t) : GrantsOnly s t := by
  obtain ⟨c, -, -, ⟨id, -, -, rfl⟩ | ⟨w, -, rfl⟩⟩ := arbiterStep_cases h
  · unfold offerWatch
    split
    · split <;> rfl
    · rfl
  · unfold dispatchWork
    split
    · split
      · split <;> rfl
      · rfl
    · split <;> rfl

theorem ofArbiterLoop (n : Nat) (s : State) : GrantsOnly s (arbiterLoop n s) := by
  induction n generalizing s with
  | zero => rfl
  | succ n ih =>
    unfold arbiterLoop
    split
    · exact (ofArbiterStep ‹_›).trans (ih _)
    · rfl

theorem ofRunArbiters (s : State) : GrantsOnly s (runArbiters s) :=
  (ofSettleClaims 17 s).trans (ofArbiterLoop 36 _)

end GrantsOnly

/-! ### The fetch arbiter (R161) -/

theorem slotAddress_toNat {base : Addr} {size index : Nat} (h : base.toNat + size * index < 2 ^ 32) :
    (slotAddress base size index).toNat = base.toNat + size * index := by
  rw [slotAddress, if_pos h, BitVec.toNat_ofNat, Nat.mod_eq_of_lt h]

theorem Queue.eligible_iff (d : Queue) : d.eligible = true ↔
    d.state = .active ∧ d.fetchIndex ≠ d.tail ∧ d.held = none ∧ d.inFlight < d.quota := by
  simp [Queue.eligible, and_assoc]

/-- The queue that the fetch arbiter serves next. -/
def nextServed (s : State) : Option QueueId :=
  (servingOrder s.lastServed).find? fun q => (s.queues[q]).eligible

theorem issueFetch_served (hrun : s.engine.state = .running) (hread : s.fetchRead = none)
    (hq : nextServed s = some q) :
    issueFetch s = { s.modQueue q (fun d => { d with readOutstanding := true }) with
      lastServed := q
      fetchRead := some
        { queue := q, addr := slotAddress (s.queues[q]).base 64 (s.queues[q]).fetchIndex, current := true } } := by
  unfold nextServed at hq
  simp only [issueFetch, hrun, hread, and_self, if_true, hq]

theorem issueFetch_idle (hq : nextServed s = none) : issueFetch s = s := by
  unfold nextServed at hq
  unfold issueFetch
  split
  · simp only [hq]
  · rfl

/-- R161: the arbiter takes at most one eligible queue. -/
theorem issueFetch_cases (s : State) : issueFetch s = s ∨
    ∃ q f, (s.queues[q]).eligible = true
      ∧ issueFetch s = { s.modQueue q (fun d => { d with readOutstanding := true }) with
          lastServed := q, fetchRead := some f } := by
  by_cases hidle : s.engine.state = .running ∧ s.fetchRead = none
  · cases hq : nextServed s with
    | none => exact .inl (issueFetch_idle hq)
    | some q =>
      have heligible : (s.queues[q]).eligible = true := by simpa using List.find?_some hq
      exact .inr ⟨q, _, heligible, issueFetch_served hidle.1 hidle.2 hq⟩
  · exact .inl (if_neg hidle)

theorem orderPosts_queues (s : State) : (orderPosts s).queues = s.queues := rfl

theorem modQueue_own (q : QueueId) (f : Queue → Queue) (s : State) : (s.modQueue q f).queues[q] = f s.queues[q] := by
  rw [modQueue_get, if_pos rfl]

/-- R161: a queue that is not eligible is not served in an event. -/
theorem finish_queue_notEligible (h : (s.queues[q]).eligible = false) : (finish s).queues[q] = s.queues[q] := by
  have hwrite : ∀ x : State, (issueRingWrite x).queues = x.queues := fun x => by
    unfold issueRingWrite
    split
    · split
      · rfl
      · split <;> rfl
    · rfl
  have hstop : ∀ x : State, (testStop x).queues = x.queues := fun x => by
    unfold testStop
    split <;> rfl
  have hgrants := (orderPosts_queues (runArbiters s)).trans (GrantsOnly.ofRunArbiters s).queues
  rw [finish, hstop, hwrite]
  obtain hf | ⟨p, f, hp, hf⟩ := issueFetch_cases (orderPosts (runArbiters s)) <;> rw [hf]
  · rw [hgrants]
  · have hne : q ≠ p := fun he => by rw [hgrants, ← he, h] at hp; cases hp
    have hother := modQueue_get (orderPosts (runArbiters s)) p q fun d => { d with readOutstanding := true }
    rw [if_neg hne, hgrants] at hother
    exact hother

/-- R161: the serving order starts after the last-served queue and ends with it. -/
theorem servingOrder_eq (last : QueueId) : servingOrder last = [1, 2, 3, 4].map fun n => last + Fin.ofNat 4 n := by
  revert last
  decide

/-- R161: the first eligible queue in the serving order is served. -/
theorem nextServed_first {n : Nat} (h1 : 1 ≤ n) (h4 : n ≤ 4)
    (hn : (s.queues[s.lastServed + Fin.ofNat 4 n]).eligible = true)
    (hbefore : ∀ m, 1 ≤ m → m < n → (s.queues[s.lastServed + Fin.ofNat 4 m]).eligible = false) :
    nextServed s = some (s.lastServed + Fin.ofNat 4 n) := by
  have hsplit : [1, 2, 3, 4] = (List.range' 1 (n - 1)) ++ n :: List.range' (n + 1) (4 - n) := by
    interval_cases n <;> rfl
  rw [nextServed, servingOrder_eq, hsplit, List.map_append, List.map_cons]
  refine List.find?_eq_some_iff_append.2 ⟨hn, _, _, rfl, fun x hx => ?_⟩
  obtain ⟨m, hm, rfl⟩ := List.mem_map.1 hx
  obtain ⟨hlow, hhigh⟩ := List.mem_range'_1.1 hm
  rw [hbefore m hlow (by omega)]
  rfl

/-- R161: with no eligible queue there is none to serve. -/
theorem nextServed_none (h : ∀ q : QueueId, (s.queues[q]).eligible = false) : nextServed s = none :=
  List.find?_eq_none.2 fun q _ => Bool.eq_false_iff.1 (h q)

/-- Settles O15. -/
theorem fetchArbiterServes : Obligations.FetchArbiterServes := by
  intro s hrun hread eligible
  have hno : ∀ q, ¬eligible q → (s.queues[q]).eligible = false := fun q h =>
    Bool.eq_false_iff.2 fun he => h ((Queue.eligible_iff _).1 he)
  refine ⟨fun hnone => issueFetch_idle (nextServed_none fun q => hno q (hnone q)), ?_⟩
  intro n h1 h4 q hq hbefore
  have hserved := nextServed_first h1 h4 ((Queue.eligible_iff _).2 hq) fun m hm hmn => hno _ (hbefore m hm hmn)
  rw [issueFetch_served hrun hread hserved]
  exact ⟨rfl, rfl, _, rfl, slotAddress_toNat⟩

/-! ### A record that takes a context (R162, R64) -/

/-- R182: the arbiters write the registers only where a stop ends. -/
theorem Arbitrated.registers (h : Arbitrated s t) (hs : s.engine.state ≠ .stopping) :
    t.engine = s.engine ∧ t.interrupt = s.interrupt := by
  have hstate := (h.state_eq hs).symm
  have hsticky : t.interrupt.stickyStopped = s.interrupt.stickyStopped := by
    rw [Bool.eq_iff_iff, h.stopped]
    simp [hstate]
  rw [h.engine, h.interrupt, hstate, hsticky]
  exact ⟨rfl, rfl⟩

/-- R64: an admitted record is still in its context after the arbiters, and so are the others in theirs. -/
theorem AdmittedTo.arbitrated {k : CtxId} {r : Request} (h : AdmittedTo k q r s t) (a : Arbitrated t u) :
    (∃ c, u.contexts[k] = some c ∧ c.queue = q ∧ c.holdsTag = (!tagHeld s q r.tag) ∧ c.admission = s.nextAdmission
      ∧ c.request = r ∧ c.bytesWritten = 0)
    ∧ ∀ (l : CtxId) (c : Context), s.contexts[l] = some c → ∃ d, u.contexts[l] = some d ∧ c.SameRecord d := by
  refine ⟨?_, fun l c hl => ?_⟩
  · obtain ⟨c, hc, hqueue, htag, hnumber, hrequest, hbytes⟩ := h.taken
    obtain ⟨d, hd, hkept⟩ := a.contextUsed k c hc
    exact ⟨d, hd, hkept.queue.trans hqueue, hkept.holdsTag.trans htag, hkept.admission.trans hnumber,
      hkept.request.trans hrequest, hkept.bytesWritten.trans hbytes⟩
  · obtain ⟨d, hd, hcd⟩ := h.others l c hl
    obtain ⟨e, he, hkept⟩ := a.contextUsed l d hd
    exact ⟨e, he, hcd.trans ⟨hkept.queue, hkept.holdsTag, hkept.admission, hkept.request⟩⟩

/-- Settles O16. -/
theorem recordAdmitted : Obligations.RecordAdmitted := by
  intro s r bytes hread hcurrent hrun hactive hlength hfence hfree
  obtain ⟨k, hk⟩ := firstFreeContext_some (s := recordFetched r.queue s) hfree
  have hadmitted := admitRecord_admittedTo hk r.queue (Request.ofBytes bytes)
  have harb := finish_arbitrated (admitRecord r.queue (Request.ofBytes bytes) (recordFetched r.queue s))
  rw [← fetchReadEnd_record hread hcurrent hrun hactive hlength hfence] at harb
  generalize admitRecord r.queue (Request.ofBytes bytes) (recordFetched r.queue s) = u at hadmitted harb
  obtain ⟨⟨c, hc, hqueue, htag, hnumber, hrequest, hbytes⟩, hothers⟩ := hadmitted.arbitrated harb
  have hframe := hadmitted.frame
  have hengine : u.engine = s.engine := by rw [hframe]; rfl
  have hinterrupt : u.interrupt = s.interrupt := by rw [hframe]; rfl
  obtain ⟨hengine', hinterrupt'⟩ := harb.registers (by rw [hengine, hrun]; decide)
  have hdescriptor : u.queues[r.queue] = { s.queues[r.queue] with
      readOutstanding := false, inFlight := (s.queues[r.queue]).inFlight + 1
      fetchIndex := if (s.queues[r.queue]).fetchIndex + 1 = (s.queues[r.queue]).size then 0
        else (s.queues[r.queue]).fetchIndex + 1 } := by
    rw [hadmitted.queues]
    simp [recordFetched, State.modQueue]
  refine ⟨_, k, c, exec_eq _ s, hadmitted.free, hc, hqueue, hnumber, hrequest, htag, hbytes,
    harb.nextAdmission.trans hadmitted.nextAdmission, hengine'.trans hengine, hinterrupt'.trans hinterrupt, ?_, ?_, ?_,
    ?_, ?_, fun l d hl => ?_⟩
  · exact harb.ring.trans (by rw [hframe]; rfl)
  · exact harb.setupReads.trans (by rw [hframe]; rfl)
  · exact harb.clearDischarges.trans (by rw [hframe]; rfl)
  · exact (congrArg Queue.inFlight (harb.queue r.queue)).trans (by rw [hdescriptor])
  · exact (congrArg Queue.fetchIndex (harb.queue r.queue)).trans (by rw [hdescriptor])
  · obtain ⟨e, he, hsame⟩ := hothers l d hl
    exact ⟨e, he, hsame.queue, hsame.holdsTag, hsame.admission, hsame.request⟩

/-! ### A fetch read that takes no context (R163, R70) -/

theorem raise_lost (r : Report) (s : State) :
    (raise r s).lost = if s.reports.length < 8 then s.lost else min 65535 (s.lost + 1) := by
  rcases raise_cases s r with ⟨hroom, h⟩ | ⟨hfull, h⟩
  · rw [h, if_pos hroom]
  · rw [h, if_neg (not_lt.2 hfull)]

theorem fetchOver_eq (r : FetchRead) (s : State) : fetchOver r s =
    if r.current = true then
      { s.modQueue r.queue (fun q => { q with readOutstanding := false }) with fetchRead := none }
    else { s with fetchRead := none } := by
  unfold fetchOver
  dsimp only
  split <;> rfl

theorem fetchOver_current {r : FetchRead} (h : r.current = true) (s : State) :
    fetchOver r s = { s.modQueue r.queue (fun q => { q with readOutstanding := false }) with fetchRead := none } := by
  rw [fetchOver_eq, if_pos h]

/-- What follows in the queue of a fetch read of the present session. -/
theorem fetchOver_modQueue {r : FetchRead} (h : r.current = true) (f : Queue → Queue) (s : State) :
    (fetchOver r s).modQueue r.queue f =
      { s.modQueue r.queue (fun q => f { q with readOutstanding := false }) with fetchRead := none } := by
  rw [fetchOver_current h]
  exact congrArg (fun x : State => { x with fetchRead := none })
    (modQueue_modQueue r.queue (fun q => { q with readOutstanding := false }) f s)

theorem fetchOver_queue {r : FetchRead} (h : r.current = true) (s : State) :
    (fetchOver r s).queues[r.queue] = { s.queues[r.queue] with readOutstanding := false } := by
  rw [fetchOver_current h]
  exact modQueue_own r.queue (fun q => { q with readOutstanding := false }) s

theorem fetchOver_reports (r : FetchRead) (s : State) :
    (fetchOver r s).reports = s.reports ∧ (fetchOver r s).lost = s.lost := by
  rw [fetchOver_eq]
  split <;> exact ⟨rfl, rfl⟩

/-- R163: a queue that faults raises its notice, and is not served again. -/
theorem finish_faultQueue (q : QueueId) (reason : QueueFaultReason) (tail : Nat) (s : State) :
    let t := finish (faultQueue q reason tail s)
    t.queues[q] = { s.queues[q] with state := .faulted }
      ∧ t.reports = (if s.reports.length < 8
          then s.reports ++ [.queueFault q reason (s.queues[q]).fetchIndex tail] else s.reports)
      ∧ t.lost = (if s.reports.length < 8 then s.lost else min 65535 (s.lost + 1)) := by
  have harb := finish_arbitrated (faultQueue q reason tail s)
  have hqueue : (faultQueue q reason tail s).queues[q] = { s.queues[q] with state := .faulted } := by
    rw [faultQueue, raise_queues, modQueue_own]
  have hnot : ((faultQueue q reason tail s).queues[q]).eligible = false := by
    rw [hqueue]
    rfl
  exact ⟨(finish_queue_notEligible hnot).trans hqueue, harb.reports.trans (raise_reports _ _),
    harb.lost.trans (raise_lost _ _)⟩

/-- R163, R157: a fetch read ends in a session with its queue ACTIVE, or takes no record. -/
theorem fetchReadEnd_eq {r : FetchRead} {how : ReadEnd} (hread : s.fetchRead = some r)
    (hlength : ∀ bytes, how = .data bytes → bytes.length = 64) : fetchReadEnd how s =
      if r.current = true ∧ s.engine.state = .running ∧ (s.queues[r.queue]).state = .active
      then finish (takeRecord r.queue how (fetchOver r s)) else finish (fetchOver r s) := by
  have hwf : how.wfBlock = true := (Laws.OperandsAdmitted.block_iff how).2 hlength
  simp only [fetchReadEnd, hread, hwf, if_true]

/-- R70: a fenced record of a queue with contexts in use becomes the held record. -/
theorem takeRecord_held {bytes : List Byte} (hfence : (Request.ofBytes bytes).flags.fence = true)
    (hcount : 0 < (s.queues[q]).inFlight) : takeRecord q (.data bytes) s =
      s.modQueue q fun d => { d.advance with held := some (Request.ofBytes bytes) } := by
  have hcount' : 0 < ((s.modQueue q Queue.advance).queues[q]).inFlight := by rwa [modQueue_own]
  rw [takeRecord, arrive, if_pos ⟨hfence, hcount'⟩, modQueue_modQueue]

/-- Settles O20. -/
theorem fetchEndsWithoutContext : Obligations.FetchEndsWithoutContext := by
  intro s r how hread hlength
  have hend := fetchReadEnd_eq hread hlength
  refine ⟨fun hcurrent hrun hactive hhow => ?_, fun hnot => ?_, fun bytes hcurrent hrun hactive hhow hfence hcount => ?_⟩
  · subst hhow
    rw [if_pos ⟨hcurrent, hrun, hactive⟩] at hend
    have hown := fetchOver_queue hcurrent s
    obtain ⟨hreports, hlost⟩ := fetchOver_reports r s
    have harb := finish_arbitrated (takeRecord r.queue .busError (fetchOver r s))
    obtain ⟨htq, htr, htl⟩ :=
      finish_faultQueue r.queue .fetchError ((fetchOver r s).queues[r.queue]).tail (fetchOver r s)
    refine ⟨_, (exec_eq _ s).trans (congrArg _ hend), ?_, ?_, ?_, ?_⟩
    · exact htq.trans (by rw [hown])
    · exact htr.trans (by rw [hown, hreports])
    · exact htl.trans (by rw [hreports, hlost])
    · rw [takeRecord, faultQueue, hown, fetchOver_modQueue hcurrent] at harb ⊢
      exact harb
  · rw [if_neg fun ⟨hc, hr, ha⟩ => hnot.elim (Bool.eq_false_iff.1 · hc) (·.elim (· hr) (· ha))] at hend
    refine ⟨_, (exec_eq _ s).trans (congrArg _ hend), ?_⟩
    rw [← fetchOver_eq]
    exact finish_arbitrated (fetchOver r s)
  · subst hhow
    rw [if_pos ⟨hcurrent, hrun, hactive⟩, takeRecord_held hfence (by rwa [fetchOver_queue hcurrent]),
      fetchOver_modQueue hcurrent] at hend
    refine ⟨_, (exec_eq _ s).trans (congrArg _ hend), ?_, finish_arbitrated _⟩
    have hown := modQueue_own r.queue (fun q => { q.advance with
      held := some (Request.ofBytes bytes), readOutstanding := false }) s
    refine (congrArg Queue.readOutstanding (finish_queue_notEligible ?_)).trans (congrArg Queue.readOutstanding hown)
    refine (congrArg Queue.eligible hown).trans (Bool.eq_false_iff.2 fun he => ?_)
    obtain ⟨-, -, hheld, -⟩ := (Queue.eligible_iff _).1 he
    cases hheld

end Sys2Proof.Machine
end

section
/-! SUPPORT. SubmitIndexWrite and ReleaseIndexWrite: the fields of the two register words (R192), what their writes do (R160,
R168), and the read of Release Index (R169). -/

namespace Sys2Proof.Machine

variable {s : State}

/-! ### The fields of a register word (R192) -/

theorem extractLsb'_toNat_eq_bits (word : Reg) (low width : Nat) :
    (word.extractLsb' low width).toNat = bits word.toNat low width := by
  rw [BitVec.extractLsb'_toNat, Nat.shiftRight_eq_div_pow, bits]

theorem submitQueue_eq (word : Reg) : submitQueue word = Fin.ofNat 4 (word.extractLsb' 16 2).toNat := by
  rw [extractLsb'_toNat_eq_bits, submitQueue]

theorem submitTail_eq (word : Reg) : submitTail word = (word.extractLsb' 0 12).toNat := by
  rw [extractLsb'_toNat_eq_bits, submitTail]

theorem releaseValue_eq (word : Reg) : releaseValue word = (word.extractLsb' 0 16).toNat := by
  rw [extractLsb'_toNat_eq_bits, releaseValue]

/-! ### Submit Index (R160) -/

theorem submitWrite_refused {word : Reg} {q : QueueId} (hq : submitQueue word = q)
    (h : s.engine.state ≠ .running ∨ (s.queues[q]).state ≠ .active) : submitWrite word s =
      s.modEngine fun e => { e with lastError := .submitRefused, reasonCode := 0, reasonIndex := q.val } := by
  subst hq
  exact if_pos h

theorem submitWrite_accepted {word : Reg} {q : QueueId} {tail : Nat} (hq : submitQueue word = q)
    (htail : submitTail word = tail) (hrun : s.engine.state = .running) (hactive : (s.queues[q]).state = .active) :
    submitWrite word s =
      if (s.queues[q]).size ≤ tail then finish (faultQueue q .tailInvalid tail s)
      else finish (s.modQueue q fun d => { d with tail := tail }) := by
  subst hq htail
  exact if_neg (not_or.2 ⟨not_not.2 hrun, not_not.2 hactive⟩)

/-- Settles O14: the write is refused first, then judged by its tail. -/
theorem submitIndexWrite : Obligations.SubmitIndexWrite := by
  intro s word q tail
  have hq : submitQueue word = q := submitQueue_eq word
  have htail : submitTail word = tail := submitTail_eq word
  refine ⟨fun hrefused => ?_, fun hrun hactive hinvalid => ?_, fun hrun hactive hvalid => ?_⟩
  · exact (exec_eq _ s).trans (congrArg _ (submitWrite_refused hq hrefused))
  · have hwrite := (submitWrite_accepted hq htail hrun hactive).trans (if_pos hinvalid)
    obtain ⟨hqueue, hreports, hlost⟩ := finish_faultQueue q .tailInvalid tail s
    have harb := finish_arbitrated (faultQueue q .tailInvalid tail s)
    refine ⟨_, (exec_eq _ s).trans (congrArg _ hwrite), by rw [hqueue], hreports, hlost, ?_, harb⟩
    rw [harb.engine, faultQueue, raise_engine, modQueue_engine]
  · have hwrite := (submitWrite_accepted hq htail hrun hactive).trans (if_neg (not_le.2 hvalid))
    exact ⟨_, (exec_eq _ s).trans (congrArg _ hwrite), finish_arbitrated _⟩

/-! ### Release Index (R168, R169) -/

/-- R168, step 2: the number of records a release of `v` would release, as a difference modulo the size. -/
theorem releaseCount_eq_emod {r : Ring} {v : Nat} (hh : r.head < r.size) :
    (((v : Int) - (r.head : Int)) % (r.size : Int)).toNat = releaseCount r v := by
  have hcast : ((v + r.size - r.head : Nat) : Int) = (v : Int) - r.head + r.size := by omega
  have hmod : ((releaseCount r v : Nat) : Int) = ((v : Int) - r.head) % r.size := by
    rw [releaseCount, Int.natCast_emod, hcast, Int.add_emod_right]
  rw [← hmod, Int.toNat_natCast]

/-- R169: the write index fits the register. -/
theorem releaseIndexRead_toNat (h : s.ring.Sound) :
    (releaseIndexRead s).toNat = if s.ring.configured then s.ring.writeIndex else 0 := by
  unfold releaseIndexRead
  split
  · obtain ⟨hsize, -, -, hindex⟩ := h ‹_›
    have hlt : s.ring.writeIndex < s.ring.size := by
      rw [hindex]
      exact Nat.mod_lt _ (size_pos_of_mem hsize)
    obtain ⟨-, hmax, -⟩ := mem_ringSizes.1 hsize
    rw [BitVec.toNat_ofNat, Nat.mod_eq_of_lt (by omega)]
  · rfl

/-- Settles O25: the write is refused, or moves the head and restarts or stops the coalescing timer (R189). -/
theorem releaseIndexWrite : Obligations.ReleaseIndexWrite := by
  intro s word hsound v r refused
  have hv : releaseValue word = v := releaseValue_eq word
  have hwrite : exec (.releaseIndex word) s = .next (
      if ¬s.ring.configured ∨ s.ring.size ≤ v ∨ s.ring.count < releaseCount s.ring v then refused
      else finish (releaseRecords v s)) := by
    rw [← hv]
    rfl
  have hcount : s.ring.configured = true → releaseCount s.ring v = r := fun hconf => by
    obtain ⟨-, hhead, -, -⟩ := hsound hconf
    exact (releaseCount_eq_emod hhead).symm
  refine ⟨fun hrefused => ?_, fun hconf _ hmore => ?_, fun hconf hslot hless => ?_, releaseIndexRead_toNat hsound⟩
  · rw [hwrite, if_pos]
    exact hrefused.imp (Bool.eq_false_iff.1 ·) .inl
  · rw [hwrite, if_pos (.inr (.inr (by rwa [hcount hconf])))]
  · have haccepted : ¬(¬s.ring.configured = true ∨ s.ring.size ≤ v ∨ s.ring.count < releaseCount s.ring v) := by
      rw [hcount hconf]
      simp only [hconf, not_true, false_or, not_or, not_le, not_lt]
      exact ⟨hslot, hless⟩
    rw [if_neg haccepted] at hwrite
    have harb := finish_arbitrated (releaseRecords v s)
    rw [releaseRecords, hcount hconf] at harb
    refine ⟨_, hwrite, ?_⟩
    rw [releaseRecords, hcount hconf]
    exact harb

end Sys2Proof.Machine
end

section
/-! SUPPORT. RingWriteCompletes and RingWriteErrorHalts: the issue of a ring write (R166, R167, R172), what its completion does to
the ring, the report buffer and the context (R79, R170, R189), the admission of a held record (R70), and its bus error (R171). -/

namespace Sys2Proof.Machine

variable {s t : State} {k : CtxId} {c : Context} {w : RingWrite}

/-! ### The issue of a ring write (R166) -/

theorem mayPost_iff (s : State) : mayPost s = true ↔
    s.ring.configured = true ∧ s.ringWrite = none ∧ s.ring.count < s.ring.size ∧ s.engine.state ≠ .halted := by
  simp [mayPost, and_assoc]

theorem issueRingWrite_idle (h : mayPost s = false ∨ s.posting = []) : issueRingWrite s = s := by
  unfold issueRingWrite
  split
  · obtain h | h := h
    · rw [‹mayPost s = true›] at h; cases h
    · rw [h]
  · rfl

/-- R166: the first candidate is written to the slot at the write index. -/
theorem issueRingWrite_first (hmay : mayPost s = true) {p : PostRef} {rest : List PostRef} (hp : s.posting = p :: rest)
    {data : List Byte} {lost : Nat} (hrecord : postRecord s p = some (data, lost)) :
    issueRingWrite s = { s with
      ringWrite := some { source := p, addr := slotAddress s.ring.base 16 s.ring.writeIndex, data := data,
                          carriedLost := lost, stale := false } } := by
  simp only [issueRingWrite, hmay, if_true, hp, hrecord]

/-! ### The posting order (R167) -/

theorem raise_eq (r : Report) (s : State) : raise r s =
    if s.reports.length < 8 then { s with reports := s.reports ++ [r], posting := s.posting ++ [.report] }
    else { s with lost := min 65535 (s.lost + 1) } := rfl

/-- The contexts newly in POSTING, oldest first. -/
def newlyPosting (s : State) : List CtxId := (byAdmission s).filter fun k => inState s .posting k && !inPosting s k

theorem mem_newlyPosting : k ∈ newlyPosting s ↔
    .context k ∉ s.posting ∧ ∃ c, s.contexts[k] = some c ∧ c.state = .posting := by
  obtain ⟨-, hmem, -⟩ := byAdmission_order s
  have hstate : inState s .posting k = true ↔ ∃ c, s.contexts[k] = some c ∧ c.state = .posting := by
    unfold inState
    cases s.contexts[k] <;> simp
  have hplace : (!inPosting s k) = true ↔ .context k ∉ s.posting := by simp [inPosting]
  rw [newlyPosting, List.mem_filter, hmem, Bool.and_eq_true, hstate, hplace]
  refine ⟨fun ⟨_, hc, hp⟩ => ⟨hp, hc⟩, fun ⟨hp, c, hc, hs⟩ => ⟨?_, ⟨c, hc, hs⟩, hp⟩⟩
  rw [hc]
  exact Option.some_ne_none c

/-- R167: the contexts take their places in ascending admission number. -/
theorem newlyPosting_order (s : State) : (newlyPosting s).Nodup ∧
    (newlyPosting s).Pairwise fun k l => ∀ c d : Context, s.contexts[k] = some c → s.contexts[l] = some d →
      c.admission ≤ d.admission := by
  obtain ⟨hnodup, -, hascends⟩ := byAdmission_order s
  exact ⟨hnodup.filter _, hascends.filter _⟩

/-! ### A completed ring write (R166, R189) -/

theorem Ring.posted_eq (r : Ring) : r.posted = { r with
    writeIndex := if r.writeIndex + 1 = r.size then 0 else r.writeIndex + 1
    phase := if r.writeIndex + 1 = r.size then !r.phase else r.phase
    count := r.count + 1 } := by
  unfold Ring.posted
  split <;> simp [*]

theorem ringWriteEnd_completes (hw : s.ringWrite = some w) (hst : w.stale = false) :
    ringWriteEnd .completes s = finish (sourceDone w (ringPosted s)) := by
  simp only [ringWriteEnd, hw, hst, Bool.false_eq_true, if_false]

theorem sourceDone_report (h : w.source = .report) (s : State) : sourceDone w s =
    { s with reports := s.reports.tail, posting := s.posting.erase .report, lost := s.lost - w.carriedLost } := by
  rw [sourceDone, h]

/-- The posted context's place in the order is gone. -/
def unposted (k : CtxId) (s : State) : State := { s with posting := s.posting.erase (.context k) }

/-- R79: a posted context becomes FREE, and then its queue's held record may be admitted. -/
theorem sourceDone_context (h : w.source = .context k) (hk : s.contexts[k] = some c) :
    sourceDone w s = admitHeld c.queue (contextReleased k c (unposted k s)) := by
  rw [sourceDone, h]
  exact freeContext_used (s := unposted k s) hk

theorem contextReleased_queue (k : CtxId) (c : Context) (s : State) :
    (contextReleased k c s).queues[c.queue] =
      { s.queues[c.queue] with inFlight := (s.queues[c.queue]).inFlight - 1 } := modQueue_own _ _ _

/-- R70: a held record waits for RUNNING and for an in-flight count of 0. -/
theorem admitHeld_waits {q : QueueId}
    (h : (s.queues[q]).held = none ∨ s.engine.state ≠ .running ∨ (s.queues[q]).inFlight ≠ 0) : admitHeld q s = s := by
  unfold admitHeld
  split
  · rename_i r hr
    refine if_neg fun ⟨hrun, hzero⟩ => ?_
    rcases h with h | h | h
    · rw [hr] at h; cases h
    · exact h hrun
    · exact h hzero
  · rfl

theorem admitHeld_admits {q : QueueId} {r : Request} (hheld : (s.queues[q]).held = some r)
    (hrun : s.engine.state = .running) (hzero : (s.queues[q]).inFlight = 0) :
    admitHeld q s = admitRecord q r (s.modQueue q fun d => { d with held := none }) := by
  simp only [admitHeld, hheld]
  exact if_pos ⟨hrun, hzero⟩

theorem admitRecord_registers (q : QueueId) (r : Request) (s : State) :
    (admitRecord q r s).ring = s.ring ∧ (admitRecord q r s).interrupt = s.interrupt := by
  rcases admitRecord_cases q r s with h | ⟨l, h⟩
  · rw [h]
    exact ⟨rfl, rfl⟩
  · rw [h.frame]
    exact ⟨rfl, rfl⟩

theorem sourceDone_registers (w : RingWrite) (s : State) :
    (sourceDone w s).ring = s.ring ∧ (sourceDone w s).interrupt = s.interrupt := by
  unfold sourceDone
  split
  · unfold freeContext
    split
    · exact ⟨rfl, rfl⟩
    · unfold admitHeld
      split
      · split
        · exact admitRecord_registers _ _ _
        · exact ⟨rfl, rfl⟩
      · exact ⟨rfl, rfl⟩
  · exact ⟨rfl, rfl⟩

theorem modQueue_congr {q : QueueId} {f g : Queue → Queue} (h : f s.queues[q] = g s.queues[q]) :
    s.modQueue q f = s.modQueue q g := by
  simp only [State.modQueue, h]

/-- R70: the state in which the held record of a queue is admitted, whose last context `c` in `k` has been posted. -/
def heldTaken (k : CtxId) (c : Context) (s : State) : State :=
  { s with posting := s.posting.erase (.context k), contexts := s.contexts.set k none }.modQueue c.queue
    fun q => { q with inFlight := 0, held := none }

theorem heldTaken_free (k : CtxId) (c : Context) (s : State) : (heldTaken k c s).contexts[k] = none := by
  simp [heldTaken]

/-- R79: the context becomes FREE, and no held record follows. -/
theorem sourceDone_waits (h : w.source = .context k) (hk : s.contexts[k] = some c)
    (hwaits : (s.queues[c.queue]).held = none ∨ s.engine.state ≠ .running ∨ 1 < (s.queues[c.queue]).inFlight) :
    sourceDone w s = contextReleased k c (unposted k s) := by
  rw [sourceDone_context h hk]
  refine admitHeld_waits ?_
  rw [contextReleased_queue]
  exact hwaits.imp_right (.imp_right Nat.sub_ne_zero_of_lt)

/-- R70, R79: the context becomes FREE, and its queue's held record is admitted. -/
theorem sourceDone_admits (h : w.source = .context k) (hk : s.contexts[k] = some c) {r : Request}
    (hheld : (s.queues[c.queue]).held = some r) (hrun : s.engine.state = .running)
    (hone : (s.queues[c.queue]).inFlight = 1) : sourceDone w s = admitRecord c.queue r (heldTaken k c s) := by
  have hqueue := contextReleased_queue k c (unposted k s)
  have hstate : (contextReleased k c (unposted k s)).modQueue c.queue (fun d => { d with held := none }) =
      heldTaken k c s := by
    rw [contextReleased, modQueue_modQueue]
    exact modQueue_congr (by simp only [unposted, hone])
  have hzero : ((contextReleased k c (unposted k s)).queues[c.queue]).inFlight = 0 := by
    rw [hqueue]
    exact Nat.sub_eq_zero_of_le hone.le
  rw [sourceDone_context h hk, ← hstate]
  exact admitHeld_admits (by rw [hqueue]; exact hheld) hrun hzero

/-- R64: what an admission gives the held record, after the arbiters. -/
theorem admitRecord_finished {q : QueueId} (hfree : ∃ k : CtxId, s.contexts[k] = none) (r : Request) :
    let t := finish (admitRecord q r s)
    t.nextAdmission = s.nextAdmission + 1 ∧ (t.queues[q]).held = (s.queues[q]).held
      ∧ ∃ (l : CtxId) (d : Context), t.contexts[l] = some d ∧ d.request = r ∧ d.queue = q
        ∧ d.admission = s.nextAdmission := by
  obtain ⟨k, hk⟩ := firstFreeContext_some hfree
  have hadmitted := admitRecord_admittedTo hk q r
  have harb := finish_arbitrated (admitRecord q r s)
  obtain ⟨⟨d, hd, hqueue, -, hnumber, hrequest, -⟩, -⟩ := hadmitted.arbitrated harb
  refine ⟨harb.nextAdmission.trans hadmitted.nextAdmission, ?_, k, d, hd, hrequest, hqueue, hnumber⟩
  have hheld := congrArg Queue.held (harb.queue q)
  rw [hadmitted.queues, modQueue_own] at hheld
  exact hheld

theorem ringPosted_eq (s : State) : ringPosted s = { s with
    ringWrite := none
    ring := { s.ring with
      writeIndex := if s.ring.writeIndex + 1 = s.ring.size then 0 else s.ring.writeIndex + 1
      phase := if s.ring.writeIndex + 1 = s.ring.size then !s.ring.phase else s.ring.phase
      count := s.ring.count + 1 }
    interrupt := { s.interrupt with
      timer := if s.ring.count = 0 ∧ s.interrupt.timerSetting ≠ 0 then some (s.interrupt.timerSetting * 1600)
        else s.interrupt.timer } } := by
  rw [ringPosted, Ring.posted_eq]
  rfl

/-- R80: the arbiters neither take nor free a context. -/
theorem Arbitrated.free_iff (h : Arbitrated s t) (k : CtxId) : s.contexts[k] = none ↔ t.contexts[k] = none := by
  refine ⟨h.contextFree k, fun ht => ?_⟩
  by_contra hne
  obtain ⟨c, hc⟩ := Option.ne_none_iff_exists'.1 hne
  obtain ⟨d, hd, -⟩ := h.contextUsed k c hc
  rw [ht] at hd
  cases hd

/-- Settles O23. -/
theorem ringWriteCompletes : Obligations.RingWriteCompletes := by
  refine ⟨fun s => ?_, fun s w hw hst => ?_⟩
  · intro mayWrite issues
    have hissues : ∀ {p : PostRef} {rest : List PostRef} {data : List Byte} {lost : Nat}, mayWrite →
        s.posting = p :: rest → postRecord s p = some (data, lost) → issues p data lost :=
      fun hmay hp hrecord =>
        ⟨_, issueRingWrite_first ((mayPost_iff s).2 hmay) hp hrecord, slotAddress_toNat⟩
    obtain ⟨hnodup, hascends⟩ := newlyPosting_order s
    refine ⟨rfl, fun h => issueRingWrite_idle ?_, fun k rest c hmay hp hk => hissues hmay hp ?_,
      fun rest r more hmay hp hr => hissues hmay hp ?_, fun r => raise_eq r s, newlyPosting s, rfl, hnodup,
      fun k => mem_newlyPosting, hascends⟩
    · exact h.imp_left fun hn => Bool.eq_false_iff.2 (mt (mayPost_iff s).1 hn)
    · simp only [postRecord, hk]
    · simp only [postRecord, hr]
  · intro posted
    have hposted : ringPosted s = posted := ringPosted_eq s
    have hend : ringWriteEnd .completes s = finish (sourceDone w posted) := by
      rw [ringWriteEnd_completes hw hst, hposted]
    have harb := finish_arbitrated (sourceDone w posted)
    obtain ⟨hring, hinterrupt⟩ := sourceDone_registers w posted
    refine ⟨_, (exec_eq _ s).trans (congrArg _ hend), harb.ring.trans hring, ?_, ?_, fun hsource => ?_,
      fun k c hsource hk hwaits => ?_, fun k c r hsource hk hheld hrun hone => ?_⟩
    · rw [harb.interrupt, hinterrupt]
    · rw [harb.interrupt, hinterrupt]
    · rw [sourceDone_report hsource] at harb ⊢
      exact ⟨harb.reports, harb.lost, harb.free_iff, harb⟩
    · rw [sourceDone_waits (s := posted) hsource hk hwaits] at harb ⊢
      refine ⟨harb.contextFree k ?_, ?_, harb.nextAdmission, harb.reports, harb.lost, harb⟩
      · rw [contextReleased_get, if_pos rfl]
      · exact (congrArg Queue.inFlight (harb.queue c.queue)).trans
          (congrArg Queue.inFlight (contextReleased_queue k c (unposted k posted)))
    · have hfree : ∃ l : CtxId, (heldTaken k c posted).contexts[l] = none := ⟨k, heldTaken_free k c posted⟩
      obtain ⟨hnumber, hnone, hrecord⟩ := admitRecord_finished (q := c.queue) hfree r
      rw [sourceDone_admits (s := posted) hsource hk hheld hrun hone]
      refine ⟨hnumber, hnone.trans ?_, hrecord, admitRecord_recordTaken hfree c.queue r⟩
      exact congrArg Queue.held (modQueue_own _ _ _)

/-- Settles O24. -/
theorem ringWriteErrorHalts : Obligations.RingWriteErrorHalts := by
  intro s w hw
  refine ⟨fun hst => ?_, fun hst how => ?_⟩
  · have hend : ringWriteEnd .busError s = halt { s with ringWrite := none } := by
      simp only [ringWriteEnd, hw, hst, Bool.false_eq_true, if_false]
    exact (exec_eq _ s).trans (congrArg _ hend)
  · have hend : ringWriteEnd how s = finish { s with ringWrite := none } := by
      simp only [ringWriteEnd, hw, hst, if_true]
    exact ⟨_, (exec_eq _ s).trans (congrArg _ hend), finish_arbitrated _⟩

end Sys2Proof.Machine
end

section
/-! SUPPORT. StopEndsExactly: every command that a stop can meet runs the arbiters, with their end-of-stop test, or leaves the four
conditions of R182 as they are. -/

namespace Sys2Proof.Machine

variable {s t x : State}

/-! ### CLEAR and device reset, by any of their rows (R173, R184) -/

/-- The commands that end a session at once: a device reset, and a CLEAR by any of its spellings (log entry 12). -/
def CommandEndsSession : Instr → Prop
  | .deviceReset => True
  | .clear => True
  | .commandRefused word => commandCode word = 4
  | .registerWrite offset word => offset = 0x00#32 ∧ commandCode word = 4
  | _ => False

/-- R174, R192: a well-formed command ends the session only by the rows of CLEAR and of the device reset. -/
theorem not_commandEndsSession {i : Instr} (hwf : i.wellFormed = true) (hclear : i ≠ .clear) (hreset : i ≠ .deviceReset) :
    ¬CommandEndsSession i := by
  intro h
  cases i with
  | deviceReset => exact hreset rfl
  | clear => exact hclear rfl
  | commandRefused word => exact commandCode_of_namesNoCommand hwf h
  | registerWrite offset word =>
    obtain ⟨rfl, -⟩ := h
    cases hwf
  | _ => exact h

theorem engineCommandWrite_clear {word : Reg} (h : commandCode word = 4) (s : State) :
    engineCommandWrite word s = clearCommand s := by
  simp only [engineCommandWrite, h]

theorem commandEffect_endsSession {i : Instr} (h : CommandEndsSession i) (s : State) :
    (commandEffect i s).engine.state = .off := by
  cases i with
  | deviceReset => rfl
  | clear => rfl
  | commandRefused word => exact congrArg (·.engine.state) (engineCommandWrite_clear h s)
  | registerWrite offset word =>
    obtain ⟨rfl, h⟩ := h
    exact congrArg (·.engine.state) (engineCommandWrite_clear h s)
  | _ => exact h.elim

/-! ### Engine Control in the work of converters and of the Completion Writer -/

theorem changeConvState_engine (c : ConvId) (st : ConvState) (s : State) :
    (changeConvState c st s).engine = s.engine := by
  rw [changeConvState_same]

theorem resolveMark_engine (c : ConvId) (s : State) : (resolveMark c s).engine = s.engine := by
  unfold resolveMark
  split
  · rfl
  · split
    · exact changeConvState_engine c .held (clearMark c s)
    · split <;> rfl

/-- R178: only in LOADING does the end of a check move the engine. -/
theorem handCheckResult_engineState (hl : s.engine.state ≠ .loading) (c : ConvId) (o : CheckOwner) (pass : Bool)
    (new : ConvState) (mean : Option Nat) : (handCheckResult c o pass new mean s).engine.state = s.engine.state :=
  (handCheckResult_handed c o pass new mean s).engineState.resolve_right fun h => hl h.1

theorem checkFail_engineState (hl : s.engine.state ≠ .loading) (c : ConvId) (cause : OfflineCause) (mean : Option Nat) :
    (checkFail c cause mean s).engine.state = s.engine.state := by
  have hoffline : (clearJob c (changeConvState c .offline (raise (.converterOffline c cause mean) s))).engine = s.engine :=
    (changeConvState_engine c .offline _).trans (raise_engine s _)
  unfold checkFail
  dsimp only
  rw [resolveMark_engine, handCheckResult_engineState (by rwa [hoffline]), hoffline]

theorem concludeCheck_engineState (hl : s.engine.state ≠ .loading) (c : ConvId) (l : List Sample) :
    (concludeCheck c l s).engine.state = s.engine.state := by
  unfold concludeCheck checkPass
  dsimp only
  split
  · rw [resolveMark_engine]
    split
    · exact (handCheckResult_engineState (by rwa [raise_engine]) c _ _ _ _).trans (by rw [raise_engine]; rfl)
    · exact (handCheckResult_engineState (by rwa [raise_engine]) c _ _ _ _).trans (by rw [raise_engine]; rfl)
    · exact handCheckResult_engineState (by exact hl) c _ _ _ _
  · exact checkFail_engineState hl c _ _

theorem faultJob_engine (c : ConvId) (j : Job) (s : State) : (faultJob c j s).engine = s.engine :=
  (resolveMark_engine c _).trans ((changeConvState_engine c .offline _).trans (raise_engine s _))

theorem releaseConverter_engine (c : ConvId) (s : State) : (releaseConverter c s).engine = s.engine :=
  resolveMark_engine c _

theorem endListing_engine (k : CtxId) (b : MeasureBody) (how : ReadEnd) (s : State) :
    (endListing k b how s).engine = s.engine := by
  unfold endListing
  split
  · rfl
  · split <;> rfl

/-- R70: outside RUNNING no held record follows a posted record. -/
theorem freeContext_waits {k : CtxId} {c : Context} (hk : s.contexts[k] = some c) (hr : s.engine.state ≠ .running) :
    freeContext k s = contextReleased k c s := by
  rw [freeContext_used hk]
  exact admitHeld_waits (.inr (.inl hr))

theorem sourceDone_engine (hr : s.engine.state ≠ .running) (w : RingWrite) : (sourceDone w s).engine = s.engine := by
  unfold sourceDone
  split
  · rename_i k _
    cases hk : s.contexts[k] with
    | none =>
      rw [freeContext]
      simp only [hk]
    | some c => exact (congrArg State.engine (freeContext_waits (s := unposted k s) hk hr)).trans rfl
  · rfl

theorem cutContexts_engine (s : State) : (cutContexts s).engine = s.engine := by
  have h : EndsOnly s (cutContexts s) := setEndCauses_endsOnly .stopped _ s
  rw [h]

/-! ### The judgment of a stop (R182, R188) -/

/-- `t` is `s` after a command that leaves the end of a stop to the test of R182: the stop that is over is seen to be over, and
the engine leaves STOPPING for OFF only then. -/
structure StopJudged (s t : State) : Prop where
  stays : s.StopOpen → t.StopOpen
  ends : s.engine.state = .stopping → t.engine.state = .off → t.StopConditions ∧ t.interrupt.stickyStopped = true

/-- R182: after the arbiters no stop stands whose conditions hold. -/
theorem finish_stopOpen (x : State) : (finish x).StopOpen := by
  intro hstopping hdone
  by_cases hx : x.engine.state = .stopping
  · have hoff := (finish_stops x hx).1.2 hdone
    rw [hstopping] at hoff
    cases hoff
  · exact hx ((finish_state x hx).symm.trans hstopping)

theorem finishBeforeTrial_stopOpen (k : CtxId) (x : State) : (finishBeforeTrial k x).StopOpen := by
  intro hstopping hdone
  by_cases hx : x.engine.state = .stopping
  · have hoff := (finishBeforeTrial_stops k x hx).1.2 hdone
    rw [hstopping] at hoff
    cases hoff
  · exact hx (((finishBeforeTrial_arbitrated k x).state_eq hx).trans hstopping)

namespace StopJudged

/-- The arbiters judge the stop, when the own effects of the command leave the engine in STOPPING. -/
theorem ofFinish (hx : s.engine.state = .stopping → x.engine.state = .stopping) : StopJudged s (finish x) :=
  ⟨fun _ => finish_stopOpen x, fun hs hoff =>
    let ⟨hdone, hsticky, _⟩ := finish_stops x (hx hs)
    ⟨hdone.1 hoff, hsticky hoff⟩⟩

theorem ofFinishJobEnd (j : Job) (hx : s.engine.state = .stopping → x.engine.state = .stopping) :
    StopJudged s (finishJobEnd j x) := by
  rcases finishJobEnd_cases j x with h | ⟨k, _, _, _, _, h⟩ <;> rw [h]
  · exact ofFinish hx
  · exact ⟨fun _ => finishBeforeTrial_stopOpen k x, fun hs hoff =>
      let ⟨hdone, hsticky, _⟩ := finishBeforeTrial_stops k x (hx hs)
      ⟨hdone.1 hoff, hsticky hoff⟩⟩

/-- A command that meets no stop. -/
theorem ofFinishElsewhere {st : EngineState} (hs : s.engine.state = st) (hne : st ≠ .stopping) :
    StopJudged s (finish x) :=
  ofFinish fun h => absurd (hs.symm.trans h) hne

/-- A command with no test of a stop, which makes none of the four conditions true. -/
theorem ofConditions (he : t.engine.state = s.engine.state) (hc : t.StopConditions → s.StopConditions) : StopJudged s t :=
  ⟨fun hopen ht hdone => hopen (he.symm.trans ht) (hc hdone), fun hs hoff => by
    rw [he, hs] at hoff
    cases hoff⟩

/-- A command that writes none of the tables the conditions are about. -/
theorem congr (h : (t.engine.state, t.contexts, t.watch, t.converters, t.reports)
    = (s.engine.state, s.contexts, s.watch, s.converters, s.reports)) : StopJudged s t := by
  simp only [Prod.mk.injEq] at h
  obtain ⟨he, hk, hw, hv, hr⟩ := h
  refine ofConditions he fun hdone => ?_
  unfold State.StopConditions at hdone ⊢
  rwa [hk, hw, hv, hr] at hdone

/-- A change of one converter's record that ends no check. -/
theorem ofModConv (c : ConvId) {f : Converter → Converter}
    (hf : s.converters[c].state = .checking → (f s.converters[c]).state = .checking) : StopJudged s (s.modConv c f) := by
  refine ofConditions rfl fun ⟨hk, hw, hv, hr⟩ => ⟨hk, hw, fun d hd => ?_, hr⟩
  have hnew := hv d
  rw [modConv_get] at hnew
  split at hnew
  · subst d
    exact hnew (hf hd)
  · exact hnew hd

/-- A command after which the engine is neither in STOPPING nor in OFF. -/
theorem ofState {st : EngineState} (ht : t.engine.state = st) (hstopping : st ≠ .stopping) (hoff : st ≠ .off) :
    StopJudged s t :=
  ⟨fun _ h => absurd (ht.symm.trans h) hstopping, fun _ h => absurd (ht.symm.trans h) hoff⟩

end StopJudged

/-! ### The commands -/

theorem startCommand_stopJudged (s : State) : StopJudged s (startCommand s) := by
  unfold startCommand
  split
  · exact .ofState (st := .loading) rfl (by decide) (by decide)
  · exact .congr rfl

theorem stopDrainCommand_stopJudged (s : State) : StopJudged s (stopDrainCommand s) := by
  unfold stopDrainCommand
  split
  · exact .ofFinishElsewhere ‹_› (by decide)
  all_goals exact .congr rfl

theorem stopCutCommand_stopJudged (s : State) : StopJudged s (stopCutCommand s) := by
  unfold stopCutCommand
  split
  · exact .ofFinishElsewhere ‹_› (by decide)
  · split
    · exact .congr rfl
    · exact .ofFinish fun hs => by rw [cutContexts_engine]; exact hs
  · exact .ofFinishElsewhere ‹_› (by decide)
  all_goals exact .congr rfl

theorem engineCommandWrite_stopJudged {word : Reg} (h : commandCode word ≠ 4) (s : State) :
    StopJudged s (engineCommandWrite word s) := by
  unfold engineCommandWrite
  split
  · exact startCommand_stopJudged s
  · exact stopDrainCommand_stopJudged s
  · exact stopCutCommand_stopJudged s
  · exact absurd ‹_› h
  · exact .congr rfl

theorem submitWrite_stopJudged (word : Reg) (s : State) : StopJudged s (submitWrite word s) := by
  unfold submitWrite
  dsimp only
  split
  · exact .congr rfl
  · rename_i haccepted
    obtain ⟨hrun, -⟩ := not_or.1 haccepted
    split <;> exact .ofFinishElsewhere (not_not.1 hrun) (by decide)

theorem releaseWrite_stopJudged (word : Reg) (s : State) : StopJudged s (releaseWrite word s) := by
  unfold releaseWrite
  dsimp only
  split
  · exact .congr rfl
  · exact .ofFinish id

theorem windowWrite_stopJudged {offset word : Reg} (h : ¬(offset = 0x00#32 ∧ commandCode word = 4)) (s : State) :
    StopJudged s (windowWrite offset word s) := by
  unfold windowWrite
  split
  · exact .congr rfl
  · split
    · exact engineCommandWrite_stopJudged (fun hcode => h ⟨‹_›, hcode⟩) s
    · split
      · exact submitWrite_stopJudged word s
      · split
        · exact releaseWrite_stopJudged word s
        · split <;> exact .congr rfl

theorem setupReadEnd_stopJudged (k : Nat) (how : ReadEnd) (s : State) : StopJudged s (setupReadEnd k how s) := by
  unfold setupReadEnd
  split
  · exact .congr rfl
  · split
    · dsimp only
      split
      · exact .congr rfl
      · rename_i hcurrent
        exact .ofFinishElsewhere (Classical.not_not.1 fun h => hcurrent (.inr h)) (by decide)
    · exact .congr rfl

theorem fetchReadEnd_stopJudged (how : ReadEnd) (s : State) : StopJudged s (fetchReadEnd how s) := by
  unfold fetchReadEnd
  split
  · exact .congr rfl
  · split
    · dsimp only
      split
      · rename_i htaken
        obtain ⟨-, hrun, -⟩ := htaken
        exact .ofFinishElsewhere hrun (by decide)
      · exact .ofFinish fun hs => by rw [fetchOver_engine]; exact hs
    · exact .congr rfl

theorem listReadEnd_stopJudged (i : Nat) (how : ReadEnd) (s : State) : StopJudged s (listReadEnd i how s) := by
  unfold listReadEnd
  split
  · exact .congr rfl
  · split
    · dsimp only
      split
      · exact .congr rfl
      · split
        · exact .congr rfl
        · split
          · exact .ofFinish fun hs => by rw [endListing_engine]; exact hs
          · exact .congr rfl
    · exact .congr rfl

theorem resultWriteEnd_stopJudged (i : Nat) (how : WriteEnd) (s : State) : StopJudged s (resultWriteEnd i how s) := by
  unfold resultWriteEnd
  split
  · exact .congr rfl
  · dsimp only
    split
    · exact .congr rfl
    · exact .ofFinish id

theorem ringWriteEnd_stopJudged (how : WriteEnd) (s : State) : StopJudged s (ringWriteEnd how s) := by
  unfold ringWriteEnd
  split
  · exact .congr rfl
  · split
    · exact .ofFinish id
    · split
      · refine .ofFinish fun hs => ?_
        have hposted : (ringPosted s).engine.state = .stopping := hs
        rw [sourceDone_engine (by rw [hposted]; decide)]
        exact hposted
      · exact .ofState (st := .halted) rfl (by decide) (by decide)

theorem settleEnd_stopJudged (c : ConvId) (s : State) : StopJudged s (settleEnd c s) := by
  unfold settleEnd
  split
  · rename_i hsettling
    exact .ofModConv c fun h => by rw [hsettling] at h; cases h
  · exact .congr rfl

theorem sampleEnd_stopJudged (c : ConvId) (outcome : SampleEnd) (s : State) : StopJudged s (sampleEnd c outcome s) := by
  unfold sampleEnd
  split
  · rename_i hsampling _
    exact .ofModConv c fun h => by rw [hsampling] at h; cases h
  · unfold sampleInCheck
    split
    · exact .ofFinish fun hs => (concludeCheck_engineState (by rw [hs]; decide) c _).trans hs
    · exact .ofModConv c id
  · exact .congr rfl

theorem dischargeEnd_stopJudged (c : ConvId) (s : State) : StopJudged s (dischargeEnd c s) := by
  unfold dischargeEnd
  split
  · rename_i j _ _
    exact .ofFinishJobEnd j fun hs => by rw [releaseConverter_engine, (handOver_ownerTold j s).engine]; exact hs
  · exact .congr rfl

theorem faultEvent_stopJudged (c : ConvId) (s : State) : StopJudged s (faultEvent c s) := by
  have hjob : ∀ j, StopJudged s (finish (faultJob c j s)) := fun j =>
    .ofFinish fun hs => by rw [faultJob_engine]; exact hs
  unfold faultEvent
  split
  · exact hjob _
  · exact hjob _
  · exact hjob _
  · exact .ofFinish fun hs => (checkFail_engineState (by rw [hs]; decide) c _ _).trans hs
  · exact .congr rfl

theorem faultDischargeEnd_stopJudged (c : ConvId) (s : State) : StopJudged s (faultDischargeEnd c s) := by
  unfold faultDischargeEnd
  split
  · exact .congr rfl
  · dsimp only
    split
    · exact .ofFinish fun hs => by rw [(faultEnd_ownerTold _ _).engine]; exact hs
    · exact .congr rfl

theorem overrunRound_engine (s : State) : (overrunRound s).engine = s.engine := by
  unfold overrunRound
  dsimp only
  split
  · rfl
  · exact raise_engine _ _

theorem periodExpiry_stopJudged (s : State) : StopJudged s (periodExpiry s) := by
  unfold periodExpiry
  split
  · exact .congr rfl
  · refine .ofFinish fun hs => ?_
    split
    · exact (congrArg Engine.state (overrunRound_engine s)).trans hs
    · exact hs

theorem coalescingExpiry_stopJudged (s : State) : StopJudged s (coalescingExpiry s) := by
  unfold coalescingExpiry
  split <;> exact .congr rfl

theorem commandEffect_stopJudged {i : Instr} (h : ¬CommandEndsSession i) (s : State) : StopJudged s (commandEffect i s) := by
  cases i with
  | deviceReset => exact absurd trivial h
  | start => exact startCommand_stopJudged s
  | stopDrain => exact stopDrainCommand_stopJudged s
  | stopCut => exact stopCutCommand_stopJudged s
  | clear => exact absurd trivial h
  | commandRefused word => exact engineCommandWrite_stopJudged h s
  | submitIndex word => exact submitWrite_stopJudged word s
  | releaseIndex word => exact releaseWrite_stopJudged word s
  | interruptControl word => exact .congr rfl
  | registerWrite offset word => exact windowWrite_stopJudged h s
  | setupReadEnd k how => exact setupReadEnd_stopJudged k how s
  | fetchReadEnd how => exact fetchReadEnd_stopJudged how s
  | listReadEnd k how => exact listReadEnd_stopJudged k how s
  | resultWriteEnd k how => exact resultWriteEnd_stopJudged k how s
  | completionRingWriteEnd how => exact ringWriteEnd_stopJudged how s
  | settleEnd c => exact settleEnd_stopJudged c s
  | sampleEnd c outcome => exact sampleEnd_stopJudged c outcome s
  | dischargeEnd c => exact dischargeEnd_stopJudged c s
  | faultEvent c => exact faultEvent_stopJudged c s
  | faultDischargeEnd c => exact faultDischargeEnd_stopJudged c s
  | clearDischargeEnd c => exact .congr rfl
  | periodTimerExpiry => exact periodExpiry_stopJudged s
  | coalescingTimerExpiry => exact coalescingExpiry_stopJudged s

/-- Settles O58: a command that does not end the session at once leaves the stop to its judgment. -/
theorem stopEndsExactly : Obligations.StopEndsExactly := by
  refine ⟨fun s t hopen hstep => ?_, fun i s t hwf hclear hreset hs hexec hoff => ?_⟩
  · rcases step_cases hstep with rfl | ⟨i, rest, _, rfl⟩
    · exact hopen
    · by_cases hi : CommandEndsSession i
      · intro hstopping
        cases (commandEffect_endsSession hi _).symm.trans hstopping
      · exact (commandEffect_stopJudged hi { s with pending := rest }).stays hopen
  · rw [exec_eq] at hexec
    cases hexec
    exact (commandEffect_stopJudged (not_commandEndsSession hwf hclear hreset) s).ends hs hoff

end Sys2Proof.Machine
end

section
/-! SUPPORT. HaltedStartsNothing: in HALTED no operation issues a transaction, takes a context, dispatches a job, starts a check or
grants a claim, and none leaves HALTED but a CLEAR and a device reset. -/

namespace Sys2Proof.Machine

variable {o s t : State}

/-- `s` is `o` after what an event does in HALTED: nothing has started (R183). -/
structure NothingStarted (o s : State) : Prop where
  halted : s.engine.state = .halted
  fetchRead : s.fetchRead = o.fetchRead ∨ s.fetchRead = none
  ringWrite : s.ringWrite = o.ringWrite ∨ s.ringWrite = none
  resultWrites : s.resultWrites.length ≤ o.resultWrites.length
  setupReads : s.setupReads.length ≤ o.setupReads.length
  nextAdmission : s.nextAdmission = o.nextAdmission
  contextFree : ∀ k : CtxId, o.contexts[k] = none → s.contexts[k] = none
  job : ∀ (v : ConvId) (j : Job), s.converters[v].job = some j → ∃ i, o.converters[v].job = some i ∧ i.owner = j.owner
  claim : ∀ (ch : Chan) (h : Holder), s.channels[ch].holder = some h → o.channels[ch].holder = some h

namespace NothingStarted

theorem ofHalted (h : s.engine.state = .halted) : NothingStarted s s :=
  ⟨h, .inl rfl, .inl rfl, le_rfl, le_rfl, rfl, fun _ h => h, fun _ j h => ⟨j, h, rfl⟩, fun _ _ h => h⟩

theorem trans (h : NothingStarted o s) (g : NothingStarted s t) : NothingStarted o t where
  halted := g.halted
  fetchRead := g.fetchRead.elim (fun e => e ▸ h.fetchRead) .inr
  ringWrite := g.ringWrite.elim (fun e => e ▸ h.ringWrite) .inr
  resultWrites := g.resultWrites.trans h.resultWrites
  setupReads := g.setupReads.trans h.setupReads
  nextAdmission := g.nextAdmission.trans h.nextAdmission
  contextFree k hk := g.contextFree k (h.contextFree k hk)
  job v j hj := by
    obtain ⟨i, hi, hij⟩ := g.job v j hj
    obtain ⟨l, hl, hli⟩ := h.job v i hi
    exact ⟨l, hl, hli.trans hij⟩
  claim ch x hx := h.claim ch x (g.claim ch x hx)

/-- An operation that writes none of the tables named. -/
theorem congr (h : NothingStarted o s)
    (ht : (t.engine.state, t.fetchRead, t.ringWrite, t.resultWrites, t.setupReads, t.nextAdmission, t.contexts, t.converters,
        t.channels)
      = (s.engine.state, s.fetchRead, s.ringWrite, s.resultWrites, s.setupReads, s.nextAdmission, s.contexts, s.converters,
        s.channels)) : NothingStarted o t := by
  simp only [Prod.mk.injEq] at ht
  obtain ⟨he, hf, hw, hr, hu, hn, hk, hv, hc⟩ := ht
  constructor <;> simp only [he, hf, hw, hr, hu, hn, hk, hv, hc]
  exacts [h.halted, h.fetchRead, h.ringWrite, h.resultWrites, h.setupReads, h.nextAdmission, h.contextFree, h.job, h.claim]

theorem modCtx (h : NothingStarted o s) (k : CtxId) (f : Context → Context) : NothingStarted o (s.modCtx k f) := by
  refine h.trans { ofHalted h.halted with contextFree := fun l hl => ?_ }
  rw [modCtx_get]
  split
  · subst l
    rw [hl]
    rfl
  · exact hl

theorem modConv (h : NothingStarted o s) (c : ConvId) {f : Converter → Converter}
    (hf : ∀ j, (f s.converters[c]).job = some j → ∃ i, s.converters[c].job = some i ∧ i.owner = j.owner) :
    NothingStarted o (s.modConv c f) := by
  refine h.trans { ofHalted h.halted with job := fun v j hj => ?_ }
  rw [modConv_get] at hj
  split at hj
  · subst v
    exact hf j hj
  · exact ⟨j, hj, rfl⟩

/-- A change of one converter's record that gives it no job. -/
theorem keepsJob (h : NothingStarted o s) (c : ConvId) {f : Converter → Converter} (hf : ∀ v, (f v).job = v.job) :
    NothingStarted o (s.modConv c f) :=
  h.modConv c fun j hj => ⟨j, (hf _).symm.trans hj, rfl⟩

theorem modChan (h : NothingStarted o s) (ch : Chan) {f : Channel → Channel}
    (hf : ∀ (e : Channel) (x : Holder), (f e).holder = some x → e.holder = some x) : NothingStarted o (s.modChan ch f) := by
  refine h.trans { ofHalted h.halted with claim := fun d x hx => ?_ }
  rw [modChan_get] at hx
  split at hx
  · subst d
    exact hf _ x hx
  · exact hx

theorem releaseClaims (h : NothingStarted o s) (k : CtxId) : NothingStarted o (releaseClaims k s) := by
  refine h.trans { ofHalted h.halted with claim := fun ch x hx => ?_ }
  rw [releaseClaims_get] at hx
  split at hx
  · cases hx
  · exact hx

/-- R183: in HALTED the arbiters grant, dispatch and issue nothing. -/
theorem arbitrated (h : NothingStarted o s) (a : Arbitrated s t) : NothingStarted o t := by
  have hruns : arbitersRun s = false := by simp [arbitersRun, h.halted]
  have hstate := a.state_eq (s := s) (by rw [h.halted]; decide)
  obtain ⟨hfetch, -⟩ := a.notRunning (by rw [h.halted]; decide)
  obtain ⟨hring, hresult⟩ := a.halted h.halted
  obtain ⟨hconv, hclaim⟩ := a.noGrant hruns
  refine h.trans
    { halted := hstate.symm.trans h.halted
      fetchRead := .inl hfetch
      ringWrite := .inl hring
      resultWrites := by rw [hresult]
      setupReads := by rw [a.setupReads]
      nextAdmission := a.nextAdmission
      contextFree := a.contextFree
      job := fun v j hj => ⟨j, ?_, rfl⟩
      claim := hclaim }
  rwa [hconv] at hj

theorem finish (h : NothingStarted o s) : NothingStarted o (finish s) := h.arbitrated (finish_arbitrated s)

theorem raise (h : NothingStarted o s) (r : Report) : NothingStarted o (raise r s) := h.congr (by rw [raise_same])

theorem completeContext (h : NothingStarted o s) (k : CtxId) (st : Status) (d : Detail) :
    NothingStarted o (completeContext k st d s) := h.modCtx k _

theorem completeEarly (h : NothingStarted o s) (k : CtxId) (e : EndCause × CtxState) :
    NothingStarted o (completeEarly k e s) := h.completeContext k _ _

/-- R78: in HALTED no result write is issued. -/
theorem enterWriting (h : NothingStarted o s) (k : CtxId) (st : Status) (d : Detail) (addr : Addr) (data : List Byte) :
    NothingStarted o (enterWriting k st d addr data s) := by
  rcases enterWriting_cases s k st d addr data with ⟨_, he⟩ | ⟨hn, _⟩
  · rw [he]
    exact h.modCtx k _
  · exact absurd h.halted hn

theorem changeConvState (h : NothingStarted o s) (c : ConvId) (st : ConvState) :
    NothingStarted o (changeConvState c st s) := by
  have hstate := h.keepsJob c (f := fun v => { v with state := st }) fun _ => rfl
  rcases changeConvState_cases s c st with he | he <;> rw [he]
  · exact hstate
  · exact hstate.raise _

theorem clearJob (h : NothingStarted o s) (c : ConvId) : NothingStarted o (clearJob c s) :=
  h.modConv c fun _ hj => by cases hj

end NothingStarted

open NothingStarted (ofHalted)

/-! ### The work of contexts (chapters 5 and 6) -/

theorem measureWorkEnd_nothing (k : CtxId) (h : NothingStarted o s) : NothingStarted o (measureWorkEnd k s) := by
  unfold measureWorkEnd
  split
  · exact h
  · split
    · split
      · split
        · exact (h.releaseClaims k).completeEarly k _
        · exact (h.releaseClaims k).enterWriting k _ _ _ _
      · exact h
    · exact h

theorem writeBaseline_nothing (item : Item) (written : Bool) (l : List Sample) (h : NothingStarted o s) :
    NothingStarted o (writeBaseline item written l s) := by
  unfold writeBaseline
  split
  · split
    · exact h.modChan _ fun _ _ hx => hx
    · exact h
  · exact h

theorem itemNormalEnd_nothing (k : CtxId) (i : Nat) (l : List Sample) (h : NothingStarted o s) :
    NothingStarted o (itemNormalEnd k i l s) := by
  unfold itemNormalEnd
  split
  · exact h
  · split
    · exact measureWorkEnd_nothing k ((writeBaseline_nothing _ _ _ h).modCtx k _)
    · exact h

theorem restoreTrim_nothing (ch : Chan) (q : Search) (h : NothingStarted o s) : NothingStarted o (restoreTrim ch q s) :=
  h.modChan ch fun _ _ hx => hx

theorem endSearch_nothing (k : CtxId) (c : Context) (b : TrimBody) (q : Search) (st : Status) (mean : Option Nat)
    (h : NothingStarted o s) : NothingStarted o (endSearch k c b q st mean s) := by
  have hsearch := h.modCtx k fun c => { c with search := some q }
  refine NothingStarted.enterWriting (NothingStarted.releaseClaims ?_ k) k st _ _ _
  unfold settleTrim
  split
  · exact hsearch.modChan b.chan fun _ _ hx => hx
  · exact restoreTrim_nothing b.chan q hsearch

theorem trialNormalEnd_nothing (k : CtxId) (l : List Sample) (h : NothingStarted o s) :
    NothingStarted o (trialNormalEnd k l s) := by
  unfold trialNormalEnd
  split
  · exact h
  · dsimp only
    split
    · exact endSearch_nothing k _ _ _ _ _ h
    · split
      · exact (h.modCtx k _).modChan _ fun _ _ hx => hx
      · split <;> exact endSearch_nothing k _ _ _ _ _ h

theorem trialFaultEnd_nothing (k : CtxId) (h : NothingStarted o s) : NothingStarted o (trialFaultEnd k s) := by
  unfold trialFaultEnd
  split
  · exact h
  · split
    · exact endSearch_nothing k _ _ _ _ _ h
    · exact h.modCtx k _

theorem trimEarlyEnd_nothing (k : CtxId) (h : NothingStarted o s) : NothingStarted o (trimEarlyEnd k s) := by
  unfold trimEarlyEnd
  split
  · exact h
  · split
    · exact ((restoreTrim_nothing _ _ (h.modCtx k _)).releaseClaims k).completeEarly k _
    · exact h

/-! ### The end of a watch job (R132) -/

theorem endRunning_nothing (w : RunningWatch) (h : NothingStarted o s) : NothingStarted o (endRunning w s) := by
  refine (h.modChan w.ch (f := fun e => if e.holder = some .watchUnit then { e with holder := none } else e)
    fun e x hx => ?_).congr rfl
  split at hx
  · cases hx
  · exact hx

theorem watchNormalEnd_nothing (id : WatchId) (j : Job) (h : NothingStarted o s) :
    NothingStarted o (watchNormalEnd id j s) := by
  unfold watchNormalEnd
  split
  · exact h
  · split
    · refine endRunning_nothing _ ?_
      rename_i w _ _ _ e _ _
      have hwritten : NothingStarted o (verdictWritten w j e s) := by
        refine NothingStarted.modChan ?_ w.ch fun _ _ hx => hx
        exact h.congr rfl
      cases hv : (w.verdict j e s).event with
      | none => rwa [applyVerdict_noEvent hv]
      | some kind =>
        rw [applyVerdict_event hv]
        exact hwritten.raise _
    · exact endRunning_nothing _ h

theorem watchFaultEnd_nothing (id : WatchId) (h : NothingStarted o s) : NothingStarted o (watchFaultEnd id s) := by
  unfold watchFaultEnd
  split
  · exact h
  · refine endRunning_nothing _ ?_
    split
    · exact h
    · exact h.congr rfl

/-! ### The end of a job (R8, R14, R15) -/

theorem handOver_nothing (j : Job) (h : NothingStarted o s) : NothingStarted o (handOver j s) := by
  unfold handOver
  split
  · exact itemNormalEnd_nothing _ _ _ h
  · exact measureWorkEnd_nothing _ (h.modCtx _ _)
  · exact trialNormalEnd_nothing _ _ h
  · exact trimEarlyEnd_nothing _ h
  · exact watchNormalEnd_nothing _ j h
  · exact h

theorem faultEnd_nothing (j : Job) (h : NothingStarted o s) : NothingStarted o (faultEnd j s) := by
  unfold faultEnd
  split
  · exact measureWorkEnd_nothing _ (h.modCtx _ _)
  · exact measureWorkEnd_nothing _ (h.modCtx _ _)
  · exact trialFaultEnd_nothing _ h
  · exact trimEarlyEnd_nothing _ h
  · exact watchFaultEnd_nothing _ h
  · exact h

/-! ### Checks and marks (chapter 1) -/

/-- R10: in HALTED a check mark starts no check. -/
theorem resolveMark_nothing (c : ConvId) (h : NothingStarted o s) : NothingStarted o (resolveMark c s) := by
  have hmark : NothingStarted o (clearMark c s) := h.keepsJob c fun _ => rfl
  unfold resolveMark
  split
  · exact h
  · split
    · exact (hmark.changeConvState c .held).completeContext _ _ _
    · split
      · exact h
      · exact absurd h.halted ‹_›

theorem handCheckResult_nothing (c : ConvId) (w : CheckOwner) (pass : Bool) (new : ConvState) (mean : Option Nat)
    (h : NothingStarted o s) : NothingStarted o (handCheckResult c w pass new mean s) := by
  unfold handCheckResult
  split
  · exact h.completeContext _ _ _
  · unfold startupCheckEnded
    dsimp only
    split
    · rename_i hloading
      cases h.halted.symm.trans hloading.1
    · exact h.congr rfl
  · exact h

theorem checkFail_nothing (c : ConvId) (cause : OfflineCause) (mean : Option Nat) (h : NothingStarted o s) :
    NothingStarted o (checkFail c cause mean s) :=
  resolveMark_nothing c (handCheckResult_nothing c _ _ _ _ (((h.raise _).changeConvState c _).clearJob c))

theorem concludeCheck_nothing (c : ConvId) (l : List Sample) (h : NothingStarted o s) :
    NothingStarted o (concludeCheck c l s) := by
  have hidle : NothingStarted o (clearJob c (s.modConv c fun v => { v with state := .idle })) :=
    (h.keepsJob c (f := fun v => { v with state := .idle }) fun _ => rfl).clearJob c
  unfold concludeCheck
  dsimp only
  split
  · refine resolveMark_nothing c (handCheckResult_nothing c _ _ _ _ ?_)
    split
    · exact hidle.raise _
    · exact hidle.raise _
    · exact hidle
  · exact checkFail_nothing c _ _ h

theorem faultJob_nothing (c : ConvId) (j : Job) (h : NothingStarted o s) : NothingStarted o (faultJob c j s) :=
  resolveMark_nothing c ((((h.raise _).changeConvState c _).clearJob c).congr rfl)

/-! ### The commands in HALTED -/

theorem engineCommandWrite_nothing {word : Reg} (hcode : commandCode word ≠ 4) (h : s.engine.state = .halted) :
    NothingStarted s (engineCommandWrite word s) := by
  unfold engineCommandWrite startCommand stopDrainCommand stopCutCommand
  simp only [h]
  split
  · exact (ofHalted h).congr rfl
  · exact (ofHalted h).congr rfl
  · exact (ofHalted h).congr rfl
  · exact absurd ‹_› hcode
  · exact (ofHalted h).congr rfl

theorem submitWrite_nothing (word : Reg) (h : s.engine.state = .halted) : NothingStarted s (submitWrite word s) := by
  rw [submitWrite_refused rfl (.inl (by rw [h]; decide))]
  exact (ofHalted h).congr rfl

theorem releaseWrite_nothing (word : Reg) (h : s.engine.state = .halted) : NothingStarted s (releaseWrite word s) := by
  unfold releaseWrite
  dsimp only
  split
  · exact (ofHalted h).congr rfl
  · exact .finish ((ofHalted h).congr rfl)

theorem windowWrite_nothing {offset word : Reg} (hclear : ¬(offset = 0x00#32 ∧ commandCode word = 4))
    (h : s.engine.state = .halted) : NothingStarted s (windowWrite offset word s) := by
  unfold windowWrite
  split
  · exact (ofHalted h).congr rfl
  · split
    · exact engineCommandWrite_nothing (fun hcode => hclear ⟨‹_›, hcode⟩) h
    · split
      · exact submitWrite_nothing word h
      · split
        · exact releaseWrite_nothing word h
        · split
          · exact (ofHalted h).congr rfl
          · exact ofHalted h

theorem setupReadEnd_nothing (k : Nat) (how : ReadEnd) (h : s.engine.state = .halted) :
    NothingStarted s (setupReadEnd k how s) := by
  have hread : NothingStarted s { s with setupReads := s.setupReads.eraseIdx k } :=
    { ofHalted h with setupReads := List.length_eraseIdx_le _ _ }
  unfold setupReadEnd
  split
  · exact ofHalted h
  · split
    · rw [if_pos (.inr (by rw [h]; decide))]
      exact hread
    · exact ofHalted h

theorem fetchReadEnd_nothing (how : ReadEnd) (h : s.engine.state = .halted) : NothingStarted s (fetchReadEnd how s) := by
  have hover : ∀ r, NothingStarted s (fetchOver r s) := fun r => by
    rw [fetchOver_eq]
    split <;> exact { ofHalted h with fetchRead := .inr rfl }
  unfold fetchReadEnd
  split
  · exact ofHalted h
  · split
    · rw [if_neg fun ⟨_, hrun, _⟩ => by rw [h] at hrun; cases hrun]
      exact (hover _).finish
    · exact ofHalted h

theorem endListing_nothing (k : CtxId) (b : MeasureBody) (how : ReadEnd) (h : NothingStarted o s) :
    NothingStarted o (endListing k b how s) := by
  unfold endListing
  split
  · exact h.completeContext k _ _
  · split
    · exact h.completeContext k _ _
    · exact h.modCtx k _

theorem listReadEnd_nothing (i : Nat) (how : ReadEnd) (h : s.engine.state = .halted) :
    NothingStarted s (listReadEnd i how s) := by
  have hread : NothingStarted s { s with listReads := s.listReads.eraseIdx i } := (ofHalted h).congr rfl
  unfold listReadEnd
  split
  · exact ofHalted h
  · split
    · dsimp only
      split
      · exact hread
      · split
        · exact hread
        · split
          · exact (endListing_nothing _ _ how hread).finish
          · exact hread
    · exact ofHalted h

theorem resultWriteEnd_nothing (i : Nat) (how : WriteEnd) (h : s.engine.state = .halted) :
    NothingStarted s (resultWriteEnd i how s) := by
  have hwrite : NothingStarted s { s with resultWrites := s.resultWrites.eraseIdx i } :=
    { ofHalted h with resultWrites := List.length_eraseIdx_le _ _ }
  unfold resultWriteEnd
  split
  · exact ofHalted h
  · dsimp only
    split
    · exact hwrite
    · exact (hwrite.modCtx _ _).finish

/-- R70, R79: in HALTED a posted context becomes FREE, and no held record follows. -/
theorem sourceDone_nothing (w : RingWrite) (h : NothingStarted o s) : NothingStarted o (sourceDone w s) := by
  cases hsource : w.source with
  | report =>
    rw [sourceDone_report hsource]
    exact h.congr rfl
  | context k =>
    have hunposted : NothingStarted o (unposted k s) := h.congr rfl
    rw [show sourceDone w s = freeContext k (unposted k s) by simp only [sourceDone, hsource, unposted]]
    cases hk : (unposted k s).contexts[k] with
    | none =>
      simp only [freeContext, hk]
      exact hunposted
    | some c =>
      rw [freeContext_waits hk (by rw [hunposted.halted]; decide)]
      refine hunposted.trans { ofHalted hunposted.halted with contextFree := fun l hl => ?_ }
      rw [contextReleased_get, hl, ite_self]

theorem ringWriteEnd_nothing (how : WriteEnd) (h : s.engine.state = .halted) : NothingStarted s (ringWriteEnd how s) := by
  unfold ringWriteEnd
  split
  · exact ofHalted h
  · split
    · exact NothingStarted.finish { ofHalted h with ringWrite := .inr rfl }
    · split
      · refine (sourceDone_nothing _ ?_).finish
        exact { ofHalted h with ringWrite := .inr rfl }
      · exact { ofHalted h with halted := rfl, ringWrite := .inr rfl }

theorem settleEnd_nothing (c : ConvId) (h : s.engine.state = .halted) : NothingStarted s (settleEnd c s) := by
  unfold settleEnd
  split
  · exact (ofHalted h).keepsJob c fun _ => rfl
  · exact ofHalted h

/-- R7: a sample goes to the job that runs. -/
theorem sampleEnd_nothing (c : ConvId) (outcome : SampleEnd) (h : s.engine.state = .halted) :
    NothingStarted s (sampleEnd c outcome s) := by
  unfold sampleEnd
  split
  · rename_i j _ hj
    exact (ofHalted h).modConv c fun i hi => by cases hi; exact ⟨j, hj, rfl⟩
  · rename_i j _ hj
    unfold sampleInCheck
    split
    · exact (concludeCheck_nothing c _ (ofHalted h)).finish
    · exact (ofHalted h).modConv c fun i hi => by cases hi; exact ⟨j, hj, rfl⟩
  · exact ofHalted h

theorem dischargeEnd_nothing (c : ConvId) (h : s.engine.state = .halted) : NothingStarted s (dischargeEnd c s) := by
  unfold dischargeEnd
  split
  · rename_i j _ _
    refine NothingStarted.arbitrated ?_ (finishJobEnd_arbitrated j _)
    exact resolveMark_nothing c ((handOver_nothing j (ofHalted h)).modConv c fun _ hi => by cases hi)
  · exact ofHalted h

theorem faultEvent_nothing (c : ConvId) (h : s.engine.state = .halted) : NothingStarted s (faultEvent c s) := by
  unfold faultEvent
  split
  · exact (faultJob_nothing c _ (ofHalted h)).finish
  · exact (faultJob_nothing c _ (ofHalted h)).finish
  · exact (faultJob_nothing c _ (ofHalted h)).finish
  · exact (checkFail_nothing c _ _ (ofHalted h)).finish
  · exact ofHalted h

theorem faultDischargeEnd_nothing (c : ConvId) (h : s.engine.state = .halted) :
    NothingStarted s (faultDischargeEnd c s) := by
  have hover : NothingStarted s { s with faultDischarges := s.faultDischarges.eraseP fun d => d.conv == c } :=
    (ofHalted h).congr rfl
  unfold faultDischargeEnd
  split
  · exact ofHalted h
  · dsimp only
    split
    · exact (faultEnd_nothing _ hover).finish
    · exact hover

theorem modWatch_nothing (f : WatchUnit → WatchUnit) (h : NothingStarted o s) : NothingStarted o (s.modWatch f) :=
  h.congr rfl

theorem periodExpiry_nothing (h : s.engine.state = .halted) : NothingStarted s (periodExpiry s) := by
  unfold periodExpiry
  split
  · exact ofHalted h
  · refine (modWatch_nothing _ ?_).finish
    split
    · unfold overrunRound
      dsimp only
      split
      · exact modWatch_nothing _ (ofHalted h)
      · exact (modWatch_nothing _ (ofHalted h)).raise _
    · exact modWatch_nothing _ (ofHalted h)

theorem coalescingExpiry_nothing (h : s.engine.state = .halted) : NothingStarted s (coalescingExpiry s) := by
  unfold coalescingExpiry
  split
  · exact ofHalted h
  · exact (ofHalted h).congr rfl

theorem commandEffect_nothing {i : Instr} (hi : ¬CommandEndsSession i) (h : s.engine.state = .halted) :
    NothingStarted s (commandEffect i s) := by
  cases i with
  | deviceReset => exact absurd trivial hi
  | start => exact engineCommandWrite_nothing (word := 1) (by decide) h
  | stopDrain => exact engineCommandWrite_nothing (word := 2) (by decide) h
  | stopCut => exact engineCommandWrite_nothing (word := 3) (by decide) h
  | clear => exact absurd trivial hi
  | commandRefused word => exact engineCommandWrite_nothing hi h
  | submitIndex word => exact submitWrite_nothing word h
  | releaseIndex word => exact releaseWrite_nothing word h
  | interruptControl word => exact (ofHalted h).congr rfl
  | registerWrite offset word => exact windowWrite_nothing hi h
  | setupReadEnd k how => exact setupReadEnd_nothing k how h
  | fetchReadEnd how => exact fetchReadEnd_nothing how h
  | listReadEnd k how => exact listReadEnd_nothing k how h
  | resultWriteEnd k how => exact resultWriteEnd_nothing k how h
  | completionRingWriteEnd how => exact ringWriteEnd_nothing how h
  | settleEnd c => exact settleEnd_nothing c h
  | sampleEnd c outcome => exact sampleEnd_nothing c outcome h
  | dischargeEnd c => exact dischargeEnd_nothing c h
  | faultEvent c => exact faultEvent_nothing c h
  | faultDischargeEnd c => exact faultDischargeEnd_nothing c h
  | clearDischargeEnd c => exact (ofHalted h).congr rfl
  | periodTimerExpiry => exact periodExpiry_nothing h
  | coalescingTimerExpiry => exact coalescingExpiry_nothing h

/-- Settles O59. -/
theorem haltedStartsNothing : Obligations.HaltedStartsNothing := by
  intro i s t hwf hclear hreset hs hexec
  rw [exec_eq] at hexec
  cases hexec
  have h := commandEffect_nothing (not_commandEndsSession hwf hclear hreset) hs
  exact ⟨h.halted, h.fetchRead, h.ringWrite, h.resultWrites, h.setupReads, h.nextAdmission, h.contextFree, h.job, h.claim⟩

end Sys2Proof.Machine
end

section
/-! SUPPORT. EngineStatusFields and InterruptControlRegister: the fields of the two register words as the device shows them (R186,
R187, R192), the write of Interrupt Control, and the INT_N line. -/

namespace Sys2Proof.Machine

variable {s : State}

/-! ### Bits of a register word -/

theorem getLsbD_eq_bit (word : Reg) (i : Nat) : word.getLsbD i = bit word.toNat i := by
  rw [← BitVec.testBit_toNat, Nat.testBit_eq_decide_div_mod_eq, bit, Bool.beq_eq_decide_eq]

/-- A bit that shows a condition of the state. -/
theorem bit_eq_of_flag {n i : Nat} {b : Bool} (h : n / 2 ^ i % 2 = flag b) : bit n i = b := by
  rw [bit, h]
  cases b <;> rfl

/-- Four conditions of the state as a field of four bits. -/
def nibble (f : Fin 4 → Bool) : Nat := flag (f 0) + flag (f 1) * 2 + flag (f 2) * 4 + flag (f 3) * 8

theorem nibble_lt (f : Fin 4 → Bool) : nibble f < 16 := by
  have h := fun c => flag_le_one (f c)
  have h0 := h 0
  have h1 := h 1
  have h2 := h 2
  have h3 := h 3
  unfold nibble
  omega

/-- A bit of the field, whatever stands above it. -/
theorem nibble_bit (f : Fin 4 → Bool) (above : Nat) (c : Fin 4) :
    (nibble f + 16 * above) / 2 ^ c.val % 2 = flag (f c) := by
  have h := fun c => flag_le_one (f c)
  have h0 := h 0
  have h1 := h 1
  have h2 := h 2
  have h3 := h 3
  unfold nibble
  match c with
  | 0 => show _ / 1 % 2 = _; omega
  | 1 => show _ / 2 % 2 = _; omega
  | 2 => show _ / 4 % 2 = _; omega
  | 3 => show _ / 8 % 2 = _; omega

theorem sum_flags (f : Fin 4 → Bool) (n : Nat) :
    (([0, 1, 2, 3] : List (Fin 4)).map fun c => flag (f c) * 2 ^ (n + c.val)).sum = nibble f * 2 ^ n := by
  show flag (f 0) * 2 ^ n + (flag (f 1) * 2 ^ (n + 1) + (flag (f 2) * 2 ^ (n + 2) + flag (f 3) * 2 ^ (n + 3))) = _
  unfold nibble
  ring

/-! ### Engine Status (R186) -/

theorem EngineState.code_lt (e : EngineState) : e.code < 8 := by cases e <;> decide
theorem StopMode.code_lt (m : StopMode) : m.code < 4 := by cases m <;> decide
theorem LastError.code_lt (e : LastError) : e.code < 16 := by cases e <;> decide

theorem onlineCount_lt (s : State) : onlineCount s < 8 := Nat.lt_of_le_of_lt List.countP_le_length (by decide)

theorem onlineCount_eq (s : State) : onlineCount s = (List.finRange 4).countP fun c =>
    decide (s.converters[c].state ≠ .offline ∧ s.converters[c].state ≠ .held) := by
  have honline : ∀ st : ConvState, st.online = decide (st ≠ .offline ∧ st ≠ .held) := by
    intro st
    cases st <;> decide
  simp only [onlineCount, honline]
  rfl

/-- The HELD bits of Engine Status. -/
def heldBits (s : State) : Nat := nibble fun c => s.converters[c].state == .held

/-- The queue fault bits of Engine Status. -/
def faultedBits (s : State) : Nat := nibble fun q => (s.queues[q]).state == .faulted

/-- R186, 11.6: the fields of Engine Status at their weights. -/
theorem engineStatus_toNat (s : State) : (engineStatus s).toNat =
    s.engine.state.code + s.engine.stopMode.code * 2 ^ 3 + s.engine.lastError.code * 2 ^ 8
      + s.engine.reasonCode % 16 * 2 ^ 12 + s.engine.reasonIndex % 4 * 2 ^ 16 + onlineCount s * 2 ^ 18
      + heldBits s * 2 ^ 24 + faultedBits s * 2 ^ 28 := by
  have hstate := s.engine.state.code_lt
  have hmode := s.engine.stopMode.code_lt
  have herror := s.engine.lastError.code_lt
  have honline := onlineCount_lt s
  have hheld : heldBits s < 16 := nibble_lt _
  have hfaulted : faultedBits s < 16 := nibble_lt _
  rw [engineStatus, allConverters, allQueues, sum_flags, sum_flags, ← heldBits, ← faultedBits]
  refine (BitVec.toNat_ofNat _ _).trans (Nat.mod_eq_of_lt ?_)
  omega

/-- Settles O4: the value of the register is the sum of its fields, each below the weight of the next. -/
theorem engineStatusFields : Obligations.EngineStatusFields := by
  intro s r
  have hr : r.toNat = _ := engineStatus_toNat s
  have hstate := s.engine.state.code_lt
  have hmode := s.engine.stopMode.code_lt
  have herror := s.engine.lastError.code_lt
  have honline := onlineCount_lt s
  have hheld : heldBits s < 16 := nibble_lt _
  have hfaulted : faultedBits s < 16 := nibble_lt _
  have hfield : ∀ low width, (r.extractLsb' low width).toNat = r.toNat / 2 ^ low % 2 ^ width :=
    extractLsb'_toNat_eq_bits r
  have hheldAt : r.toNat / 2 ^ 24 = heldBits s + 16 * faultedBits s := by omega
  have hfaultedAt : r.toNat / 2 ^ 28 = faultedBits s + 16 * 0 := by omega
  refine ⟨?_, ?_, ?_, ?_, ?_, ?_, ?_, ?_, fun c => ?_, fun q => ?_⟩
  · refine Eq.trans (b := s.engine.state.code) ?_ (by cases s.engine.state <;> rfl)
    rw [hfield]
    omega
  · refine Eq.trans (b := s.engine.stopMode.code) ?_ (by cases s.engine.stopMode <;> rfl)
    rw [hfield]
    omega
  · rw [hfield]
    omega
  · refine Eq.trans (b := s.engine.lastError.code) ?_ (by cases s.engine.lastError <;> rfl)
    rw [hfield]
    omega
  · rw [hfield]
    omega
  · rw [hfield]
    omega
  · rw [hfield, ← onlineCount_eq]
    omega
  · rw [hfield]
    omega
  · rw [getLsbD_eq_bit, ← Bool.beq_eq_decide_eq]
    refine bit_eq_of_flag ?_
    rw [pow_add, ← Nat.div_div_eq_div_mul, hheldAt]
    exact nibble_bit _ _ c
  · rw [getLsbD_eq_bit, ← Bool.beq_eq_decide_eq]
    refine bit_eq_of_flag ?_
    rw [pow_add, ← Nat.div_div_eq_div_mul, hfaultedAt]
    exact nibble_bit _ _ q

/-! ### Interrupt Control (R187) -/

theorem interruptFlags_le_one (s : State) :
    flag s.interrupt.enCompletion ≤ 1 ∧ flag s.interrupt.enHalt ≤ 1 ∧ flag s.interrupt.enSetupFailed ≤ 1
      ∧ flag s.interrupt.enStopped ≤ 1 ∧ flag s.interrupt.late ≤ 1 ∧ flag (completionCause s) ≤ 1
      ∧ flag s.interrupt.stickyHalt ≤ 1 ∧ flag s.interrupt.stickySetupFailed ≤ 1 ∧ flag s.interrupt.stickyStopped ≤ 1 := by
  simp only [flag_le_one, and_self]

/-- R187, 11.6: the fields of Interrupt Control as read, at their weights. -/
theorem interruptControlRead_toNat (s : State) : (interruptControlRead s).toNat =
    flag s.interrupt.enCompletion + flag s.interrupt.enHalt * 2 ^ 1 + flag s.interrupt.enSetupFailed * 2 ^ 2
      + flag s.interrupt.enStopped * 2 ^ 3 + s.interrupt.threshold % 256 * 2 ^ 8 + s.interrupt.timerSetting % 256 * 2 ^ 16
      + flag s.interrupt.late * 2 ^ 24 + flag (completionCause s) * 2 ^ 25 + flag s.interrupt.stickyHalt * 2 ^ 28
      + flag s.interrupt.stickySetupFailed * 2 ^ 29 + flag s.interrupt.stickyStopped * 2 ^ 30 := by
  obtain ⟨h0, h1, h2, h3, h24, h25, h28, h29, h30⟩ := interruptFlags_le_one s
  refine (BitVec.toNat_ofNat _ _).trans (Nat.mod_eq_of_lt ?_)
  omega

/-- R189: the COMPLETION cause. -/
theorem completionCause_iff (s : State) : completionCause s = true ↔ s.ring.configured = true
    ∧ ((if s.interrupt.threshold = 0 then 1 else s.interrupt.threshold) ≤ s.ring.count ∨ s.interrupt.late = true) := by
  rw [completionCause, InterruptUnit.actingThreshold, Bool.and_eq_true, Bool.or_eq_true, decide_eq_true_iff]

/-- R187: the enables, the threshold and the timer setting take the values written; ones clear the sticky causes. -/
theorem interruptUnit_write (word : Reg) (u : InterruptUnit) : u.write word =
    let setting := (word.extractLsb' 16 8).toNat
    { enCompletion := word.getLsbD 0, enHalt := word.getLsbD 1, enSetupFailed := word.getLsbD 2
      enStopped := word.getLsbD 3, threshold := (word.extractLsb' 8 8).toNat, timerSetting := setting
      timer := if setting = 0 then none else u.timer
      late := u.late
      stickyHalt := u.stickyHalt && !word.getLsbD 28
      stickySetupFailed := u.stickySetupFailed && !word.getLsbD 29
      stickyStopped := u.stickyStopped && !word.getLsbD 30 } := by
  simp only [InterruptUnit.write, getLsbD_eq_bit, extractLsb'_toNat_eq_bits]

/-- Settles O5: the write, the value read as the sum of its fields, and the four causes of INT_N. -/
theorem interruptControlRegister : Obligations.InterruptControlRegister := by
  intro s word setting completion r
  have hr : r.toNat = _ := interruptControlRead_toNat s
  obtain ⟨h0, h1, h2, h3, h24, h25, h28, h29, h30⟩ := interruptFlags_le_one s
  have hcause : completionCause s = true ↔ completion := completionCause_iff s
  have hfield : ∀ low width, (r.extractLsb' low width).toNat = r.toNat / 2 ^ low % 2 ^ width :=
    extractLsb'_toNat_eq_bits r
  have hbit : ∀ {i : Nat} {b : Bool}, r.toNat / 2 ^ i % 2 = flag b → r.getLsbD i = b := fun h => by
    rw [getLsbD_eq_bit]
    exact bit_eq_of_flag h
  refine ⟨?_, ⟨hbit ?_, hbit ?_, hbit ?_, hbit ?_, ?_, ?_, ?_, hbit ?_, ?_, ?_, hbit ?_, hbit ?_, hbit ?_, hbit ?_⟩, ?_⟩
  · refine (exec_eq _ s).trans (congrArg _ ?_)
    exact congrArg (fun u => { s with interrupt := u }) (interruptUnit_write word s.interrupt)
  · omega
  · omega
  · omega
  · omega
  · rw [hfield]
    omega
  · rw [hfield]
    omega
  · rw [hfield]
    omega
  · omega
  · rw [← hcause, show r.getLsbD 25 = completionCause s from hbit (by omega)]
  · rw [hfield]
    omega
  · omega
  · omega
  · omega
  · show _ = 0
    omega
  · rw [← hcause]
    simp [intNLow, and_comm, or_assoc]

end Sys2Proof.Machine
end

section
/-! SUPPORT. DeviceResetValues, SetupAddressRegister and ResetIsSound: the state of a device reset, table by table, and the register of
the setup address (R173, R185, R192). -/

namespace Sys2Proof.Machine

variable {s : State}

/-! ### The tables after a device reset (R173) -/

theorem deviceReset_channel (s : State) (ch : Chan) : (deviceReset s).channels[ch] = Channel.atReset := by
  simp [deviceReset, State.reset]

theorem deviceReset_profile (s : State) (p : ProfileIx) : (deviceReset s).profiles[p] = Profile.atReset := by
  simp [deviceReset, State.reset]

theorem deviceReset_hopSet (s : State) (h : HopIx) : (deviceReset s).hopSets[h] = [0] := by
  simp [deviceReset, State.reset]

theorem deviceReset_converter (s : State) (c : ConvId) : (deviceReset s).converters[c] = Converter.atReset := by
  simp [deviceReset, State.reset]

theorem deviceReset_context (s : State) (k : CtxId) : (deviceReset s).contexts[k] = none := by
  simp [deviceReset, State.reset]

theorem deviceReset_queue (s : State) (q : QueueId) : (deviceReset s).queues[q] = Queue.unconfigured := by
  simp [deviceReset, State.reset]

/-- R17, R36: after a device reset nothing is connected or discharges, and every pin is parked GROUND. -/
theorem deviceReset_pin (s : State) (ch : Chan) : pin (deviceReset s) ch = .drivenLow := by
  have hconnected : ∀ c : ConvId, (deviceReset s).converters[c].holdsChannel ch = false := fun c => by
    rw [deviceReset_converter]
    rfl
  have hfind : allConverters.find? (fun c => (deviceReset s).converters[c].holdsChannel ch) = none := by
    simp only [hconnected, List.find?_eq_none]
    simp
  have hpark : (deviceReset s).channels[ch].park = .ground := by rw [deviceReset_channel]; rfl
  unfold pin
  simp only [hfind, hpark]
  rfl

/-- R192: the registers after a device reset. -/
theorem deviceReset_registers (s : State) :
    readRegister 0x00#32 (deviceReset s) = 0 ∧ readRegister 0x04#32 (deviceReset s) = 0
      ∧ readRegister 0x08#32 (deviceReset s) = 0 ∧ readRegister 0x0C#32 (deviceReset s) = 0
      ∧ readRegister 0x10#32 (deviceReset s) = 0 ∧ readRegister 0x14#32 (deviceReset s) = 0x100#32 := by
  refine ⟨rfl, ?_, rfl, rfl, rfl, ?_⟩
  · show engineStatus State.reset = 0
    decide
  · show interruptControlRead State.reset = 0x100#32
    decide

/-- Settles O2. -/
theorem deviceResetValues : Obligations.DeviceResetValues := by
  intro s
  refine ⟨deviceReset s, exec_eq _ s, deviceReset_channel s, deviceReset_profile s, deviceReset_hopSet s,
    deviceReset_converter s, deviceReset_context s, fun q => ?_, rfl, ⟨rfl, rfl, rfl, rfl, rfl⟩, rfl, rfl, rfl,
    ⟨rfl, rfl, rfl, rfl, rfl, rfl, rfl, rfl, rfl⟩, ⟨rfl, rfl, rfl, rfl, rfl, rfl, rfl⟩,
    ⟨rfl, rfl, rfl, rfl, rfl, rfl, rfl, rfl, rfl, rfl, rfl⟩, deviceReset_registers s, ⟨rfl, rfl, rfl, rfl, rfl⟩,
    ⟨rfl, rfl, deviceReset_pin s⟩, rfl, rfl⟩
  rw [deviceReset_queue]
  exact ⟨rfl, rfl, rfl, rfl, rfl, rfl⟩

/-! ### The invariants after a device reset -/

/-- Settles O51: a device reset of the state of reset is that state, and brings every invariant. -/
theorem resetIsSound : Obligations.ResetIsSound := by
  refine ⟨⟨by decide, by decide⟩, ⟨(fun h => by cases h), (fun _ h => by cases h)⟩, ?_, ?_, ?_, ?_, ?_⟩
  · exact deviceReset_legal State.reset
  · exact (soundRecords_iff _).1 (deviceReset_sound State.reset)
  · exact deviceReset_listSound State.reset
  · exact contextsSound_none (deviceReset_context State.reset) fun q => congrArg Queue.inFlight (deviceReset_queue State.reset q)
  · intro h
    cases h

/-! ### The Setup Address register (R185) -/

/-- R192: the offsets that no write acts on. -/
theorem windowWrite_ignored {offset : Reg} (h : offset ∉ [0x00#32, 0x08#32, 0x0C#32, 0x10#32, 0x14#32]) (word : Reg)
    (s : State) : windowWrite offset word s = s := by
  simp only [List.mem_cons, List.not_mem_nil, or_false, not_or] at h
  obtain ⟨h0, h8, hc, h10, h14⟩ := h
  simp only [windowWrite, h0, h8, hc, h10, h14, if_false]

/-- R192: the offsets whose reads return 0. -/
theorem readRegister_none {offset : Reg} (h : offset ∉ [0x04#32, 0x08#32, 0x10#32, 0x14#32]) (s : State) :
    readRegister offset s = 0 := by
  simp only [List.mem_cons, List.not_mem_nil, or_false, not_or] at h
  obtain ⟨h4, h8, h10, h14⟩ := h
  simp only [readRegister, h4, h8, h10, h14, if_false]

/-- R175: a START in OFF is accepted. -/
theorem startCommand_off (h : s.engine.state = .off) : startCommand s = beginLoading s := if_pos h

/-- Settles O3. -/
theorem setupAddressRegister : Obligations.SetupAddressRegister := by
  intro s word
  exact ⟨rfl, rfl, ⟨_, exec_eq _ s, rfl⟩, ⟨_, exec_eq _ s, rfl⟩,
    fun hoff => ⟨_, (exec_eq _ s).trans (congrArg _ (startCommand_off hoff)), rfl⟩,
    fun offset h => (exec_eq _ s).trans (congrArg _ (windowWrite_ignored h word s)),
    fun offset h => readRegister_none h s⟩

end Sys2Proof.Machine
end

section
/-! SUPPORT. CommandTable, StartBeginsLoading, StopDrainStopsIntake and SetupReadFails: what an Engine Command does in each engine
state (R174), and how LOADING begins and fails (R175, R176). -/

namespace Sys2Proof.Machine

variable {s t x : State}

/-! ### The two stops by engine state (R174) -/

theorem stopDrainCommand_running (h : s.engine.state = .running) : stopDrainCommand s = finish (beginStop .drain s) := by
  simp only [stopDrainCommand, h]

theorem stopDrainCommand_stopping (h : s.engine.state = .stopping) : stopDrainCommand s = s := by
  simp only [stopDrainCommand, h]

theorem stopDrainCommand_refused (h : s.engine.state = .off ∨ s.engine.state = .loading ∨ s.engine.state = .halted) :
    stopDrainCommand s = refuseCommand 2 s := by
  rcases h with h | h | h <;> simp only [stopDrainCommand, h]

theorem stopCutCommand_loading (h : s.engine.state = .loading) : stopCutCommand s = finish (cutLoading s) := by
  simp only [stopCutCommand, h]

theorem stopCutCommand_cutting (h : s.engine.state = .stopping ∧ s.engine.stopMode = .cut) : stopCutCommand s = s := by
  simp only [stopCutCommand, h.1, h.2, if_true]

theorem stopCutCommand_refused (h : s.engine.state = .off ∨ s.engine.state = .halted) :
    stopCutCommand s = refuseCommand 3 s := by
  rcases h with h | h <;> simp only [stopCutCommand, h]

/-- R181: the state in which a STOP_CUT ends contexts: a stop that begins, or a STOP_DRAIN that becomes a cut. -/
def cutBegun (s : State) : State :=
  if s.engine.state = .running then beginStop .cut s else s.modEngine fun e => { e with stopMode := .cut }

/-- A STOP_CUT is accepted in RUNNING, and over a STOP_DRAIN. -/
def CutAccepted (s : State) : Prop :=
  s.engine.state = .running ∨ (s.engine.state = .stopping ∧ s.engine.stopMode = .drain)

theorem stopCutCommand_accepted (h : CutAccepted s) : stopCutCommand s = finish (cutContexts (cutBegun s)) := by
  rcases h with h | ⟨h, hm⟩
  · simp only [stopCutCommand, cutBegun, h, if_true]
  · simp [stopCutCommand, cutBegun, h, hm]

theorem cutBegun_engine (h : CutAccepted s) :
    (cutBegun s).engine = { s.engine with state := .stopping, stopMode := .cut } := by
  rcases h with h | ⟨h, -⟩
  · rw [cutBegun, if_pos h]
    rfl
  · rw [cutBegun, if_neg (by rw [h]; decide), ← h]
    rfl

/-- R182: the arbiters of a stop that goes on keep its mode, and end it exactly when its conditions hold. -/
theorem finish_stopMode {mode : StopMode} (hx : x.engine.state = .stopping) (hm : x.engine.stopMode = mode) :
    (finish x).engine.stopMode = mode ∧ ((finish x).engine.state = .stopping ∨ (finish x).engine.state = .off)
      ∧ ((finish x).engine.state = .off ↔ (finish x).StopConditions) := by
  obtain ⟨hdone, -, hstate⟩ := finish_stops x hx
  refine ⟨?_, hstate.symm, hdone⟩
  rw [(finish_arbitrated x).engine]
  exact hm

/-! ### The command table (R174) -/

theorem commandCode_eq (word : Reg) : commandCode word = word.toNat % 16 := by
  simp [commandCode, bits]

theorem engineCommandWrite_refused {word : Reg} (h : word.toNat % 16 ∉ [1, 2, 3, 4]) (s : State) :
    engineCommandWrite word s = refuseCommand (word.toNat % 16) s := by
  rw [← commandCode_eq] at h ⊢
  unfold engineCommandWrite
  split
  case h_5 => rfl
  all_goals
    rename_i hcode
    rw [hcode] at h
    exact absurd h (by decide)

/-- Settles O6: each column of the table is a case of its command's definition. -/
theorem commandTable : Obligations.CommandTable := by
  intro s refused begun
  have hexec : ∀ {i : Instr} {t : State}, commandEffect i s = t → exec i s = .next t := fun h =>
    (exec_eq _ s).trans (congrArg _ h)
  refine ⟨fun h => ⟨_, hexec (startCommand_off h), rfl⟩, fun h => hexec (if_neg h), fun h => ?_,
    fun h => hexec (stopDrainCommand_stopping h), fun h => hexec (stopDrainCommand_refused h), fun h => ?_, fun h => ?_,
    fun h => hexec (stopCutCommand_cutting h), fun h => hexec (stopCutCommand_refused h), ⟨_, exec_eq _ s, rfl⟩,
    fun word h => hexec (engineCommandWrite_refused h s), rfl⟩
  · exact ⟨_, hexec (stopDrainCommand_running h), finish_stopMode rfl rfl⟩
  · refine ⟨_, hexec (stopCutCommand_loading h), ?_⟩
    rw [finish_state _ (by exact (by decide : EngineState.off ≠ .stopping))]
    rfl
  · have hengine := (cutContexts_engine (cutBegun s)).trans (cutBegun_engine h)
    exact ⟨_, hexec (stopCutCommand_accepted h), finish_stopMode (by rw [hengine]) (by rw [hengine])⟩

/-! ### START and the setup read (R175, R176) -/

/-- Settles O7. -/
theorem startBeginsLoading : Obligations.StartBeginsLoading := by
  intro s hoff
  refine ⟨_, (exec_eq _ s).trans (congrArg _ (startCommand_off hoff)), rfl, fun q => ?_, rfl, rfl, rfl, rfl,
    fun word => ⟨_, exec_eq _ _, rfl, rfl⟩, rfl, rfl, rfl, rfl, rfl, rfl, rfl, rfl, rfl, rfl, rfl, rfl, rfl, rfl, rfl, rfl⟩
  have hq : (beginLoading s).queues[q] = Queue.unconfigured := by simp [beginLoading, unconfigureRings]
  rw [hq]
  exact ⟨rfl, rfl, rfl, rfl⟩

theorem setupReadEnd_current {k : Nat} {r : SetupRead} {how : ReadEnd} (hr : s.setupReads[k]? = some r)
    (hwf : how.wfBlock = true) (ha : r.abandoned = false) (hl : s.engine.state = .loading) :
    setupReadEnd k how s = finish (endSetup how { s with setupReads := s.setupReads.eraseIdx k }) := by
  simp [setupReadEnd, hr, hwf, ha, hl]

theorem setupReadEnd_abandoned {k : Nat} {r : SetupRead} {how : ReadEnd} (hr : s.setupReads[k]? = some r)
    (hwf : how.wfBlock = true) (h : r.abandoned = true ∨ s.engine.state ≠ .loading) :
    setupReadEnd k how s = { s with setupReads := s.setupReads.eraseIdx k } := by
  simp only [setupReadEnd, hr, hwf, if_true]
  exact if_pos h

/-- Settles O12. -/
theorem setupReadFails : Obligations.SetupReadFails := by
  intro s k r hr
  refine ⟨fun ha hl => ⟨?_, fun bytes code index hlen hcheck => ?_⟩, fun h how hlen => ?_⟩
  · exact ⟨_, (exec_eq _ s).trans (congrArg _ (setupReadEnd_current hr rfl ha hl)), finish_arbitrated _⟩
  · have hend : endSetup (.data bytes) { s with setupReads := s.setupReads.eraseIdx k }
        = failSetup .setupInvalid code index { s with setupReads := s.setupReads.eraseIdx k } := by
      simp only [endSetup, hcheck]
    have heffect := setupReadEnd_current (how := .data bytes) hr (beq_iff_eq.2 hlen) ha hl
    rw [hend] at heffect
    exact ⟨_, (exec_eq _ s).trans (congrArg _ heffect), finish_arbitrated _⟩
  · exact (exec_eq _ s).trans
      (congrArg _ (setupReadEnd_abandoned hr ((Laws.OperandsAdmitted.block_iff how).2 hlen) h))

/-! ### STOP_DRAIN (R180) -/

/-- R130, R140: the Watch Unit as a stop begins. -/
theorem watchUnit_beginStop (w : WatchUnit) : w.beginStop =
    let complete := w.inProgress && w.running.isEmpty
    { w with
      timer := none, pending := [], inProgress := w.inProgress && !complete, promoted := w.promoted && !complete
      overrun := w.overrun && !complete } := by
  rw [WatchUnit.beginStop, completeRound_eq]
  simp only [WatchUnit.roundTested, List.isEmpty_nil, Bool.and_true]

/-- Settles O8. -/
theorem stopDrainStopsIntake : Obligations.StopDrainStopsIntake := by
  intro s hrun complete watch
  have hwatch : (beginStop .drain s).watch = watch := watchUnit_beginStop s.watch
  have hbegun : beginStop .drain s = { s with
      engine := { s.engine with state := .stopping, stopMode := .drain }
      queues := s.queues.map fun q => { q with held := none }
      watch := watch } := by
    rw [← hwatch]
    rfl
  obtain ⟨-, -, hdone⟩ := finish_stopMode (x := beginStop .drain s) rfl rfl
  refine ⟨_, (exec_eq _ s).trans (congrArg _ (stopDrainCommand_running hrun)), ?_, ?_, hdone⟩
  · rw [← hbegun]
    exact finish_arbitrated _
  · exact (WatchUnitKept.ofFinish (by rw [hwatch])).watch.trans hwatch

end Sys2Proof.Machine
end

section
/-! SUPPORT. StopCutEndsWork: the end causes that a STOP_CUT sets one after the other (R77, R181), seen from one context, one converter
and one fault discharge, and what the arbiters leave of them. -/

namespace Sys2Proof.Machine

variable {s t u : State} {k l : CtxId} {c d e : Context} {cause : EndCause} {order : List CtxId}

/-! ### Contexts after their end cause (R77) -/

/-- R77: each context of the order is ended once, and a context that writes or posts is left alone. -/
theorem setEndCauses_endedBy (hn : order.Nodup) (hl : l ∈ order) (hk : s.contexts[l] = some c) :
    ∃ d, (setEndCauses cause order s).contexts[l] = some d ∧ c.EndedBy cause d := by
  induction order generalizing s with
  | nil => cases hl
  | cons m order ih =>
    obtain ⟨hm, hrest⟩ := List.nodup_cons.1 hn
    rcases List.mem_cons.1 hl with rfl | hl
    · obtain ⟨d, hd, hended⟩ := (setEndCause_taken hk cause).context
      exact ⟨d, (setEndCauses_other cause hm).trans hd, hended⟩
    · have hne : l ≠ m := fun h => hm (h ▸ hl)
      exact ih hrest hl ((setEndCause_other cause hne).trans hk)

/-- What an end cause makes of a context that waits (R74, R77). -/
theorem Context.EndedBy.waiting (h : c.EndedBy cause d) (he : c.endCause = none)
    (hs : c.state = .listing ∨ c.state = .claiming) :
    d = { c with state := .posting, endCause := some (cause, c.state), result := some (cause.status, .state c.state) } := by
  unfold Context.EndedBy at h
  rcases hs with hs | hs
  all_goals
    simp only [he, hs, Option.isSome_none, Bool.false_eq_true, if_false] at h ⊢
    rw [h]
    cases cause <;> rfl

theorem Context.EndedBy.converterSet (h : c.EndedBy cause d) (he : c.endCause = none) (hs : c.state = .active)
    {v a : Nat} (hb : c.request.body = .converterSet v a) :
    d = { c with state := .posting, endCause := some (cause, .active), result := some (cause.status, .state .active) } := by
  unfold Context.EndedBy at h
  simp only [he, hs, hb, Option.isSome_none, Bool.false_eq_true, if_false] at h
  rw [h]
  cases cause <;> rfl

/-- R115: a TRIM whose trial runs goes on to the end of its cut job; any other posts. -/
theorem Context.EndedBy.trim (h : c.EndedBy cause d) (he : c.endCause = none) (hs : c.state = .active)
    {b : TrimBody} {q : Search} (hb : c.request.body = .trim b) (hq : c.search = some q) :
    d.endCause = some (cause, .active) ∧ (d.state = .posting ↔ q.job ≠ .running) := by
  unfold Context.EndedBy at h
  simp only [he, hs, hb, Option.isSome_none, Bool.false_eq_true, if_false] at h
  by_cases hr : q.job = .running
  · rw [(h q hq).1 hr]
    simp [hr]
  · rw [(h q hq).2 hr]
    simp [hr]

/-- A context that the arbiters of an event leave alone: it posts or writes, or it waits for its running job and has no item left
to start. -/
def Context.AtEnd (d : Context) : Prop :=
  d.state = .writing ∨ d.state = .posting
    ∨ (d.state = .active ∧ d.Busy ∧ ((∀ b, d.request.body ≠ .measure b) ∨ ∀ x ∈ d.items, x.job ≠ .notStarted))

theorem Context.AtEnd.kept (h : d.AtEnd) (hk : d.Kept e) : e = d := by
  rcases h with hs | hs | ⟨hs, hbusy, hitems⟩
  · exact hk.waiting (.inr (.inl hs))
  · exact hk.waiting (.inr (.inr hs))
  · obtain ⟨hstate, hsearch, hresult⟩ := hk.busy hs hbusy
    have hi : e.items = d.items := by
      rcases hitems with hb | hitems
      · exact hk.otherItems hb
      · refine List.ext_getElem? fun i => ?_
        obtain ⟨hlen, hall⟩ := hk.items
        cases hx : d.items[i]? with
        | none => rwa [List.getElem?_eq_none_iff, hlen, ← List.getElem?_eq_none_iff]
        | some x =>
          obtain ⟨y, hy, hxy⟩ := hall i x hx
          rw [hy, hxy.eq_of_started (hitems x (List.mem_of_getElem? hx))]
    cases d
    cases e
    simp only [Context.mk.injEq]
    exact ⟨hstate.trans hs.symm, hk.queue, hk.holdsTag, hk.admission, hk.request, hk.claimSet, hi, hsearch, hk.action,
      hk.endCause, hresult, hk.bytesWritten⟩

theorem endIfNotStarted_started (x : ItemEntry) : x.endIfNotStarted.job ≠ .notStarted := by
  unfold ItemEntry.endIfNotStarted
  split
  · exact (by decide : JobState.ended ≠ .notStarted)
  · assumption

/-- R77: what an end cause has made of a context the arbiters leave alone, but for a TRIM whose search has not begun. -/
theorem Context.EndedBy.atEnd (h : c.EndedBy cause d) (he : c.endCause = none)
    (hbegun : ∀ b, c.state = .active → c.request.body = .trim b → c.search ≠ none) : d.AtEnd := by
  unfold Context.EndedBy at h
  simp only [he, Option.isSome_none, Bool.false_eq_true, if_false] at h
  cases hs : c.state with
  | writing =>
    simp only [hs] at h
    exact .inl (h ▸ hs)
  | posting =>
    simp only [hs] at h
    exact .inr (.inl (h ▸ hs))
  | listing =>
    simp only [hs] at h
    exact .inr (.inl (by rw [h]))
  | claiming =>
    simp only [hs] at h
    exact .inr (.inl (by rw [h]))
  | active =>
    simp only [hs] at h
    cases hb : c.request.body with
    | measure b =>
      simp only [hb] at h
      by_cases hr : ∃ x ∈ c.items, x.job = .running
      · obtain ⟨x, hx, hrun⟩ := id hr
        rw [h.1 hr]
        refine .inr (.inr ⟨rfl, ?_, .inr fun y hy => ?_⟩)
        · simp only [Context.Busy, hb]
          refine ⟨x.endIfNotStarted, List.mem_map_of_mem hx, ?_⟩
          simp [ItemEntry.endIfNotStarted, hrun]
        · obtain ⟨x, -, rfl⟩ := List.mem_map.1 hy
          exact endIfNotStarted_started x
      · rw [h.2 fun x hx hj => hr ⟨x, hx, hj⟩]
        exact .inr (.inl rfl)
    | trim b =>
      simp only [hb] at h
      obtain ⟨q, hq⟩ := Option.ne_none_iff_exists'.1 (hbegun b hs hb)
      by_cases hr : q.job = .running
      · rw [(h q hq).1 hr]
        refine .inr (.inr ⟨rfl, ?_, .inl fun m hm => ?_⟩)
        · simp only [Context.Busy, hb]
          intro q' hq'
          cases hq.symm.trans hq'
          exact hr
        · cases hb.symm.trans hm
      · rw [(h q hq).2 hr]
        exact .inr (.inl rfl)
    | _ =>
      simp only [hb] at h
      rw [h]
      exact .inr (.inl rfl)

/-- R77: a context that an end cause has reached is the same after the arbiters. -/
theorem Context.EndedBy.kept (h : c.EndedBy cause d) (he : c.endCause = none) (hk : d.Kept e) : c.EndedBy cause e := by
  by_cases hu : c.state = .active ∧ (∃ b, c.request.body = .trim b) ∧ c.search = none
  · obtain ⟨hs, ⟨b, hb⟩, hq⟩ := hu
    unfold Context.EndedBy
    simp only [he, hs, hb, hq, Option.isSome_none, Bool.false_eq_true, if_false]
    intro q hq'
    cases hq'
  · rw [(h.atEnd he fun b hs hb hq => hu ⟨hs, ⟨b, hb⟩, hq⟩).kept hk]
    exact h

/-! ### Converters and fault discharges after end causes (R10, R16, R152) -/

/-- R16, R152: an end cause cuts or disowns at the converters, or leaves them alone. -/
theorem endActive_converters (k : CtxId) (c : Context) (e : EndCause × CtxState) (s : State) (v : ConvId) :
    (endActive k c e s).converters[v] = s.converters[v]
      ∨ (endActive k c e s).converters[v] = s.converters[v].cutFor k
      ∨ (endActive k c e s).converters[v] = s.converters[v].disown k := by
  unfold endActive
  split
  · refine .inr (.inl ?_)
    simp only [(measureWorkEnd_workedFor k _).converters]
    exact cutJobs_conv ..
  · split
    · split
      · exact .inr (.inl (cutJobs_conv ..))
      · refine .inl ?_
        simp only [(trimEarlyEnd_workedFor k _).converters]
    · exact .inl rfl
  · exact .inr (.inr (Vector.getElem_map ..))

/-- R16, R152: the same of an end cause in any state of its context. -/
theorem setEndCause_converter (cause : EndCause) (k : CtxId) (s : State) (v : ConvId) :
    (setEndCause cause k s).converters[v] = s.converters[v]
      ∨ (setEndCause cause k s).converters[v] = s.converters[v].cutFor k
      ∨ (setEndCause cause k s).converters[v] = s.converters[v].disown k := by
  unfold setEndCause
  split
  · exact .inl rfl
  · split
    · exact .inl rfl
    · dsimp only
      split
      · exact .inl rfl
      · exact .inl rfl
      · exact endActive_converters ..
      · exact .inl rfl
      · exact .inl rfl

/-- R16: the end cause of another context leaves a job's converter and record alone. -/
theorem setEndCause_otherJob {v : ConvId} {j : Job} (hj : s.converters[v].job = some j) (hw : j.WorksFor k) (hne : l ≠ k)
    (cause : EndCause) : (setEndCause cause l s).converters[v].state = s.converters[v].state
      ∧ (setEndCause cause l s).converters[v].job = some j := by
  have howner : ∀ i, s.converters[v].job = some i → ¬i.WorksFor l := by
    intro i hi hwl
    cases hj.symm.trans hi
    rcases hw with ⟨n, hw⟩ | hw <;> rcases hwl with ⟨m, hwl⟩ | hwl <;> rw [hw] at hwl <;> cases hwl <;> exact hne rfl
  have hcheck : j.owner ≠ .check (.context l) := by
    rcases hw with ⟨n, hw⟩ | hw <;> rw [hw] <;> simp
  rcases setEndCause_converter cause l s v with h | h | h <;> rw [h]
  · exact ⟨rfl, hj⟩
  · rw [cutFor_other howner]
    exact ⟨rfl, hj⟩
  · refine ⟨rfl, ?_⟩
    simp only [Converter.disown, hj, Option.map_some, if_neg hcheck]

/-- R10: a mark goes with the end cause of its own context. -/
theorem setEndCause_mark (cause : EndCause) (l : CtxId) (s : State) (v : ConvId) :
    (∀ m, s.converters[v].mark = some m → m.owner ≠ l → (setEndCause cause l s).converters[v].mark = some m)
      ∧ (s.converters[v].mark = none → (setEndCause cause l s).converters[v].mark = none) := by
  have hcut : ∀ x : Converter, (x.cutFor l).mark = x.mark := fun x => by
    unfold Converter.cutFor
    split
    · split <;> rfl
    · rfl
  rcases setEndCause_converter cause l s v with h | h | h <;> rw [h] <;> generalize s.converters[v] = x
  · exact ⟨fun _ hm _ => hm, id⟩
  · rw [hcut]
    exact ⟨fun _ hm _ => hm, id⟩
  · refine ⟨fun m hm hne => ?_, fun hm => ?_⟩
    · simp [Converter.disown, hm, hne]
    · simp [Converter.disown, hm]

/-- R16: the end cause of another context leaves a job in fault discharge alone. -/
theorem setEndCause_otherDischarge {i : Nat} {x : FaultDischarge} {j : Job} (hx : s.faultDischarges[i]? = some x)
    (hj : x.job = some j) (hw : j.WorksFor k) (hne : l ≠ k) (cause : EndCause) :
    (setEndCause cause l s).faultDischarges[i]? = some x := by
  cases hl : s.contexts[l] with
  | none => rwa [setEndCause_free hl]
  | some c =>
    refine (setEndCause_taken hl cause).otherDischarges.2 i x hx fun i hi hwl => ?_
    cases hj.symm.trans hi
    rcases hw with ⟨n, hw⟩ | hw <;> rcases hwl with ⟨m, hwl⟩ | hwl <;> rw [hw] at hwl <;> cases hwl <;> exact hne rfl

/-! ### The order of the end causes (R181) -/

/-- What the end causes of other contexts keep. -/
theorem setEndCauses_induct {P : State → Prop} (hP : ∀ u l, l ∈ order → P u → P (setEndCause cause l u)) (hs : P s) :
    P (setEndCauses cause order s) := by
  induction order generalizing s with
  | nil => exact hs
  | cons m order ih =>
    exact ih (fun u l hl => hP u l (List.mem_cons_of_mem m hl)) (hP s m List.mem_cons_self hs)

/-- One end cause of the order, with those before it and those after it. -/
theorem setEndCauses_at (hn : order.Nodup) (hk : k ∈ order) (cause : EndCause) (s : State) :
    ∃ before after, k ∉ before ∧ k ∉ after ∧ setEndCauses cause order s
      = setEndCauses cause after (setEndCause cause k (setEndCauses cause before s)) := by
  obtain ⟨before, after, rfl⟩ := List.append_of_mem hk
  obtain ⟨-, hafter, hdisjoint⟩ := List.nodup_append.1 hn
  refine ⟨before, after, fun h => hdisjoint k h k List.mem_cons_self rfl, (List.nodup_cons.1 hafter).1, ?_⟩
  simp only [setEndCauses, List.foldl_append, List.foldl_cons]

section
variable (hn : order.Nodup) (hmem : k ∈ order) (hk : s.contexts[k] = some c) (he : c.endCause = none)
include hn hmem hk he

/-- R16: the job of a context that is cut discharges with its cut flag set. -/
theorem setEndCauses_cut {v : ConvId} {j : Job}
    (hv : s.converters[v].state = .settling ∨ s.converters[v].state = .sampling ∨ s.converters[v].state = .discharging)
    (hj : s.converters[v].job = some j) (hw : j.WorksFor k) (hcut : c.CutsJobs) :
    (setEndCauses cause order s).converters[v].state = .discharging
      ∧ (setEndCauses cause order s).converters[v].job = some { j with cut := true } := by
  obtain ⟨before, after, hb, ha, hsplit⟩ := setEndCauses_at hn hmem cause s
  rw [hsplit]
  have hbefore : (setEndCauses cause before s).converters[v].state = s.converters[v].state
      ∧ (setEndCauses cause before s).converters[v].job = some j :=
    setEndCauses_induct (P := fun u => u.converters[v].state = s.converters[v].state ∧ u.converters[v].job = some j)
      (fun u l hl ⟨hstate, hjob⟩ =>
        have h := setEndCause_otherJob hjob hw (fun h : l = k => hb (h ▸ hl)) cause
        ⟨h.1.trans hstate, h.2⟩) ⟨rfl, hj⟩
  have hcontext := (setEndCauses_other (s := s) cause hb).trans hk
  generalize setEndCauses cause before s = m at hbefore hcontext
  obtain ⟨hstate, hjob⟩ := hbefore
  have hnow := (setEndCause_taken hcontext cause).cut he hcut v j hjob hw
  refine setEndCauses_induct
    (P := fun u => u.converters[v].state = .discharging ∧ u.converters[v].job = some { j with cut := true })
    (fun u l hl ⟨hstate, hjob⟩ =>
      have h := setEndCause_otherJob (k := k) hjob hw (fun h : l = k => ha (h ▸ hl)) cause
      ⟨h.1.trans hstate, h.2⟩) ?_
  rw [hnow, hstate]
  rcases hv with hv | hv | hv <;> rw [hv] <;> exact ⟨rfl, rfl⟩

/-- R16: the same of a job in fault discharge. -/
theorem setEndCauses_cutInFault {i : Nat} {x : FaultDischarge} {j : Job} (hx : s.faultDischarges[i]? = some x)
    (hj : x.job = some j) (hw : j.WorksFor k) (hcut : c.CutsJobs) :
    (setEndCauses cause order s).faultDischarges[i]? = some { x with job := some { j with cut := true } } := by
  obtain ⟨before, after, hb, ha, hsplit⟩ := setEndCauses_at hn hmem cause s
  rw [hsplit]
  have hbefore : (setEndCauses cause before s).faultDischarges[i]? = some x :=
    setEndCauses_induct (P := fun u => u.faultDischarges[i]? = some x)
      (fun u l hl h => setEndCause_otherDischarge h hj hw (fun h : l = k => hb (h ▸ hl)) cause) hx
  have hcontext := (setEndCauses_other (s := s) cause hb).trans hk
  generalize setEndCauses cause before s = m at hbefore hcontext
  exact setEndCauses_induct
    (P := fun u => u.faultDischarges[i]? = some { x with job := some { j with cut := true } })
    (fun u l hl h => setEndCause_otherDischarge (k := k) h rfl hw (fun h : l = k => ha (h ▸ hl)) cause)
    ((setEndCause_taken hcontext cause).cutInFault he hcut i x j hbefore hj hw)

/-- R10, R152: an ended CONVERTER_SET withdraws its mark. -/
theorem setEndCauses_mark {v : ConvId} {m : Mark} (hm : s.converters[v].mark = some m) (howner : m.owner = k)
    (hs : c.state = .active) {conv action : Nat} (hbody : c.request.body = .converterSet conv action) :
    (setEndCauses cause order s).converters[v].mark = none := by
  obtain ⟨before, after, hb, -, hsplit⟩ := setEndCauses_at hn hmem cause s
  rw [hsplit]
  have hbefore : (setEndCauses cause before s).converters[v].mark = some m :=
    setEndCauses_induct (P := fun u => u.converters[v].mark = some m)
      (fun u l hl h => (setEndCause_mark cause l u v).1 m h fun h : m.owner = l => hb (howner ▸ h ▸ hl)) hm
  have hcontext := (setEndCauses_other (s := s) cause hb).trans hk
  generalize setEndCauses cause before s = x at hbefore hcontext
  exact setEndCauses_induct (P := fun u => u.converters[v].mark = none)
    (fun u l _ => (setEndCause_mark cause l u v).2)
    ((setEndCause_taken hcontext cause).mark he hs ⟨_, _, hbody⟩ v m hbefore howner)

end

/-! ### STOP_CUT (R181) -/

theorem Context.EndedBy.ofLate (hs : c.state = .writing ∨ c.state = .posting) : c.EndedBy cause c := by
  rcases hs with hs | hs <;> simp [Context.EndedBy, hs]

/-- R181: the contexts in LISTING, CLAIMING or ACTIVE, oldest first. -/
def cutOrder (s : State) : List CtxId := (byAdmission s).filter (countsAsAborted s)

theorem mem_cutOrder : k ∈ cutOrder s ↔ ∃ c, s.contexts[k] = some c ∧ c.state.Endable := by
  rw [cutOrder, List.mem_filter, (byAdmission_order s).2.1, countsAsAborted]
  unfold inState CtxState.Endable
  cases hk : s.contexts[k] <;> simp [or_assoc]

theorem cutOrder_nodup (s : State) : (cutOrder s).Nodup := (byAdmission_order s).1.filter _

/-- R181: the state that the arbiters of a STOP_CUT find. -/
def cutEnded (s : State) : State := setEndCauses .stopped (cutOrder s) (cutBegun s)

theorem cutBegun_frame (s : State) : cutBegun s = { s with
    engine := (cutBegun s).engine, queues := (cutBegun s).queues, watch := (cutBegun s).watch } := by
  unfold cutBegun
  split <;> rfl

theorem stopCutCommand_ended (h : CutAccepted s) : stopCutCommand s = finish (cutEnded s) := by
  have horder : cutOrder (cutBegun s) = cutOrder s := by
    rw [cutBegun_frame]
    rfl
  rw [stopCutCommand_accepted h, cutEnded, ← horder]
  rfl

theorem cutEnded_begun (s : State) : EndsOnly (cutBegun s) (cutEnded s) := setEndCauses_endsOnly ..

/-- R181: what the end causes of a STOP_CUT leave alone. -/
theorem cutEnded_frame (s : State) : cutEnded s = { s with
    engine := (cutBegun s).engine, queues := (cutBegun s).queues, watch := (cutBegun s).watch
    contexts := (cutEnded s).contexts, converters := (cutEnded s).converters
    faultDischarges := (cutEnded s).faultDischarges, channels := (cutEnded s).channels
    listReads := (cutEnded s).listReads } := by
  have h := cutEnded_begun s
  unfold EndsOnly at h
  rw [cutBegun_frame s] at h
  exact h

theorem cutBegun_running (h : s.engine.state = .running) : cutBegun s = { s with
    engine := { s.engine with state := .stopping, stopMode := .cut }
    queues := s.queues.map fun q => { q with held := none }
    watch := s.watch.beginStop } := if_pos h

theorem cutBegun_watchIds (s : State) :
    (cutBegun s).watch.entries.map WatchEntry.id = s.watch.entries.map WatchEntry.id := by
  by_cases h : s.engine.state = .running
  · rw [cutBegun_running h, watchUnit_beginStop]
  · rw [cutBegun, if_neg h]
    rfl

/-- The arbiters keep the identifiers of the Watch List. -/
theorem Arbitrated.watchIds (h : Arbitrated s t) :
    t.watch.entries.map WatchEntry.id = s.watch.entries.map WatchEntry.id := by
  have hids := congrArg (List.map WatchEntry.id) h.watchEntries
  rwa [List.map_map, List.map_map] at hids

section
variable (ha : Arbitrated (cutEnded s) t)
include ha

/-- R181: a context that writes or posts is as it was. -/
theorem cutEnded_late (hk : s.contexts[k] = some c) (hs : c.state = .writing ∨ c.state = .posting) :
    t.contexts[k] = some c := by
  refine ha.waitingContext ?_ (.inr hs)
  rw [cutEnded, setEndCauses_other, cutBegun_frame]
  · exact hk
  · rw [mem_cutOrder]
    rintro ⟨d, hd, hend⟩
    cases hk.symm.trans hd
    rcases hs with hs | hs <;> rw [hs] at hend <;> exact absurd hend (by unfold CtxState.Endable; decide)

/-- R77, R181: a context without an end cause takes the end cause STOPPED. -/
theorem cutEnded_context (hk : s.contexts[k] = some c) (he : c.endCause = none) :
    ∃ d, t.contexts[k] = some d ∧ c.EndedBy .stopped d := by
  by_cases hs : c.state.Endable
  · obtain ⟨x, hx, hended⟩ := setEndCauses_endedBy (cause := .stopped) (s := cutBegun s) (cutOrder_nodup s)
      (mem_cutOrder.2 ⟨c, hk, hs⟩) (by rw [cutBegun_frame]; exact hk)
    obtain ⟨d, hd, hkept⟩ := ha.contextUsed k x hx
    exact ⟨d, hd, hended.kept he hkept⟩
  · have hlate := CtxState.not_endable hs
    exact ⟨c, cutEnded_late ha hk hlate, .ofLate hlate⟩

/-- R16, R181: a job that works for a context with cut jobs discharges with its cut flag set. -/
theorem cutEnded_cut {v : ConvId} {j : Job}
    (hv : s.converters[v].state = .settling ∨ s.converters[v].state = .sampling ∨ s.converters[v].state = .discharging)
    (hj : s.converters[v].job = some j) (hw : j.WorksFor k) (hk : s.contexts[k] = some c) (he : c.endCause = none)
    (hcut : c.CutsJobs) :
    t.converters[v].state = .discharging ∧ t.converters[v].job = some { j with cut := true } := by
  obtain ⟨hstate, hjob⟩ := setEndCauses_cut (cause := .stopped) (s := cutBegun s) (cutOrder_nodup s)
    (mem_cutOrder.2 ⟨c, hk, .inr (.inr hcut.1)⟩) (by rw [cutBegun_frame]; exact hk) he
    (by rw [cutBegun_frame]; exact hv) (by rw [cutBegun_frame]; exact hj) hw hcut
  have hfree : (cutEnded s).converters[v].free = false := by
    rw [Converter.free, show (cutEnded s).converters[v].state = _ from hstate]
    rfl
  rw [(ha.converter v).2.2 hfree]
  exact ⟨hstate, hjob⟩

end

/-- Settles O9: each clause is read off the end causes, which the arbiters leave alone. -/
theorem stopCutEndsWork : Obligations.StopCutEndsWork := by
  refine ⟨fun s h => ⟨_, (exec_eq _ s).trans (congrArg _ (stopCutCommand_loading h)), finish_arbitrated _⟩, ?_,
    fun s k c hk => setEndCause_taken hk .stopped⟩
  intro s h complete begun works electrodes
  have hbegun : begun = cutBegun s := by
    by_cases hrun : s.engine.state = .running
    · rw [cutBegun_running hrun, watchUnit_beginStop]
      exact if_pos hrun
    · rw [cutBegun, if_neg hrun]
      exact if_neg hrun
  have ha : Arbitrated (cutEnded s) (finish (cutEnded s)) := finish_arbitrated _
  have hkept {α : Type} (f : State → α) := congrArg f (cutEnded_frame s)
  have hengine : (cutEnded s).engine = { s.engine with state := .stopping, stopMode := .cut } :=
    (hkept State.engine).trans (cutBegun_engine h)
  have hstate : (cutEnded s).engine.state = .stopping := by rw [hengine]
  obtain ⟨hmode, hstop, hdone⟩ := finish_stopMode hstate (by rw [hengine])
  obtain ⟨hfetch, hqueues, -⟩ := ha.notRunning (by rw [hstate]; decide)
  refine ⟨finish (cutEnded s), cutOrder s, (exec_eq _ s).trans (congrArg _ (stopCutCommand_ended h)), ?_, cutOrder_nodup s,
    fun k => mem_cutOrder, (byAdmission_order s).2.2.filter _, hmode, hstop, hdone,
    hfetch.trans (hkept State.fetchRead), ha.nextAdmission.trans (hkept State.nextAdmission),
    ha.profiles.trans (hkept State.profiles), ha.hopSets.trans (hkept State.hopSets),
    ha.ring.trans (hkept State.ring), ha.setupReads.trans (hkept State.setupReads),
    ha.clearDischarges.trans (hkept State.clearDischarges), ha.reports.trans (hkept State.reports),
    ha.lost.trans (hkept State.lost), ?_, fun hrun => ?_, fun k c hk he hs => ?_, fun k c v a hk he hs hb => ?_,
    fun k c hk hs => cutEnded_late ha hk hs, fun v j k i c b hv hj ho hk he hs hb => ?_, fun k c hk he => cutEnded_context ha hk he,
    fun k c b hk he hs hb => ?_, fun k c b q hk he hs hb hq => ?_, fun v j k c hv hj hw hk he hcut => ?_,
    fun i x j k c hx hj hw hk he hcut => ?_, fun v m c conv action hm hk he hs hb => ?_⟩
  · rw [hbegun]
    rfl
  · exact ha.watchIds.trans
      ((hkept (fun x : State => x.watch.entries.map WatchEntry.id)).trans (cutBegun_watchIds s))
  · have hwatch : (cutEnded s).watch = s.watch.beginStop :=
      (hkept State.watch).trans (congrArg State.watch (cutBegun_running hrun))
    refine ⟨ha.watch.2.1.trans ?_, List.sublist_nil.1 ?_, fun q => ?_⟩
    · rw [hwatch, watchUnit_beginStop]
    · have hpending := ha.watchPending
      rwa [hwatch, watchUnit_beginStop] at hpending
    · rw [hqueues, hkept State.queues, cutBegun_running hrun]
      exact congrArg Queue.held (Vector.getElem_map ..)
  · obtain ⟨d, hd, hended⟩ := cutEnded_context ha hk he
    rw [hd, hended.waiting he hs]
    rfl
  · obtain ⟨d, hd, hended⟩ := cutEnded_context ha hk he
    rw [hd, hended.converterSet he hs hb]
    rfl
  · exact cutEnded_cut ha (hv.imp_right .inl) hj (.inl ⟨i, ho⟩) hk he ⟨hs, by rw [hb]; trivial⟩
  · obtain ⟨d, hd, hended⟩ := cutEnded_context ha hk he
    have hcause := hended.endCause_eq (.inr (.inr hs)) fun e _ _ htrim => by cases hb.symm.trans htrim
    rw [he, hs] at hcause
    exact ⟨d, hd, hcause⟩
  · obtain ⟨d, hd, hended⟩ := cutEnded_context ha hk he
    exact ⟨d, hd, hended.trim he hs hb hq⟩
  · exact cutEnded_cut ha hv hj hw hk he hcut
  · rw [ha.faultDischarges]
    exact setEndCauses_cutInFault (cutOrder_nodup s) (mem_cutOrder.2 ⟨c, hk, .inr (.inr hcut.1)⟩)
      (by rw [cutBegun_frame]; exact hk) he (by rw [cutBegun_frame]; exact hx) hj hw hcut
  · rw [(ha.converter v).1]
    exact setEndCauses_mark (cutOrder_nodup s) (mem_cutOrder.2 ⟨c, hk, .inr (.inr hs)⟩)
      (by rw [cutBegun_frame]; exact hk) he (by rw [cutBegun_frame]; exact hm) rfl hs hb

end Sys2Proof.Machine
end

section
/-! SUPPORT. ClearEndsSession: the TRIM restore of a CLEAR (R37, R112), and what CLEAR makes of every part of the state (R184). -/

namespace Sys2Proof.Machine

variable {s t u : State} {k l : CtxId} {ch : Chan} {q p : Search}

/-! ### The TRIM restore of a CLEAR (R37) -/

/-- R37: the context `k` is an ACTIVE TRIM of the channel `ch`, whose search is `q`. -/
def RestoresAt (s : State) (k : CtxId) (ch : Chan) (q : Search) : Prop :=
  ∃ (c : Context) (b : TrimBody), s.contexts[k] = some c ∧ c.state = .active ∧ c.request.body = .trim b
    ∧ c.search = some q ∧ b.chan = ch

/-- A channel entry with the trim and the baseline that a search has saved. -/
def Channel.restored (e : Channel) (q : Search) : Channel := { e with trim := q.savedTrim, baseline := q.savedBaseline }

theorem restoresAt_congr (h : t.contexts = s.contexts) : RestoresAt t k ch q ↔ RestoresAt s k ch q := by
  unfold RestoresAt
  rw [h]

theorem restoreForClear_restores (h : RestoresAt s k ch q) :
    restoreForClear s k = s.modChan ch fun e => e.restored q := by
  obtain ⟨c, b, hk, hs, hb, hq, rfl⟩ := h
  simp only [restoreForClear, trimParts, hk, hb, hq, hs, if_true]
  rfl

theorem restoreForClear_idle (h : ∀ ch q, ¬RestoresAt s k ch q) : restoreForClear s k = s := by
  unfold restoreForClear
  split
  next c b q hparts =>
    refine if_neg fun hs => h b.chan q ⟨c, b, ?_⟩
    unfold trimParts at hparts
    split at hparts
    next d hk =>
      split at hparts
      next hb hq =>
        cases hparts
        exact ⟨hk, hs, hb, hq, rfl⟩
      next => cases hparts
    next => cases hparts
  next => rfl

theorem restoreForClear_frame (s : State) (k : CtxId) :
    restoreForClear s k = { s with channels := (restoreForClear s k).channels } := by
  by_cases h : ∃ ch q, RestoresAt s k ch q
  · obtain ⟨ch, q, h⟩ := h
    rw [restoreForClear_restores h]
    rfl
  · rw [restoreForClear_idle fun ch q hr => h ⟨ch, q, hr⟩]

/-- R37: one context restores its own channel's entry, and no other. -/
theorem restoreForClear_channel (s : State) (k : CtxId) (ch : Chan) :
    (restoreForClear s k).channels[ch] = s.channels[ch]
      ∨ ∃ q, RestoresAt s k ch q ∧ (restoreForClear s k).channels[ch] = s.channels[ch].restored q := by
  by_cases h : ∃ d q, RestoresAt s k d q
  · obtain ⟨d, q, h⟩ := h
    rw [restoreForClear_restores h, modChan_get]
    split
    next heq =>
      subst heq
      exact .inr ⟨q, h, rfl⟩
    next => exact .inl rfl
  · rw [restoreForClear_idle fun d q hr => h ⟨d, q, hr⟩]
    exact .inl rfl

/-- What every TRIM restore of a CLEAR keeps. -/
theorem restores_induct {P : Channel → Prop} (hP : ∀ k q e, RestoresAt s k ch q → P e → P (e.restored q))
    (order : List CtxId) (hu : u = { s with channels := u.channels }) (hs : P u.channels[ch]) :
    order.foldl restoreForClear u = { s with channels := (order.foldl restoreForClear u).channels }
      ∧ P (order.foldl restoreForClear u).channels[ch] := by
  induction order generalizing u with
  | nil => exact ⟨hu, hs⟩
  | cons k order ih =>
    have hframe := restoreForClear_frame u k
    refine ih (u := restoreForClear u k) ?_ ?_
    · rw [hframe, hu]
    · rcases restoreForClear_channel u k ch with h | ⟨q, hq, h⟩ <;> rw [h]
      · exact hs
      · exact hP k q _ ((restoresAt_congr (congrArg State.contexts hu)).1 hq) hs

/-- R37: the state after the restore of every TRIM in ACTIVE. -/
def clearRestored (s : State) : State := allContexts.foldl restoreForClear s

theorem clearRestored_frame (s : State) : clearRestored s = { s with channels := (clearRestored s).channels } :=
  (restores_induct (ch := 0) (P := fun _ => True) (fun _ _ _ _ _ => trivial) allContexts rfl trivial).1

theorem clearRestored_configuration (s : State) (ch : Chan) :
    (clearRestored s).channels[ch].ready = s.channels[ch].ready ∧ (clearRestored s).channels[ch].park = s.channels[ch].park
      ∧ (clearRestored s).channels[ch].comp = s.channels[ch].comp :=
  (restores_induct (s := s) (P := fun e => e.ready = s.channels[ch].ready ∧ e.park = s.channels[ch].park
    ∧ e.comp = s.channels[ch].comp) (fun _ _ _ _ h => h) allContexts rfl ⟨rfl, rfl, rfl⟩).2

theorem clearRestored_kept (h : ∀ k q, ¬RestoresAt s k ch q) : (clearRestored s).channels[ch] = s.channels[ch] :=
  (restores_induct (s := s) (P := fun e => e = s.channels[ch]) (fun k q _ hq => absurd hq (h k q)) allContexts rfl rfl).2

/-- R37, R112: a channel that only one search has changed gets back what that search has saved. -/
theorem clearRestored_saved (h : RestoresAt s k ch q) (hone : ∀ l p, RestoresAt s l ch p → p = q) :
    (clearRestored s).channels[ch].trim = q.savedTrim ∧ (clearRestored s).channels[ch].baseline = q.savedBaseline := by
  obtain ⟨before, after, hsplit⟩ := List.append_of_mem (mem_allContexts k)
  rw [clearRestored, hsplit, List.foldl_append, List.foldl_cons]
  have hbefore := (restores_induct (s := s) (u := s) (ch := ch) (P := fun _ => True) (fun _ _ _ _ _ => trivial) before rfl trivial).1
  generalize before.foldl restoreForClear s = u at hbefore
  rw [restoreForClear_restores ((restoresAt_congr (congrArg State.contexts hbefore)).2 h)]
  refine (restores_induct (s := s) (P := fun e => e.trim = q.savedTrim ∧ e.baseline = q.savedBaseline)
    (fun l p e hp _ => by rw [hone l p hp]; exact ⟨rfl, rfl⟩) after (by rw [hbefore]; rfl) ?_).2
  rw [modChan_get, if_pos rfl]
  exact ⟨rfl, rfl⟩

/-! ### CLEAR (R184) -/

/-- R184: CLEAR, part by part. -/
theorem clearCommand_eq (s : State) : clearCommand s = { s with
    engine := s.engine.atClear
    interrupt := s.interrupt.atClear
    channels := (clearRestored s).channels.map Channel.atClear
    converters := s.converters.map Converter.atClear
    faultDischarges := s.faultDischarges.map fun d => { d with job := none }
    clearDischarges := s.clearDischarges ++ allConverters.filterMap (clearedPins s)
    contexts := s.contexts.map fun _ => none
    queues := s.queues.map fun _ => Queue.unconfigured
    setupReads := s.setupReads.map fun r => { r with abandoned := true }
    fetchRead := s.fetchRead.map fun r => { r with current := false }
    listReads := s.listReads.map fun x => { x with discarded := true }
    resultWrites := s.resultWrites.map fun x => { x with abandoned := true }
    ring := Ring.unconfigured
    ringWrite := s.ringWrite.map fun w => { w with stale := true }
    reports := []
    lost := 0
    posting := []
    watch := WatchUnit.atReset } := by
  simp only [clearCommand, abandonSetupReads, unconfigureRings]
  rw [show allContexts.foldl restoreForClear s = clearRestored s from rfl, clearRestored_frame s]

/-- R17: a job stopped by CLEAR leaves its pins discharging. -/
theorem clearedPins_eq_some {v : ConvId} {d : ClearDischarge} : clearedPins s v = some d ↔
    d.conv = v ∧ ∃ j, s.converters[v].job = some j ∧ j.connection = d.connection
      ∧ (s.converters[v].state = .settling ∨ s.converters[v].state = .sampling ∨ s.converters[v].state = .discharging) := by
  unfold clearedPins
  cases d
  cases s.converters[v].state <;> cases s.converters[v].job <;> simp [eq_comm]

/-- Settles O10: `clearCommand_eq` with the TRIM restore seen from one channel. -/
theorem clearEndsSession : Obligations.ClearEndsSession := by
  intro s
  have hchannel (ch : Chan) : (clearCommand s).channels[ch] = ((clearRestored s).channels[ch]).atClear := by
    rw [clearCommand_eq]
    exact Vector.getElem_map ..
  refine ⟨_, exec_eq _ s, ?_⟩
  have hcommand : commandEffect .clear s = clearCommand s := rfl
  rw [hcommand]
  refine ⟨rfl, fun k => Vector.getElem_map .., fun c => Vector.getElem_map .., ⟨rfl, rfl, rfl, rfl, rfl, rfl, rfl, rfl, rfl⟩, rfl,
    rfl, rfl, fun q => ?_, ⟨rfl, rfl, rfl, rfl, rfl⟩, ?_, rfl, ?_, ?_, rfl, ⟨List.prefix_append .., fun d => ?_⟩, ?_, ?_, ?_,
    fun ch => ?_, fun ch hno => ?_, fun k c b q hk hs hb hq hone => ?_⟩
  · rw [clearCommand_eq]
    simp [Queue.unconfigured]
  · rw [clearCommand_eq]
    exact ⟨rfl, rfl, rfl, rfl, rfl⟩
  · rw [clearCommand_eq]
  · rw [clearCommand_eq]
  · have hmem : d ∈ allConverters.filterMap (clearedPins s) ↔ clearedPins s d.conv = some d := by
      rw [List.mem_filterMap]
      refine ⟨fun ⟨v, _, hv⟩ => ?_, fun h => ⟨_, (by decide : ∀ v : ConvId, v ∈ allConverters) _, h⟩⟩
      rwa [(clearedPins_eq_some.1 hv).1]
    show d ∈ s.clearDischarges ++ allConverters.filterMap (clearedPins s) ↔ _
    rw [List.mem_append, hmem, clearedPins_eq_some, eq_self, true_and]
  · rw [clearCommand_eq]
  · rw [clearCommand_eq]
  · rw [clearCommand_eq]
  · rw [hchannel]
    have hconfiguration := clearRestored_configuration s ch
    generalize (clearRestored s).channels[ch] = e at hconfiguration ⊢
    obtain ⟨hready, hpark, hcomp⟩ := hconfiguration
    exact ⟨hready, hpark, hcomp, rfl, rfl⟩
  · have hkept : (clearRestored s).channels[ch] = s.channels[ch] :=
      clearRestored_kept fun k q ⟨c, b, hk, hs, hb, _, hch⟩ => hno k c b hk hs hb hch
    rw [hchannel, hkept]
    exact ⟨rfl, rfl⟩
  · have hsaved : (clearRestored s).channels[b.chan].trim = q.savedTrim
        ∧ (clearRestored s).channels[b.chan].baseline = q.savedBaseline := by
      refine clearRestored_saved ⟨c, b, hk, hs, hb, hq, rfl⟩ fun l p ⟨d, e, hl, hd, he, hp, hch⟩ => ?_
      cases hone l d e hl hd he hch
      cases hk.symm.trans hl
      exact Option.some.inj (hp.symm.trans hq)
    rw [hchannel]
    generalize (clearRestored s).channels[b.chan] = x at hsaved ⊢
    exact hsaved

end Sys2Proof.Machine
end

section
/-! SUPPORT. ValidSetupPreparesSession: the start-up checks (R11, R177), the session that a valid setup block prepares (R157, R139), and
its first arbiters. -/

namespace Sys2Proof.Machine

variable {s t : State} {c : ConvId} {b : SetupBlock}

/-! ### The start-up checks (R11, R177) -/

/-- R11: a converter that starts a check, its state becoming the check's origin. -/
def Converter.checked (j : Job) (v : Converter) : Converter :=
  { v with state := .checking, origin := some v.state, job := some j }

/-- R177: a check on each converter of a list. -/
def startChecks (l : List ConvId) (s : State) : State := l.foldl (fun t c => startCheck c .engineControl t) s

theorem startChecks_frame (l : List ConvId) (s : State) :
    startChecks l s = { s with converters := (startChecks l s).converters } := by
  induction l generalizing s with
  | nil => rfl
  | cons d l ih => exact ih (startCheck d .engineControl s)

theorem startChecks_other {l : List ConvId} (h : c ∉ l) : (startChecks l s).converters[c] = s.converters[c] := by
  induction l generalizing s with
  | nil => rfl
  | cons d l ih =>
    obtain ⟨hd, hl⟩ := not_or.1 (mt List.mem_cons.2 h)
    exact (ih hl).trans ((modConv_get s d c _).trans (if_neg hd))

/-- R177: each converter of the list starts one check, with the profile that stands before the first. -/
theorem startChecks_own {l : List ConvId} (hn : l.Nodup) (h : c ∈ l) :
    (startChecks l s).converters[c] = s.converters[c].checked (checkJob s .engineControl) := by
  induction l generalizing s with
  | nil => cases h
  | cons d l ih =>
    obtain ⟨hd, hl⟩ := List.nodup_cons.1 hn
    rcases List.mem_cons.1 h with rfl | h
    · exact (startChecks_other hd).trans ((modConv_get s c c _).trans (if_pos rfl))
    · have hne : c ≠ d := fun he => hd (he ▸ h)
      have hother : (startCheck d .engineControl s).converters[c] = s.converters[c] :=
        (modConv_get s d c _).trans (if_neg hne)
      exact (ih (s := startCheck d .engineControl s) hl h).trans (congrArg _ hother)

theorem mem_startupConverters : c ∈ startupConverters s ↔ s.converters[c].state ≠ .held := by
  rw [startupConverters, List.mem_filter, and_iff_right ((by decide : ∀ v : ConvId, v ∈ allConverters) c), bne_iff_ne]

theorem startupConverters_nodup (s : State) : (startupConverters s).Nodup := (by decide : allConverters.Nodup).filter _

/-- R177, step 3, with a converter to check. -/
theorem startupChecks_checking (h : ∃ c : ConvId, s.converters[c].state ≠ .held) : startupChecks s = { s with
    engine := { s.engine with startupLeft := startupConverters s }
    converters := (startChecks (startupConverters s) s).converters } := by
  obtain ⟨c, hc⟩ := h
  have hcs : (startupConverters s).isEmpty = false := List.isEmpty_eq_false_iff_exists_mem.2 ⟨c, mem_startupConverters.2 hc⟩
  simp only [startupChecks, hcs, Bool.false_eq_true, if_false]
  rw [show List.foldl _ s _ = startChecks (startupConverters s) s from rfl, startChecks_frame]
  rfl

/-- R177, step 3, R18: with every converter HELD, NO_CONVERTER is raised and the session runs. -/
theorem startupChecks_held (h : ∀ c : ConvId, s.converters[c].state = .held) :
    startupConverters s = []
      ∧ startupChecks s = enterRunning (raise .noConverter (s.modEngine fun e => { e with startupLeft := [] })) := by
  have hcs : startupConverters s = [] :=
    List.eq_nil_iff_forall_not_mem.2 fun c hc => mem_startupConverters.1 hc (h c)
  refine ⟨hcs, ?_⟩
  simp only [startupChecks, hcs, List.isEmpty_nil, if_true]
  rfl

/-- R177, step 3: what the start-up checks leave alone, in either case. -/
theorem startupChecks_frame (s : State) : startupChecks s = { s with
    engine := { s.engine with state := (startupChecks s).engine.state, startupLeft := startupConverters s }
    converters := (startChecks (startupConverters s) s).converters
    watch := { s.watch with timer := (startupChecks s).watch.timer }
    reports := (startupChecks s).reports, lost := (startupChecks s).lost, posting := (startupChecks s).posting } := by
  by_cases h : ∃ c : ConvId, s.converters[c].state ≠ .held
  · rw [startupChecks_checking h]
  · obtain ⟨hcs, heq⟩ := startupChecks_held fun c => not_not.1 fun hc => h ⟨c, hc⟩
    rw [heq, hcs, raise_same]
    rfl

/-! ### The session of a valid setup block (R157, R139) -/

/-- R177, steps 1 and 2. -/
def takenUp (b : SetupBlock) (s : State) : State := (takeUp b s).modWatch (WatchUnit.prepare b.watchPeriod)

theorem takenUp_queue (b : SetupBlock) (s : State) (q : QueueId) : (takenUp b s).queues[q] = b.descriptor q.val :=
  Vector.getElem_mapIdx _

theorem descriptor_configured {d : SetupQueue} {i : Nat} (hi : i < b.queueCount) (hd : b.queues[i]? = some d) :
    b.descriptor i = d.descriptor := by
  rw [SetupBlock.descriptor, SetupBlock.configured, List.getElem?_take_of_lt hi, hd]

theorem descriptor_unconfigured {i : Nat} (hi : b.queueCount ≤ i) : b.descriptor i = Queue.unconfigured := by
  rw [SetupBlock.descriptor, SetupBlock.configured, List.getElem?_take_eq_none hi]

/-- R157: a queue taken up is empty, so it is not eligible for a read. -/
theorem descriptor_not_eligible (b : SetupBlock) (i : Nat) : (b.descriptor i).eligible = false := by
  unfold SetupBlock.descriptor
  split <;> simp [Queue.eligible, SetupQueue.descriptor, Queue.unconfigured]

theorem issueRingWrite_lastServed (s : State) : (issueRingWrite s).lastServed = s.lastServed := by
  unfold issueRingWrite
  split
  · split
    · rfl
    · split <;> rfl
  · rfl

theorem testStop_lastServed (s : State) : (testStop s).lastServed = s.lastServed := by
  unfold testStop
  split <;> rfl

/-- R161: with no eligible queue the last-served stays. -/
theorem finish_lastServed (h : ∀ q : QueueId, (s.queues[q]).eligible = false) : (finish s).lastServed = s.lastServed := by
  have hgrants : GrantsOnly s (runArbiters s) := .ofRunArbiters s
  have hqueues := hgrants.queues
  have hlast : (runArbiters s).lastServed = s.lastServed := by rw [hgrants]
  unfold finish
  generalize runArbiters s = x at hqueues hlast
  have hnone : nextServed (orderPosts x) = none := nextServed_none fun q => by
    rw [orderPosts_queues, hqueues]
    exact h q
  rw [testStop_lastServed, issueRingWrite_lastServed, issueFetch_idle hnone]
  exact hlast

theorem setupReadEnd_prepares {k : Nat} {r : SetupRead} {bytes : List Byte} (hr : s.setupReads[k]? = some r)
    (ha : r.abandoned = false) (hl : s.engine.state = .loading) (hlen : bytes.length = 64)
    (hcheck : (SetupBlock.ofBytes bytes).check = none) : setupReadEnd k (.data bytes) s
      = finish (prepareSession (SetupBlock.ofBytes bytes) { s with setupReads := s.setupReads.eraseIdx k }) := by
  rw [setupReadEnd_current (how := .data bytes) hr (beq_iff_eq.2 hlen) ha hl]
  simp only [endSetup, hcheck]

/-! ### The session after its first arbiters -/

section
variable {u p : State} (hu : u = takenUp b s) (hp : p = startupChecks u) (ht : t = finish p)
include hu hp ht

/-- R157: the queues of the session. -/
theorem prepared_queue (q : QueueId) :
    t.queues[q] = { b.descriptor q.val with readOutstanding := (t.queues[q]).readOutstanding } := by
  have harb : Arbitrated p t := ht ▸ finish_arbitrated p
  have hqueues : p.queues = (takenUp b s).queues := by rw [hp, startupChecks_frame, hu]
  rw [← takenUp_queue b s, ← hqueues]
  exact harb.queue q

theorem prepared_lastServed : t.lastServed = 3 := by
  have hqueues : p.queues = (takenUp b s).queues := by rw [hp, startupChecks_frame, hu]
  have hlast : p.lastServed = 3 := by
    rw [hp, startupChecks_frame, hu]
    rfl
  rw [ht, finish_lastServed fun q => ?_, hlast]
  rw [hqueues, takenUp_queue]
  exact descriptor_not_eligible ..

/-- R139: the Watch Unit of the session, but for its timer. -/
theorem prepared_watch : t.watch = { s.watch.prepare b.watchPeriod with timer := p.watch.timer } := by
  have hwatch : p.watch = { s.watch.prepare b.watchPeriod with timer := p.watch.timer } := by
    rw [hp, startupChecks_frame, hu]
    rfl
  have hpending : p.watch.pending = [] := by rw [hwatch]; rfl
  rw [ht, (WatchUnitKept.ofFinish hpending).watch]
  exact hwatch

/-- R177, step 3: every converter that is not HELD is in its start-up check. -/
theorem prepared_converter (c : ConvId) :
    (s.converters[c].state = .held → t.converters[c] = s.converters[c])
      ∧ (s.converters[c].state ≠ .held → t.converters[c] = s.converters[c].checked (checkJob s .engineControl)) := by
  have harb : Arbitrated p t := ht ▸ finish_arbitrated p
  have hconv : p.converters[c] = (startChecks (startupConverters u) u).converters[c] := by rw [hp, startupChecks_frame]
  have hstart : u.converters[c] = s.converters[c] ∧ checkJob u .engineControl = checkJob s .engineControl := by
    rw [hu]
    exact ⟨rfl, rfl⟩
  have hmem : c ∈ startupConverters u ↔ s.converters[c].state ≠ .held := by rw [mem_startupConverters, hstart.1]
  refine ⟨fun hheld => ?_, fun hfree => ?_⟩
  · have hkept := hconv.trans (startChecks_other fun h => hmem.1 h hheld)
    rw [hstart.1] at hkept
    refine harb.keptConverter hkept ?_
    rw [Converter.free, hheld]
    rfl
  · have hchecked := hconv.trans (startChecks_own (startupConverters_nodup u) (hmem.2 hfree))
    rw [hstart.1, hstart.2] at hchecked
    exact harb.keptConverter hchecked rfl

theorem mem_prepared_startupLeft : c ∈ t.engine.startupLeft ↔ s.converters[c].state ≠ .held := by
  have harb : Arbitrated p t := ht ▸ finish_arbitrated p
  have hleft : p.engine.startupLeft = startupConverters u := by rw [hp, startupChecks_frame]
  have hconv : u.converters[c] = s.converters[c] := by
    rw [hu]
    rfl
  rw [harb.startupLeft, hleft, mem_startupConverters, hconv]

/-- R177: with a converter to check, LOADING goes on. -/
theorem prepared_checking (hl : s.engine.state = .loading) (h : ∃ c : ConvId, s.converters[c].state ≠ .held) :
    t.engine.state = .loading ∧ p.watch.timer = none ∧ t.reports = s.reports ∧ t.lost = s.lost := by
  have harb : Arbitrated p t := ht ▸ finish_arbitrated p
  have hchecks := hp.trans (startupChecks_checking (by rw [hu]; exact h))
  have hstate : p.engine.state = .loading := by rw [hchecks, hu]; exact hl
  refine ⟨by rw [ht, finish_state _ (by rw [hstate]; decide), hstate], ?_, harb.reports.trans ?_, harb.lost.trans ?_⟩
  all_goals
    rw [hchecks, hu]
    rfl

/-- R177, R18, R178: with every converter HELD, the session runs at once. -/
theorem prepared_running (h : ∀ c : ConvId, s.converters[c].state = .held) :
    t.engine.state = .running
      ∧ p.watch.timer = (if b.watchPeriod = 0 then none else some (b.watchPeriod * 32000))
      ∧ t.reports = (if s.reports.length < 8 then s.reports ++ [.noConverter] else s.reports)
      ∧ t.lost = (if s.reports.length < 8 then s.lost else min 65535 (s.lost + 1)) := by
  have harb : Arbitrated p t := ht ▸ finish_arbitrated p
  obtain ⟨-, hchecks⟩ := startupChecks_held (s := u) (by rw [hu]; exact h)
  rw [← hp] at hchecks
  have hstate : p.engine.state = .running := by rw [hchecks]; rfl
  refine ⟨?_, ?_, harb.reports.trans ?_, harb.lost.trans ?_⟩
  · rw [ht, finish_state _ (by rw [hstate]; decide), hstate]
  · have hwatch : p.watch = (s.watch.prepare b.watchPeriod).startTimer := by
      rw [hchecks, enterRunning, modWatch_watch, modEngine_watch, raise_watch, hu]
      rfl
    rw [hwatch]
    rfl
  · rw [hchecks, enterRunning, modWatch_reports, modEngine_reports, raise_reports, hu]
    rfl
  · rw [hchecks, enterRunning, modWatch_lost, modEngine_lost, raise_lost, hu]
    rfl

end

/-- Settles O13: the session that a valid block prepares, which its first arbiters leave as it is. -/
theorem validSetupPreparesSession : Obligations.ValidSetupPreparesSession := by
  intro s k r bytes hr ha hl hlen hcheck b
  obtain ⟨x, hx⟩ : ∃ x, x = { s with setupReads := s.setupReads.eraseIdx k } := ⟨_, rfl⟩
  obtain ⟨u, hu⟩ : ∃ u, u = takenUp b x := ⟨_, rfl⟩
  obtain ⟨p, hp⟩ : ∃ p, p = startupChecks u := ⟨_, rfl⟩
  obtain ⟨t, ht⟩ : ∃ t, t = finish p := ⟨_, rfl⟩
  have heffect : setupReadEnd k (.data bytes) s = t := by
    rw [ht, hp, hu, hx]
    exact setupReadEnd_prepares hr ha hl hlen hcheck
  have harb : Arbitrated p t := ht ▸ finish_arbitrated p
  have hwatch := prepared_watch hu hp ht
  have hconverter := prepared_converter hu hp ht
  have hleft (c : ConvId) := mem_prepared_startupLeft (c := c) hu hp ht
  have hchecking := prepared_checking hu hp ht
  have hrunning := prepared_running hu hp ht
  have hsetup : p.setupReads = s.setupReads.eraseIdx k := by rw [hp, startupChecks_frame, hu, hx]; rfl
  have hring : p.ring = b.ring := by rw [hp, startupChecks_frame, hu]; rfl
  simp only [hx] at hwatch hconverter hleft hchecking hrunning
  refine ⟨t, (exec_eq _ s).trans (congrArg _ heffect), harb.setupReads.trans hsetup, fun q d hq hd => ?_, fun q hq => ?_,
    prepared_lastServed hu hp ht, harb.ring.trans hring, ?_, fun c hc => (hconverter c).2 hc, fun c hc => (hconverter c).1 hc,
    hleft, fun hc => ?_, fun hc => ?_⟩
  · rw [prepared_queue hu hp ht q, descriptor_configured hq hd]
    rfl
  · rw [prepared_queue hu hp ht q, descriptor_unconfigured hq]
    rfl
  · rw [hwatch]
    exact ⟨rfl, rfl, rfl, rfl, rfl, rfl, rfl, rfl⟩
  · rw [hwatch]
    exact hchecking hl hc
  · rw [hwatch]
    exact hrunning hc

end Sys2Proof.Machine
end

section
/-! SUPPORT. FrontCommandRuns: no command writes the queue of commands that wait (log entry 1). The arbiters, the work inside an
event, an admission and the ends of contexts leave it alone by their frames; each command is one of these after writes of
other tables. -/

namespace Sys2Proof.Machine

variable {s : State}

/-! ### The operations that the commands share -/

@[simp] theorem finish_pending (s : State) : (finish s).pending = s.pending := (finish_arbitrated s).pending

@[simp] theorem cutContexts_pending (s : State) : (cutContexts s).pending = s.pending := by
  have hends : EndsOnly s (cutContexts s) := setEndCauses_endsOnly .stopped _ s
  rw [hends]

@[simp] theorem clearCommand_pending (s : State) : (clearCommand s).pending = s.pending := by rw [clearCommand_eq]

@[simp] theorem faultQueue_pending (q : QueueId) (reason : QueueFaultReason) (tail : Nat) (s : State) :
    (faultQueue q reason tail s).pending = s.pending := raise_pending _ _

@[simp] theorem startupChecks_pending (s : State) : (startupChecks s).pending = s.pending := by rw [startupChecks_frame]

@[simp] theorem admitRecord_pending (queue : QueueId) (r : Request) (s : State) :
    (admitRecord queue r s).pending = s.pending := by
  rcases admitRecord_cases queue r s with h | ⟨k, h⟩
  · rw [h]
  · rw [h.frame]

@[simp] theorem admitHeld_pending (queue : QueueId) (s : State) : (admitHeld queue s).pending = s.pending := by
  unfold admitHeld
  split
  · split
    · exact admitRecord_pending _ _ _
    · rfl
  · rfl

/-! ### The Engine Command writes (R173 to R184) -/

theorem startCommand_pending (s : State) : (startCommand s).pending = s.pending := by
  unfold startCommand
  split <;> rfl

theorem stopDrainCommand_pending (s : State) : (stopDrainCommand s).pending = s.pending := by
  unfold stopDrainCommand
  split
  · exact finish_pending _
  all_goals rfl

theorem stopCutCommand_pending (s : State) : (stopCutCommand s).pending = s.pending := by
  unfold stopCutCommand
  split
  · exact (finish_pending _).trans (cutContexts_pending _)
  · split
    · rfl
    · exact (finish_pending _).trans (cutContexts_pending _)
  · exact finish_pending _
  all_goals rfl

theorem engineCommandWrite_pending (word : Reg) (s : State) : (engineCommandWrite word s).pending = s.pending := by
  unfold engineCommandWrite
  split
  · exact startCommand_pending s
  · exact stopDrainCommand_pending s
  · exact stopCutCommand_pending s
  · exact clearCommand_pending s
  · rfl

/-! ### The register writes and the timers (R160, R168, R192, R127) -/

theorem submitWrite_pending (word : Reg) (s : State) : (submitWrite word s).pending = s.pending := by
  unfold submitWrite
  dsimp only
  split
  · rfl
  · split
    · exact (finish_pending _).trans (faultQueue_pending _ _ _ s)
    · exact finish_pending _

theorem releaseWrite_pending (word : Reg) (s : State) : (releaseWrite word s).pending = s.pending := by
  unfold releaseWrite
  dsimp only
  split
  · rfl
  · exact finish_pending _

theorem windowWrite_pending (offset word : Reg) (s : State) : (windowWrite offset word s).pending = s.pending := by
  unfold windowWrite
  split
  · rfl
  · split
    · exact engineCommandWrite_pending word s
    · split
      · exact submitWrite_pending word s
      · split
        · exact releaseWrite_pending word s
        · split <;> rfl

theorem overrunRound_pending (s : State) : (overrunRound s).pending = s.pending := by
  unfold overrunRound
  dsimp only
  split
  · rfl
  · exact raise_pending _ _

theorem periodExpiry_pending (s : State) : (periodExpiry s).pending = s.pending := by
  unfold periodExpiry
  split
  · rfl
  · refine (finish_pending _).trans ?_
    rw [modWatch_pending]
    split
    · exact overrunRound_pending s
    · rfl

theorem coalescingExpiry_pending (s : State) : (coalescingExpiry s).pending = s.pending := by
  unfold coalescingExpiry
  split <;> rfl

/-! ### The ends of bus transactions (R72, R78, R162, R166, R176) -/

theorem endSetup_pending (how : ReadEnd) (s : State) : (endSetup how s).pending = s.pending := by
  unfold endSetup
  split
  · rfl
  · split
    · rfl
    · exact startupChecks_pending _

theorem setupReadEnd_pending (k : Nat) (how : ReadEnd) (s : State) : (setupReadEnd k how s).pending = s.pending := by
  unfold setupReadEnd
  split
  · rfl
  · split
    · dsimp only
      split
      · rfl
      · exact (finish_pending _).trans (endSetup_pending how _)
    · rfl

theorem takeRecord_pending (q : QueueId) (how : ReadEnd) (s : State) : (takeRecord q how s).pending = s.pending := by
  unfold takeRecord
  split
  · unfold arrive
    split
    · rfl
    · exact admitRecord_pending _ _ _
  · exact faultQueue_pending _ _ _ s

theorem fetchOver_pending (r : FetchRead) (s : State) : (fetchOver r s).pending = s.pending := by
  unfold fetchOver
  dsimp only
  split <;> rfl

theorem fetchReadEnd_pending (how : ReadEnd) (s : State) : (fetchReadEnd how s).pending = s.pending := by
  unfold fetchReadEnd
  split
  · rfl
  · split
    · dsimp only
      split
      · exact (finish_pending _).trans ((takeRecord_pending _ how _).trans (fetchOver_pending _ s))
      · exact (finish_pending _).trans (fetchOver_pending _ s)
    · rfl

theorem endListing_pending (k : CtxId) (b : MeasureBody) (how : ReadEnd) (s : State) :
    (endListing k b how s).pending = s.pending := by
  unfold endListing
  split
  · rfl
  · split <;> rfl

theorem listReadEnd_pending (i : Nat) (how : ReadEnd) (s : State) : (listReadEnd i how s).pending = s.pending := by
  unfold listReadEnd
  split
  · rfl
  · split
    · dsimp only
      split
      · rfl
      · split
        · rfl
        · split
          · exact (finish_pending _).trans (endListing_pending _ _ how _)
          · rfl
    · rfl

theorem resultWriteEnd_pending (i : Nat) (how : WriteEnd) (s : State) : (resultWriteEnd i how s).pending = s.pending := by
  unfold resultWriteEnd
  split
  · rfl
  · dsimp only
    split
    · rfl
    · exact finish_pending _

theorem sourceDone_pending (w : RingWrite) (s : State) : (sourceDone w s).pending = s.pending := by
  unfold sourceDone
  split
  · unfold freeContext
    split
    · rfl
    · exact admitHeld_pending _ _
  · rfl

theorem ringWriteEnd_pending (how : WriteEnd) (s : State) : (ringWriteEnd how s).pending = s.pending := by
  unfold ringWriteEnd
  split
  · rfl
  · split
    · exact finish_pending _
    · split
      · exact (finish_pending _).trans (sourceDone_pending _ _)
      · rfl

/-! ### The end of a job (R8) -/

/-- What waits next in the queue is read there (log entry 25), and stays in the queue. -/
theorem dischargeEnd_pending (c : ConvId) (s : State) : (dischargeEnd c s).pending = s.pending := by
  unfold dischargeEnd
  split
  · rename_i j _ _
    calc (finishJobEnd j (releaseConverter c (handOver j s))).pending
        = (releaseConverter c (handOver j s)).pending := (finishJobEnd_arbitrated j _).pending
      _ = (handOver j s).pending := (resolveMark_worked c).pending
      _ = s.pending := (handOver_ownerTold j s).pending
  · rfl

/-! ### Every command -/

theorem commandEffect_pending (i : Instr) (s : State) : (commandEffect i s).pending = s.pending := by
  cases i with
  | deviceReset => rfl
  | start => exact startCommand_pending s
  | stopDrain => exact stopDrainCommand_pending s
  | stopCut => exact stopCutCommand_pending s
  | clear => exact clearCommand_pending s
  | commandRefused word => exact engineCommandWrite_pending word s
  | submitIndex word => exact submitWrite_pending word s
  | releaseIndex word => exact releaseWrite_pending word s
  | interruptControl word => rfl
  | registerWrite offset word => exact windowWrite_pending offset word s
  | setupReadEnd k how => exact setupReadEnd_pending k how s
  | fetchReadEnd how => exact fetchReadEnd_pending how s
  | listReadEnd k how => exact listReadEnd_pending k how s
  | resultWriteEnd k how => exact resultWriteEnd_pending k how s
  | completionRingWriteEnd how => exact ringWriteEnd_pending how s
  | settleEnd c => exact (settleEnd_worked c).pending
  | sampleEnd c outcome => exact (sampleEnd_worked c outcome).pending
  | dischargeEnd c => exact dischargeEnd_pending c s
  | faultEvent c => exact (faultEvent_worked c).pending
  | faultDischargeEnd c => exact (faultDischargeEnd_worked c).pending
  | clearDischargeEnd c => rfl
  | periodTimerExpiry => exact periodExpiry_pending s
  | coalescingTimerExpiry => exact coalescingExpiry_pending s

/-! ### A step (log entry 1) -/

theorem step_front {c : Instr} {rest : List Instr} (h : s.pending = c :: rest) :
    step s = exec c { s with pending := rest } := by
  simp only [step, h]

theorem step_idle (h : s.pending = []) : step s = .next s := by
  simp only [step, h]

/-- Settles O1: the two branches of `step`, and the queue as every command leaves it. -/
theorem frontCommandRuns : Obligations.FrontCommandRuns := by
  refine ⟨fun s c rest => step_front, fun s => step_idle, fun s t c ht => ?_⟩
  rw [exec_eq] at ht
  cases ht
  exact commandEffect_pending c s

end Sys2Proof.Machine
end
